-- ==== Sys2Proof/Word.lean ====
section
/-! DEFINITION. The word types of the Herique H7 and nothing else: bit-field helpers, byte order and the numeric formats
stand in Sys2Proof/Machine/, where a later sitting may mend them. -/
namespace Sys2Proof

/-- A 32-bit register or instruction word (R7, R61, R88). -/
abbrev Word := BitVec 32

/-- A 64-bit value: a register pair, a lane mask of up to 64 lanes, a system register (R7, R27, R74). -/
abbrev DWord := BitVec 64

/-- A byte of memory or of a typed buffer. -/
abbrev Byte := BitVec 8

/-- A 7-bit register number, as the d, a and b fields of format R hold it (Table 3-13). -/
abbrev RegNo := BitVec 7

/-- A K register number, 0 to 7 (R61). -/
abbrev KNo := BitVec 3

end Sys2Proof
end

