-- ==== Sys2Proof/Machine/Bits.lean ====
section
/-! DEFINITION. Bit fields, sign extension, byte order and the sorted association lists in which registers, buffers and
memory are held (R6, R7). -/
namespace Sys2Proof.Machine

/-- Bits hi down to lo of a natural number (R6). -/
def bitsOf (x hi lo : Nat) : Nat := (x >>> lo) % 2 ^ (hi + 1 - lo)

/-- A field of a 32-bit word as a number. -/
def fieldOf (w : BitVec 32) (hi lo : Nat) : Nat := bitsOf w.toNat hi lo

/-- A field of a 64-bit value as a number. -/
def field64 (w : BitVec 64) (hi lo : Nat) : Nat := bitsOf w.toNat hi lo

/-- Two's-complement reading of the low n bits of x. -/
def signedOf (x n : Nat) : Int :=
  let y := x % 2 ^ n
  if 2 * y < 2 ^ n then (y : Int) else (y : Int) - (2 ^ n : Nat)

/-- The low n bits of an integer, as a natural number. -/
def wrapTo (x : Int) (n : Nat) : Nat := (x % ((2 ^ n : Nat) : Int)).toNat

/-- Two words as a 64-bit value, the first one low (R7). -/
def pairOf (lo hi : BitVec 32) : BitVec 64 := hi ++ lo

/-- The low and the high word of a 64-bit value (R7). -/
def loWord (x : BitVec 64) : BitVec 32 := x.setWidth 32
def hiWord (x : BitVec 64) : BitVec 32 := (x >>> 32).setWidth 32

/-- n bytes of a number, the lowest first (R7). -/
def bytesOf : Nat → Nat → List (BitVec 8)
  | 0, _ => []
  | n + 1, x => BitVec.ofNat 8 x :: bytesOf n (x / 256)

/-- The number that bytes hold, the lowest first (R7). -/
def ofBytes : List (BitVec 8) → Nat
  | [] => 0
  | b :: bs => b.toNat + 256 * ofBytes bs

/-- Number of bits set among bits 0 to n - 1 of x. -/
def countBits (x : Nat) : Nat → Nat
  | 0 => 0
  | n + 1 => countBits x n + (if x.testBit n then 1 else 0)

/-- Ceiling division. -/
def ceilDiv (a b : Nat) : Nat := (a + b - 1) / b

/-- x rounded up to a multiple of m. -/
def roundUp (x m : Nat) : Nat := ceilDiv x m * m

/-- The lowest set bit among bits 0 to n - 1 (`n` when there is none), counting from bit i. -/
def lowestBit (x : Nat) : Nat → Nat → Nat
  | 0, i => i
  | f + 1, i => if x.testBit i then i else lowestBit x f (i + 1)

/-- The numbers lo, lo + 1, … (n of them). -/
def span : Nat → Nat → List Nat
  | _, 0 => []
  | lo, n + 1 => lo :: span (lo + 1) n

/-- Sum of a list of naturals. -/
def sumNat (l : List Nat) : Nat := l.foldl (· + ·) 0

/-- Replace the element at an index (no change when the index is beyond the list). -/
def setAt {α : Type} : List α → Nat → α → List α
  | [], _, _ => []
  | _ :: xs, 0, y => y :: xs
  | x :: xs, n + 1, y => x :: setAt xs n y

/-! ### Association lists, keys strictly rising -/

/-- The value listed at key k. -/
def alook {α : Type} : List (Nat × α) → Nat → Option α
  | [], _ => none
  | (j, v) :: m, k => if j == k then some v else alook m k

/-- The list with key k holding v, keys kept in rising order. -/
def aput {α : Type} : List (Nat × α) → Nat → α → List (Nat × α)
  | [], k, v => [(k, v)]
  | (j, u) :: m, k, v =>
    if k < j then (k, v) :: (j, u) :: m
    else if j == k then (k, v) :: m
    else (j, u) :: aput m k v

/-- The list without key k. -/
def adel {α : Type} (m : List (Nat × α)) (k : Nat) : List (Nat × α) := m.filter (fun e => e.1 != k)

/-- Keys strictly rising: the order part of the canonical form. -/
def asorted {α : Type} : List (Nat × α) → Bool
  | [] => true
  | [_] => true
  | (j, _) :: (k, w) :: m => decide (j < k) && asorted ((k, w) :: m)

/-! ### Sparse tables: what is not listed reads as the table's rest value -/

/-- The value at key k; an unlisted key reads as `z`. -/
def sget {α : Type} (z : α) (m : List (Nat × α)) (k : Nat) : α := (alook m k).getD z

/-- The table with key k holding v; writing the rest value removes the entry. -/
def sput {α : Type} [DecidableEq α] (z : α) (m : List (Nat × α)) (k : Nat) (v : α) : List (Nat × α) :=
  if v = z then adel m k else aput m k v

/-- No entry equals the rest value: the other part of the canonical form. -/
def slean {α : Type} [DecidableEq α] (z : α) (m : List (Nat × α)) : Bool := m.all (fun e => decide (e.2 ≠ z))

/-- The canonical form of a sparse table. -/
def swf {α : Type} [DecidableEq α] (z : α) (m : List (Nat × α)) : Bool := asorted m && slean z m

/-- Write a list of values at rising keys from k. -/
def sputAll {α : Type} [DecidableEq α] (z : α) (m : List (Nat × α)) : Nat → List α → List (Nat × α)
  | _, [] => m
  | k, v :: vs => sputAll z (sput z m k v) (k + 1) vs

/-- Read n values at rising keys from k. -/
def sgetAll {α : Type} (z : α) (m : List (Nat × α)) (k : Nat) : Nat → List α
  | 0 => []
  | n + 1 => sget z m k :: sgetAll z m (k + 1) n

/-- The table with every key from k to k + n - 1 at its rest value. -/
def sclear {α : Type} (m : List (Nat × α)) (k n : Nat) : List (Nat × α) :=
  m.filter (fun e => decide (e.1 < k ∨ k + n ≤ e.1))

end Sys2Proof.Machine
end

