-- ==== Sys2Proof/Syntax.lean ====
section
/-! DEFINITION. The steps of the Herique H7: one constructor of `Instr` per row of spec/opcode_table.json. The rows with an
encoding are the instructions that a group issues; the others are the events of the device's other agents (engines,
memory homes, checkers, front ends, firmware, Beret, the host), and their operands name the agent and the data. -/
namespace Sys2Proof

/-- Element types (Table 3-4); the reserved codes have no constructor. -/
inductive ElemType where
  | i32 | i16 | i8 | n32 | n16 | n8 | fp32 | fp16 | bf16 | e4m3 | e5m2 | e2m1 | tf32 | tf16 | tf8
  deriving DecidableEq, Repr

/-- Group sizes named by W (Table 3-14): single, pair, quad, octet. -/
inductive WSize where
  | w1 | w2 | w4 | w8
  deriving DecidableEq, Repr

/-- SCMP conditions (Table 4-3). -/
inductive SCond where
  | eq | ne | lt | ltu
  deriving DecidableEq, Repr

/-- VCMP conditions (Table 4-3). -/
inductive VCond where
  | eq | ne | lt | le
  deriving DecidableEq, Repr

/-- VRED and VSCAN operations (Table 4-3). -/
inductive RedOp where
  | add | min | max | or
  deriving DecidableEq, Repr

/-- Ordering of an atomic (Table 4-3). -/
inductive AtomOrd where
  | relaxed | acq | rel | acqrel
  deriving DecidableEq, Repr

/-- Scopes (R5, Table 0-3). -/
inductive Scope where
  | group | team | cluster | device | system
  deriving DecidableEq, Repr

/-- Native block formats (R116), in the order of the BX code (Table 4-4). -/
inductive BxFmt where
  | bx8 | bx6 | bx4 | bx2
  deriving DecidableEq, Repr

/-- DRAIN paths (Table 4-4). -/
inductive DrainPath where
  | wb | ab | cb | mem
  deriving DecidableEq, Repr

/-- The memory operation that REMOTE_ATOMIC performs at a home (R178, R202): one line of a group's pending ATOM or
ATOMS, or one element of a CPYRED copy (R147). -/
inductive AtomSrc where
  | groupOp (team group seq line : Nat)
  | copyElem (core slot position : Nat)
  deriving DecidableEq, Repr

/-- A Bassoon record as it arrives at a home (Table 10-3). -/
structure BassoonRec where
  hend : BitVec 32
  hstart : BitVec 32
  line : BitVec 23
  hold : BitVec 12
  dur : BitVec 18
  endlo : BitVec 8
  home : Bool
  writer : Bool
  forced : Bool
  deriving DecidableEq, Repr

/-- An agent that asks for a line, and the partition on whose behalf it asks (R183). -/
structure Requester where
  agent : Nat
  part : Nat
  deriving DecidableEq, Repr

/-- An ATS invalidation message: the partition whose PASID it carries (R335), and whether the host refuses the pages from then on. -/
structure AtsMessage where
  part : Nat
  refuse : Bool
  deriving DecidableEq, Repr

/-- A region of a home's directory, by its lowest line (R182). -/
structure HomeRegion where
  home : Nat
  base : Nat
  deriving DecidableEq, Repr

/-- The way of a Bassoon record: the home that it arrives at, and the agent that sent it (R229). -/
structure RecordPath where
  home : Nat
  agent : Nat
  deriving DecidableEq, Repr

/-- Who awaits a value in memory: a group in CWAIT (R294), or a queue at a WAIT packet (R285). -/
inductive WaitAt where
  | group (team group : Nat)
  | queue (part queue : Nat)
  deriving DecidableEq, Repr

/-- Management-path writes to a register that has no row of its own (R315), and R238's clearing of a quarantine. -/
inductive MgmtWrite where
  | queueEntry (part queue : Nat) (words : List Word)
  | tvbase (part : Nat) (v : DWord)
  | ftpool (part : Nat) (v : DWord)
  | chkmode (part : Nat) (v : Word)
  | pageRoot (part : Nat) (pa : DWord)
  | saveArea (part : Nat) (va pa : DWord)
  | reportRing (part : Nat) (base : DWord) (size : Nat) (writeIndexAddr : DWord)
  | poolWindow (base size : Nat) (coherent : Bool) (port : Option Nat)
  | clearQuarantine (line : Nat)
  | policyRejClear (part : Nat)
  | policyWord (part index : Nat) (w : Word)
  | retryLimit (part n : Nat)
  | owner (part function : Nat)
  deriving DecidableEq, Repr

/-- One set of sensor readings (Table 15-8), in the table's units. -/
structure Readings where
  junction : List Nat
  xdieJunction : List Nat
  hbm : List Nat
  power : Nat
  rails : List Nat
  deriving DecidableEq, Repr

/-- The controller of an image slot (R324); `config` is the configuration record's flash slot (R331). -/
inductive Controller where
  | fw | beret | config
  deriving DecidableEq, Repr

/-- The steps. `e` is the boundary bit B where the row leaves it free (bit 31). -/
inductive Instr where
  -- scalar (R381 to R383)
  | sadd (e : Bool) (d a b : RegNo)
  | ssub (e : Bool) (d a b : RegNo)
  | smul (e : Bool) (d a b : RegNo)
  | smulh (e : Bool) (d a b : RegNo)
  | sand (e : Bool) (d a b : RegNo)
  | sor (e : Bool) (d a b : RegNo)
  | sxor (e : Bool) (d a b : RegNo)
  | sshl (e : Bool) (d a b : RegNo)
  | sshr (e : Bool) (d a b : RegNo)
  | ssra (e : Bool) (d a b : RegNo)
  | smin (e : Bool) (d a b : RegNo)
  | smax (e : Bool) (d a b : RegNo)
  | scmp (e : Bool) (c : SCond) (d : KNo) (a b : RegNo)
  | ssel (e : Bool) (d a b : RegNo)
  | smov (e : Bool) (w : WSize) (d a : RegNo)
  | smovQdst (e : Bool) (a : RegNo)
  | smovQsend (e : Bool) (a : RegNo)
  | smovQrecv (e : Bool) (d : RegNo)
  | saddi (e : Bool) (d : RegNo) (i : BitVec 14)
  | sandi (e : Bool) (d : RegNo) (i : BitVec 14)
  | sori (e : Bool) (d : RegNo) (i : BitVec 14)
  | sshli (e : Bool) (d : RegNo) (i : BitVec 5)
  | sli (e : Bool) (d : RegNo) (i : BitVec 16)
  | slih (e : Bool) (d : RegNo) (i : BitVec 16)
  -- vector class (R390 to R413)
  | vadd (e : Bool) (d a b : RegNo)
  | vsub (e : Bool) (d a b : RegNo)
  | vmul (e : Bool) (d a b : RegNo)
  | vfma (e : Bool) (d a b : RegNo)
  | vmin (e : Bool) (d a b : RegNo)
  | vmax (e : Bool) (d a b : RegNo)
  | vabs (e : Bool) (d a : RegNo)
  | vneg (e : Bool) (d a : RegNo)
  | vand (e : Bool) (d a b : RegNo)
  | vor (e : Bool) (d a b : RegNo)
  | vxor (e : Bool) (d a b : RegNo)
  | vshl (e : Bool) (d a b : RegNo)
  | vshr (e : Bool) (d a b : RegNo)
  | vsra (e : Bool) (d a b : RegNo)
  | vmulh (e : Bool) (d a b : RegNo)
  | vclz (e : Bool) (d a : RegNo)
  | vpopc (e : Bool) (d a : RegNo)
  | vcmp (e : Bool) (c : VCond) (d : KNo) (a b : RegNo)
  | vsel (e : Bool) (d a b : RegNo)
  | vmov (e : Bool) (w : WSize) (d a : RegNo)
  | vbcast (e : Bool) (d a : RegNo)
  | vcvt (e : Bool) (d a : RegNo) (t : ElemType)
  | vrcp (e : Bool) (d a : RegNo)
  | vrsq (e : Bool) (d a : RegNo)
  | vsqrt (e : Bool) (d a : RegNo)
  | vexp2 (e : Bool) (d a : RegNo)
  | vlog2 (e : Bool) (d a : RegNo)
  | vtanh (e : Bool) (d a : RegNo)
  | vshfl (e : Bool) (d a b : RegNo)
  | vbfly (e : Bool) (d a b : RegNo)
  | vred (e : Bool) (o : RedOp) (d a : RegNo)
  | vscan (e : Bool) (o : RedOp) (d a : RegNo)
  | vvote (e : Bool) (d : KNo) (a : RegNo)
  | velect (e : Bool) (d : RegNo)
  | vquant (e : Bool) (d a : RegNo) (x : BxFmt)
  | vdeq (e : Bool) (d a : RegNo) (t : ElemType)
  | vclass (e : Bool) (d a : RegNo)
  -- masks and mode (R356, R357, R362)
  | kand (e : Bool) (d a b : KNo)
  | kor (e : Bool) (d a b : KNo)
  | kxor (e : Bool) (d a b : KNo)
  | knot (e : Bool) (d a : KNo)
  | kmovK (e : Bool) (d a : KNo)
  | kmovFromS (e : Bool) (d : KNo) (a : RegNo)
  | kmovToS (e : Bool) (d : RegNo) (a : KNo)
  | mode (e : Bool) (i : BitVec 16)
  | modes (e : Bool) (a : RegNo)
  -- memory (R358 to R360, R385 to R387)
  | ld (e : Bool) (w : WSize) (d a b : RegNo)
  | ldacq (e : Bool) (w : WSize) (d a b : RegNo)
  | st (e : Bool) (w : WSize) (d a b : RegNo)
  | strel (e : Bool) (w : WSize) (d a b : RegNo)
  | lds (e : Bool) (w : WSize) (d a b : RegNo)
  | sts (e : Bool) (w : WSize) (d a b : RegNo)
  | ldb (e : Bool) (w : WSize) (d a b : RegNo)
  | stb (e : Bool) (w : WSize) (d a b : RegNo)
  -- atomics (R340 to R344)
  | atomAdd (e : Bool) (c : AtomOrd) (d a b : RegNo)
  | atomMin (e : Bool) (c : AtomOrd) (d a b : RegNo)
  | atomMax (e : Bool) (c : AtomOrd) (d a b : RegNo)
  | atomAnd (e : Bool) (c : AtomOrd) (d a b : RegNo)
  | atomOr (e : Bool) (c : AtomOrd) (d a b : RegNo)
  | atomXor (e : Bool) (c : AtomOrd) (d a b : RegNo)
  | atomXchg (e : Bool) (c : AtomOrd) (d a b : RegNo)
  | atomCas (e : Bool) (c : AtomOrd) (d a b : RegNo)
  | atomsAdd (e : Bool) (c : AtomOrd) (d a b : RegNo)
  | atomsMin (e : Bool) (c : AtomOrd) (d a b : RegNo)
  | atomsMax (e : Bool) (c : AtomOrd) (d a b : RegNo)
  | atomsAnd (e : Bool) (c : AtomOrd) (d a b : RegNo)
  | atomsOr (e : Bool) (c : AtomOrd) (d a b : RegNo)
  | atomsXor (e : Bool) (c : AtomOrd) (d a b : RegNo)
  | atomsXchg (e : Bool) (c : AtomOrd) (d a b : RegNo)
  | atomsCas (e : Bool) (c : AtomOrd) (d a b : RegNo)
  | pref (e : Bool) (a b : RegNo)
  -- copies (R140 to R151)
  | cpy (e : Bool) (d : RegNo) (p : BitVec 8)
  | cpyg (e : Bool) (d : RegNo) (p : BitVec 8)
  | cpyred (e : Bool) (d : RegNo) (p : BitVec 8)
  -- tile operations (R156 to R166)
  | tmmaPair (e : Bool) (d a b : RegNo)
  | tmmaQuad (e : Bool) (d a b : RegNo)
  | tzero (e : Bool) (d : RegNo)
  | tstat (e : Bool) (d a : RegNo)
  | trd (e : Bool) (w : WSize) (d a b : RegNo)
  | twr (e : Bool) (w : WSize) (d a b : RegNo)
  | tcvt (e : Bool) (d a b : RegNo)
  | tquant (e : Bool) (d a b : RegNo)
  -- control (R348 to R350, R354, R368, R370, R373 to R377)
  | bru (o : BitVec 16)
  | brk (neg : Bool) (k : KNo) (o : BitVec 19)
  | pushr (e : Bool) (o : BitVec 19)
  | popr
  | call (d : RegNo) (o : BitVec 16)
  | ret (a : RegNo)
  | exit
  | rep (stepB stepA stepD : Bool) (n : BitVec 6)
  -- synchronisation (R345, R346, R353, R355, R378 to R380, R414)
  | bararv (e : Bool) (n : BitVec 4)
  | barwait (n : BitVec 4)
  | ringput (e : Bool) (g : BitVec 4) (r : BitVec 3)
  | ringget (g : BitVec 4) (r : BitVec 3)
  | wait (ld st : BitVec 5) (cp : BitVec 6) (tm : BitVec 4)
  | drain (p : DrainPath)
  | fence (e : Bool) (c : Scope)
  | fencesc
  -- system and launch (R291, R294, R347, R363 to R367, R371, R396, R398, R416)
  | nop (e : Bool)
  | trap (c : BitVec 14)
  | bkpt (c : BitVec 14)
  | spawn (a : RegNo)
  | cwait (a b : RegNo)
  | rdsys (e : Bool) (w : WSize) (d : RegNo) (n : BitVec 10)
  | wrsys (e : Bool) (w : WSize) (d : RegNo) (n : BitVec 10)
  | pgmapPool (e : Bool) (d a : RegNo)
  | pgmapMap (e : Bool) (d a : RegNo)
  | tinv (e : Bool) (a : RegNo)
  | csload (e : Bool) (a b : RegNo)
  | csbind (e : Bool) (q n : BitVec 4)
  | xop (e : Bool) (n : BitVec 4) (w : WSize) (d a b : RegNo)
  -- events of time, memory system and checkers
  | tick
  | tickWrap
  | releaseComplete (id : Nat)
  | piccoloReplay (core : Nat)
  | coherenceRequest (who : Requester) (line : Nat) (write : Bool)
  | regionMerge (region : HomeRegion)
  | probe (core part line : Nat)
  | backInvalidationSnoop (line : Nat) (invalidate : Bool)
  | writeVisible (team group seq line : Nat)
  | loadComplete (team group seq line : Nat)
  | remoteAtomic (src : AtomSrc)
  | xfaultFire (team group seq : Nat)
  | bassoonRecord (path : RecordPath) (r : BassoonRec)
  | lostTimeout (home line : Nat)
  | sweeperForceClose (line : Nat)
  | retentionSleepEntry
  | retentionWake
  -- events of engines, messages, traps and teams
  | copyComplete (core slot : Nat)
  | copyFault (core slot : Nat)
  | tileOpComplete (core : Nat)
  | operandFetchFault (core : Nat) (uncorrectable : Bool)
  | flitDelivery (team group : Nat)
  | clusterResetNotice (die cluster : Nat)
  | impreciseTrapDelivery (team group : Nat)
  | teamDeadlockTrap (team : Nat)
  | loadStallYield (team group : Nat)
  | teamRetire (team : Nat)
  -- front end and policy
  | doorbellWrite (part queue : Nat) (index : DWord)
  | nopPacket (part queue : Nat)
  | waitPacket (part queue : Nat)
  | launchPacket (part queue : Nat)
  | waitValueReread (w : WaitAt)
  | pendingEntryTake (team : Nat)
  | dispatch (die part : Nat)
  | preempt (die part : Nat)
  | faultDecision (team : Nat)
  | decisionOverrun (die part : Nat)
  | preemptSave (team : Nat)
  | preemptDeadlineExpiry (team : Nat)
  | wakeCondition (team : Nat)
  | firmwareRelease (team : Nat) (act : BitVec 2)
  | shootdown (id agent : Nat)
  | tinvAck (id agent : Nat)
  | atsInvalidation (msg : AtsMessage) (page pages : Nat)
  | priResponse (team : Nat) (success : Bool)
  | reportDoorbell (part : Nat) (index : DWord)
  -- firmware and Beret
  | healthWrite (core : Nat)
  | healthLapse (core : Nat)
  | leaseRenewal (writer : Nat) (value : DWord)
  | leaseTakeover (writer : Nat) (value : DWord)
  | leaseExpiry
  | leaseRestore
  | managementWrite (writer epoch : Nat) (w : MgmtWrite)
  | plimWrite (writer epoch part core : Nat) (v : DWord)
  | wayMaskWrite (writer epoch slice : Nat) (v : Word)
  | wayFlush (writer epoch slice : Nat) (ways : BitVec 16)
  | wayFlushComplete (slice : Nat)
  | policyLoad (writer epoch part : Nat)
  | policyVerifyEnd (part : Nat)
  | policySwap (writer epoch part : Nat)
  | rung1 (part queue : Nat)
  | rung2 (die : Nat)
  | rung3 (part : Nat)
  | rung4 (die : Nat)
  | rung5
  | rung6
  | rungTimeout
  | powerOn
  | perst
  | pfFlr
  | vfFlr (vf : Nat)
  | linkDown (die other : Nat)
  | status (fn : Nat)
  | writeimg (fn : Nat) (c : Controller) (offset : Nat) (chunk : List Byte)
  | verify (fn : Nat) (c : Controller)
  | activate (fn : Nat) (c : Controller)
  | reset (fn rung target sub : Nat)
  | sensors (fn : Nat)
  | readlog (fn start : Nat)
  | attest (fn : Nat) (nonce : List Byte)
  | powerlim (fn watts : Nat)
  | qparam (fn part queue quota deadline weight : Nat)
  | policy (fn part : Nat) (image : List Word) (swap : Bool)
  | debug (fn core : Nat) (halt : Bool)
  | unknownCommand (fn code : Nat)
  | blobInstall (ok : Bool)
  | pauseTimerExpiry (die : Nat)
  | updateWatchdogExpiry
  | sensorSample (r : Readings)
  -- words that are not instructions, fetch faults, hardware errors
  | illegalInstruction (w : Word)
  | illegalEncoding (w : Word)
  | fetchFault
  | firmwareCoreWatchdog (core : Nat)
  | frontEndHardwareError (die : Nat)
  | dieStructureUncorrectableError (die : Nat)
  | beretFault
  | powerLoss
  deriving DecidableEq, Repr

end Sys2Proof
end

