-- ==== Sys2Proof/Machine/Encoding.lean ====
section
/-! DEFINITION. Check 2 of R92 as it bears on an instruction word's own fields (Table 3-15): alignment of register groups,
S124 to S127, K fields, immediates and codes. A word that fails it raises the illegal-encoding trap. -/
namespace Sys2Proof.Machine

/-- Registers that W names (Table 3-14). -/
def wsizeN : WSize → Nat
  | .w1 => 1 | .w2 => 2 | .w4 => 4 | .w8 => 8

/-- W of Table 3-14 as a number. -/
def wsizeCode : WSize → Nat
  | .w1 => 0 | .w2 => 1 | .w4 => 2 | .w8 => 3

/-- Type codes (Table 3-4). -/
def typeCode : ElemType → Nat
  | .i32 => 0 | .i16 => 1 | .i8 => 2 | .n32 => 3 | .n16 => 4 | .n8 => 5 | .fp32 => 8 | .fp16 => 9 | .bf16 => 10
  | .e4m3 => 11 | .e5m2 => 12 | .e2m1 => 13 | .tf32 => 16 | .tf16 => 17 | .tf8 => 18

/-- The type of a code; none for a reserved code (Table 3-4). -/
def typeOfCode : Nat → Option ElemType
  | 0 => some .i32 | 1 => some .i16 | 2 => some .i8 | 3 => some .n32 | 4 => some .n16 | 5 => some .n8
  | 8 => some .fp32 | 9 => some .fp16 | 10 => some .bf16 | 11 => some .e4m3 | 12 => some .e5m2 | 13 => some .e2m1
  | 16 => some .tf32 | 17 => some .tf16 | 18 => some .tf8 | _ => none

/-- Scope codes (Table 3-3); 101 to 111 are not allowed. -/
def scopeCode : Scope → Nat
  | .group => 0 | .team => 1 | .cluster => 2 | .device => 3 | .system => 4

def scopeOfCode : Nat → Option Scope
  | 0 => some .group | 1 => some .team | 2 => some .cluster | 3 => some .device | 4 => some .system | _ => none

/-- A value that GMR may hold (Table 3-3, R73). -/
def gmrOk (g : Word) : Bool :=
  fieldOf g 31 16 == 0 && (scopeOfCode (fieldOf g 15 13)).isSome && (typeOfCode (fieldOf g 9 5)).isSome
    && (g.getLsbD 3 || (fieldOf g 4 4 == 0 && fieldOf g 2 0 == 0))

/-- One ordinary S register: not a message port (R64). -/
def okS (r : RegNo) : Bool := decide (r.toNat < 124)

/-- An aligned S group of n registers with no member in S124 to S127 (R64, R91, R96). -/
def okSGroup (r : RegNo) (align n : Nat) : Bool := r.toNat % align == 0 && decide (r.toNat + n ≤ 124)

/-- An aligned V group (R91). -/
def okVGroup (r : RegNo) (n : Nat) : Bool := r.toNat % n == 0

/-- A post specification in an instruction word (R99). -/
def okPost (p : BitVec 8) : Bool := p.getLsbD 7 || p == 0

/-- Width in words of a system register, in W's terms (Table 3-5); none for an unassigned number (R74). -/
def sysWidth (n : Nat) : Option WSize :=
  if n ≤ 4 ∨ n = 6 ∨ n = 7 ∨ n = 0x10 ∨ n = 0x14 ∨ n = 0x15 then some .w1
  else if n = 5 ∨ n = 0x12 ∨ n = 0x13 ∨ (0x20 ≤ n ∧ n ≤ 0x27) then some .w2
  else if n = 0x11 then some .w8
  else none

/-- Check 2 of R92 for the fields of an instruction: true when the word may exist. RDSYS of an unassigned number passes it and is
refused after the checks of R92 (R372); WRSYS of one fails it (R417). -/
def encodable : Instr → Bool
  | .sadd _ d a b | .ssub _ d a b | .smul _ d a b | .smulh _ d a b | .sand _ d a b | .sor _ d a b | .sxor _ d a b
  | .sshl _ d a b | .sshr _ d a b | .ssra _ d a b | .smin _ d a b | .smax _ d a b | .ssel _ d a b => okS d && okS a && okS b
  | .scmp _ _ _ a b => okS a && okS b
  | .smov _ w d a =>
    (okSGroup d (wsizeN w) (wsizeN w) && okSGroup a (wsizeN w) (wsizeN w))
      || (w == .w1 && okS d && (a == 124 || a == 127))
  | .smovQdst _ a => okS a
  | .smovQsend _ a => okSGroup a 4 4
  | .smovQrecv _ d => okSGroup d 4 4
  | .saddi _ d _ | .sandi _ d _ | .sori _ d _ => okS d
  | .sshli _ d _ => okS d
  | .sli _ d _ | .slih _ d _ => okS d
  | .vmov _ w d a => okVGroup d (wsizeN w) && okVGroup a (wsizeN w)
  | .vbcast _ _ a => okS a
  | .vbfly _ _ _ b => okS b
  | .vred _ _ d _ => okS d
  | .velect _ d => okS d
  | .vquant _ d _ _ => okVGroup d 2
  | .vdeq _ _ a _ => okVGroup a 2
  | .kmovFromS _ _ a => okSGroup a 2 2
  | .kmovToS _ d _ => okSGroup d 2 2
  | .mode _ i => gmrOk (i.setWidth 32)
  | .modes _ a => okS a
  | .ld _ w d a _ | .ldacq _ w d a _ | .st _ w d a _ | .strel _ w d a _ | .ldb _ w d a _ | .stb _ w d a _ =>
    okVGroup d (wsizeN w) && okSGroup a 8 8
  | .lds _ w d a b | .sts _ w d a b => okSGroup d (wsizeN w) (wsizeN w) && okSGroup a 8 8 && okS b
  | .atomAdd _ _ _ a _ | .atomMin _ _ _ a _ | .atomMax _ _ _ a _ | .atomAnd _ _ _ a _ | .atomOr _ _ _ a _
  | .atomXor _ _ _ a _ | .atomXchg _ _ _ a _ => okSGroup a 8 8
  | .atomCas _ _ d a _ => okVGroup d 2 && okSGroup a 8 8
  | .atomsAdd _ _ d a b | .atomsMin _ _ d a b | .atomsMax _ _ d a b | .atomsAnd _ _ d a b | .atomsOr _ _ d a b
  | .atomsXor _ _ d a b | .atomsXchg _ _ d a b => okS d && okSGroup a 8 8 && okS b
  | .atomsCas _ _ d a b => okSGroup d 2 2 && okSGroup a 8 8 && okS b
  | .pref _ a _ => okSGroup a 8 8
  | .cpy _ d p | .cpyg _ d p | .cpyred _ d p => okSGroup d 8 24 && okPost p
  | .tmmaPair _ d a _ => okS d && okSGroup a 2 2
  | .tmmaQuad _ d a _ => okS d && okSGroup a 4 4
  | .tzero _ d => okS d
  | .tstat _ d a => okVGroup d 4 && okS a
  | .trd _ w d a b | .twr _ w d a b => okVGroup d (wsizeN w) && okS a && okS b
  | .tcvt _ d a b | .tquant _ d a b => okS d && okS a && okS b
  | .call d _ => okSGroup d 2 2
  | .ret a => okSGroup a 2 2
  | .spawn a => okSGroup a 8 16
  | .cwait a b => okSGroup a 2 2 && okS b
  | .rdsys _ w d n =>
    (match sysWidth n.toNat with | some v => v == w | none => w != .w4) && (n == 0 || okSGroup d (wsizeN w) (wsizeN w))
  | .wrsys _ w d n => sysWidth n.toNat == some w && okSGroup d (wsizeN w) (wsizeN w)
  | .pgmapPool _ d a | .pgmapMap _ d a => okSGroup d 2 2 && okSGroup a 4 4
  | .tinv _ a => okSGroup a 4 4
  | .csload _ a b => okSGroup a 2 2 && okS b
  | _ => true

end Sys2Proof.Machine
end

