-- ==== Sys2Proof/WellFormed.lean ====
section
/-! DEFINITION. Which terms of `Instr` are instructions: those that pass check 2 of R92. -/
namespace Sys2Proof

/-- The instruction's fields pass check 2 of R92 (Table 3-15). Events have no word and no such check. -/
def Instr.wf (i : Instr) : Bool := Machine.encodable i

end Sys2Proof
end

