-- ==== Sys2Proof/Decode.lean ====
section
/-! DEFINITION. Decoding, total on any word, and the encoder, both from Tables 3-13, 4-2, 4-3 and 4-4 (R88 to R99). -/
namespace Sys2Proof
open Machine

/-! ### Fields of a word (Table 3-13), the word read as a natural number -/

def fE (n : Nat) : Bool := n.testBit 31
def fOp (n : Nat) : Nat := n / 2 ^ 23 % 256
def fW (n : Nat) : Nat := n / 2 ^ 21 % 4
def nD (n : Nat) : Nat := n / 2 ^ 14 % 128
def nA (n : Nat) : Nat := n / 2 ^ 7 % 128
def nB (n : Nat) : Nat := n % 128
def nI (n : Nat) : Nat := n % 2 ^ 14
def nU (n : Nat) : Nat := n / 2 ^ 16 % 128
def nKsel (n : Nat) : Nat := n / 2 ^ 19 % 8
def fD (n : Nat) : RegNo := BitVec.ofNat 7 (nD n)
def fA (n : Nat) : RegNo := BitVec.ofNat 7 (nA n)
def fB (n : Nat) : RegNo := BitVec.ofNat 7 (nB n)
def fU (n : Nat) : RegNo := BitVec.ofNat 7 (nU n)
def fK (n : Nat) : KNo := BitVec.ofNat 3 n
def fKsel (n : Nat) : KNo := BitVec.ofNat 3 (nKsel n)
def fNeg (n : Nat) : Bool := n.testBit 22
def fI14 (n : Nat) : BitVec 14 := BitVec.ofNat 14 (nI n)
def fI16 (n : Nat) : BitVec 16 := BitVec.ofNat 16 (n % 2 ^ 16)
def fO19 (n : Nat) : BitVec 19 := BitVec.ofNat 19 (n % 2 ^ 19)

/-- The W selector (Table 3-14). -/
def fWs (n : Nat) : WSize := match fW n with | 0 => .w1 | 1 => .w2 | 2 => .w4 | _ => .w8
/-- The C selectors (Table 4-3). -/
def fOrd (n : Nat) : AtomOrd := match fW n with | 0 => .relaxed | 1 => .acq | 2 => .rel | _ => .acqrel
def fSCond (n : Nat) : SCond := match fW n with | 0 => .eq | 1 => .ne | 2 => .lt | _ => .ltu
def fVCond (n : Nat) : VCond := match fW n with | 0 => .eq | 1 => .ne | 2 => .lt | _ => .le
def fRedOp (n : Nat) : RedOp := match fW n with | 0 => .add | 1 => .min | 2 => .max | _ => .or
/-- BX codes and DRAIN paths (Table 4-4). -/
def bxOfCode (n : Nat) : BxFmt := match n with | 0 => .bx8 | 1 => .bx6 | 2 => .bx4 | _ => .bx2
def pathOfCode (n : Nat) : DrainPath := match n with | 0 => .wb | 1 => .ab | 2 => .cb | _ => .mem

def ordCode : AtomOrd → Nat | .relaxed => 0 | .acq => 1 | .rel => 2 | .acqrel => 3
def scondCode : SCond → Nat | .eq => 0 | .ne => 1 | .lt => 2 | .ltu => 3
def vcondCode : VCond → Nat | .eq => 0 | .ne => 1 | .lt => 2 | .le => 3
def redCode : RedOp → Nat | .add => 0 | .min => 1 | .max => 2 | .or => 3
def bxCode : BxFmt → Nat | .bx8 => 0 | .bx6 => 1 | .bx4 => 2 | .bx2 => 3
def pathCode : DrainPath → Nat | .wb => 0 | .ab => 1 | .cb => 2 | .mem => 3

/-- An instruction when its reserved fields are as they must be (R9, R88). -/
def need (c : Prop) [Decidable c] (i : Instr) : Option Instr := if c then some i else none

/-- SMOV and its message-port forms (Table 3-2, R383). -/
def decodeSmov (n : Nat) : Option Instr :=
  if nB n ≠ 0 then none
  else if nD n = 124 ∧ fW n = 0 then some (.smovQdst (fE n) (fA n))
  else if nD n = 125 ∧ fW n = 2 then some (.smovQsend (fE n) (fA n))
  else if nA n = 126 ∧ fW n = 2 then some (.smovQrecv (fE n) (fD n))
  else some (.smov (fE n) (fWs n) (fD n) (fA n))

/-- KMOV by its C selector (Table 4-3, R356); 11 is not allowed. -/
def decodeKmov (n : Nat) : Option Instr :=
  match fW n with
  | 0 => need (nD n < 8 ∧ nA n < 8 ∧ nB n = 0) (.kmovK (fE n) (fK (nD n)) (fK (nA n)))
  | 1 => need (nD n < 8 ∧ nB n = 0) (.kmovFromS (fE n) (fK (nD n)) (fA n))
  | 2 => need (nA n < 8 ∧ nB n = 0) (.kmovToS (fE n) (fD n) (fK (nA n)))
  | _ => none

/-- TMMA with W = 01 or 10 (Table 7-2). -/
def decodeTmma (n : Nat) : Option Instr :=
  match fW n with
  | 1 => some (.tmmaPair (fE n) (fD n) (fA n) (fB n))
  | 2 => some (.tmmaQuad (fE n) (fD n) (fA n) (fB n))
  | _ => none

/-- PGMAP by its C selector (Table 4-3). -/
def decodePgmap (n : Nat) : Option Instr :=
  match fW n with
  | 0 => need (nB n = 0) (.pgmapPool (fE n) (fD n) (fA n))
  | 1 => need (nB n = 0) (.pgmapMap (fE n) (fD n) (fA n))
  | _ => none

/-- What a word is (R92): an instruction, or a word that check 1 or check 2 refuses. -/
inductive Decoded where
  | instr (i : Instr)
  | illegalInstruction
  | illegalEncoding
  deriving DecidableEq, Repr

/-- Check 1 of R92: the opcode is assigned (Table 4-2). -/
def opAssigned (op : Nat) : Bool :=
  (1 ≤ op && op ≤ 0x13) || op == 0x18 || op == 0x19 || (0x40 ≤ op && op ≤ 0x46) || (0x47 ≤ op && op ≤ 0x55)
    || (0x60 ≤ op && op ≤ 0x65) || (0x70 ≤ op && op ≤ 0x75) || (0x80 ≤ op && op ≤ 0x82) || (0x90 ≤ op && op ≤ 0x94)
    || op == 0x98 || op == 0x99 || (0xA0 ≤ op && op ≤ 0xB8) || (0xBC ≤ op && op ≤ 0xBE) || (0xC0 ≤ op && op ≤ 0xC6)
    || (0xD0 ≤ op && op ≤ 0xE2) || op == 0xE4 || op == 0xE5 || (0xE8 ≤ op && op ≤ 0xED) || (0xF0 ≤ op && op ≤ 255)

/-- The fields of a word whose opcode is assigned, reserved fields checked (Table 4-2). -/
def decodeFields (n : Nat) : Option Instr :=
  match fOp n with
  | 0x01 => need (fW n = 0) (.sadd (fE n) (fD n) (fA n) (fB n))
  | 0x02 => need (fW n = 0) (.ssub (fE n) (fD n) (fA n) (fB n))
  | 0x03 => need (fW n = 0) (.smul (fE n) (fD n) (fA n) (fB n))
  | 0x04 => need (fW n = 0) (.smulh (fE n) (fD n) (fA n) (fB n))
  | 0x05 => need (fW n = 0) (.sand (fE n) (fD n) (fA n) (fB n))
  | 0x06 => need (fW n = 0) (.sor (fE n) (fD n) (fA n) (fB n))
  | 0x07 => need (fW n = 0) (.sxor (fE n) (fD n) (fA n) (fB n))
  | 0x08 => need (fW n = 0) (.sshl (fE n) (fD n) (fA n) (fB n))
  | 0x09 => need (fW n = 0) (.sshr (fE n) (fD n) (fA n) (fB n))
  | 0x0A => need (fW n = 0) (.ssra (fE n) (fD n) (fA n) (fB n))
  | 0x0B => need (fW n = 0) (.smin (fE n) (fD n) (fA n) (fB n))
  | 0x0C => need (fW n = 0) (.smax (fE n) (fD n) (fA n) (fB n))
  | 0x0D => need (nD n < 8) (.scmp (fE n) (fSCond n) (fK (nD n)) (fA n) (fB n))
  | 0x0E => need (fW n = 0) (.ssel (fE n) (fD n) (fA n) (fB n))
  | 0x0F => decodeSmov n
  | 0x10 => need (fW n = 0) (.saddi (fE n) (fD n) (fI14 n))
  | 0x11 => need (fW n = 0) (.sandi (fE n) (fD n) (fI14 n))
  | 0x12 => need (fW n = 0) (.sori (fE n) (fD n) (fI14 n))
  | 0x13 => need (fW n = 0 ∧ nI n < 32) (.sshli (fE n) (fD n) (BitVec.ofNat 5 (nI n)))
  | 0x18 => some (.sli (fE n) (fU n) (fI16 n))
  | 0x19 => some (.slih (fE n) (fU n) (fI16 n))
  | 0x40 => need (fW n = 0) (.vadd (fE n) (fD n) (fA n) (fB n))
  | 0x41 => need (fW n = 0) (.vsub (fE n) (fD n) (fA n) (fB n))
  | 0x42 => need (fW n = 0) (.vmul (fE n) (fD n) (fA n) (fB n))
  | 0x43 => need (fW n = 0) (.vfma (fE n) (fD n) (fA n) (fB n))
  | 0x44 => need (fW n = 0) (.vmin (fE n) (fD n) (fA n) (fB n))
  | 0x45 => need (fW n = 0) (.vmax (fE n) (fD n) (fA n) (fB n))
  | 0x46 => need (fW n = 0 ∧ nB n = 0) (.vabs (fE n) (fD n) (fA n))
  | 0x47 => need (fW n = 0 ∧ nB n = 0) (.vneg (fE n) (fD n) (fA n))
  | 0x48 => need (fW n = 0) (.vand (fE n) (fD n) (fA n) (fB n))
  | 0x49 => need (fW n = 0) (.vor (fE n) (fD n) (fA n) (fB n))
  | 0x4A => need (fW n = 0) (.vxor (fE n) (fD n) (fA n) (fB n))
  | 0x4B => need (fW n = 0) (.vshl (fE n) (fD n) (fA n) (fB n))
  | 0x4C => need (fW n = 0) (.vshr (fE n) (fD n) (fA n) (fB n))
  | 0x4D => need (fW n = 0) (.vsra (fE n) (fD n) (fA n) (fB n))
  | 0x4E => need (fW n = 0) (.vmulh (fE n) (fD n) (fA n) (fB n))
  | 0x4F => need (fW n = 0 ∧ nB n = 0) (.vclz (fE n) (fD n) (fA n))
  | 0x50 => need (fW n = 0 ∧ nB n = 0) (.vpopc (fE n) (fD n) (fA n))
  | 0x51 => need (nD n < 8) (.vcmp (fE n) (fVCond n) (fK (nD n)) (fA n) (fB n))
  | 0x52 => need (fW n = 0) (.vsel (fE n) (fD n) (fA n) (fB n))
  | 0x53 => need (nB n = 0) (.vmov (fE n) (fWs n) (fD n) (fA n))
  | 0x54 => need (fW n = 0 ∧ nB n = 0) (.vbcast (fE n) (fD n) (fA n))
  | 0x55 => if fW n = 0 then (typeOfCode (nB n)).map (.vcvt (fE n) (fD n) (fA n)) else none
  | 0x60 => need (fW n = 0 ∧ nB n = 0) (.vrcp (fE n) (fD n) (fA n))
  | 0x61 => need (fW n = 0 ∧ nB n = 0) (.vrsq (fE n) (fD n) (fA n))
  | 0x62 => need (fW n = 0 ∧ nB n = 0) (.vsqrt (fE n) (fD n) (fA n))
  | 0x63 => need (fW n = 0 ∧ nB n = 0) (.vexp2 (fE n) (fD n) (fA n))
  | 0x64 => need (fW n = 0 ∧ nB n = 0) (.vlog2 (fE n) (fD n) (fA n))
  | 0x65 => need (fW n = 0 ∧ nB n = 0) (.vtanh (fE n) (fD n) (fA n))
  | 0x70 => need (fW n = 0) (.vshfl (fE n) (fD n) (fA n) (fB n))
  | 0x71 => need (fW n = 0) (.vbfly (fE n) (fD n) (fA n) (fB n))
  | 0x72 => need (nB n = 0) (.vred (fE n) (fRedOp n) (fD n) (fA n))
  | 0x73 => need (nB n = 0) (.vscan (fE n) (fRedOp n) (fD n) (fA n))
  | 0x74 => need (fW n = 0 ∧ nD n < 8 ∧ nB n = 0) (.vvote (fE n) (fK (nD n)) (fA n))
  | 0x75 => need (fW n = 0 ∧ nA n = 0 ∧ nB n = 0) (.velect (fE n) (fD n))
  | 0x80 => need (fW n = 1 ∧ nB n < 4) (.vquant (fE n) (fD n) (fA n) (bxOfCode (nB n)))
  | 0x81 => if fW n = 1 then (typeOfCode (nB n)).map (.vdeq (fE n) (fD n) (fA n)) else none
  | 0x82 => need (fW n = 0 ∧ nB n = 0) (.vclass (fE n) (fD n) (fA n))
  | 0x90 => need (fW n = 0 ∧ nD n < 8 ∧ nA n < 8 ∧ nB n < 8) (.kand (fE n) (fK (nD n)) (fK (nA n)) (fK (nB n)))
  | 0x91 => need (fW n = 0 ∧ nD n < 8 ∧ nA n < 8 ∧ nB n < 8) (.kor (fE n) (fK (nD n)) (fK (nA n)) (fK (nB n)))
  | 0x92 => need (fW n = 0 ∧ nD n < 8 ∧ nA n < 8 ∧ nB n < 8) (.kxor (fE n) (fK (nD n)) (fK (nA n)) (fK (nB n)))
  | 0x93 => need (fW n = 0 ∧ nD n < 8 ∧ nA n < 8 ∧ nB n = 0) (.knot (fE n) (fK (nD n)) (fK (nA n)))
  | 0x94 => decodeKmov n
  | 0x98 => need (nU n = 0) (.mode (fE n) (fI16 n))
  | 0x99 => need (fW n = 0 ∧ nD n = 0 ∧ nB n = 0) (.modes (fE n) (fA n))
  | 0xA0 => some (.ld (fE n) (fWs n) (fD n) (fA n) (fB n))
  | 0xA1 => some (.ldacq (fE n) (fWs n) (fD n) (fA n) (fB n))
  | 0xA2 => some (.st (fE n) (fWs n) (fD n) (fA n) (fB n))
  | 0xA3 => some (.strel (fE n) (fWs n) (fD n) (fA n) (fB n))
  | 0xA4 => some (.lds (fE n) (fWs n) (fD n) (fA n) (fB n))
  | 0xA5 => some (.sts (fE n) (fWs n) (fD n) (fA n) (fB n))
  | 0xA6 => some (.ldb (fE n) (fWs n) (fD n) (fA n) (fB n))
  | 0xA7 => some (.stb (fE n) (fWs n) (fD n) (fA n) (fB n))
  | 0xA8 => some (.atomAdd (fE n) (fOrd n) (fD n) (fA n) (fB n))
  | 0xA9 => some (.atomMin (fE n) (fOrd n) (fD n) (fA n) (fB n))
  | 0xAA => some (.atomMax (fE n) (fOrd n) (fD n) (fA n) (fB n))
  | 0xAB => some (.atomAnd (fE n) (fOrd n) (fD n) (fA n) (fB n))
  | 0xAC => some (.atomOr (fE n) (fOrd n) (fD n) (fA n) (fB n))
  | 0xAD => some (.atomXor (fE n) (fOrd n) (fD n) (fA n) (fB n))
  | 0xAE => some (.atomXchg (fE n) (fOrd n) (fD n) (fA n) (fB n))
  | 0xAF => some (.atomCas (fE n) (fOrd n) (fD n) (fA n) (fB n))
  | 0xB0 => some (.atomsAdd (fE n) (fOrd n) (fD n) (fA n) (fB n))
  | 0xB1 => some (.atomsMin (fE n) (fOrd n) (fD n) (fA n) (fB n))
  | 0xB2 => some (.atomsMax (fE n) (fOrd n) (fD n) (fA n) (fB n))
  | 0xB3 => some (.atomsAnd (fE n) (fOrd n) (fD n) (fA n) (fB n))
  | 0xB4 => some (.atomsOr (fE n) (fOrd n) (fD n) (fA n) (fB n))
  | 0xB5 => some (.atomsXor (fE n) (fOrd n) (fD n) (fA n) (fB n))
  | 0xB6 => some (.atomsXchg (fE n) (fOrd n) (fD n) (fA n) (fB n))
  | 0xB7 => some (.atomsCas (fE n) (fOrd n) (fD n) (fA n) (fB n))
  | 0xB8 => need (fW n = 0 ∧ nD n = 0) (.pref (fE n) (fA n) (fB n))
  | 0xBC => need (fW n = 0 ∧ nI n < 256) (.cpy (fE n) (fD n) (BitVec.ofNat 8 (nI n)))
  | 0xBD => need (fW n = 0 ∧ nI n < 256) (.cpyg (fE n) (fD n) (BitVec.ofNat 8 (nI n)))
  | 0xBE => need (fW n = 0 ∧ nI n < 256) (.cpyred (fE n) (fD n) (BitVec.ofNat 8 (nI n)))
  | 0xC0 => decodeTmma n
  | 0xC1 => need (fW n = 0 ∧ nA n = 0 ∧ nB n = 0) (.tzero (fE n) (fD n))
  | 0xC2 => need (fW n = 2 ∧ nB n = 0) (.tstat (fE n) (fD n) (fA n))
  | 0xC3 => some (.trd (fE n) (fWs n) (fD n) (fA n) (fB n))
  | 0xC4 => some (.twr (fE n) (fWs n) (fD n) (fA n) (fB n))
  | 0xC5 => need (fW n = 0) (.tcvt (fE n) (fD n) (fA n) (fB n))
  | 0xC6 => need (fW n = 0) (.tquant (fE n) (fD n) (fA n) (fB n))
  | 0xD0 => need (fE n = true ∧ nU n = 0) (.bru (fI16 n))
  | 0xD1 => need (fE n = true) (.brk (fNeg n) (fKsel n) (fO19 n))
  | 0xD2 => need (fNeg n = false ∧ nKsel n = 0) (.pushr (fE n) (fO19 n))
  | 0xD3 => need (fE n = true ∧ n % 2 ^ 23 = 0) .popr
  | 0xD4 => need (fE n = true) (.call (fU n) (fI16 n))
  | 0xD5 => need (fE n = true ∧ fW n = 0 ∧ nD n = 0 ∧ nB n = 0) (.ret (fA n))
  | 0xD6 => need (fE n = true ∧ n % 2 ^ 23 = 0) .exit
  | 0xD7 => need (fE n = true ∧ fW n = 0 ∧ nD n = 0 ∧ nI n < 512) (.rep (n.testBit 8) (n.testBit 7) (n.testBit 6) (BitVec.ofNat 6 (nI n % 64)))
  | 0xD8 => need (fW n = 0 ∧ nD n = 0 ∧ nI n < 16) (.bararv (fE n) (BitVec.ofNat 4 (nI n)))
  | 0xD9 => need (fE n = true ∧ fW n = 0 ∧ nD n = 0 ∧ nI n < 16) (.barwait (BitVec.ofNat 4 (nI n)))
  | 0xDA => need (fW n = 0 ∧ nD n = 0 ∧ nI n < 128) (.ringput (fE n) (BitVec.ofNat 4 (nI n / 8)) (BitVec.ofNat 3 (nI n % 8)))
  | 0xDB => need (fE n = true ∧ fW n = 0 ∧ nD n = 0 ∧ nI n < 128) (.ringget (BitVec.ofNat 4 (nI n / 8)) (BitVec.ofNat 3 (nI n % 8)))
  | 0xDC => need (fE n = true ∧ n % 8 = 0) (.wait (BitVec.ofNat 5 (n / 2 ^ 18 % 32)) (BitVec.ofNat 5 (n / 2 ^ 13 % 32)) (BitVec.ofNat 6 (n / 2 ^ 7 % 64)) (BitVec.ofNat 4 (n / 2 ^ 3 % 16)))
  | 0xDD => need (fE n = true ∧ fW n = 0 ∧ nD n = 0 ∧ nI n < 4) (.drain (pathOfCode (nI n)))
  | 0xDE => if fW n = 0 ∧ nD n = 0 then (scopeOfCode (nI n)).map (.fence (fE n)) else none
  | 0xDF => need (fE n = true ∧ n % 2 ^ 23 = 0) .fencesc
  | 0xE0 => need (n % 2 ^ 23 = 0) (.nop (fE n))
  | 0xE1 => need (fE n = true ∧ fW n = 0 ∧ nD n = 0) (.trap (fI14 n))
  | 0xE2 => need (fE n = true ∧ fW n = 0 ∧ nD n = 0) (.bkpt (fI14 n))
  | 0xE4 => need (fE n = true ∧ fW n = 0 ∧ nD n = 0 ∧ nB n = 0) (.spawn (fA n))
  | 0xE5 => need (fE n = true ∧ fW n = 0 ∧ nD n = 0) (.cwait (fA n) (fB n))
  | 0xE8 => need (nI n < 1024) (.rdsys (fE n) (fWs n) (fD n) (BitVec.ofNat 10 (nI n)))
  | 0xE9 => need (nI n < 1024) (.wrsys (fE n) (fWs n) (fD n) (BitVec.ofNat 10 (nI n)))
  | 0xEA => decodePgmap n
  | 0xEB => need (fW n = 0 ∧ nD n = 0 ∧ nB n = 0) (.tinv (fE n) (fA n))
  | 0xEC => need (fW n = 0 ∧ nD n = 0) (.csload (fE n) (fA n) (fB n))
  | 0xED => need (fW n = 0 ∧ nD n = 0 ∧ nI n < 256) (.csbind (fE n) (BitVec.ofNat 4 (nI n / 16)) (BitVec.ofNat 4 (nI n % 16)))
  | op =>
    if 0xF0 ≤ op then some (.xop (fE n) (BitVec.ofNat 4 (op - 0xF0)) (fWs n) (fD n) (fA n) (fB n))
    else none

/-- The meaning of a word as R92's checks 1 and 2 decide it: total, rejecting by name. -/
def decode (w : Word) : Decoded :=
  if opAssigned (fOp w.toNat) then
    match decodeFields w.toNat with
    | some i => if i.wf then .instr i else .illegalEncoding
    | none => .illegalEncoding
  else .illegalInstruction

/-! ### The encoder (Table 3-13) -/

def packR (e : Bool) (op w d a b : Nat) : Word :=
  BitVec.ofNat 32 (e.toNat * 2 ^ 31 + op * 2 ^ 23 + w * 2 ^ 21 + d * 2 ^ 14 + a * 2 ^ 7 + b)
def packI (e : Bool) (op w d i : Nat) : Word :=
  BitVec.ofNat 32 (e.toNat * 2 ^ 31 + op * 2 ^ 23 + w * 2 ^ 21 + d * 2 ^ 14 + i)
def packU (e : Bool) (op d i : Nat) : Word :=
  BitVec.ofNat 32 (e.toNat * 2 ^ 31 + op * 2 ^ 23 + d * 2 ^ 16 + i)
def packK (e : Bool) (op : Nat) (neg : Bool) (k o : Nat) : Word :=
  BitVec.ofNat 32 (e.toNat * 2 ^ 31 + op * 2 ^ 23 + neg.toNat * 2 ^ 22 + k * 2 ^ 19 + o)
def packY (e : Bool) (op l s c t : Nat) : Word :=
  BitVec.ofNat 32 (e.toNat * 2 ^ 31 + op * 2 ^ 23 + l * 2 ^ 18 + s * 2 ^ 13 + c * 2 ^ 7 + t * 2 ^ 3)

/-- The word of an instruction; an event has none. -/
def encode : Instr → Option Word
  | .sadd e d a b => some (packR e 0x01 0 d.toNat a.toNat b.toNat)
  | .ssub e d a b => some (packR e 0x02 0 d.toNat a.toNat b.toNat)
  | .smul e d a b => some (packR e 0x03 0 d.toNat a.toNat b.toNat)
  | .smulh e d a b => some (packR e 0x04 0 d.toNat a.toNat b.toNat)
  | .sand e d a b => some (packR e 0x05 0 d.toNat a.toNat b.toNat)
  | .sor e d a b => some (packR e 0x06 0 d.toNat a.toNat b.toNat)
  | .sxor e d a b => some (packR e 0x07 0 d.toNat a.toNat b.toNat)
  | .sshl e d a b => some (packR e 0x08 0 d.toNat a.toNat b.toNat)
  | .sshr e d a b => some (packR e 0x09 0 d.toNat a.toNat b.toNat)
  | .ssra e d a b => some (packR e 0x0A 0 d.toNat a.toNat b.toNat)
  | .smin e d a b => some (packR e 0x0B 0 d.toNat a.toNat b.toNat)
  | .smax e d a b => some (packR e 0x0C 0 d.toNat a.toNat b.toNat)
  | .ssel e d a b => some (packR e 0x0E 0 d.toNat a.toNat b.toNat)
  | .vadd e d a b => some (packR e 0x40 0 d.toNat a.toNat b.toNat)
  | .vsub e d a b => some (packR e 0x41 0 d.toNat a.toNat b.toNat)
  | .vmul e d a b => some (packR e 0x42 0 d.toNat a.toNat b.toNat)
  | .vfma e d a b => some (packR e 0x43 0 d.toNat a.toNat b.toNat)
  | .vmin e d a b => some (packR e 0x44 0 d.toNat a.toNat b.toNat)
  | .vmax e d a b => some (packR e 0x45 0 d.toNat a.toNat b.toNat)
  | .vand e d a b => some (packR e 0x48 0 d.toNat a.toNat b.toNat)
  | .vor e d a b => some (packR e 0x49 0 d.toNat a.toNat b.toNat)
  | .vxor e d a b => some (packR e 0x4A 0 d.toNat a.toNat b.toNat)
  | .vshl e d a b => some (packR e 0x4B 0 d.toNat a.toNat b.toNat)
  | .vshr e d a b => some (packR e 0x4C 0 d.toNat a.toNat b.toNat)
  | .vsra e d a b => some (packR e 0x4D 0 d.toNat a.toNat b.toNat)
  | .vmulh e d a b => some (packR e 0x4E 0 d.toNat a.toNat b.toNat)
  | .vsel e d a b => some (packR e 0x52 0 d.toNat a.toNat b.toNat)
  | .vshfl e d a b => some (packR e 0x70 0 d.toNat a.toNat b.toNat)
  | .vbfly e d a b => some (packR e 0x71 0 d.toNat a.toNat b.toNat)
  | .tcvt e d a b => some (packR e 0xC5 0 d.toNat a.toNat b.toNat)
  | .tquant e d a b => some (packR e 0xC6 0 d.toNat a.toNat b.toNat)
  | .vabs e d a => some (packR e 0x46 0 d.toNat a.toNat 0)
  | .vneg e d a => some (packR e 0x47 0 d.toNat a.toNat 0)
  | .vclz e d a => some (packR e 0x4F 0 d.toNat a.toNat 0)
  | .vpopc e d a => some (packR e 0x50 0 d.toNat a.toNat 0)
  | .vrcp e d a => some (packR e 0x60 0 d.toNat a.toNat 0)
  | .vrsq e d a => some (packR e 0x61 0 d.toNat a.toNat 0)
  | .vsqrt e d a => some (packR e 0x62 0 d.toNat a.toNat 0)
  | .vexp2 e d a => some (packR e 0x63 0 d.toNat a.toNat 0)
  | .vlog2 e d a => some (packR e 0x64 0 d.toNat a.toNat 0)
  | .vtanh e d a => some (packR e 0x65 0 d.toNat a.toNat 0)
  | .vclass e d a => some (packR e 0x82 0 d.toNat a.toNat 0)
  | .vbcast e d a => some (packR e 0x54 0 d.toNat a.toNat 0)
  | .ld e w d a b => some (packR e 0xA0 (wsizeCode w) d.toNat a.toNat b.toNat)
  | .ldacq e w d a b => some (packR e 0xA1 (wsizeCode w) d.toNat a.toNat b.toNat)
  | .st e w d a b => some (packR e 0xA2 (wsizeCode w) d.toNat a.toNat b.toNat)
  | .strel e w d a b => some (packR e 0xA3 (wsizeCode w) d.toNat a.toNat b.toNat)
  | .lds e w d a b => some (packR e 0xA4 (wsizeCode w) d.toNat a.toNat b.toNat)
  | .sts e w d a b => some (packR e 0xA5 (wsizeCode w) d.toNat a.toNat b.toNat)
  | .ldb e w d a b => some (packR e 0xA6 (wsizeCode w) d.toNat a.toNat b.toNat)
  | .stb e w d a b => some (packR e 0xA7 (wsizeCode w) d.toNat a.toNat b.toNat)
  | .trd e w d a b => some (packR e 0xC3 (wsizeCode w) d.toNat a.toNat b.toNat)
  | .twr e w d a b => some (packR e 0xC4 (wsizeCode w) d.toNat a.toNat b.toNat)
  | .atomAdd e c d a b => some (packR e 0xA8 (ordCode c) d.toNat a.toNat b.toNat)
  | .atomsAdd e c d a b => some (packR e 0xB0 (ordCode c) d.toNat a.toNat b.toNat)
  | .atomMin e c d a b => some (packR e 0xA9 (ordCode c) d.toNat a.toNat b.toNat)
  | .atomsMin e c d a b => some (packR e 0xB1 (ordCode c) d.toNat a.toNat b.toNat)
  | .atomMax e c d a b => some (packR e 0xAA (ordCode c) d.toNat a.toNat b.toNat)
  | .atomsMax e c d a b => some (packR e 0xB2 (ordCode c) d.toNat a.toNat b.toNat)
  | .atomAnd e c d a b => some (packR e 0xAB (ordCode c) d.toNat a.toNat b.toNat)
  | .atomsAnd e c d a b => some (packR e 0xB3 (ordCode c) d.toNat a.toNat b.toNat)
  | .atomOr e c d a b => some (packR e 0xAC (ordCode c) d.toNat a.toNat b.toNat)
  | .atomsOr e c d a b => some (packR e 0xB4 (ordCode c) d.toNat a.toNat b.toNat)
  | .atomXor e c d a b => some (packR e 0xAD (ordCode c) d.toNat a.toNat b.toNat)
  | .atomsXor e c d a b => some (packR e 0xB5 (ordCode c) d.toNat a.toNat b.toNat)
  | .atomXchg e c d a b => some (packR e 0xAE (ordCode c) d.toNat a.toNat b.toNat)
  | .atomsXchg e c d a b => some (packR e 0xB6 (ordCode c) d.toNat a.toNat b.toNat)
  | .atomCas e c d a b => some (packR e 0xAF (ordCode c) d.toNat a.toNat b.toNat)
  | .atomsCas e c d a b => some (packR e 0xB7 (ordCode c) d.toNat a.toNat b.toNat)
  | .scmp e c d a b => some (packR e 0x0D (scondCode c) d.toNat a.toNat b.toNat)
  | .smov e w d a => some (packR e 0x0F (wsizeCode w) d.toNat a.toNat 0)
  | .smovQdst e a => some (packR e 0x0F 0 124 a.toNat 0)
  | .smovQsend e a => some (packR e 0x0F 2 125 a.toNat 0)
  | .smovQrecv e d => some (packR e 0x0F 2 d.toNat 126 0)
  | .saddi e d i => some (packI e 0x10 0 d.toNat i.toNat)
  | .sandi e d i => some (packI e 0x11 0 d.toNat i.toNat)
  | .sori e d i => some (packI e 0x12 0 d.toNat i.toNat)
  | .sshli e d i => some (packI e 0x13 0 d.toNat i.toNat)
  | .sli e d i => some (packU e 0x18 d.toNat i.toNat)
  | .slih e d i => some (packU e 0x19 d.toNat i.toNat)
  | .vcmp e c d a b => some (packR e 0x51 (vcondCode c) d.toNat a.toNat b.toNat)
  | .vmov e w d a => some (packR e 0x53 (wsizeCode w) d.toNat a.toNat 0)
  | .vcvt e d a t => some (packR e 0x55 0 d.toNat a.toNat (typeCode t))
  | .vred e o d a => some (packR e 0x72 (redCode o) d.toNat a.toNat 0)
  | .vscan e o d a => some (packR e 0x73 (redCode o) d.toNat a.toNat 0)
  | .vvote e d a => some (packR e 0x74 0 d.toNat a.toNat 0)
  | .velect e d => some (packR e 0x75 0 d.toNat 0 0)
  | .vquant e d a x => some (packR e 0x80 1 d.toNat a.toNat (bxCode x))
  | .vdeq e d a t => some (packR e 0x81 1 d.toNat a.toNat (typeCode t))
  | .kand e d a b => some (packR e 0x90 0 d.toNat a.toNat b.toNat)
  | .kor e d a b => some (packR e 0x91 0 d.toNat a.toNat b.toNat)
  | .kxor e d a b => some (packR e 0x92 0 d.toNat a.toNat b.toNat)
  | .knot e d a => some (packR e 0x93 0 d.toNat a.toNat 0)
  | .kmovK e d a => some (packR e 0x94 0 d.toNat a.toNat 0)
  | .kmovFromS e d a => some (packR e 0x94 1 d.toNat a.toNat 0)
  | .kmovToS e d a => some (packR e 0x94 2 d.toNat a.toNat 0)
  | .mode e i => some (packU e 0x98 0 i.toNat)
  | .modes e a => some (packR e 0x99 0 0 a.toNat 0)
  | .pref e a b => some (packR e 0xB8 0 0 a.toNat b.toNat)
  | .cpy e d p => some (packI e 0xBC 0 d.toNat p.toNat)
  | .cpyg e d p => some (packI e 0xBD 0 d.toNat p.toNat)
  | .cpyred e d p => some (packI e 0xBE 0 d.toNat p.toNat)
  | .tmmaPair e d a b => some (packR e 0xC0 1 d.toNat a.toNat b.toNat)
  | .tmmaQuad e d a b => some (packR e 0xC0 2 d.toNat a.toNat b.toNat)
  | .tzero e d => some (packR e 0xC1 0 d.toNat 0 0)
  | .tstat e d a => some (packR e 0xC2 2 d.toNat a.toNat 0)
  | .bru o => some (packU true 0xD0 0 o.toNat)
  | .brk neg k o => some (packK true 0xD1 neg k.toNat o.toNat)
  | .pushr e o => some (packK e 0xD2 false 0 o.toNat)
  | .popr => some (packR true 0xD3 0 0 0 0)
  | .exit => some (packR true 0xD6 0 0 0 0)
  | .fencesc => some (packR true 0xDF 0 0 0 0)
  | .nop e => some (packR e 0xE0 0 0 0 0)
  | .call d o => some (packU true 0xD4 d.toNat o.toNat)
  | .ret a => some (packR true 0xD5 0 0 a.toNat 0)
  | .rep sb sa sd c => some (packI true 0xD7 0 0 (sb.toNat * 256 + sa.toNat * 128 + sd.toNat * 64 + c.toNat))
  | .bararv e c => some (packI e 0xD8 0 0 c.toNat)
  | .barwait c => some (packI true 0xD9 0 0 c.toNat)
  | .ringput e g r => some (packI e 0xDA 0 0 (g.toNat * 8 + r.toNat))
  | .ringget g r => some (packI true 0xDB 0 0 (g.toNat * 8 + r.toNat))
  | .wait l s c t => some (packY true 0xDC l.toNat s.toNat c.toNat t.toNat)
  | .drain p => some (packI true 0xDD 0 0 (pathCode p))
  | .fence e c => some (packI e 0xDE 0 0 (scopeCode c))
  | .trap c => some (packI true 0xE1 0 0 c.toNat)
  | .bkpt c => some (packI true 0xE2 0 0 c.toNat)
  | .spawn a => some (packR true 0xE4 0 0 a.toNat 0)
  | .cwait a b => some (packR true 0xE5 0 0 a.toNat b.toNat)
  | .rdsys e w d c => some (packI e 0xE8 (wsizeCode w) d.toNat c.toNat)
  | .wrsys e w d c => some (packI e 0xE9 (wsizeCode w) d.toNat c.toNat)
  | .pgmapPool e d a => some (packR e 0xEA 0 d.toNat a.toNat 0)
  | .pgmapMap e d a => some (packR e 0xEA 1 d.toNat a.toNat 0)
  | .tinv e a => some (packR e 0xEB 0 0 a.toNat 0)
  | .csload e a b => some (packR e 0xEC 0 0 a.toNat b.toNat)
  | .csbind e q c => some (packI e 0xED 0 0 (q.toNat * 16 + c.toNat))
  | .xop e c w d a b => some (packR e (0xF0 + c.toNat) (wsizeCode w) d.toNat a.toNat b.toNat)
  | _ => none

/-! ### Bytes (R7, R88) -/

/-- Four bytes, the lowest address first, as a word (R7). -/
def wordOfBytes (bs : List Byte) : Word := BitVec.ofNat 32 (ofBytes bs)

/-- A word as the four bytes that memory holds, the lowest address first (R7). -/
def bytesOfWord (w : Word) : List Byte := bytesOf 4 w.toNat

/-- The instruction at the head of a byte list and the bytes after it. -/
def decodeBytes : List Byte → Option (Decoded × List Byte)
  | b0 :: b1 :: b2 :: b3 :: rest => some (decode (wordOfBytes [b0, b1, b2, b3]), rest)
  | _ => none

/-- The instruction that the decoder reads from a word of the opcode table: every instruction is one 32-bit word (R88),
stored little-endian. -/
def decodeTableWord (nbits w : Nat) : Option Instr :=
  if nbits ≤ 32 then
    match decodeBytes (bytesOf 4 (w % 2 ^ nbits)) with
    | some (.instr i, _) => some i
    | _ => none
  else none

end Sys2Proof
end

