-- ==== Sys2Proof/Config.lean ====
section
/-! DEFINITION. What the specification leaves open as a VALUE (free values, opaque: nothing can evaluate them) and the
figures that are fixed for every HQ7-A1536 part. -/
namespace Sys2Proof.Config

/-- A byte of a typed-buffer region that the team has not written and that was not scrubbed (R132: "its contents are
undefined until the team writes them"). First argument: the region's placement number; second: the offset.
Free value; log entry 1. -/
opaque freeByte : Nat → Nat → BitVec 8

/-- Which of the moves that the device offers happens next when the agenda names none (R436: durations are not
architectural). Free value; log entry 2. -/
opaque choice : Nat → Nat

/-- Whether a special function over FP32 or TF32 returns the upper one of the results that Table 18-6 allows.
Arguments: the function's number, the type code, the operand's bits. "A fixed function of the operand's bits" (R405).
Free value; log entry 3. -/
opaque specialPick : Nat → Nat → Nat → Nat

/-- Which window positions a copy had completed when its memory side faulted (R150: elements complete "in no defined
order"). Arguments: a fresh number and the position. Free value; log entry 4. -/
opaque copyDone : Nat → Nat → Bool

/-- Cycles that an event counter counted inside one tick (R87 counts cycles; the model keeps ticks, R436).
Free value; log entry 5. -/
opaque perfCycles : Nat → BitVec 48

/-- SHA3-512 of a byte string (R324, R328, R333): the manual names the function and does not define it.
Free value; log entry 6. -/
opaque sha3 : List (BitVec 8) → BitVec 512

/-- What an image's header holds (R324), of which the manual gives no layout: the controller (0 FW, 1 BERET), the version, the
security version number, the length of the body, the digest. Argument: the slot's bytes. Free values; log entry 6. -/
opaque headerFields : List (Nat × BitVec 8) → Nat × Nat × Nat × Nat × BitVec 512

/-- The body of the image in a slot (R324). Free value; log entry 6. -/
opaque imageBody : List (Nat × BitVec 8) → List (BitVec 8)

/-- Whether the signature in a header checks against Troah's public key (R324). Free value; log entry 6. -/
opaque signatureOk : List (Nat × BitVec 8) → Bool

/-- Whether the bytes of the configuration record's slot check (R21). Free value; log entry 6. -/
opaque recordOk : List (Nat × BitVec 8) → Bool

/-- What the configuration record holds (R21, R26, R324), of which the manual gives no layout: the power limit in watts; the three
temperatures of R334 in quarter degrees; the minimum security version of a controller; the initial settings of the partitioning
controller. Free values; log entry 6. -/
opaque recordPower : List (Nat × BitVec 8) → Nat
opaque recordThermal : List (Nat × BitVec 8) → Nat × Nat × Nat
opaque recordMinimum : List (Nat × BitVec 8) → Nat → Nat
opaque recordSettings : List (Nat × BitVec 8) → List MgmtWrite

/-- The bytes of a section of the hand-over blob (Table 15-6), of which the manual gives no layout: a function of the tables that the
section holds. Arguments: the section's ID, the tables. Free value; log entry 6. -/
opaque sectionBytes {α : Type} : Nat → α → List (BitVec 8)

/-- The settings of the CXL ports and the configuration of the snoop filters, which the blob carries (Table 15-6) and no rule describes.
Free values; log entry 6. -/
opaque portSettings : List (BitVec 8)
opaque snoopSettings : List (BitVec 8)

/-- Whether an image, given by its slot's bytes, supports a major version of the blob (R328, R329). Free value; log entry 6. -/
opaque supports : List (Nat × BitVec 8) → Nat → Bool

/-- Whether the identity key's derivation succeeds at a power-up (R22). Free value; log entry 6. -/
opaque keyDerived : Nat → Bool

/-- Major and minor version of the hand-over blob in use (R328, R333). Free value; log entry 6. -/
opaque blobVersion : BitVec 32

/-- Whether a CXL port can still read a dirty pool line at rung 5 (R321). Arguments: a fresh number, the line.
Free value; log entry 13. -/
opaque portReads : Nat → Nat → Bool

/-- The ML-DSA-87 signature by the device identity key over an attestation report's bytes (R333).
Free value; log entry 6. -/
opaque attestSignature : List (BitVec 8) → List (BitVec 8)

/-- The certified public part of the identity key, from package flash (R333). Free value; log entry 6. -/
opaque identityPublic : List (BitVec 8)

/-- The order in which two elements of one copy land on one destination byte (R145: "it ends holding one of them").
Argument: a fresh number; `true` takes the later window position. Free value; log entry 4. -/
opaque laterElementWins : Nat → Bool

/-- Which line a full set of a cache, or a full pair of snoop filters, gives up: the manual names no rule (R179, R192).
Arguments: the agent, the line that needs room, the tick. Free value; log entry 12. -/
opaque victim : Nat → Nat → Nat → Nat

/-- Where the host has mapped a partition's doorbells, in BAR0 of the function that owns it (R335), for the device's own stores (R283):
a host address, or nowhere. Arguments: the function, the partition. Free value; log entry 72. -/
opaque bar0 : Nat → Nat → Option Nat

/-- Cores in a cluster (R11). -/
def coresPerCluster : Nat := 192

/-- Cores of the part (R1, R15). -/
def coreCount : Nat := 1536

/-- L2 slices of one C-die (Table 1-1). -/
def slicesPerDie : Nat := 160

/-- Group slots, copy slots and on-chip stack entries of a core (R13, R249). -/
def groupSlots : Nat := 64
def copySlots : Nat := 64
def stackOnChip : Nat := 32
def stackSpill : Nat := 1024

/-- Lane-registers of a core's vector register file (R13, R14). -/
def laneRegisters : Nat := 65536

/-- Longest run (R39). -/
def runLength : Nat := 24

/-- Grids of one partition that the front end's grid table holds (R292). -/
def gridTable : Nat := 256

/-- Entries of a team's pending-launch queue (R31). -/
def pendingEntries : Nat := 4

/-- Entries of Piccolo's commit log (R223). -/
def commitLog : Nat := 256

/-- The static bound of a policy program and the cycle limit of a decision (R310, R312). -/
def policyCycles : Nat := 256

/-- The pool lines that the two snoop filters hold together (R192). -/
def poolLines : Nat := 2 ^ 21

/-- Ticks per millisecond, rounded as the manual rounds them (R314: 7,813 ticks are 1 ms). -/
def ticksPerMs : Nat := 7813

end Sys2Proof.Config
end

