-- ==== Sys2Proof/Machine/Num.lean ====
section
/-! DEFINITION. Number formats and arithmetic (05_number_formats.md, R108 to R127): decoding, exact arithmetic, and the
one rounding at the end. -/
namespace Sys2Proof.Machine

/-- Rounding modes (Table 3-3). -/
inductive RMode where
  | rne | rtz | rup | rdn
  deriving DecidableEq, Repr

def rmodeOfCode (n : Nat) : RMode := match n with | 0 => .rne | 1 => .rtz | 2 => .rup | _ => .rdn

/-! ### Flags, one bit each in the order of Table 3-7 -/

abbrev Fl := BitVec 7
def flNX : Fl := 1
def flUF : Fl := 2
def flOF : Fl := 4
def flDZ : Fl := 8
def flNV : Fl := 16
def flSAT : Fl := 32
def flNR : Fl := 64

/-- A magnitude with its sign: (-1)^neg times a real in [m, m + 1) · 2^e, which is m · 2^e exactly unless `sticky`. -/
structure Num where
  neg : Bool
  m : Nat
  e : Int
  sticky : Bool := false
  deriving DecidableEq, Repr

/-- A decoded value (R111, R112, R119). `fin` never holds zero. -/
inductive Val where
  | nan (signalling : Bool)
  | nar
  | inf (neg : Bool)
  | zero (neg : Bool)
  | fin (x : Num)
  deriving DecidableEq, Repr

/-- An exact dyadic integer pair as a value; an exact zero takes the sign given. -/
def valOfInt (i : Int) (e : Int) (zneg : Bool) : Val :=
  if i = 0 then .zero zneg else .fin ⟨decide (i < 0), i.natAbs, e, false⟩

/-- The signed integer of a magnitude scaled by 2^(e - lo), for lo at most e. -/
def numInt (x : Num) (lo : Int) : Int :=
  let v : Int := (x.m <<< (x.e - lo).toNat : Nat)
  if x.neg then -v else v

/-! ### Floating layouts (Table 5-2) -/

/-- What a layout does with its all-ones exponent field. -/
inductive Specials where
  | ieee | nanOnly | none
  deriving DecidableEq, Repr

structure FloatFmt where
  ebits : Nat
  fbits : Nat
  bias : Int
  maxM : Nat
  maxE : Int
  special : Specials
  canonNaN : Nat
  deriving DecidableEq, Repr

def fmtFP32 : FloatFmt := ⟨8, 23, 127, 2 ^ 24 - 1, 104, .ieee, 0x7FC00000⟩
def fmtFP16 : FloatFmt := ⟨5, 10, 15, 2 ^ 11 - 1, 5, .ieee, 0x7E00⟩
def fmtBF16 : FloatFmt := ⟨8, 7, 127, 2 ^ 8 - 1, 120, .ieee, 0x7FC0⟩
def fmtE5M2 : FloatFmt := ⟨5, 2, 15, 7, 13, .ieee, 0x7E⟩
def fmtE4M3 : FloatFmt := ⟨4, 3, 7, 14, 5, .nanOnly, 0x7F⟩
def fmtE2M1 : FloatFmt := ⟨2, 1, 1, 3, 1, .none, 0⟩

/-- Bits of a type's pattern (Table 3-4, R111, R119). -/
def typeBits : ElemType → Nat
  | .i32 | .n32 | .fp32 | .tf32 => 32
  | .i16 | .n16 | .fp16 | .bf16 | .tf16 => 16
  | .i8 | .n8 | .e4m3 | .e5m2 | .tf8 => 8
  | .e2m1 => 4

/-- The kinds of type (R390, Table 18-1). -/
inductive TKind where
  | int (signed : Bool) (n : Nat)
  | flt (f : FloatFmt)
  | tap (n es : Nat)
  deriving DecidableEq, Repr

def kindOf : ElemType → TKind
  | .i32 => .int true 32 | .i16 => .int true 16 | .i8 => .int true 8
  | .n32 => .int false 32 | .n16 => .int false 16 | .n8 => .int false 8
  | .fp32 => .flt fmtFP32 | .fp16 => .flt fmtFP16 | .bf16 => .flt fmtBF16
  | .e4m3 => .flt fmtE4M3 | .e5m2 => .flt fmtE5M2 | .e2m1 => .flt fmtE2M1
  | .tf32 => .tap 32 3 | .tf16 => .tap 16 1 | .tf8 => .tap 8 0

/-- Decode a floating pattern (R111, R112). -/
def decodeFloat (f : FloatFmt) (c : Nat) : Val :=
  let neg := c.testBit (f.ebits + f.fbits)
  let ex := bitsOf c (f.ebits + f.fbits - 1) f.fbits
  let fr := c % 2 ^ f.fbits
  let top := 2 ^ f.ebits - 1
  if f.special = .ieee ∧ ex = top then
    if fr = 0 then .inf neg else .nan (!fr.testBit (f.fbits - 1))
  else if f.special = .nanOnly ∧ ex = top ∧ fr = 2 ^ f.fbits - 1 then .nan false
  else if ex = 0 then
    if fr = 0 then .zero neg else .fin ⟨neg, fr, 1 - f.bias - f.fbits, false⟩
  else .fin ⟨neg, 2 ^ f.fbits + fr, ex - f.bias - f.fbits, false⟩

/-- Length of the run of bits equal to `v` that starts at bit i and goes down (structural on i + 1). -/
def runLen (x : Nat) (v : Bool) : Nat → Nat
  | 0 => 0
  | i + 1 => if x.testBit i = v then runLen x v i + 1 else 0

/-- Decode a tapered pattern of n bits with es exponent bits (R119). -/
def decodeTap (n es c : Nat) : Val :=
  let c := c % 2 ^ n
  if c = 0 then .zero false
  else if c = 2 ^ (n - 1) then .nar
  else
    let neg := c.testBit (n - 1)
    let mag := c % 2 ^ (n - 1)
    let one := mag.testBit (n - 2)
    let r := runLen mag one (n - 1)
    let k : Int := if one then (r : Int) - 1 else -(r : Int)
    let left := n - 1 - r - 1
    let eb := min es left
    let fl := left - eb
    let ex := bitsOf mag (left - 1) fl * 2 ^ (es - eb)
    let ex := if eb = 0 then 0 else ex
    let fr := mag % 2 ^ fl
    .fin ⟨neg, 2 ^ fl + fr, k * (2 ^ es : Nat) + ex - fl, false⟩

/-- Decode the low bits of a register under a type (R62: the high bits are ignored). -/
def decodeVal (t : ElemType) (w : Nat) : Val :=
  let c := w % 2 ^ typeBits t
  match kindOf t with
  | .int s n => valOfInt (if s then signedOf c n else c) 0 false
  | .flt f => decodeFloat f c
  | .tap n es => decodeTap n es c

/-- The V-register form of a pattern (R62): sign-extended for I8 and I16, else zero-extended. -/
def regForm (t : ElemType) (c : Nat) : Word :=
  match kindOf t with
  | .int true n => BitVec.ofInt 32 (signedOf c n)
  | _ => BitVec.ofNat 32 (c % 2 ^ typeBits t)

/-! ### Rounding (R109, R110) -/

/-- Round m (plus a part below one unit when sticky) shifted right by sh, to an integer under a mode; the Bool says
whether the result differs. -/
def roundShift (neg : Bool) (m : Nat) (sh : Nat) (sticky : Bool) (r : RMode) : Nat × Bool :=
  let q := m >>> sh
  let rem := m % 2 ^ sh
  let inexact := rem ≠ 0 ∨ sticky = true
  let up : Bool := match r with
    | .rne => sh ≠ 0 && (decide (2 * rem > 2 ^ sh) || (decide (2 * rem = 2 ^ sh) && (sticky || q.testBit 0)))
    | .rtz => false
    | .rup => !neg && decide inexact
    | .rdn => neg && decide inexact
  (q + up.toNat, decide inexact)

/-- The same for a shift that may be negative. -/
def roundAt (neg : Bool) (m : Nat) (sh : Int) (sticky : Bool) (r : RMode) : Nat × Bool :=
  if sh < 0 then (m <<< (-sh).toNat, sticky) else roundShift neg m sh.toNat sticky r

/-- Compare m · 2^e with m' · 2^e' as natural multiples of the smaller exponent: is the first greater? -/
def magGt (m : Nat) (e : Int) (m' : Nat) (e' : Int) : Bool :=
  if e ≤ e' then decide (m > m' <<< (e' - e).toNat) else decide (m <<< (e - e').toNat > m')

/-- The sign bit of a layout. -/
def signBit (f : FloatFmt) (neg : Bool) : Nat := neg.toNat * 2 ^ (f.ebits + f.fbits)

/-- Code of the largest finite magnitude and of an infinity. -/
def maxCode (f : FloatFmt) : Nat :=
  match f.special with
  | .ieee => (2 ^ f.ebits - 1) * 2 ^ f.fbits - 1
  | .nanOnly => 2 ^ (f.ebits + f.fbits) - 2
  | .none => 2 ^ (f.ebits + f.fbits) - 1
def infCode (f : FloatFmt) : Nat := (2 ^ f.ebits - 1) * 2 ^ f.fbits

/-- Table 5-1. -/
def overflowCode (f : FloatFmt) (neg : Bool) (r : RMode) (sat : Bool) : Nat × Fl :=
  if sat then (signBit f neg + maxCode f, flSAT ||| flNX)
  else
    match f.special with
    | .nanOnly => (f.canonNaN, flOF ||| flNX)
    | .none => (signBit f neg + maxCode f, flOF ||| flNX)
    | .ieee =>
      let toInf : Bool := match r with
        | .rne => true | .rtz => false | .rup => !neg | .rdn => neg
      (signBit f neg + (if toInf then infCode f else maxCode f), flOF ||| flNX)

/-- Round a nonzero real to a floating layout: R109's five steps. -/
def roundFloat (f : FloatFmt) (x : Num) (r : RMode) (sat : Bool) : Nat × Fl :=
  let p := f.fbits + 1
  let L : Int := Nat.log2 x.m
  let sh : Int := L + 1 - p
  let (q, _) := roundAt x.neg x.m sh x.sticky r
  let qe : Int := x.e + sh
  if magGt q qe f.maxM f.maxE then overflowCode f x.neg r sat
  else
    let emin : Int := 1 - f.bias
    let tiny : Bool := decide ((Nat.log2 q : Int) + qe < emin)
    if tiny then
      let (s, inex) := roundAt x.neg x.m (emin - f.fbits - x.e) x.sticky r
      (signBit f x.neg + s, if inex then flNX ||| flUF else 0)
    else
      let (_, inex) := roundAt x.neg x.m sh x.sticky r
      let lq := Nat.log2 q
      let expField := ((lq : Int) + qe + f.bias).toNat
      let frac := if lq ≤ f.fbits then (q <<< (f.fbits - lq)) - 2 ^ f.fbits else (q >>> (lq - f.fbits)) - 2 ^ f.fbits
      (signBit f x.neg + expField * 2 ^ f.fbits + frac, if inex then flNX else 0)

/-- EncodeTF (R121) of a nonzero real. -/
def encodeTap (n es : Nat) (x : Num) : Nat × Fl :=
  let L := Nat.log2 x.m
  let sc : Int := L + x.e
  let top : Int := ((n - 2) * 2 ^ es : Nat)
  let pow2 : Bool := decide (x.m = 2 ^ L) && !x.sticky
  let sgn := x.neg.toNat * 2 ^ (n - 1)
  if sc ≥ top then
    (sgn + (2 ^ (n - 1) - 1), if sc = top ∧ pow2 then 0 else flNX)
  else if sc < -top ∨ (sc = -top ∧ pow2) then
    (sgn + 1, if sc = -top ∧ pow2 then 0 else flNX)
  else
    let k : Int := sc / (2 ^ es : Nat)
    let e := (sc - k * (2 ^ es : Nat)).toNat
    let (reg, rlen) := if k ≥ 0 then (2 ^ (k.toNat + 2) - 2, k.toNat + 2) else (1, (-k).toNat + 1)
    let bits := ((reg * 2 ^ es + e) <<< L) + (x.m - 2 ^ L)
    let len := rlen + es + L
    if len ≤ n - 1 then (sgn + bits * 2 ^ (n - 1 - len), if x.sticky then flNX else 0)
    else
      let drop := len - (n - 1)
      let mag := bits >>> drop
      let g := bits.testBit (drop - 1)
      let st := decide (bits % 2 ^ (drop - 1) ≠ 0) || x.sticky
      let up := g && (st || mag.testBit 0)
      (sgn + mag + up.toNat, if g || st then flNX else 0)

/-- Round a real to an integer (RoundInt of R117, R125). -/
def roundInt (x : Num) (r : RMode) : Int × Bool :=
  let (q, inex) := roundAt x.neg x.m (-x.e) x.sticky r
  (if x.neg then -(q : Int) else q, inex)

/-- An exact integer into an integer type (R71, R108): wrapped or saturated. -/
def fitInt (signed : Bool) (n : Nat) (i : Int) (sat : Bool) : Nat × Fl :=
  let lo : Int := if signed then -(2 ^ (n - 1) : Nat) else 0
  let hi : Int := if signed then (2 ^ (n - 1) : Nat) - 1 else (2 ^ n : Nat) - 1
  if sat ∧ i < lo then (wrapTo lo n, flSAT)
  else if sat ∧ i > hi then (wrapTo hi n, flSAT)
  else (wrapTo i n, 0)

/-- Whether an exact integer fits an integer type. -/
def intFits (signed : Bool) (n : Nat) (i : Int) : Bool :=
  if signed then decide (-(2 ^ (n - 1) : Nat) ≤ i ∧ i < (2 ^ (n - 1) : Nat)) else decide (0 ≤ i ∧ i < (2 ^ n : Nat))

/-! ### Results of arithmetic in one type (R112, R121, R122, R400) -/

/-- The pattern and flags of a value as a result in a floating or tapered type. A NaN value here adds no flag: the
operation says whether it raises NV. -/
def resultFT (t : ElemType) (v : Val) (r : RMode) (sat : Bool) : Nat × Fl :=
  match kindOf t, v with
  | .flt f, .nan _ => (f.canonNaN, 0)
  | .flt f, .nar => (f.canonNaN, 0)
  | .flt f, .inf neg => (signBit f neg + infCode f, 0)
  | .flt f, .zero neg => (signBit f neg, 0)
  | .flt f, .fin x => roundFloat f x r sat
  | .tap n _, .nan _ => (2 ^ (n - 1), 0)
  | .tap n _, .nar => (2 ^ (n - 1), 0)
  | .tap n _, .inf _ => (2 ^ (n - 1), 0)
  | .tap _ _, .zero _ => (0, 0)
  | .tap n es, .fin x => encodeTap n es x
  | .int s n, .fin x => fitInt s n (roundInt x .rtz).1 sat
  | .int _ _, _ => (0, 0)

/-- NV when a signalling NaN stands among the operands (R112). -/
def nvIfSignalling (vs : List Val) : Fl := if vs.any (fun v => v == .nan true) then flNV else 0

def isNaN : Val → Bool | .nan _ => true | _ => false
def isNaR : Val → Bool | .nar => true | _ => false
def negVal : Val → Val
  | .inf n => .inf (!n) | .zero n => .zero (!n) | .fin x => .fin { x with neg := !x.neg } | v => v

/-- Exact sum of finite and infinite values, one rounding later (R400, R412): NaN, NaR, infinities and the sign of an
exact zero as R109, R112 and R122 say. The flags are those raised before rounding. -/
def sumVals (vs : List Val) (r : RMode) : Val × Fl :=
  if vs.any isNaR then (.nar, 0)
  else if vs.any isNaN then (.nan false, nvIfSignalling vs)
  else
    let pos := vs.any (fun v => v == .inf false)
    let neg := vs.any (fun v => v == .inf true)
    if pos && neg then (.nan false, flNV)
    else if pos then (.inf false, 0)
    else if neg then (.inf true, 0)
    else
      let fins := vs.filterMap (fun v => match v with | .fin x => some x | _ => none)
      let lo := fins.foldl (fun (a : Int) x => min a x.e) 0
      let s := fins.foldl (fun (a : Int) x => a + numInt x lo) 0
      if fins.isEmpty ∧ vs.all (fun v => v == .zero true) ∧ !vs.isEmpty then (.zero true, 0)
      else if fins.isEmpty ∧ vs.all (fun v => v == .zero false) then (.zero false, 0)
      else (valOfInt s lo (r == .rdn), 0)

/-- Exact product (R112: 0 × Inf is undefined). The Bool says that the product is undefined. -/
def mulVals (x y : Val) : Val × Bool :=
  match x, y with
  | .nar, _ => (.nar, false)
  | _, .nar => (.nar, false)
  | .nan s, .nan t => (.nan (s || t), false)
  | .nan s, _ => (.nan s, false)
  | _, .nan s => (.nan s, false)
  | .inf _, .zero _ => (.nan false, true)
  | .zero _, .inf _ => (.nan false, true)
  | .inf a, .inf b => (.inf (a != b), false)
  | .inf a, .fin b => (.inf (a != b.neg), false)
  | .fin a, .inf b => (.inf (a.neg != b), false)
  | .zero a, .zero b => (.zero (a != b), false)
  | .zero a, .fin b => (.zero (a != b.neg), false)
  | .fin a, .zero b => (.zero (a.neg != b), false)
  | .fin a, .fin b => (.fin ⟨a.neg != b.neg, a.m * b.m, a.e + b.e, false⟩, false)

/-- x times y plus z, exact (R400). -/
def fmaVals (x y z : Val) (r : RMode) : Val × Fl :=
  let (p, bad) := mulVals x y
  if isNaR x || isNaR y || isNaR z then (.nar, 0)
  else if bad then (.nan false, flNV ||| nvIfSignalling [x, y, z])
  else
    let (s, f) := sumVals [z, p] r
    (s, f ||| nvIfSignalling [x, y, z])

/-- Order of two finite or infinite or zero values, -0 below +0 when `signedZero` (R113). -/
def cmpKey (lo : Int) (v : Val) : Int :=
  match v with
  | .fin x => numInt x lo
  | _ => 0

def ltVals (x y : Val) (signedZero : Bool) : Bool :=
  match x, y with
  | .inf a, .inf b => a && !b
  | .inf a, _ => a
  | _, .inf b => !b
  | .zero a, .zero b => signedZero && a && !b
  | _, _ =>
    let lo := match x, y with
      | .fin a, .fin b => min a.e b.e
      | .fin a, _ => a.e
      | _, .fin b => b.e
      | _, _ => 0
    decide (cmpKey lo x < cmpKey lo y)

/-- The rank of a tapered pattern in the total order of R123. -/
def tapRank (n c : Nat) : Int :=
  let c := c % 2 ^ n
  if c = 2 ^ (n - 1) then -(2 ^ n : Nat)
  else if c.testBit (n - 1) then -((c % 2 ^ (n - 1) : Nat) : Int)
  else c

/-- VMIN (`wantMax = false`) and VMAX over two patterns of a type (R113, R123, R400): pattern and flags. -/
def minMax (t : ElemType) (wantMax : Bool) (a b : Nat) : Nat × Fl :=
  let a := a % 2 ^ typeBits t
  let b := b % 2 ^ typeBits t
  match kindOf t with
  | .int s n =>
    let x : Int := if s then signedOf a n else a
    let y : Int := if s then signedOf b n else b
    (if (decide (x < y)) == wantMax then b else a, 0)
  | .tap n _ => (if (decide (tapRank n a < tapRank n b)) == wantMax then b else a, 0)
  | .flt f =>
    let x := decodeFloat f a
    let y := decodeFloat f b
    let fl := nvIfSignalling [x, y]
    match isNaN x, isNaN y with
    | true, true => (f.canonNaN, fl)
    | true, false => (b, fl)
    | false, true => (a, fl)
    | false, false => (if (ltVals x y true) == wantMax then b else a, fl)

/-- VCMP under a type (R113, R123, R404). -/
def compareVals (t : ElemType) (c : VCond) (a b : Nat) : Bool × Fl :=
  let a := a % 2 ^ typeBits t
  let b := b % 2 ^ typeBits t
  let pick (lt eq : Bool) : Bool := match c with
    | .eq => eq | .ne => !eq | .lt => lt | .le => lt || eq
  match kindOf t with
  | .int s n =>
    let x : Int := if s then signedOf a n else a
    let y : Int := if s then signedOf b n else b
    (pick (decide (x < y)) (decide (x = y)), 0)
  | .tap n _ => (pick (decide (tapRank n a < tapRank n b)) (decide (a = b)), 0)
  | .flt f =>
    let x := decodeFloat f a
    let y := decodeFloat f b
    if isNaN x || isNaN y then
      let ordered := c == .lt || c == .le
      (c == .ne, if ordered then flNV else nvIfSignalling [x, y])
    else
      let lt := ltVals x y false
      let gt := ltVals y x false
      (pick lt (!lt && !gt), 0)

/-! ### Conversions (R124 to R127, Table 5-7) -/

/-- A tapered type's name for whether a source is an integer type, an IEEE-style one or a tapered one. -/
def isIntType (t : ElemType) : Bool := match kindOf t with | .int _ _ => true | _ => false
def isTapType (t : ElemType) : Bool := match kindOf t with | .tap _ _ => true | _ => false

/-- Convert a value to a type: pattern and flags. `fromInt` marks an integer-typed source (R108 and not R125 governs an
integer that does not fit). -/
def convertVal (t : ElemType) (v : Val) (fromInt : Bool) (r : RMode) (sat : Bool) : Nat × Fl :=
  match kindOf t, v with
  | .flt f, .nan s =>
    (if f.special == .none then 0 else f.canonNaN, if s || f.special == .none then flNV else 0)
  | .flt f, .nar => if f.special == .none then (0, flNV) else (f.canonNaN, 0)
  | .flt f, .inf neg =>
    match f.special with
    | .ieee => (signBit f neg + infCode f, 0)
    | .nanOnly => if sat then (signBit f neg + maxCode f, flSAT) else (f.canonNaN, flNV)
    | .none => (signBit f neg + maxCode f, flNV)
  | .flt f, .zero neg => (signBit f neg, 0)
  | .flt f, .fin x => roundFloat f x r sat
  | .tap n _, .nan s => (2 ^ (n - 1), if s then flNV else 0)
  | .tap n _, .nar => (2 ^ (n - 1), 0)
  | .tap n _, .inf _ => (2 ^ (n - 1), flNR)
  | .tap _ _, .zero _ => (0, 0)
  | .tap n es, .fin x => encodeTap n es x
  | .int _ _, .nan _ => (0, flNV)
  | .int _ _, .nar => (0, flNV)
  | .int s n, .inf neg =>
    if sat then
      (if neg then (if s then 2 ^ (n - 1) else 0) else (if s then 2 ^ (n - 1) - 1 else 2 ^ n - 1), flSAT)
    else (0, flNV)
  | .int _ _, .zero _ => (0, 0)
  | .int s n, .fin x =>
    let (i, inex) := roundInt x r
    let (c, fl) := fitInt s n i sat
    let nv := if !fromInt && !sat && !intFits s n i then flNV else 0
    (c, fl ||| nv ||| (if inex then flNX else 0))

/-- Convert a register's content from one type to another by value (R408). -/
def convertType (src dst : ElemType) (w : Nat) (r : RMode) (sat : Bool) : Nat × Fl :=
  convertVal dst (decodeVal src w) (isIntType src) r sat

/-! ### Block formats (R114 to R118) -/

/-- Mantissa bits of a BX format (R116). -/
def bxBits : BxFmt → Nat | .bx8 => 8 | .bx6 => 6 | .bx4 => 4 | .bx2 => 2

/-- A value times a power of two. -/
def scaleVal (v : Val) (k : Int) : Val := match v with | .fin x => .fin { x with e := x.e + k } | w => w

def isBad : Val → Bool | .nan _ => true | .nar => true | .inf _ => true | _ => false

/-- Floor(Log2(amax)) over the finite values; none when all are zero. -/
def amaxLog (vs : List Val) : Option Int :=
  vs.foldl (fun acc v => match v with
    | .fin x =>
      let l : Int := (Nat.log2 x.m : Int) + x.e
      match acc with | some a => some (max a l) | none => some l
    | _ => acc) none

/-- The flags of a NaN block (R115). -/
def nanBlockFlags (vs : List Val) : Fl :=
  if vs.any (fun v => match v with | .nan true => true | .inf _ => true | _ => false) then flNV else 0

def clampInt (x lo hi : Int) : Int := max lo (min hi x)

/-- QuantiseMX (R115): scale byte and, per element, code and flags. -/
def quantiseMX (et : ElemType) (emaxElem : Int) (vs : List Val) (r : RMode) : Nat × List (Nat × Fl) :=
  if vs.any isBad then (0xFF, vs.map (fun _ => (0, nanBlockFlags vs)))
  else
    let X : Int := match amaxLog vs with
      | none => 0
      | some l => clampInt (l - emaxElem + 127) 0 254
    (X.toNat, vs.map (fun v => convertVal et (scaleVal v (127 - X)) false r true))

/-- QuantiseBX (R117): scale byte and, per element, mantissa and flags. -/
def quantiseBX (b : Nat) (vs : List Val) (r : RMode) : Nat × List (Int × Fl) :=
  if vs.any isBad then (0xFF, vs.map (fun _ => (0, nanBlockFlags vs)))
  else
    match amaxLog vs with
    | none => (0, vs.map (fun _ => (0, 0)))
    | some l =>
      let E := clampInt (l + 127) 0 254
      let lo : Int := -(2 ^ (b - 1) : Nat)
      let hi : Int := (2 ^ (b - 1) : Nat) - 1
      (E.toNat, vs.map (fun v =>
        match scaleVal v ((b : Int) - 2 - (E - 127)) with
        | .fin x =>
          let (t, inex) := roundInt x r
          let m := clampInt t lo hi
          (m, (if m ≠ t then flSAT ||| flNX else 0) ||| (if inex then flNX else 0))
        | _ => (0, 0)))

/-- The value of a BX element (R116). -/
def bxVal (b : Nat) (scale : Nat) (m : Int) : Val :=
  if scale = 0xFF then .nan false else valOfInt m ((scale : Int) - 127 - ((b : Int) - 2)) false

/-- The value of an MX element (R114). Under scale 0xFF every element is a NaN; that it is a quiet one, whatever its code, is the model's
choice (log entry 80). -/
def mxVal (et : ElemType) (scale : Nat) (code : Nat) : Val :=
  if scale = 0xFF then .nan false else scaleVal (decodeVal et code) ((scale : Int) - 127)

end Sys2Proof.Machine
end

