-- ==== Sys2Proof/Machine/Special.lean ====
section
/-! DEFINITION. The special functions (R405, R406): the true value to more bits than any type can tell apart, then the one
rounding of Table 18-6. Where Table 18-6 allows several FP32 or TF32 results, `Config.specialPick` takes one. -/
namespace Sys2Proof.Machine

/-- The six functions of R405. -/
inductive SpecialFn where
  | rcp | rsq | sqrt | exp2 | log2 | tanh
  deriving DecidableEq, Repr

/-- A number for each function: the first argument of `Config.specialPick`. -/
def specialNo : SpecialFn → Nat
  | .rcp => 0 | .rsq => 1 | .sqrt => 2 | .exp2 => 3 | .log2 => 4 | .tanh => 5

/-- ln 2 and log2 e, floors after scaling by 2^480. -/
def ln2Fixed : Nat :=
  0xb17217f7d1cf79abc9e3b39803f2f6af40f343267298b62d8a0d175b8baafa2be7b876206debac98559552fb4afa1b10ed2eae35c138214427573b29
def log2eFixed : Nat :=
  0x171547652b82fe1777d0ffda0d23a7d11d6aef551bad2b4b1164a2cd9a342648fbc3887eeaa2ed9ac49b25eeb82d7c167d52173cc1895213f897f5e06

/-- Integer square root, one bit a step from bit i down. -/
def isqrtGo (n : Nat) : Nat → Nat → Nat
  | 0, r => r
  | i + 1, r => if (r + 2 ^ i) * (r + 2 ^ i) ≤ n then isqrtGo n i (r + 2 ^ i) else isqrtGo n i r

def isqrt (n : Nat) : Nat := isqrtGo n (Nat.log2 n / 2 + 1) 0

/-- 1 / x, exact unless sticky. -/
def recipNum (x : Num) : Num :=
  let k := Nat.log2 x.m + 80
  ⟨x.neg, 2 ^ k / x.m, -x.e - k, decide (2 ^ k % x.m ≠ 0)⟩

/-- x with an even exponent. -/
def evenExp (x : Num) : Num := if x.e % 2 = 0 then x else { x with m := x.m * 2, e := x.e - 1 }

/-- √x for x > 0. -/
def sqrtNum (x : Num) : Num :=
  let y := evenExp x
  let m := y.m <<< 160
  let s := isqrt m
  ⟨false, s, y.e / 2 - 80, decide (s * s ≠ m)⟩

/-- 1 / √x for x > 0. -/
def rsqrtNum (x : Num) : Num :=
  let y := evenExp x
  let k := 2 * (Nat.log2 y.m + 80)
  let s := isqrt (2 ^ k / y.m)
  ⟨false, s, -(y.e / 2) - (k / 2 : Nat), decide (s * s * y.m ≠ 2 ^ k)⟩

/-- The sum of t^k / k! from the current term on, all scaled by 2^w. -/
def expSeries (w t : Nat) : Nat → Nat → Nat → Nat → Nat
  | 0, _, _, acc => acc
  | f + 1, k, term, acc =>
    let term' := (term * t / k) >>> w
    if term' = 0 then acc else expSeries w t f (k + 1) term' (acc + term')

/-- 2^f for a fraction f scaled by 2^w, w at most 448, scaled by 2^w. -/
def exp2Frac (w f : Nat) : Nat :=
  let t := (f * (ln2Fixed >>> (480 - w))) >>> w
  expSeries w t 128 1 (2 ^ w) (2 ^ w)

/-- 2^x. -/
def exp2Num (x : Num) : Num :=
  let big : Int := if x.neg then -4096 else 4096
  if (Nat.log2 x.m : Int) + x.e ≥ 12 then ⟨false, 1, big, false⟩
  else
    let fx : Int := numInt x (min x.e 0)
    let sh := (-(min x.e 0)).toNat
    let n := fx >>> sh
    let f := (fx - n * (2 ^ sh : Nat)).toNat
    if f = 0 then ⟨false, 1, n, false⟩
    else
      let f352 := if sh ≤ 352 then f <<< (352 - sh) else f >>> (sh - 352)
      ⟨false, exp2Frac 352 f352 >>> 32, n - 320, true⟩

/-- The next bits of log2 y for y in [1, 2) scaled by 2^q. -/
def log2Bits (q : Nat) : Nat → Nat → Nat → Nat
  | 0, _, acc => acc
  | f + 1, y, acc =>
    let y2 := (y * y) >>> q
    if y2.testBit (q + 1) then log2Bits q f (y2 >>> 1) (2 * acc + 1) else log2Bits q f y2 (2 * acc)

/-- log2 x for x > 0 as a value (0 when x is 1). -/
def log2Val (x : Num) : Val :=
  let l := Nat.log2 x.m
  let n : Int := (l : Int) + x.e
  if x.m = 2 ^ l then valOfInt n 0 false
  else
    let frac := log2Bits 192 160 (if l ≤ 192 then x.m <<< (192 - l) else x.m >>> (l - 192)) 0
    let t : Int := n * (2 ^ 160 : Nat) + frac
    if t ≥ 0 then .fin ⟨false, t.toNat, -160, true⟩ else .fin ⟨true, (-t).toNat - 1, -160, true⟩

/-- tanh x, never exact for a finite nonzero x. -/
def tanhNum (x : Num) : Num :=
  let top : Int := (Nat.log2 x.m : Int) + x.e
  if top < -40 then ⟨x.neg, x.m * 2 ^ 80 - 1, x.e - 80, true⟩
  else if top ≥ 7 then ⟨x.neg, 2 ^ 300 - 1, -300, true⟩
  else
    let w : Nat := 448
    let fx : Nat := if x.e + 1 + w ≥ 0 then x.m <<< (x.e + 1 + w).toNat else x.m >>> (-(x.e + 1 + w)).toNat
    let y := (fx * log2eFixed) >>> 480
    let a := exp2Frac w (y % 2 ^ w) <<< (y >>> w)
    ⟨x.neg, ((a - 2 ^ w) <<< w) / (a + 2 ^ w), -(w : Int), true⟩

/-- The true value of a function at a finite nonzero operand at which Table 18-7 names no special result. -/
def specialTrue (fn : SpecialFn) (x : Num) : Val :=
  match fn with
  | .rcp => .fin (recipNum x)
  | .rsq => .fin (rsqrtNum x)
  | .sqrt => .fin (sqrtNum x)
  | .exp2 => .fin (exp2Num x)
  | .log2 => log2Val x
  | .tanh => .fin (tanhNum x)

/-- Table 18-7: result and flags at a special operand; none for an operand that has a true value. -/
def specialOperand (fn : SpecialFn) (v : Val) (tap : Bool) : Option (Val × Fl) :=
  let one : Val := .fin ⟨false, 1, 0, false⟩
  let mone : Val := .fin ⟨true, 1, 0, false⟩
  match v with
  | .nan s => some (.nan false, if s then flNV else 0)
  | .nar => some (.nar, 0)
  | .zero n =>
    match fn, tap with
    | .rcp, true | .rsq, true => some (.nar, flNR ||| flDZ)
    | .log2, true => some (.nar, flNR)
    | .rcp, false | .rsq, false => some (.inf n, flDZ)
    | .log2, false => some (.inf true, flDZ)
    | .sqrt, _ | .tanh, _ => some (.zero n, 0)
    | .exp2, _ => some (one, 0)
  | .inf n =>
    match fn with
    | .rcp => some (.zero n, 0)
    | .rsq => some (if n then (.nan false, flNV) else (.zero false, 0))
    | .sqrt | .log2 => some (if n then (.nan false, flNV) else (.inf false, 0))
    | .exp2 => some (if n then (.zero false, 0) else (.inf false, 0))
    | .tanh => some (if n then mone else one, 0)
  | .fin x =>
    match fn with
    | .rsq | .sqrt | .log2 => if x.neg then some (if tap then (.nar, flNR) else (.nan false, flNV)) else none
    | _ => none

/-- One of the allowed FP32 results for an inexact true value (Table 18-6), by a pick. -/
def pickFP32 (fn : SpecialFn) (x : Num) (r : RMode) (sat : Bool) (pick : Nat) : Nat × Fl :=
  let f := fmtFP32
  let (c, fl) := roundFloat f { x with neg := false } .rtz false
  let tiny : Bool := decide ((Nat.log2 x.m : Int) + x.e < 1 - f.bias)
  if tiny || fl.getLsbD 2 || c ≥ maxCode f then roundFloat f x r sat
  else
    let s := signBit f x.neg
    match fn with
    | .tanh =>
      let atTop := (c + 1) % 2 ^ f.fbits = 0
      (s + (match pick % 4 with
        | 0 => c
        | 1 => c + 1
        | 2 => c - 1
        | _ => if atTop then c + 1 else c + 2), flNX)
    | _ => (s + c + pick % 2, flNX)

/-- One of the allowed TF32 results for an inexact true value (Table 18-6), by a pick. -/
def pickTF32 (fn : SpecialFn) (x : Num) (pick : Nat) : Nat × Fl :=
  let (c, fl) := encodeTap 32 3 { x with neg := false }
  let s := x.neg.toNat * 2 ^ 31
  let w := match fn with | .tanh => 2 | _ => 1
  let top := 2 ^ 31 - 1
  if c = 1 ∨ c = top then (s + c, fl)
  else (s + (max 1 (min top (c + pick % (2 * w + 1) - w))), flNX)

/-- A special function of a pattern under a floating or tapered type: pattern and flags. -/
def specialFn (fn : SpecialFn) (t : ElemType) (w : Nat) (r : RMode) (sat : Bool) : Nat × Fl :=
  let c := w % 2 ^ typeBits t
  let v := decodeVal t c
  match specialOperand fn v (isTapType t) with
  | some (u, fl) =>
    let (p, g) := resultFT t u r sat
    (p, fl ||| g)
  | none =>
    match v with
    | .fin x =>
      let tv := specialTrue fn x
      let exact := match tv with | .fin y => !y.sticky && (resultFT t tv r sat).2 == 0 | _ => true
      if exact then resultFT t tv r sat
      else
        match fn, t, tv with
        | .sqrt, _, _ => resultFT t tv r sat
        | _, .fp32, .fin y => pickFP32 fn y r sat (Config.specialPick (specialNo fn) (typeCode t) c)
        | _, .tf32, .fin y => pickTF32 fn y (Config.specialPick (specialNo fn) (typeCode t) c)
        | _, _, _ => resultFT t tv r sat
    | _ => resultFT t v r sat

/-- The class word of Table 18-8 (R407). -/
def classWord (t : ElemType) (w : Nat) : Word :=
  let c := w % 2 ^ typeBits t
  match kindOf t, decodeVal t c with
  | _, .inf n => if n then 1 else 0x80
  | _, .nan s => if s then 0x100 else 0x200
  | _, .nar => 0x400
  | .flt _, .zero n => if n then 8 else 0x10
  | _, .zero _ => 0x10
  | .flt f, .fin x =>
    let sub := bitsOf c (f.ebits + f.fbits - 1) f.fbits = 0
    if x.neg then (if sub then 4 else 2) else (if sub then 0x20 else 0x40)
  | .tap n _, .fin x =>
    let mag := c % 2 ^ (n - 1)
    (if x.neg then 2 else 0x40) ||| (if mag = 1 then 0x800 else 0) ||| (if mag = 2 ^ (n - 1) - 1 then 0x1000 else 0)
  | .int _ _, .fin x => if x.neg then 2 else 0x40

end Sys2Proof.Machine
end

