-- ==== Sys2Proof/Machine/Flags.lean ====
section
/-! DEFINITION. The result of each vector operation on one lane's patterns, with the flags it raises (R390 to R413,
R130): every function answers the V-register word (R62) and a flag set in the order of Table 3-7. -/
namespace Sys2Proof.Machine

/-- What GMR gives a vector operation (R390): type, rounding mode, saturation. -/
structure VMode where
  t : ElemType
  r : RMode
  sat : Bool
  deriving DecidableEq, Repr

/-- The type sets of Table 18-1. -/
def isFP8 : ElemType → Bool | .e4m3 | .e5m2 | .e2m1 => true | _ => false
def isFlt : ElemType → Bool | .fp32 | .fp16 | .bf16 => true | _ => false
def setArith (t : ElemType) : Bool := !isFP8 t
def setFltTap (t : ElemType) : Bool := isFlt t || isTapType t
def setInt (t : ElemType) : Bool := isIntType t
def setClass (t : ElemType) : Bool := !isIntType t
def setDeq (t : ElemType) : Bool := t == .i8 || t == .i16 || t == .i32
def setRed (o : RedOp) (t : ElemType) : Bool := match o with | .or => true | _ => setArith t

/-- A pattern and flags in the V-register form. -/
def inForm (t : ElemType) (x : Nat × Fl) : Word × Fl := (regForm t x.1, x.2)

/-- The integer that a pattern of an integer type holds. -/
def intOf (t : ElemType) (w : Word) : Int :=
  match kindOf t with
  | .int true n => signedOf w.toNat n
  | _ => (w.toNat % 2 ^ typeBits t : Nat)

/-- An exact integer as a result in an integer type (R71, R108). -/
def intResult (m : VMode) (i : Int) : Word × Fl :=
  match kindOf m.t with
  | .int s n => inForm m.t (fitInt s n i m.sat)
  | _ => (0, 0)

/-- A value as a result in a floating or tapered type, after the flags of the operation. -/
def valResult (m : VMode) (v : Val × Fl) : Word × Fl :=
  let (c, fl) := resultFT m.t v.1 m.r m.sat
  (regForm m.t c, v.2 ||| fl)

/-- VADD and VSUB (R400). -/
def laneAdd (m : VMode) (sub : Bool) (a b : Word) : Word × Fl :=
  if isIntType m.t then intResult m (if sub then intOf m.t a - intOf m.t b else intOf m.t a + intOf m.t b)
  else
    let y := decodeVal m.t b.toNat
    valResult m (sumVals [decodeVal m.t a.toNat, if sub then negVal y else y] m.r)

/-- VMUL (R400). -/
def laneMul (m : VMode) (a b : Word) : Word × Fl :=
  if isIntType m.t then intResult m (intOf m.t a * intOf m.t b)
  else
    let x := decodeVal m.t a.toNat
    let y := decodeVal m.t b.toNat
    let (p, bad) := mulVals x y
    valResult m (p, (if bad then flNV else 0) ||| nvIfSignalling [x, y])

/-- VFMA (R400): z is the addend. -/
def laneFma (m : VMode) (a b z : Word) : Word × Fl :=
  if isIntType m.t then intResult m (intOf m.t z + intOf m.t a * intOf m.t b)
  else valResult m (fmaVals (decodeVal m.t a.toNat) (decodeVal m.t b.toNat) (decodeVal m.t z.toNat) m.r)

/-- VMIN and VMAX (R400). -/
def laneMinMax (m : VMode) (wantMax : Bool) (a b : Word) : Word × Fl := inForm m.t (minMax m.t wantMax a.toNat b.toNat)

/-- VABS and VNEG (Table 18-5). -/
def laneAbsNeg (m : VMode) (neg : Bool) (a : Word) : Word × Fl :=
  let c := a.toNat % 2 ^ typeBits m.t
  match kindOf m.t with
  | .int s n =>
    if neg then inForm m.t (fitInt s n (-(intOf m.t a)) m.sat)
    else inForm m.t (fitInt s n ((intOf m.t a).natAbs : Nat) m.sat)
  | .flt f =>
    match decodeFloat f c with
    | .nan s => (regForm m.t f.canonNaN, if s then flNV else 0)
    | _ =>
      let mag := c % 2 ^ (f.ebits + f.fbits)
      let s := 2 ^ (f.ebits + f.fbits)
      (regForm m.t (if neg && c < s then mag + s else mag), 0)
  | .tap n _ =>
    if c = 0 ∨ c = 2 ^ (n - 1) then (regForm m.t c, 0)
    else
      let mag := c % 2 ^ (n - 1)
      (regForm m.t (if neg && c < 2 ^ (n - 1) then mag + 2 ^ (n - 1) else mag), 0)

/-- The bit operations of R402. -/
inductive BitOp where
  | shl | shr | sra | mulh | clz | popc
  deriving DecidableEq, Repr

def laneBit (m : VMode) (o : BitOp) (a b : Word) : Word × Fl :=
  let n := typeBits m.t
  let x := a.toNat % 2 ^ n
  let s := b.toNat % n
  let signed := match kindOf m.t with | .int true _ => true | _ => false
  let c : Nat := match o with
    | .shl => (x <<< s) % 2 ^ n
    | .shr => x >>> s
    | .sra => wrapTo (signedOf x n >>> s) n
    | .mulh => if signed then wrapTo ((signedOf x n * signedOf b.toNat n) >>> n) n else (x * (b.toNat % 2 ^ n)) >>> n
    | .clz => if x = 0 then n else n - 1 - Nat.log2 x
    | .popc => countBits x n
  (regForm m.t c, 0)

/-- The special functions (R405). -/
def laneSpecial (m : VMode) (fn : SpecialFn) (a : Word) : Word × Fl := inForm m.t (specialFn fn m.t a.toNat m.r m.sat)

/-- VCVT (R408). -/
def laneCvt (m : VMode) (dst : ElemType) (a : Word) : Word × Fl := inForm dst (convertType m.t dst a.toNat m.r m.sat)

/-- VCMP (R404). -/
def laneCmp (m : VMode) (c : VCond) (a b : Word) : Bool × Fl := compareVals m.t c a.toNat b.toNat

/-- VDEQ (R410): none for a lane that records illegal encoding. -/
def laneDeq (m : VMode) (dst : ElemType) (a sc : Word) : Option (Word × Fl) :=
  if fieldOf sc 31 10 ≠ 0 then none
  else
    let b := match fieldOf sc 9 8 with | 0 => 8 | 1 => 6 | 2 => 4 | _ => 2
    some (inForm dst (convertVal dst (bxVal b (fieldOf sc 7 0) (intOf m.t a)) false m.r m.sat))

/-- The identity of MIN (`false`: the type's largest value) and of MAX (its smallest) for an empty mask (R412). -/
def redIdentity (t : ElemType) (isMax : Bool) : Word :=
  match kindOf t with
  | .int s n =>
    regForm t (if isMax then (if s then 2 ^ (n - 1) else 0) else (if s then 2 ^ (n - 1) - 1 else 2 ^ n - 1))
  | .flt f => regForm t (signBit f isMax + infCode f)
  | .tap n _ => regForm t (if isMax then 2 ^ (n - 1) else 2 ^ (n - 1) - 1)

/-- The combination of the mask's lanes (R412). The minimum of one lane is that of the lane with itself, so that a NaN leaves as the
canonical one and a signalling NaN raises NV (R112). -/
def reduceLanes (m : VMode) (o : RedOp) (xs : List Word) : Word × Fl :=
  match o with
  | .or => (xs.foldl (· ||| ·) 0, 0)
  | .add =>
    if isIntType m.t then intResult m (xs.foldl (fun (a : Int) x => a + intOf m.t x) 0)
    else valResult m (sumVals (xs.map (fun x => decodeVal m.t x.toNat)) m.r)
  | .min | .max =>
    match xs with
    | [] => (redIdentity m.t (o == .max), 0)
    | x :: rest =>
      rest.foldl (fun acc y =>
        let (w, f) := laneMinMax m (o == .max) acc.1 y
        (w, acc.2 ||| f)) (laneMinMax m (o == .max) x x)

/-! ### Scalar arithmetic (R382): 32-bit, no flag -/

inductive SOp where
  | add | sub | mul | mulh | and | or | xor | shl | shr | sra | min | max
  deriving DecidableEq, Repr

def scalarOp (o : SOp) (a b : Word) : Word :=
  let s := b.toNat % 32
  match o with
  | .add => a + b
  | .sub => a - b
  | .mul => a * b
  | .mulh => BitVec.ofInt 32 ((a.toInt * b.toInt) >>> 32)
  | .and => a &&& b
  | .or => a ||| b
  | .xor => a ^^^ b
  | .shl => a <<< s
  | .shr => a >>> s
  | .sra => a.sshiftRight s
  | .min => if a.toInt < b.toInt then a else b
  | .max => if a.toInt < b.toInt then b else a

def scalarCmp (c : SCond) (a b : Word) : Bool :=
  match c with
  | .eq => a == b
  | .ne => a != b
  | .lt => decide (a.toInt < b.toInt)
  | .ltu => decide (a.toNat < b.toNat)

end Sys2Proof.Machine
end

