-- ==== Sys2Proof/Machine/State.lean ====
section
/-! DEFINITION. The state of the device, as plain data: every register, table, queue and buffer that spec/ names, the agenda
of moves, and State.reset. Sorted sparse lists (Bits.lean) hold what is mostly at its rest value. -/
namespace Sys2Proof.Machine

/-- A lane mask (R27); bits at and above the width are zero. -/
abbrev Lanes := BitVec 64

/-- A visibility time as the natural number of Table 9-2: tick * 2^16 + sequence. -/
abbrev VTime := Nat

/-- Roles (R34). -/
inductive Role where
  | copy | matrix | vector
  deriving DecidableEq, Repr

/-- KIND of a reconvergence-stack entry (Table 11-1). -/
inductive EntryKind where
  | reconv | trap | trapXop
  deriving DecidableEq, Repr

/-- A reconvergence-stack entry (Table 11-1). -/
structure StackEntry where
  mask : Lanes
  pc : DWord
  kind : EntryKind
  mpc : Nat
  gidx : Nat
  deriving DecidableEq, Repr

/-- Where an access goes: memory (space 0, a key of `State.mem`) or a team's WB, AB or CB region (1, 2, 3; an offset). -/
structure Loc where
  space : Nat
  team : Nat
  addr : Nat
  deriving DecidableEq, Repr

/-- One lane's access of a pending memory operation; `m` is its first member of the register group, `done` says that it is
performed; `level`: the page-table level of the leaf that translated it (R217); `landed`: bytes of a typed-buffer
access done ahead of the others (R134): by a store written, by a load read. -/
structure Acc where
  lane : Nat
  m : Nat
  va : Nat
  loc : Loc
  data : List Word
  done : Bool
  level : Nat
  landed : List (Nat × Byte)
  deriving DecidableEq, Repr

/-- Kinds of pending memory operation, with the atomic operation's number (R340). -/
inductive OpKind where
  | load | store | atom (op : Nat)
  deriving DecidableEq, Repr

/-- Register destination of a pending load or atomic: V or S, base and size (size 0: none). -/
structure RegDst where
  vec : Bool
  base : Nat
  n : Nat
  deriving DecidableEq, Repr

/-- REP in progress (R373 to R376): REP's address, count, step bits, and the index of the next repetition. -/
structure RepPos where
  addr : DWord
  count : Nat
  sd : Bool
  sa : Bool
  sb : Bool
  idx : Nat
  deriving DecidableEq, Repr

/-- A sequence in progress inside an XOP (R274, R277): micro-PC, the temporaries (key 64 * n + lane), and what it was accepted
with: its word, the image that its binding named and its mask. -/
structure XopResume where
  mpc : Nat
  t : List (Nat × Word)
  i : Instr
  image : List DWord
  mask : Lanes
  deriving DecidableEq, Repr

/-- A place at which a group resumes: an address and, inside a REP, the repetition (R376, R437); a sequence in progress and
the lanes to be replayed, when the group had been stopped there. -/
structure ResumePt where
  pc : DWord
  rep : Option RepPos
  xop : Option XopResume
  replay : Option Lanes
  deriving DecidableEq, Repr

/-- An address. -/
def ResumePt.at (pc : DWord) : ResumePt := ⟨pc, none, none, none⟩

/-- A lane that recorded a cause (R82): low four bits of the code, the address, and whether the host refused it (R258). -/
structure BadLane where
  lane : Nat
  cause : Nat
  va : Nat
  ats : Bool
  deriving DecidableEq, Repr

/-- A memory operation that has issued and is not complete (R200, R337), in program order by `seq`. `late`: lanes whose
causes are reported once the good lanes have completed (R338). `rid`: the held release that it waits for. `since`: the tick of
its issue (R42). `deps`: the group's earlier loads and atomics on whose values its addresses or data depend (R195). -/
structure PendOp where
  seq : Nat
  kind : OpKind
  pt : ResumePt
  mpc : Option Nat
  acq : Bool
  rel : Bool
  scope : Scope
  dst : RegDst
  size : Nat
  typ : ElemType
  accs : List Acc
  early : Bool
  rid : Option Nat
  super : Bool
  emask : Lanes
  late : List BadLane
  since : Nat
  deps : List Nat
  deriving DecidableEq, Repr

/-- What hardware keeps hidden beside a frame slot: what the entry was (POPR ignores the frame's copies, R252), the REP
position (R376), the discarded releases and resume address (R437), the held copy (R150), the sequence whose micro-op trapped (R277),
and the group's place in program order at entry. -/
structure FrameHidden where
  code : Nat
  lv : Bool
  prec : Bool
  pc : DWord
  emask : Lanes
  rep : Option RepPos
  redo : List ResumePt
  resume : ResumePt
  copy : Option Nat
  xop : Option XopResume
  seq : Nat
  deriving DecidableEq, Repr

/-- The first seven are the blocking points of R51 and Table 11-7; the others are waits that free the port
(R207, R208, R353, R397, R414) or, for the last ones, hold it (R278, R338, R343, R367). `flagsDone`: the instruction
has issued and its place is behind the group; its run goes on, or with `ends` is over, when the operation is done. `cwait`: `key` is
where the counter was last read. -/
inductive Wait where
  | bar (n : Nat)
  | ring (r st : Nat)
  | cwait (va : DWord) (target : Word) (key : Nat)
  | spawn (since : Nat) (record header : List Word)
  | qrecv
  | loadStall
  | escalated (slot : Nat)
  | limits (ld st cp tm : Nat)
  | drain (path : DrainPath) (ops : List Nat) (before : Nat)
  | fence (rid : Nat)
  | fencescTick
  | tinvFence (rid : Nat)
  | tinvAcks (id : Nat)
  | popr (rid : Nat)
  | poprExit (rid : Nat)
  | pgmapFence (rid : Nat)
  | pgmapLeaf (rid : Nat)
  | csload (rid : Nat)
  | opDone (seq : Nat)
  | flagsDone (seq : Nat) (ends : Bool)
  deriving DecidableEq, Repr

/-- What a group is doing (R245, R346, R297, R46). `debug` halts are the core's. -/
inductive GStatus where
  | ready
  | waiting (w : Wait)
  | halted
  | pendingHandler
  | retired
  deriving DecidableEq, Repr

/-- A flit in flight or queued (R187, R188). -/
structure Flit where
  srcCore : Nat
  srcGroup : Nat
  srcTeam : Nat
  grid : Nat
  dstCore : Nat
  dstGroup : Nat
  last : Bool
  data : List Word
  deriving DecidableEq, Repr

/-- The message port of a group: QDST, the fields of QSTAT and the receive queue (R186 to R190). `alw` lists the
destinations with fewer than 8 allowances (key 64 * core + group). -/
structure QPort where
  qdst : Word
  isOpen : Bool
  sent : Nat
  alw : List (Nat × Nat)
  norcv : Bool
  prst : Bool
  rlast : Bool
  rgroup : Nat
  rcore : Nat
  rq : List Flit
  cur : Option Nat
  cut : Bool
  deriving DecidableEq, Repr

/-- A containment record (Table 10-6) as numbers. -/
structure ContRec where
  head : DWord
  line : DWord
  start : DWord
  fin : DWord
  pc : DWord
  deriving DecidableEq, Repr

/-- An imprecise trap pending for a group (R246): CODE and AUX contents. `redo`: the discarded releases of a containment trap that
waits for the group's handler to return (R237, R437). -/
structure PendTrap where
  code : Nat
  copy : Option Nat
  aux : List (Nat × Nat × Nat)
  cont : Option ContRec
  redo : List ResumePt := []
  deriving DecidableEq, Repr

/-- A completed engine operation that the group has not yet joined (R210): its writes' largest time with the agent that stamped
it, their homes and lines; the drain paths of a copy (R149); the first of the four result registers of a TSTAT (R165). -/
structure DoneOp where
  id : Nat
  vt : VTime
  agent : Option Nat
  homes : List Nat
  wrote : List Nat
  paths : List DrainPath
  stat : Option Nat
  covered : Bool
  deriving DecidableEq, Repr

/-- A group (R27, R61): its registers, mask, stack and everything in flight. V is sparse by 64 * register + lane. `bad`: the
registers whose check code reports an uncorrectable error, with the bits in error (R261); V as in `v`, S from 8192 on. `deps`:
the earlier loads and atomics, by place in program order, whose values a register depends on (R195, R223; V[r] is key r,
S[r] 128 + r, K[r] 256 + r). `midway`: the instruction at the place had issued before the halt of R245 reached the group. -/
structure Group where
  role : Role
  slot : Nat
  pc : DWord
  active : Lanes
  live : Lanes
  gmr : Word
  s : List (Nat × Word)
  v : List (Nat × Word)
  k : List (Nat × Lanes)
  stack : List StackEntry
  spilled : Nat
  frames : List (Nat × FrameHidden)
  tcause : Word
  tlanes : List (Nat × Nat)
  xfault : Word
  xcount : Nat
  status : GStatus
  runPos : Nat
  rep : Option RepPos
  replay : Option Lanes
  xop : Option XopResume
  redo : List ResumePt
  redoEnd : ResumePt
  ops : List PendOp
  nextSeq : Nat
  cp : Nat
  tm : Nat
  lastVT : VTime
  homes : List Nat
  wrote : List Nat
  done : List DoneOp
  q : QPort
  traps : List PendTrap
  passes : Nat
  starving : Option Nat
  skid : Nat
  arrived : List Nat
  phase0 : List Nat
  bad : List (Nat × Word)
  deps : List (Nat × List Nat)
  midway : Bool
  deriving DecidableEq, Repr

/-- A ring stage (R54, R379). `ts`, `homes` and `wrote`: what the arrivals of the half-lap that set P carry to the acquirer, the
lines being those that they wrote in the core's L1 (R234); `nts`, `nhomes` and `nwrote`: what those of the half-lap under way have
carried so far. -/
structure Stage where
  p : Bool
  a : Nat
  rv : Nat
  ts : VTime
  homes : List Nat
  nts : VTime
  nhomes : List Nat
  wrote : List Nat
  nwrote : List Nat
  deriving DecidableEq, Repr

/-- A ring: its descriptor (Table 2-6) and its stages. -/
structure Ring where
  desc : Word
  stages : List Stage
  deriving DecidableEq, Repr

/-- A barrier: its descriptor (Table 2-8), phase, count and E (R59); the timestamp and the lines that the arrivals of the last phase
carry to those that wait for its end (R234), and what those of the phase under way have carried so far. -/
structure Barrier where
  desc : Word
  phase : Bool
  count : Nat
  e : Nat
  ts : VTime
  nts : VTime
  wrote : List Nat
  nwrote : List Nat
  deriving DecidableEq, Repr

/-- A team's region of a typed buffer (R132): base, quota, placement number, written bytes, blocks scrubbed. -/
structure Region where
  base : Nat
  quota : Nat
  epoch : Nat
  bytes : List (Nat × Byte)
  scrubbed : List Nat
  deriving DecidableEq, Repr

/-- An entry of a pending-launch queue (R291): reserved until its release completes. -/
structure PendLaunch where
  id : Nat
  accepted : Bool
  record : List Word
  header : List Word
  prio : Nat
  deriving DecidableEq, Repr

/-- Where a team is (R265, R255). -/
inductive TStatus where
  | resident
  | saved
  | escalated (group slot : Nat)
  deriving DecidableEq, Repr

/-- A team, resident or saved (R31, R265). Its table key is its placement identity. `stopped`: its issue has stopped for the save that
`saving` asks for (R265 step 1). -/
structure Team where
  grid : Nat
  teamIdx : Nat
  part : Nat
  core : Nat
  die : Nat
  launch : Nat
  queue : Nat
  width : Nat
  nCopy : Nat
  nMatrix : Nat
  nVector : Nat
  budgets : List Nat
  quotas : List Nat
  cslots : Nat
  nrings : Nat
  prio : Nat
  placed : Nat
  placedTick : Nat
  saveVA : Nat
  savePA : Nat
  status : TStatus
  saving : Option Nat
  stopped : Bool
  tries : Nat
  groups : List (Nat × Group)
  flags : BitVec 7
  perf : List (Nat × DWord)
  rings : List (Nat × Ring)
  barriers : List (Nat × Barrier)
  pendq : List PendLaunch
  bind : List (Nat × Nat)
  regions : List Region
  handler : Option Nat
  woken : Option Nat
  pri : Bool
  vt : VTime
  homes : List Nat
  posts : Nat
  deriving DecidableEq, Repr

/-- Why a copy is held (R150, R151): the lane code, the address and AUX byte 0x090. -/
structure CopyHold where
  code : Nat
  va : Nat
  kind : Nat
  deriving DecidableEq, Repr

/-- A copy in flight (R145): its record as read at issue, and the positions already done. `vt`: the largest time of its memory
writes, with the agent that stamped it; `wrote`: their lines. `landing`: bytes of elements already converted that have not yet
reached the buffer side; `taken`: bytes of a buffer that is the source, read ahead of the others (R134). -/
structure Copy where
  id : Nat
  team : Nat
  group : Nat
  seq : Nat
  op : Nat
  record : List Word
  post : Nat
  pc : DWord
  done : List Nat
  rows : List (Nat × Nat)
  adds : List Nat
  held : Option CopyHold
  vt : VTime
  agent : Option Nat
  homes : List Nat
  wrote : List Nat
  landing : List (Nat × Byte)
  taken : List (Nat × Byte)
  deriving DecidableEq, Repr

/-- Tile operations (R157), with what each read at issue. -/
inductive TileKind where
  | tmma (fw : Word)
  | tzero
  | tstat (typ : ElemType) (mask : Lanes) (d : Nat)
  | tcvt (cw : Word)
  | tquant (cw : Word)
  deriving DecidableEq, Repr

/-- A tile operation in flight; handles as read at issue; `ra`, `rb`: the teams that remote handles resolved to. `landing`: once
it has computed its result, the bytes that have not yet reached its destination; `taken`: bytes of its operands read ahead of the others
(R134), key 2^20 * operand (0 in CB, 1 A, 2 B) + offset. -/
structure TileOp where
  id : Nat
  team : Nat
  group : Nat
  seq : Nat
  kind : TileKind
  dh : Word
  ah : Word
  bh : Word
  ra : Option Nat
  rb : Option Nat
  post : Nat
  pc : DWord
  landing : Option (List (Nat × Byte))
  taken : List (Nat × Byte)
  deriving DecidableEq, Repr

/-- An issue port (R37, R39): the group that holds it for its run. -/
structure Port where
  holder : Option (Nat × Nat)
  decisions : Nat
  deriving DecidableEq, Repr

/-- A control-store bank (R268, R269): the partition it is assigned to, and its slots. -/
structure Bank where
  part : Option Nat
  slots : List (Nat × List DWord)
  deriving DecidableEq, Repr

/-- Kinds of Piccolo entry (R223, R225). -/
inductive LogKind where
  | ld | st | ldacq | strel | atom (acq rel : Bool) | fence | other (asRelease : Bool)
  deriving DecidableEq, Repr

/-- The time of an event (R221): the stamping agent (none: no agent), and whether it is the time of a write. -/
structure EvTime where
  vt : VTime
  agent : Option Nat
  write : Bool
  deriving DecidableEq, Repr

/-- A commit-log entry (R223). `time`: once returned. `fwd`: the store whose time a forwarded load will carry. `rid`: the release
it stands for. `deps`: the earlier operations of the group whose values its address or data depends on. `asEarlier`: the time
under which later entries are checked against it, where it is not its own: of a join its operation's largest visibility time; of a
write to host memory, at SYSTEM scope, the bind time of the read that flushes it (R226). -/
structure LogEntry where
  idx : Nat
  team : Nat
  group : Nat
  seq : Nat
  pc : DWord
  mpc : Option Nat
  lane : Nat
  kind : LogKind
  scope : Scope
  line : Option Nat
  time : Option EvTime
  fwd : Option Nat
  rid : Option Nat
  replayed : Bool
  deps : List Nat
  asEarlier : Option EvTime
  deriving DecidableEq, Repr

/-- A cached translation (R174): the leaf of one 64 KiB page. -/
structure TlbEntry where
  part : Nat
  vpage : Nat
  leaf : DWord
  level : Nat
  deriving DecidableEq, Repr

/-- A core (R13): ports, copy slots, tile queue, banks, buffer block owners, Piccolo, caches and counters. `blocks`: the
partition that last held each 2 KiB block, keyed 64 * buffer + block, stored plus 1; `zeroed`: the blocks that a kill has scrubbed
to zero since (R167). -/
structure Core where
  ports : List Port
  copies : List (Nat × Copy)
  tiles : List TileOp
  banks : List Bank
  blocks : List (Nat × Nat)
  zeroed : List Nat
  log : List LogEntry
  logNext : Nat
  tlb : List TlbEntry
  fencesc : Nat
  fencescTick : Nat
  filtered : Word
  debugHalt : Bool
  deriving DecidableEq, Repr

/-- MOESI states in which a cache holds a line (R179). -/
inductive Moesi where
  | m | o | e | s
  deriving DecidableEq, Repr

/-- A cache's copy of a line: its state, its way, and the partitions for which the cache holds it (R242). -/
structure Holding where
  state : Moesi
  way : Nat
  parts : List Nat
  deriving DecidableEq, Repr

/-- One line in the caches (R228): its holders by agent, every cache that held it in S during the open reader interval, the
team and group that last wrote it in the open writer interval (R239), and that interval's start tick and start hash. -/
structure LineState where
  holders : List (Nat × Holding)
  shared : List Nat
  author : Option (Nat × Nat)
  start : Nat
  hstart : Word
  deriving DecidableEq, Repr

/-- Who emits a Bassoon record (Table 10-2): the L1 or slice that held the line, the line's home, or the HBM controller that
read or wrote it. -/
inductive RecSrc where
  | requester | home | stack
  deriving DecidableEq, Repr

/-- A record on its way to a home (R229, R230), unaltered. `agent`: the emitting agent (a stack: 3072 and its number 0 to 7). `lost`: it
will not arrive. `back`: it goes with data that are written back. -/
structure Expect where
  src : RecSrc
  home : Nat
  line : Nat
  close : Nat
  start : Nat
  agent : Nat
  hend : Word
  hstart : Word
  hold : Nat
  writer : Bool
  forced : Bool
  author : Option (Nat × Nat)
  lost : Bool
  back : Bool
  deriving DecidableEq, Repr

/-- A word of memory that carries a release timestamp (R197): the scope of the release, its team and core, and the lines written
before it in that core's L1 (R234). -/
structure Mark where
  word : Nat
  ts : VTime
  scope : Scope
  team : Nat
  core : Nat
  wrote : List Nat
  deriving DecidableEq, Repr

/-- A pool window (R191): size, whether it is coherent, and the port that it is bound to (none: interleaved across both). -/
structure PoolWindow where
  size : Nat
  coherent : Bool
  port : Option Nat
  deriving DecidableEq, Repr

/-- A directory region (R182): its size as a power of two, its holders, and the tick of its last request. -/
structure DirRegion where
  logSize : Nat
  holders : List Nat
  last : Nat
  deriving DecidableEq, Repr

/-- A report record (Table 15-2). -/
structure Report where
  part : Nat
  tag : Word
  grid : Word
  isGrid : Bool
  failed : Bool
  rung : Nat
  cause : Nat
  queue : Nat
  tick : Nat
  deriving DecidableEq, Repr

/-- What a held release does when it completes (Table 10-5, R290, R288, R318, R367). That of a report ring's write index names the
record that it publishes. -/
inductive RelKind where
  | strel (seq : Nat)
  | atom (seq : Nat)
  | ringput (ring stage : Nat)
  | bararv (n : Nat)
  | spawn (entry : Nat)
  | post (ring stage : Nat)
  | fence
  | fencesc
  | tinv (vpage pages : Nat) (all : Bool)
  | popr
  | pgmapFence (pool : Bool) (quad : List Word) (d : Nat) (e : Bool)
  | pgmapFill (entryAddr : Nat) (leaf : DWord) (d : Nat) (e : Bool)
  | pgmapLeaf (entryAddr : Nat) (leaf : DWord) (d : Nat) (e pool : Bool)
  | csload (addr : DWord) (sel : Word) (e : Bool)
  | gridEnd (grid : Nat)
  | launchEnd (launch : Nat)
  | reportIndex (part wr : Nat) (record : Report)
  deriving DecidableEq, Repr

/-- A held release (R205, R233). Group 64 stands for an engine thread or the front end. `drain`: for a FENCESC, the groups
of its core, each with the place in program order below which its operations must be performed (R208). `wrote`: lines written before it in
its core's L1 (R234). -/
structure Held where
  kind : RelKind
  team : Nat
  group : Nat
  role : Role
  seq : Nat
  pt : ResumePt
  lane : Nat
  scope : Scope
  enforce : Bool
  ts : VTime
  homes : List Nat
  split : Nat
  core : Nat
  log : Option Nat
  part : Nat
  drain : List (Nat × Nat × Nat)
  wrote : List Nat
  deriving DecidableEq, Repr

/-- A shoot-down in progress (R217, R397): the agents that have not acted and those that have not acknowledged. -/
structure Shoot where
  team : Nat
  group : Nat
  part : Nat
  vpage : Nat
  pages : Nat
  all : Bool
  todo : List Nat
  unacked : List Nat
  deriving DecidableEq, Repr

/-- A slice (R180): its way-mask register, the ways being flushed, and the ways flushed since they were cache. -/
structure Slice where
  ways : BitVec 16
  busy : Bool
  refused : Bool
  flushing : BitVec 16
  flushed : BitVec 16
  deriving DecidableEq, Repr

/-- A command queue (R282, R283, Table 14-3). `wait`: the words of a WAIT packet in progress; `watch`: where its value was last
read. `seed`: the seed grid whose placement holds the queue. `lined`: the LAUNCH packet at the read index that waits for the grid table
to have room, with the tick since when it is a ready item (R292, R299). -/
structure Queue where
  base : Nat
  rdaddr : Nat
  size : Nat
  cap : Nat
  die : Nat
  en : Bool
  wr : DWord
  rd : DWord
  quota : Nat
  deadline : Nat
  weight : Nat
  faults : Nat
  last : Nat
  gen : Nat
  wait : Option (List Word)
  watch : Nat
  seed : Option Nat
  lined : Option (Nat × List Word)
  deriving DecidableEq, Repr

/-- A master control-store slot (R269): its image (empty: invalid). -/
abbrev MasterSlot := List DWord

/-- A report ring (R318). -/
structure ReportRing where
  base : Nat
  logSize : Nat
  wrAddr : Nat
  wr : Nat
  rd : Nat
  deriving DecidableEq, Repr

/-- What the partitioning controller holds for a partition (R315, R328 section 6). `rested`: dies whose engine has nothing new
to decide since its last DISPATCH; `starved`: dies whose last DISPATCH found no candidate core (R299). `preempting`: the teams
that PREEMPTs have named and that are not yet saved. `walkFaults`: page-table
faults that walks have met (R173, R320). -/
structure Partition where
  tvbase : DWord
  ftpool : DWord
  chkmode : Word
  root : Nat
  savePool : List (Nat × Nat)
  report : Option ReportRing
  retry : Nat
  owner : Nat
  plim : List (Nat × DWord)
  master : List (Nat × MasterSlot)
  policyA : List Word
  policyB : List Word
  ppol : DWord
  gridCtr : Word
  queues : List (Nat × Queue)
  lost : Nat
  rested : List Nat
  starved : List Nat
  preempting : List Nat
  walkFaults : Nat
  deriving DecidableEq, Repr

/-- A launch (R286). -/
structure Launch where
  part : Nat
  queue : Nat
  die : Nat
  count : Nat
  tag : Word
  prio : Nat
  scope : Scope
  sigaddr : DWord
  sigval : DWord
  ended : Bool
  vt : VTime
  homes : List Nat
  deriving DecidableEq, Repr

/-- What has become of a grid. -/
inductive GridFate where
  | running | releasing | completed | failed
  deriving DecidableEq, Repr

/-- A grid that has begun (R292): its record, the kernel header's descriptors, its counts, and the tick at which its outcome was
fixed (Table 15-2). -/
structure Grid where
  launch : Nat
  part : Nat
  gridid : Word
  record : List Word
  header : List Word
  prio : Nat
  seed : Bool
  next : Nat
  alive : Nat
  again : List (Nat × Nat × Nat)
  ready : Nat
  fate : GridFate
  outcome : Nat
  vt : VTime
  homes : List Nat
  deriving DecidableEq, Repr

/-- The frozen view of a decision (R300, Tables 14-3 to 14-5): queue rows by index, candidate rows with the core or team
that each stands for, and the decision's fields. -/
structure PView where
  queues : List (Nat × List Nat)
  cands : List (List Nat)
  ids : List Nat
  dec : List Nat
  deriving DecidableEq, Repr

/-- A decision in flight (R299, R311): its view, the program it reads (none: the built-in rule) and that program's
generation. -/
structure Decision where
  part : Nat
  kind : Nat
  team : Nat
  view : PView
  prog : Option (List Word)
  gen : Nat
  deriving DecidableEq, Repr

/-- A front end (R299, R325): its pause and pause timer, the decision in flight, and whether its launch and grid tables hold an
uncorrectable error (R321). -/
structure FrontEnd where
  paused : Bool
  pauseSince : Nat
  deciding : Option Decision
  throttle : Nat
  inReset : Bool
  tableBad : Bool
  deriving DecidableEq, Repr

/-- A team killed by an operand-fetch fault that awaits its FAULT decision (R167); `cause` as Table 14-5 codes it. -/
structure FaultRec where
  team : Nat
  grid : Nat
  launch : Nat
  part : Nat
  queue : Nat
  prio : Nat
  teamIdx : Nat
  tries : Nat
  cause : Nat
  deriving DecidableEq, Repr

/-- A rung that has been started (R320): number, target (queue as 64 * partition + queue, die, partition), the tick by which
it is to complete (none while no leader runs it, R323), and the launch whose team missed a pre-emption deadline. -/
structure RungRun where
  rung : Nat
  target : Nat
  deadline : Option Nat
  missed : Option Nat
  deriving DecidableEq, Repr

/-- An image slot (R324): its bytes, header and body, and whether they have been found to be a verified image. -/
structure Image where
  body : List (Nat × Byte)
  verified : Bool
  deriving DecidableEq, Repr

/-- Where a live update stands (R325, R326): the blob captured; the new image started; READY set; the old image started; the
old image has installed; closed by the lease's restore (R327), completed or rolled back. -/
inductive UpdatePhase where
  | none | captured | installing | committed | rollingBack | reinstalled | ready | rolledBack
  deriving DecidableEq, Repr

/-- The hand-over blob's captured tables (Table 15-6, R328). `escalated`: the escalated teams with their frame addresses, and whether
a page request is outstanding. -/
structure Blob where
  lease : DWord
  health : List Nat
  parts : List (Nat × Partition)
  launches : List (Nat × Launch)
  grids : List (Nat × Grid)
  slices : List (Nat × Slice)
  windows : List (Nat × PoolWindow)
  records : List Report
  pending : List Instr
  escalated : List (Nat × Nat × Bool)
  deriving DecidableEq, Repr

/-- Firmware and the leader's lease (R314 to R329). `health`: one above the tick of each core's last HEALTH write, 0 before the first.
`down`: cores whose HEALTH lapse has been seen. `demoted`: the lease's holder has been reset since it took the lease, and is a follower
(R321). `queued`: requests held for a leader or for the end of an update (R317, R325). `watchdog`: the tick at which the update
watchdog expires. `pausedHalf`: the pauses of an update so far, in half ticks (1 ms is 15,625). `sram`: the hand-over SRAM (R325).
`fwRun`, `beretRun`: the controller has a verified image to run (R324). `configOk`: the configuration record in flash checks (R21). -/
structure Firmware where
  lease : DWord
  health : List Nat
  down : List Nat
  demoted : Bool
  rungs : List RungRun
  queued : List Instr
  update : UpdatePhase
  updCtrl : Controller
  watchdog : Nat
  pausedHalf : Nat
  blob : Option Blob
  sram : List Byte
  fwA : Image
  fwB : Image
  beretA : Image
  beretB : Image
  fwActive : Bool
  beretActive : Bool
  fwRun : Bool
  beretRun : Bool
  config : List (Nat × Byte)
  configOk : Bool
  mgmtOnly : Bool
  keyValid : Bool
  deriving DecidableEq, Repr

/-- An event-log entry of 32 bytes (R332): tick, class, code, source, data. -/
structure LogRec where
  tick : DWord
  cls : BitVec 16
  code : BitVec 16
  src : Word
  data : BitVec 128
  deriving DecidableEq, Repr

/-- Replies of the mailbox (R330). -/
inductive Reply where
  | ok | unknown | busy | noKey | refused
  | status (update : UpdatePhase) (fwB beretB : Bool) (rung holder : Nat)
  | sensors (r : Readings) (throttle : List Nat)
  | log (entries : List LogRec)
  | attest (report sig pub : List Byte)
  deriving DecidableEq, Repr

/-- Beret (R330 to R334): last readings, power limits, event log, replies. `log` holds the entries up to number `logCount`;
the 32,768 youngest stand in SRAM, and those below number `flash` have reached the flash ring. `below`: milliseconds that
power has stayed 5 % below the limit. `hotLimit`, `critLimit`, `coolLimit`: the junction temperatures of R334 in quarter degrees, as the
configuration record limits them (R26). -/
structure Beret where
  readings : Readings
  cfgLimit : Nat
  hotLimit : Nat
  critLimit : Nat
  coolLimit : Nat
  powerLim : Nat
  below : Nat
  log : List LogRec
  logCount : Nat
  flash : Nat
  overwrites : Nat
  replies : List Reply
  deriving DecidableEq, Repr

/-- A move of the device: a port issues one instruction of the group that holds or wins it; another agent acts; a decision
takes its snapshot (R300); an uncorrectable error strikes a register (R261) or a line of memory (Table 8-3); the cores of an
update restart (R325 steps 3 and 4); the new image pauses dispatch to install (R325 step 5); a core's translation cache gives
up a page (R174), or all of them when the core is power-gated (R262); one element of a copy or one byte of a copy, a tile operation or
a typed-buffer access is done ahead of the others, and a TMMA that starts from +0 writes it first (R134); a TSTAT overtakes a tile operation, or is overtaken (R158); a directory gives up a region (R182); a Bassoon record is lost (R230); the
settings of the configuration record are made (R21); a byte of package flash turns bad (R324); a die's launch tables turn bad, firmware
answers walk faults, and firmware refuses an escalated team (R320). -/
inductive Move where
  | issue (core port : Nat)
  | event (i : Instr)
  | freeze (die part kind team : Nat)
  | regError (team group key : Nat) (bits : Word)
  | lineError (line : Nat)
  | updateRestart
  | updatePause
  | forget (core part vpage : Nat)
  | gate (core : Nat)
  | copyUnit (core slot k : Nat)
  | copyByte (core slot off : Nat)
  | tileStart (core : Nat)
  | tileByte (core off : Nat)
  | tileSwap (core k : Nat)
  | accessByte (team group seq lane m byte : Nat)
  | copyRead (core slot off : Nat)
  | tileRead (core operand off : Nat)
  | tileZero (core off : Nat)
  | dirEvict (home base : Nat)
  | loseRecord (n : Nat)
  | configure
  | flashError (c : Controller) (slotB : Bool) (offset : Nat) (byte : Byte)
  | tableError (die : Nat)
  | walkRung (part : Nat)
  | refuse (team : Nat)
  deriving DecidableEq, Repr

/-- The whole device. `cycle`: how many of the tick's 128 cycles have passed, as far as a counter of cycles needs it (R87). `due`: waits whose counter is to be read again, because its line has been written or snooped (R294).
`cleared`: lines of a quarantined home whose quarantine has been cleared (R238). `recalls`: lines whose quarantine has begun and takes effect by
the end of the tick (R243). `dirs`: each home's
directory (R182). `cutPackets`: sender, core and group of the packets that were cut short and still have flits to come, which are
dropped (R189). `probes`: probes sent and not yet answered, as core, partition, line (R183). `sleepTick`: the tick of the last
entry to retention sleep, or wake from it (R242). -/
structure State where
  powered : Bool
  tick : Nat
  mem : List Host.Cell
  marks : List Mark
  badLines : List Nat
  quarantine : List Nat
  quarantinedHomes : List Nat
  cleared : List Nat
  recalls : List Nat
  teams : List (Nat × Team)
  cores : List (Nat × Core)
  lines : List (Nat × LineState)
  expects : List Expect
  dirs : List (Nat × List (Nat × DirRegion))
  probes : List (Nat × Nat × Nat)
  due : List WaitAt
  homes : List (Nat × Nat)
  stamps : List (Nat × Nat × Nat)
  held : List (Nat × Held)
  shoots : List (Nat × Shoot)
  flits : List Flit
  cutPackets : List (Nat × Nat × Nat)
  slices : List (Nat × Slice)
  windows : List (Nat × PoolWindow)
  hostRefused : List (Nat × Nat)
  sleeping : Bool
  sleepTick : Nat
  wrapHold : Bool
  parts : List (Nat × Partition)
  launches : List (Nat × Launch)
  grids : List (Nat × Grid)
  reports : List Report
  fronts : List FrontEnd
  faults : List FaultRec
  fw : Firmware
  beret : Beret
  agenda : List Move
  cycle : Nat
  cur : Option (Nat × Nat)
  fresh : Nat
  nextId : Nat
  deriving DecidableEq, Repr

/-- Reasons to stop. -/
inductive Fault where
  /-- Raised by every instruction row when no group is issuing; `step` never runs an instruction so. Safe. -/
  | noIssuingGroup
  deriving DecidableEq, Repr

/-- Reasons to refuse. -/
inductive Refusal where
  /-- Raised by the arms of Dispatch that have no meaning yet, with the row's mnemonic. Safe. -/
  | notModelled (mnemonic : String)
  deriving DecidableEq, Repr

/-! ### Values at reset -/

def Port.idle : Port := ⟨none, 0⟩
def Bank.free : Bank := ⟨none, []⟩
def Core.idle : Core :=
  { ports := [Port.idle, Port.idle, Port.idle, Port.idle], copies := [], tiles := [],
    banks := [Bank.free, Bank.free, Bank.free, Bank.free], blocks := [], zeroed := [], log := [], logNext := 0, tlb := [],
    fencesc := 0, fencescTick := 0, filtered := 0, debugHalt := false }

/-- Table 8-7's reset: every way is cache. -/
def Slice.idle : Slice := { ways := 0xFFFF, busy := false, refused := false, flushing := 0, flushed := 0 }

/-- The registers of a partition at reset; those without a stated value are 0 (log entry 7). -/
def Partition.idle : Partition :=
  { tvbase := 0, ftpool := 0, chkmode := 0, root := 0, savePool := [], report := none, retry := 0, owner := 0, plim := [],
    master := [], policyA := [], policyB := [], ppol := 0, gridCtr := 0, queues := [], lost := 0, rested := [], starved := [],
    preempting := [], walkFaults := 0 }

def Queue.idle : Queue :=
  { base := 0, rdaddr := 0, size := 4, cap := 0, die := 0, en := false, wr := 0, rd := 0, quota := 0, deadline := 0,
    weight := 0, faults := 0, last := 0, gen := 0, wait := none, watch := 0, seed := none, lined := none }

def FrontEnd.idle : FrontEnd := ⟨false, 0, none, 0, false, false⟩

def Stage.idle : Stage := { p := false, a := 0, rv := 0, ts := 0, homes := [], nts := 0, nhomes := [], wrote := [], nwrote := [] }

/-- QSTAT's reset is Table 8-9's: ALW 8, all else 0. -/
def QPort.idle : QPort :=
  { qdst := 0, isOpen := false, sent := 0, alw := [], norcv := false, prst := false, rlast := false, rgroup := 0,
    rcore := 0, rq := [], cur := none, cut := false }

def Image.blank : Image := ⟨[], false⟩
def Readings.zero : Readings := ⟨[], [], [], 0, []⟩

/-- LEASE resets to 0, so VALID is 0 (Table 15-1). The boot images and the configuration record are those that
package flash holds; the model takes them as verified and lists none of their bytes (log entry 9). -/
def Firmware.idle : Firmware :=
  { lease := 0, health := [0, 0, 0, 0, 0], down := [], demoted := false, rungs := [], queued := [], update := .none, updCtrl := .fw,
    watchdog := 0, pausedHalf := 0, blob := none, sram := [], fwA := ⟨[], true⟩, fwB := Image.blank, beretA := ⟨[], true⟩,
    beretB := Image.blank, fwActive := false, beretActive := false, fwRun := true, beretRun := true, config := [],
    configOk := true, mgmtOnly := false, keyValid := true }

def Beret.idle : Beret :=
  { readings := Readings.zero, cfgLimit := 2800, hotLimit := 420, critLimit := 480, coolLimit := 380, powerLim := 2800, below := 0, log := [], logCount := 0, flash := 0,
    overwrites := 0, replies := [] }

/-- The device right after a whole-device reset (R4, R269, R320 rung 6): the tick is 0, nothing is resident, every
register holds its stated reset value or the value that log entries 7 to 9 name. -/
def State.reset : State :=
  { powered := true, tick := 0, mem := [], marks := [], badLines := [], quarantine := [], quarantinedHomes := [], cleared := [], recalls := [], teams := [], cores := [],
    lines := [], expects := [], dirs := [], probes := [], due := [], homes := [], stamps := [], held := [], shoots := [], flits := [], cutPackets := [], slices := [],
    windows := [], hostRefused := [], sleeping := false, sleepTick := 0, wrapHold := false, parts := [], launches := [], grids := [], reports := [],
    fronts := [FrontEnd.idle, FrontEnd.idle, FrontEnd.idle, FrontEnd.idle], faults := [], fw := Firmware.idle,
    beret := Beret.idle, agenda := [], cycle := 0, cur := none, fresh := 0, nextId := 0 }

end Sys2Proof.Machine
end

