-- ==== Sys2Proof/Machine/Access.lean ====
section
/-! DEFINITION. Reading and writing the parts of the state: teams, groups, cores, register files, masks and guard, memory
bytes, FLAGS and PERF, the event log. Every later operation goes through these. -/
namespace Sys2Proof.Machine

/-! ### Tables -/

def State.team? (s : State) (t : Nat) : Option Team := alook s.teams t
def State.core (s : State) (c : Nat) : Core := (alook s.cores c).getD Core.idle
def State.part (s : State) (p : Nat) : Partition := (alook s.parts p).getD Partition.idle
def State.slice (s : State) (h : Nat) : Slice := (alook s.slices h).getD Slice.idle
def Partition.queue (p : Partition) (q : Nat) : Queue := (alook p.queues q).getD Queue.idle

def State.putTeam (s : State) (t : Nat) (x : Team) : State := { s with teams := aput s.teams t x }
def State.putCore (s : State) (c : Nat) (x : Core) : State := { s with cores := aput s.cores c x }
def State.putPart (s : State) (p : Nat) (x : Partition) : State := { s with parts := aput s.parts p x }
def State.putSlice (s : State) (h : Nat) (x : Slice) : State := { s with slices := aput s.slices h x }
def Partition.putQueue (p : Partition) (q : Nat) (x : Queue) : Partition := { p with queues := aput p.queues q x }

/-- Apply a change to a team when it exists. -/
def State.updTeam (s : State) (t : Nat) (f : Team → Team) : State :=
  match s.team? t with
  | some x => s.putTeam t (f x)
  | none => s

def State.updCore (s : State) (c : Nat) (f : Core → Core) : State := s.putCore c (f (s.core c))
def State.updPart (s : State) (p : Nat) (f : Partition → Partition) : State := s.putPart p (f (s.part p))
def State.updQueue (s : State) (p q : Nat) (f : Queue → Queue) : State :=
  s.updPart p (fun x => x.putQueue q (f (x.queue q)))

def Team.group? (x : Team) (g : Nat) : Option Group := alook x.groups g
def Team.putGroup (x : Team) (g : Nat) (y : Group) : Team := { x with groups := aput x.groups g y }
def Team.updGroup (x : Team) (g : Nat) (f : Group → Group) : Team :=
  match x.group? g with
  | some y => x.putGroup g (f y)
  | none => x

/-- Apply a change to every group of a team. -/
def Team.mapGroups (x : Team) (f : Nat → Group → Group) : Team :=
  { x with groups := x.groups.map (fun e => (e.1, f e.1 e.2)) }

def State.updGroup (s : State) (t g : Nat) (f : Group → Group) : State := s.updTeam t (fun x => x.updGroup g f)

/-- The group that is at (t, g). -/
def State.group? (s : State) (t g : Nat) : Option Group := (s.team? t).bind (fun x => x.group? g)

/-- The place from which an instruction issues: the team and group, by table keys and as they stand at issue; `errs`: lanes
that do not take part because a register they read is in error (R261). -/
structure Site where
  t : Nat
  g : Nat
  tm : Team
  gr : Group
  errs : Lanes
  deriving DecidableEq, Repr

/-- The issuing group. -/
def State.site? (s : State) : Option Site :=
  match s.cur with
  | some (t, g) =>
    match s.team? t with
    | some tm => (tm.group? g).map (fun gr => ⟨t, g, tm, gr, 0⟩)
    | none => none
  | none => none

/-- Change the issuing group. -/
def State.onSite (s : State) (x : Site) (f : Group → Group) : State := s.updGroup x.t x.g f

/-- A number no earlier call has given: names operations, releases, teams and grids in the model's tables. -/
def State.newId (s : State) : Nat := s.nextId
def State.bumpId (s : State) : State := { s with nextId := s.nextId + 1 }

/-! ### Register files (R61 to R67) -/

def Group.getS (g : Group) (r : Nat) : Word := sget 0 g.s r
/-- A register's name in the table of errors (R261). -/
def sKey (r : Nat) : Nat := 8192 + r
def Group.setS (g : Group) (r : Nat) (v : Word) : Group := { g with s := sput 0 g.s r v, bad := adel g.bad (sKey r) }
def Group.getV (g : Group) (r l : Nat) : Word := sget 0 g.v (64 * r + l)
def Group.setV (g : Group) (r l : Nat) (v : Word) : Group :=
  { g with v := sput 0 g.v (64 * r + l) v, bad := adel g.bad (64 * r + l) }
def Group.getK (g : Group) (r : Nat) : Lanes := sget 0 g.k r
/-- All ones in the width's lanes (R27). -/
def fullMask (w : Nat) : Lanes := BitVec.ofNat 64 (2 ^ w - 1)
/-- A K write ignores the bits at and above the width (R27). -/
def Group.setK (g : Group) (w r : Nat) (v : Lanes) : Group := { g with k := sput 0 g.k r (v &&& fullMask w) }

/-- Consecutive S registers, and an aligned pair as a 64-bit value (R7). -/
def Group.getSn (g : Group) (r n : Nat) : List Word := (span r n).map g.getS
def Group.setSn (g : Group) (r : Nat) : List Word → Group
  | [] => g
  | v :: vs => Group.setSn (g.setS r v) (r + 1) vs
def Group.getPair (g : Group) (r : Nat) : DWord := pairOf (g.getS r) (g.getS (r + 1))
def Group.setPair (g : Group) (r : Nat) (v : DWord) : Group := (g.setS r (loWord v)).setS (r + 1) (hiWord v)

/-- A lane of a mask. -/
def laneOf (m : Lanes) (l : Nat) : Bool := m.getLsbD l

/-- The lanes of a mask in ascending order. -/
def lanesOf (m : Lanes) : List Nat := (span 0 64).filter (laneOf m)

/-- A mask from a predicate on the lanes below a width. -/
def maskOf (w : Nat) (p : Nat → Bool) : Lanes :=
  (span 0 w).foldl (fun (m : Lanes) l => if p l then m ||| (1 <<< l) else m) 0

/-- Write V[r][l] for each listed lane. -/
def Group.setVs (g : Group) (r : Nat) : List (Nat × Word) → Group
  | [] => g
  | (l, v) :: rest => Group.setVs (g.setV r l v) r rest

/-- Fields of GMR (Table 3-3). -/
def gmrType (m : Word) : ElemType := (typeOfCode (fieldOf m 9 5)).getD .i32
def gmrScope (m : Word) : Scope := (scopeOfCode (fieldOf m 15 13)).getD .group
def gmrMode (m : Word) : VMode := ⟨gmrType m, rmodeOfCode (fieldOf m 11 10), m.getLsbD 12⟩

/-- The guard of each lane (R67). -/
def Group.guard (g : Group) (w : Nat) : Lanes :=
  if g.gmr.getLsbD 3 then
    let k := g.getK (fieldOf g.gmr 2 0)
    (if g.gmr.getLsbD 4 then ~~~k else k) &&& fullMask w
  else fullMask w

/-- The effective mask (R28); a replay performs only the lanes of the replay mask (R256). -/
def Group.emask (g : Group) (w : Nat) : Lanes :=
  let m := g.active &&& g.guard w
  match g.replay with
  | some r => m &&& r
  | none => m

/-- SUPER from trap entry until its POPR (R74, R248): while a frame slot is in use. -/
def Group.super (g : Group) : Bool := !g.frames.isEmpty

/-- Every access of an operation is done: what it has left to do is to report its late causes (R338). -/
def PendOp.settled (o : PendOp) : Bool := o.accs.all (·.done)

/-- An operation that issued before the handler that runs reports when that handler has returned (log entry 75). -/
def Group.reports (g : Group) (o : PendOp) : Bool := g.frames.all (fun f => decide (f.2.seq ≤ o.seq))

/-- An operation that counts as in flight. -/
def Group.pending (g : Group) (o : PendOp) : Bool := !o.settled || g.reports o

def Group.isRetired (g : Group) : Bool := g.status == .retired
def Team.live (x : Team) : List (Nat × Group) := x.groups.filter (fun e => !e.2.isRetired)

/-- The team's partition's CHKMODE fields (Table 3-11). -/
def Partition.hzd (p : Partition) : Bool := p.chkmode.getLsbD 2
def Partition.xfen (p : Partition) : Bool := p.chkmode.getLsbD 3
def Partition.enforce (p : Partition) : Bool := fieldOf p.chkmode 1 0 == 0

/-! ### FLAGS and PERF (R79, R87) -/

def State.raise (s : State) (t : Nat) (f : Fl) : State :=
  if f = 0 then s else s.updTeam t (fun x => { x with flags := x.flags ||| f })

/-- A PERF counter after n events of kind ev: COUNT stops at 2^48 - 1. -/
def perfBump (r : DWord) (ev n : Nat) : DWord :=
  if field64 r 63 56 = ev ∧ ev ≠ 0 then
    BitVec.ofNat 64 (field64 r 63 48 * 2 ^ 48 + min (field64 r 47 0 + n) (2 ^ 48 - 1))
  else r

def Team.count (x : Team) (ev n : Nat) : Team := { x with perf := x.perf.map (fun e => (e.1, perfBump e.2 ev n)) }
def State.count (s : State) (t ev n : Nat) : State := s.updTeam t (fun x => x.count ev n)

/-! ### Message ports -/

/-- A flit's sender as one number: a packet is one sender's. -/
def Flit.sender (f : Flit) : Nat := 64 * f.srcTeam + f.srcGroup

/-- The next flit that QRECV returns: of the packet begun, or else the oldest (R188). -/
def QPort.nextFlit (q : QPort) : Option Flit :=
  match q.cur with
  | some p => q.rq.find? (fun f => f.sender == p)
  | none => q.rq.head?

/-! ### Memory: keys are physical addresses; a host address a has key a + 2^52. An unlisted byte reads as 0 (log entry 8) -/

def hostBase : Nat := 2 ^ 52

/-- What an unlisted byte of memory reads as (log entry 8). -/
def memRest : Byte := 0

abbrev Memory.wf (m : List Host.Cell) : Prop := swf memRest m = true

def State.byte (s : State) (a : Nat) : Byte := sget memRest s.mem a
def State.putByte (s : State) (a : Nat) (b : Byte) : State := { s with mem := sput memRest s.mem a b }
def State.bytes (s : State) (a n : Nat) : List Byte := sgetAll memRest s.mem a n
def State.putBytes (s : State) (a : Nat) (bs : List Byte) : State := { s with mem := sputAll memRest s.mem a bs }
def State.read32 (s : State) (a : Nat) : Word := BitVec.ofNat 32 (ofBytes (s.bytes a 4))
def State.read64 (s : State) (a : Nat) : DWord := BitVec.ofNat 64 (ofBytes (s.bytes a 8))
def State.write32 (s : State) (a : Nat) (v : Word) : State := s.putBytes a (bytesOf 4 v.toNat)
def State.write64 (s : State) (a : Nat) (v : DWord) : State := s.putBytes a (bytesOf 8 v.toNat)

/-- The line of a memory key. -/
def lineOf (a : Nat) : Nat := a / 128

/-! ### The event log (R332) -/

/-- Entries that the flash ring of 16 MiB holds. -/
def flashRing : Nat := 524288

/-- The class data of an entry: up to four numbers of four bytes each, lowest first (log entry 42). -/
def classData (data : List Nat) : BitVec 128 := BitVec.ofNat 128 ((data.take 4).foldr (fun n m => n % 2 ^ 32 + 2 ^ 32 * m) 0)

/-- Append an entry. The SRAM ring holds 32,768 entries; an overwrite there is counted. -/
def State.logBits (s : State) (cls code src : Nat) (data : BitVec 128) : State :=
  let b := s.beret
  let e : LogRec := ⟨BitVec.ofNat 64 s.tick, BitVec.ofNat 16 cls, BitVec.ofNat 16 code, BitVec.ofNat 32 src, data⟩
  let log := (if b.log.length ≥ flashRing then b.log.drop 1 else b.log) ++ [e]
  { s with beret := { b with log := log, logCount := b.logCount + 1, overwrites := b.overwrites + (decide (b.logCount ≥ 32768)).toNat } }

/-- An entry whose class data are numbers. -/
def State.logEvent (s : State) (cls code src : Nat) (data : List Nat) : State := s.logBits cls code src (classData data)

end Sys2Proof.Machine
end

