-- ==== Sys2Proof/Machine/MemSys.lean ====
section
/-! DEFINITION. The memory system: physical map and homes (R176, R177), page tables and translation caches (R173 to R175),
typed-buffer regions (R132), visibility times (R204), permission intervals and the records they close with (R228 to R234). -/
namespace Sys2Proof.Machine

/-- Resident teams of a core. -/
def teamsOn (s : State) (c : Nat) : List (Nat × Team) :=
  s.teams.filter (fun e => decide (e.2.core = c) && e.2.status == .resident)

/-! ### Physical map (Table 8-6) -/

inductive Target where
  | hbm | scratch | pool | host | none
  deriving DecidableEq, Repr

def dieSpan : Nat := 0x1800000000
def hbmTop : Nat := 0x6000000000
def scratchBase : Nat := 0x8000000000
def poolBase : Nat := 2 ^ 51

/-- The target of a memory key. -/
def targetOf (a : Nat) : Target :=
  if a < hbmTop then .hbm
  else if scratchBase ≤ a ∧ a < scratchBase + 4 * 2 ^ 27 ∧ a % 2 ^ 27 < 160 * 2 ^ 19 then .scratch
  else if poolBase ≤ a ∧ a < hostBase then .pool
  else if hostBase ≤ a then .host
  else .none

/-- XOR of the 5-bit fields of t (R177). -/
def fold5 : Nat → Nat → Nat
  | 0, _ => 0
  | n + 1, t => (t % 32) ^^^ fold5 n (t / 32)

/-- The home slice of an offset within a die's range (R177). -/
def sliceOf (o : Nat) : Nat :=
  let b := o / 512
  let t := b / 160
  let q := b % 160
  q / 32 * 32 + ((q % 32) ^^^ fold5 8 t)

/-- The HBM stack of an offset's line (R177): 2 * die + block mod 2. -/
def stackOf (a : Nat) : Nat := 2 * (a / dieSpan) + a % dieSpan / 512 % 2

/-- The pool window that holds an address (R191). -/
def State.window (s : State) (a : Nat) : Option (Nat × PoolWindow) := s.windows.find? (fun w => decide (w.1 ≤ a ∧ a < w.1 + w.2.size))

/-- The home of a line's key: 160 * die + slice; for the pool 640 + the port that its window is bound to, or, when the window is
interleaved at 4 KiB, the port of its page (R191); none for host memory and slice scratch, which have no involved home (R233). -/
def homeOf (s : State) (a : Nat) : Option Nat :=
  match targetOf a with
  | .hbm => some (160 * (a / dieSpan) + sliceOf (a % dieSpan))
  | .pool => some (640 + (match (s.window a).bind (·.2.port) with | some p => p % 2 | none => a / 4096 % 2))
  | _ => none

/-- The slice that holds a scratch address (Table 8-6): 160 * die + slice. -/
def scratchSlice (a : Nat) : Nat := 160 * ((a - scratchBase) / 2 ^ 27) + (a - scratchBase) % 2 ^ 27 / 2 ^ 19

/-- The agent that stamps at a home (R202, R229): the slice's number, for its scratch too (R180); ports and the X-die take
numbers above the slices. -/
def homeAgent (s : State) (a : Nat) : Nat :=
  match homeOf s a with
  | some h => 2048 + h
  | none => if targetOf a = .scratch then 2048 + scratchSlice a else 2048 + 642

/-- The slice scratch that the ways of a slice leave (R180): the k-th scratch way holds 32 KiB times k onwards. -/
def scratchBytes (ways : BitVec 16) : Nat := 32768 * (16 - countBits ways.toNat 16)

/-- Bits of ADDR that a leaf at a level must leave zero (Table 8-4): the bytes that it maps. -/
def leafAlign (level : Nat) : Nat := match level with | 1 => 2 ^ 42 | 2 => 2 ^ 29 | _ => 2 ^ 16

/-- Whether the page of a leaf at a level lies whole in the region its TGT names (R173). Pool windows are multiples of 512 MiB;
the scratch of a die ends short of its 128 MiB, so no leaf above level 3 lies in scratch. -/
def inTarget (s : State) (tgt level a : Nat) : Bool :=
  match tgt with
  | 0 => decide (a + leafAlign level ≤ hbmTop)
  | 1 => true
  | 2 => (span 0 (max 1 (leafAlign level / 2 ^ 29))).all (fun i => (s.window (a + 2 ^ 29 * i)).isSome)
  | _ => decide (level = 3) && targetOf a == .scratch

/-- The accesses of the pool that are uncached (HDM-H ranges, Table 8-11). -/
def uncachedPool (s : State) (a : Nat) : Bool := s.windows.any (fun w => decide (w.1 ≤ a ∧ a < w.1 + w.2.size) && !w.2.coherent)

/-- A line that caches hold (R179). -/
def cached (s : State) (a : Nat) : Bool :=
  match targetOf a with
  | .hbm => true
  | .pool => !uncachedPool s a
  | _ => false

/-! ### Page tables (R173) -/

inductive Walk where
  | leaf (e : DWord) (level : Nat)
  | absent
  | bad
  | uncorrectable
  deriving DecidableEq, Repr

def entryAddr (e : DWord) : Nat := field64 e 51 16 * 65536

/-- Table 8-5 for a valid entry at a level. -/
def entryOk (s : State) (e : DWord) (level : Nat) : Bool :=
  field64 e 63 60 == 0 && field64 e 53 52 == 0 && field64 e 15 2 == 0
    && (if e.getLsbD 1 then entryAddr e % leafAlign level == 0 && inTarget s (field64 e 59 58) level (entryAddr e)
        else field64 e 59 54 == 0 && decide (level < 3))

def vaIndex (va level : Nat) : Nat := match level with | 1 => bitsOf va 54 42 | 2 => bitsOf va 41 29 | _ => bitsOf va 28 16

/-- The walk from a table at a level; `fuel` levels remain. -/
def walkFrom (s : State) (va : Nat) : Nat → Nat → Nat → Walk
  | 0, _, _ => .bad
  | fuel + 1, level, table =>
    let a := table + 8 * vaIndex va level
    if s.badLines.contains (lineOf a) then .uncorrectable
    else
      let e := s.read64 a
      if !e.getLsbD 0 then .absent
      else if !entryOk s e level then .bad
      else if e.getLsbD 1 then .leaf e level
      else walkFrom s va fuel (level + 1) (entryAddr e)

/-- The translation of a page: the core's cached entry when it holds one, else a walk (R174). -/
def findLeaf (s : State) (core part va : Nat) : Walk :=
  match (s.core core).tlb.find? (fun e => e.part == part && e.vpage == va / 65536) with
  | some e => .leaf e.leaf e.level
  | none => walkFrom s va 3 1 (s.part part).root

/-- The memory key of an address under a leaf. -/
def leafKey (e : DWord) (level va : Nat) : Nat :=
  entryAddr e + va % leafAlign level + (if field64 e 59 58 = 1 then hostBase else 0)

/-- The host refuses a translation to a partition, whose PASID the request carries (R175, R335). -/
def hostRefuses (s : State) (part key : Nat) : Bool := hostBase ≤ key && s.hostRefused.contains (part, (key - hostBase) / 65536)

/-- What an access needs of its leaf (Table 8-5). -/
inductive Right where
  | rd | wr | at | x
  deriving DecidableEq, Repr

def hasRight (e : DWord) (r : Right) : Bool :=
  match r with | .rd => e.getLsbD 54 | .wr => e.getLsbD 55 | .x => e.getLsbD 56 | .at => e.getLsbD 57

/-- The outcome of translating one address for an access: a key, or a lane cause (Table 8-3 rows 4 to 6); `ats` marks a
host refusal (R258). -/
inductive Trans where
  | ok (key : Nat)
  | cause (c : Nat) (ats : Bool)
  deriving DecidableEq, Repr

/-- Row 4's address side for scratch: a scratch address that no scratch way holds (R180). -/
def scratchAbsent (s : State) (key : Nat) : Bool :=
  targetOf key == .scratch &&
    decide (scratchBytes (s.slice (scratchSlice key)).ways ≤ (key - scratchBase) % 2 ^ 19)

def translate (s : State) (core part va : Nat) (rights : List Right) : Trans :=
  match findLeaf s core part va with
  | .uncorrectable => .cause 6 false
  | .bad => .cause 4 false
  | .absent => .cause 5 false
  | .leaf e level =>
    let key := leafKey e level va
    if !rights.all (hasRight e) then .cause 4 false
    else if scratchAbsent s key then .cause 4 false
    else if hostRefuses s part key then .cause 5 true
    else .ok key

/-- A walk that meets a broken entry or uncorrectable data is logged to Beret's event log (R173), and counts against its partition
(R320). -/
def logWalk (s : State) (core part va : Nat) : State :=
  let note := fun (code : Nat) => (s.updPart part (fun p => { p with walkFaults := p.walkFaults + 1 })).logEvent 2 code core [va, part]
  match findLeaf s core part va with
  | .bad => note 4
  | .uncorrectable => note 6
  | .absent => s
  | .leaf _ _ => s

/-! ### Quarantine (R238) -/

/-- A line is quarantined on its own account or with its home, unless a SUPER store or firmware has cleared it since. -/
def quarantined (s : State) (a : Nat) : Bool :=
  s.quarantine.contains (lineOf a) ||
    ((match homeOf s a with | some h => s.quarantinedHomes.contains h | none => false) && !s.cleared.contains (lineOf a))

/-- Clear the quarantine of a line (R238). -/
def clearQuarantine (s : State) (l : Nat) : State :=
  { s with quarantine := s.quarantine.filter (· != l), cleared := if s.quarantinedHomes.isEmpty then s.cleared else l :: s.cleared.filter (· != l) }

/-- An access of a lane returns uncorrectable data, or its line is quarantined and the lane is not SUPER. -/
def dataBad (s : State) (a : Nat) (super : Bool) : Bool :=
  s.badLines.contains (lineOf a) || (quarantined s a && !super)

/-- Row 6 of Table 8-3 for an access: a store returns no data, so only a quarantine reaches it. -/
def accessBad (s : State) (a : Nat) (super store : Bool) : Bool :=
  if store then quarantined s a && !super else dataBad s a super

/-! ### Typed-buffer regions (R132) -/

def Team.region (x : Team) (b : Nat) : Region := x.regions.getD b ⟨0, 0, 0, [], []⟩

/-- A byte of a region: what was written; 0 in a scrubbed block; otherwise undefined (a free value, log entry 1). -/
def Region.byte (r : Region) (o : Nat) : Byte :=
  match alook r.bytes o with
  | some b => b
  | none => if r.scrubbed.contains ((r.base + o) / 2048) then 0 else Config.freeByte r.epoch o

def Region.putByte (r : Region) (o : Nat) (b : Byte) : Region := { r with bytes := aput r.bytes o b }

def Region.putBytes (r : Region) (o : Nat) : List Byte → Region
  | [] => r
  | b :: bs => Region.putBytes (r.putByte o b) (o + 1) bs

def Region.read (r : Region) (o n : Nat) : List Byte := (span o n).map r.byte

def Team.putRegion (x : Team) (b : Nat) (r : Region) : Team := { x with regions := setAt x.regions b r }

/-- Reading and writing one byte of a location; a team that has gone reads as 0 and takes no write. -/
def State.locByte (s : State) (l : Loc) (i : Nat) : Byte :=
  if l.space = 0 then s.byte (l.addr + i)
  else
    match s.team? l.team with
    | some x => (x.region (l.space - 1)).byte (l.addr + i)
    | none => 0

def State.locPut (s : State) (l : Loc) (bs : List Byte) : State :=
  if l.space = 0 then s.putBytes l.addr bs
  else s.updTeam l.team (fun x => x.putRegion (l.space - 1) ((x.region (l.space - 1)).putBytes l.addr bs))

/-! ### Times (R204, R221) -/

/-- Writes that an agent has stamped in the current tick. -/
def State.stampCount (s : State) (agent : Nat) : Nat :=
  match alook s.stamps agent with
  | some (t, n) => if t = s.tick then n else 0
  | none => 0

/-- The time an agent's next write takes, and of a read it supplies now; SEQ has 16 bits (Table 9-2). -/
def State.now (s : State) (agent : Nat) : VTime := s.tick * 65536 + min (s.stampCount agent) 65535
def State.stamp (s : State) (agent : Nat) : State := { s with stamps := aput s.stamps agent (s.tick, s.stampCount agent + 1) }

/-- Room for n more stamps of any agent in this tick: an agent that has used up SEQ stamps its next write in the next tick. -/
def State.room (s : State) (n : Nat) : Bool :=
  decide (n ≤ 65536) && s.stamps.all (fun e => decide (e.2.1 ≠ s.tick ∨ e.2.2 + n ≤ 65536))

/-! ### Hashes (Table 10-3; CRC-32C is PRESUMED to be the Castagnoli code, log entry 10) -/

def crcShift : Nat → Word → Word
  | 0, c => c
  | n + 1, c => crcShift n (if c.getLsbD 0 then (c >>> 1) ^^^ 0x82F63B78#32 else c >>> 1)

def crcBytes (c : Word) : List Byte → Word
  | [] => c
  | b :: bs => crcBytes (crcShift 8 (c ^^^ b.setWidth 32)) bs

def crc32c (bs : List Byte) : Word := crcBytes 0xFFFFFFFF#32 bs ^^^ 0xFFFFFFFF#32

/-- The hash of a line. -/
def State.lineHash (s : State) (line : Nat) : Word := crc32c (s.bytes (128 * line) 128)

/-- HOLD: bits 11:0 of the hash over the ascending 16-bit agent numbers. -/
def holdOf (agents : List Nat) : Nat := (crc32c (agents.flatMap (bytesOf 2))).toNat % 4096

/-- Words of memory overwritten by a write that is no release lose the release timestamp they carried (R197). -/
def clearMarks (m : List Mark) (a n : Nat) : List Mark :=
  if m.isEmpty then m else m.filter (fun e => decide (e.word + 1 ≤ a / 4 ∨ (a + n + 3) / 4 ≤ e.word))

/-! ### Permission intervals (R228, R229) -/

/-- A line that no cache holds is in a home interval. That of a line that has met no event runs from the wake of a sleep (R242), and the
sweeper has force-closed it every 2^18 - 1 ticks (R241). -/
def State.line (s : State) (l : Nat) : LineState :=
  (alook s.lines l).getD ⟨[], [], none, s.sleepTick + (s.tick - s.sleepTick) / (2 ^ 18 - 1) * (2 ^ 18 - 1), s.lineHash l⟩

/-- The agent whose writer interval is open: it holds the line in M, E or O. -/
def LineState.writer (ls : LineState) : Option Nat := (ls.holders.find? (fun h => h.2.state != .s)).map (·.1)
/-- The agents that hold the line in S. -/
def LineState.readers (ls : LineState) : List Nat := (ls.holders.filter (fun h => h.2.state == .s)).map (·.1)
def LineState.dirty (ls : LineState) : Bool := ls.holders.any (fun h => h.2.state == .m || h.2.state == .o)

/-- A number inserted in a rising list. -/
def insertNat (x : Nat) : List Nat → List Nat
  | [] => [x]
  | y :: ys => if x < y then x :: y :: ys else if x = y then y :: ys else y :: insertNat x ys

def unionNat (xs ys : List Nat) : List Nat := xs.foldl (fun acc x => insertNat x acc) ys

/-- The record of a line's open interval, closed now, as its emitter sends it. -/
def closeRecord (s : State) (l home : Nat) (forced : Bool) (src : RecSrc) (agent : Nat) (hold : List Nat) (writer back : Bool) : Expect :=
  let ls := s.line l
  { src := src, home := home, line := l, close := s.tick, start := ls.start, agent := agent, hend := s.lineHash l, hstart := ls.hstart,
    hold := holdOf hold, writer := writer, forced := forced, author := ls.author, lost := false, back := back }

/-- The records with which a line's open interval closes now: the requester's, of the writer or the lowest-numbered reader (a
home interval has none), and the home's. `back`: the writer's data are written back. -/
def closeExpects (s : State) (l : Nat) (forced back : Bool) : List Expect :=
  let ls := s.line l
  match homeOf s (128 * l) with
  | none => []
  | some h =>
    let mk := closeRecord s l h forced
    match ls.writer, ls.shared with
    | some w, _ => [mk .requester w [w] true back, mk .home (2048 + h) [w] true false]
    | none, r :: rs => [mk .requester r (r :: rs) false false, mk .home (2048 + h) (r :: rs) false false]
    | none, [] => [mk .home (2048 + h) [] false false]

/-- The record of the HBM controller for a line read from its stack, or written to it, with the hash of the data (Table 10-2). -/
def stackRecord (s : State) (l : Nat) (write : Bool) : List Expect :=
  match targetOf (128 * l), homeOf s (128 * l) with
  | .hbm, some h =>
    [{ src := .stack, home := h, line := l, close := s.tick, start := s.tick, agent := 3072 + stackOf (128 * l), hend := s.lineHash l,
       hstart := s.lineHash l, hold := 0, writer := write, forced := false, author := (s.line l).author, lost := false, back := false }]
  | _, _ => []

def State.expect (s : State) (es : List Expect) : State := { s with expects := s.expects ++ es }
def State.putLine (s : State) (l : Nat) (ls : LineState) : State := { s with lines := aput s.lines l ls }

/-- Data written back to a line's home whose hash the home has still to check, before any agent can read them (R230). -/
def unchecked (s : State) (l : Nat) : Bool := s.expects.any (fun e => e.back && e.line == l)

/-- Close the open interval of a line and open the next one with these holders; dirty data leave a cache that does not keep them. -/
def reopen (s : State) (l : Nat) (forced : Bool) (holders : List (Nat × Holding)) (author : Option (Nat × Nat)) : State :=
  let next : LineState := ⟨holders, [], author, s.tick, s.lineHash l⟩
  (s.expect (closeExpects s l forced ((s.line l).dirty && next.writer != (s.line l).writer))).putLine l { next with shared := if next.writer.isSome then [] else next.readers }

/-- A cache gives a line up (R229: no line is dropped silently): dirty data goes to the stack; the interval closes unless other
holders keep it open. -/
def dropHolder (s : State) (agent l : Nat) : State :=
  let ls := s.line l
  match alook ls.holders agent with
  | none => s
  | some h =>
    let rest := adel ls.holders agent
    let s := if h.state = .m ∨ h.state = .o then s.expect (stackRecord s l true) else s
    if h.state ≠ .s ∨ rest.isEmpty then reopen s l false rest none else s.putLine l { ls with holders := rest }

/-- Recall a line from every cache, but for those named (R202, R229). -/
def recallBut (s : State) (l : Nat) (keep : Nat → Bool) : State :=
  let ls := s.line l
  let rest := ls.holders.filter (fun h => keep h.1)
  if rest = ls.holders then s
  else reopen (if ls.dirty then s.expect (stackRecord s l true) else s) l false rest none

/-- The data of a line are lost: what its home then holds the manual does not say (a free value, log entry 1). -/
def loseData (s : State) (l : Nat) : State :=
  { s.putBytes (128 * l) ((span 0 128).map (Config.freeByte s.nextId)) with nextId := s.nextId + 1 }

/-- Recall a line from every cache without its data (R238): what a cache had written to it and not written back is lost. -/
def recallBlind (s : State) (l : Nat) : State :=
  let ls := s.line l
  if ls.holders.isEmpty then s
  else if ls.dirty then reopen (loseData (reopen s l false [] none) l) l false [] none
  else reopen s l false [] none

/-- Recall a line from every cache. -/
def recallLine (s : State) (l : Nat) : State := recallBut s l (fun _ => false)

/-- A core that hosts no team of the partition for which a request is made: its probe changes no state there (R183). -/
def filtered (s : State) (part agent : Nat) : Bool :=
  decide (agent < Config.coreCount) && !(teamsOn s agent).any (fun e => e.2.part == part)

/-- The lines that an agent holds and that a condition names are written back and invalidated (R181, R242, R321). -/
def flushAgent (s : State) (agent : Nat) (which : Nat → Holding → Bool) : State :=
  s.lines.foldl (fun s e => match alook e.2.holders agent with
    | some h => if which e.1 h then dropHolder s agent e.1 else s
    | none => s) s

/-- The release split (R234): the writer intervals of a core's L1 over the given lines are closed and reopened. -/
def releaseSplit (s : State) (core : Nat) (wrote : List Nat) : State :=
  wrote.foldl (fun s l => if (s.line l).writer = some core then reopen s l false (s.line l).holders (s.line l).author else s) s

/-- Whether a release split closes anything. -/
def splits (s : State) (core : Nat) (wrote : List Nat) : Bool := wrote.any (fun l => (s.line l).writer == some core)

/-! ### Directory regions (R182) -/

/-- A home's directory. -/
def State.dir (s : State) (home : Nat) : List (Nat × DirRegion) := (alook s.dirs home).getD []
def State.putDir (s : State) (home : Nat) (d : List (Nat × DirRegion)) : State :=
  { s with dirs := if d.isEmpty then adel s.dirs home else aput s.dirs home d }

/-- The region of a directory that holds a line, by base. -/
def regionAt (d : List (Nat × DirRegion)) (l : Nat) : Option (Nat × DirRegion) :=
  d.find? (fun e => decide (e.1 ≤ l ∧ l < e.1 + 2 ^ e.2.logSize))

/-- Split a region until the conflicting line stands alone: the half without the line keeps the old holders. `fuel`
halvings remain; sizes are in lines (64 KiB is 2^9 lines). The rule gives no holder set for the half with the line, and at last for the
line; the model keeps the old holders and adds the requester (DESIGN CHOICE, log entry 77). -/
def splitRegion (l agent tick : Nat) (holders : List Nat) : Nat → Nat → List (Nat × DirRegion) → List (Nat × DirRegion)
  | 0, base, d => aput d base ⟨0, insertNat agent holders, tick⟩
  | k + 1, base, d =>
    if l < base + 2 ^ k then
      splitRegion l agent tick holders k base (aput d (base + 2 ^ k) ⟨k, holders, tick⟩)
    else splitRegion l agent tick holders k (base + 2 ^ k) (aput d base ⟨k, holders, tick⟩)

/-- A region meets no region of the directory. -/
def roomFor (d : List (Nat × DirRegion)) (l k : Nat) : Bool :=
  d.all (fun e => decide (l / 2 ^ k * 2 ^ k + 2 ^ k ≤ e.1 ∨ e.1 + 2 ^ e.2.logSize ≤ l / 2 ^ k * 2 ^ k))

/-- A home's directory after a request for a line: a region opens, of 64 KiB, or, beside what is left of a region of which a half has been
evicted, of the size that has room; a request that conflicts with a holder of the region that does not hold the line splits it. What
conflicts the rule does not say: the model takes a write to, and a read when some cache may write the line (DESIGN CHOICE, log
entry 77). -/
def noteRequest (ls : LineState) (d : List (Nat × DirRegion)) (tick agent l : Nat) (write : Bool) : List (Nat × DirRegion) :=
  match regionAt d l with
  | none =>
    let k := ((span 0 10).reverse.find? (roomFor d l)).getD 0
    aput d (l / 2 ^ k * 2 ^ k) ⟨k, [agent], tick⟩
  | some (b, r) =>
    let conflict := r.holders.any (fun a => a != agent && !ls.holders.any (fun h => h.1 == a)) && (write || ls.writer.isSome)
    if conflict ∧ r.logSize > 0 then splitRegion l agent tick r.holders r.logSize b (adel d b)
    else aput d b { r with holders := insertNat agent r.holders, last := tick }

/-- A full directory evicts a region: its lines are recalled from every holder. -/
def evictRegion (s : State) (home base : Nat) : State :=
  match alook (s.dir home) base with
  | none => s
  | some r =>
    ((s.lines.filter (fun e => decide (base ≤ e.1 ∧ e.1 < base + 2 ^ r.logSize) && homeOf s (128 * e.1) == some home)).foldl
      (fun s e => recallLine s e.1) s).putDir home (adel (s.dir home) base)

/-- The cores that a home probes for a request (R182, R183): the holders that it tracks, a slice by region, a port by line. -/
def probed (s : State) (agent l : Nat) : List Nat :=
  let hs : List Nat := match homeOf s (128 * l) with
    | some h => if h < 640 then (match regionAt (s.dir h) l with | some (_, r) => r.holders | none => [])
                else (s.line l).holders.map (·.1)
    | none => []
  hs.filter (fun a => a != agent && decide (a < Config.coreCount))

/-- The probes of a request go out (R183). -/
def sendProbes (s : State) (agent part l : Nat) : State := { s with probes := s.probes ++ (probed s agent l).map (fun c => (c, part, l)) }

/-! ### Writes at the home -/

/-- A write that a line's home makes itself on behalf of a partition (R202, R231): the line is recalled from the caches that the
home probes, and the write is a writer interval of length 0, held by the home, with what it reads from its stack and writes to it. -/
def homeWrite (s : State) (l part : Nat) (who : Option (Nat × Nat)) (f : State → State) : State :=
  if !cached s (128 * l) then f s
  else
    match homeOf s (128 * l) with
    | none => f s
    | some h =>
      let s := recallBut (sendProbes s (2048 + h) part l) l (filtered s part)
      let s := (s.expect (closeExpects s l false false)).expect (stackRecord s l false)
      let t := f s
      let own : Expect :=
        { src := .home, home := h, line := l, close := s.tick, start := s.tick, agent := 2048 + h, hend := t.lineHash l,
          hstart := s.lineHash l, hold := holdOf [2048 + h], writer := true, forced := false, author := who, lost := false, back := false }
      ((t.expect [own]).expect (stackRecord t l true)).putLine l { s.line l with author := none, start := s.tick, hstart := t.lineHash l }

/-- A write of n bytes that the hardware makes at an address for a team: a frame, a spilled entry, a save. Where a line has met an event
of the checkers it is a write at the line's home (R228; log entry 76). -/
def hardWrite (s : State) (part a n : Nat) (f : State → State) : State :=
  ((s.lines.map (·.1)).filter (fun l => decide (a < 128 * l + 128 ∧ 128 * l < a + n))).foldr (fun l k s => homeWrite s l part none k)
    (fun s => { f s with marks := clearMarks s.marks a n }) s

/-! ### Sets and ways (R179 to R181) -/

/-- A line's index within its home (Table 10-3): the homed-line index at a slice; at a port the line's low bits (log entry
16). -/
def lineIndex (l : Nat) : Nat :=
  match targetOf (128 * l) with
  | .hbm => let o := 128 * l % dieSpan; (o / 512 / 160 * 4 + o / 128 % 4) % 2 ^ 23
  | _ => l % 2 ^ 23

/-- The set of a line: of 64 in an L1, of 256 in a slice (log entry 12: which lines share a set the manual leaves open). -/
def setOf (agent l : Nat) : Nat := if agent < 2048 then l % 64 else lineIndex l % 256

/-- The ways into which an agent may allocate: 8 of an L1; of a slice its cache ways that are not being flushed. -/
def usableWays (s : State) (agent : Nat) : List Nat :=
  if agent < 2048 then span 0 8
  else
    let v := s.slice (agent - 2048)
    (span 0 16).filter (fun w => v.ways.getLsbD w && !(v.busy && v.flushing.getLsbD w))

/-- The lines that an agent holds in a set, with their ways. -/
def setLines (s : State) (agent set : Nat) : List (Nat × Nat) :=
  s.lines.filterMap (fun (e : Nat × LineState) => match alook e.2.holders agent with
    | some h => if setOf agent e.1 = set then some (h.way, e.1) else none
    | none => none)

/-- A cache may hold a line: an L1 any that is cached; a slice the HBM lines homed at it and the pool lines that map to it under
R177 with the offset within the window (R179). -/
def mayHold (s : State) (agent l : Nat) : Bool :=
  cached s (128 * l) && !(usableWays s agent).isEmpty &&
    (decide (agent < Config.coreCount) ||
      (decide (2048 ≤ agent ∧ agent < 2048 + 640) &&
        match targetOf (128 * l), s.window (128 * l) with
        | .hbm, _ => homeOf s (128 * l) == some (agent - 2048)
        | .pool, some w => sliceOf (128 * l - w.1) == (agent - 2048) % 160
        | _, _ => false))

/-- A way for a line in its set: the lowest free one; in a full set one line is evicted, the manual does not say which. -/
def placeWay (s : State) (agent l : Nat) : State × Nat :=
  let taken := setLines s agent (setOf agent l)
  let ways := usableWays s agent
  match ways.find? (fun w => taken.all (fun t => t.1 != w)) with
  | some w => (s, w)
  | none =>
    let cands := taken.filter (fun t => ways.contains t.1)
    match cands[Config.victim agent l s.tick % cands.length]? with
    | some v => (dropHolder s agent v.2, v.1)
    | none => (s, 0)

/-! ### Grants -/

/-- Write permission for an agent on a line: every other holder whose probe is not filtered (R183) is recalled. A reader's or another
agent's interval closes; the owner that other caches have read from (O) goes on in its own. Dirty data passes to the new holder. -/
def grantWrite (s : State) (agent part l : Nat) : State :=
  let ls := s.line l
  let kept := fun (hs : List (Nat × Holding)) => hs.filter (fun h => filtered s part h.1)
  match alook ls.holders agent with
  | some h =>
    if h.state = .s then reopen s l false (aput (kept ls.holders) agent { h with state := if ls.dirty then .m else .e }) none
    else s.putLine l { ls with holders := aput (kept ls.holders) agent { h with state := if h.state = .o then .m else h.state } }
  | none =>
    let (s, w) := placeWay s agent l
    let s := if ls.holders.isEmpty then s.expect (stackRecord s l false) else s
    reopen s l false (aput (kept (s.line l).holders) agent ⟨if ls.dirty then .m else .e, w, [part]⟩) none

/-- Read permission, in S. A dirty owner elsewhere keeps the line in O and its interval runs on; a clean one is downgraded. A core whose
probe is filtered keeps its state (R183). -/
def grantRead (s : State) (agent part l : Nat) : State :=
  let ls := s.line l
  if ls.holders.any (fun h => h.1 == agent) then s
  else
    let (s, w) := placeWay s agent l
    let me : Nat × Holding := (agent, ⟨.s, w, [part]⟩)
    if ls.holders.isEmpty then reopen (s.expect (stackRecord s l false)) l false [me] none
    else
      let add := fun (hs : List (Nat × Holding)) => aput hs agent me.2
      match ls.writer with
      | none => s.putLine l { ls with holders := add ls.holders, shared := insertNat agent ls.shared }
      | some _ =>
        if ls.dirty then
          s.putLine l { ls with holders := add (ls.holders.map (fun h => if h.2.state = .m ∧ filtered s part h.1 = false then (h.1, { h.2 with state := .o }) else h)) }
        else reopen s l false (add (ls.holders.map (fun h => if filtered s part h.1 then h else (h.1, { h.2 with state := .s })))) none

/-- A write by an agent that holds write permission: the line is in M, written by that team and group. -/
def noteAuthor (s : State) (agent l : Nat) (who : Nat × Nat) : State :=
  let ls := s.line l
  s.putLine l { ls with
    author := some who
    holders := ls.holders.map (fun h => if h.1 = agent then (h.1, { h.2 with state := .m }) else h) }

/-- An agent holds a line for one more partition. -/
def notePart (s : State) (agent part l : Nat) : State :=
  let ls := s.line l
  if ls.holders.any (fun h => h.1 == agent && h.2.parts.contains part) then s
  else s.putLine l { ls with
    holders := ls.holders.map (fun h => if h.1 = agent then (h.1, { h.2 with parts := insertNat part h.2.parts }) else h) }

/-! ### Requests (R178, R192) -/

/-- Pool lines that some cache holds (R192). -/
def trackedPool (s : State) : List Nat :=
  (s.lines.filter (fun e => !e.2.holders.isEmpty && targetOf (128 * e.1) == .pool)).map (·.1)

/-- A full pair of snoop filters evicts a tracked line before it grants a new one; the manual does not say which. -/
def evictPool (s : State) (l : Nat) : State :=
  if targetOf (128 * l) ≠ .pool then s
  else
    let tr := trackedPool s
    if tr.contains l ∨ tr.length < Config.poolLines then s
    else match tr[Config.victim 2688 l s.tick % tr.length]? with | some v => recallLine s v | none => s

def holdsLine (s : State) (agent l : Nat) (write : Bool) : Bool :=
  (s.line l).holders.any (fun h => h.1 == agent && (!write || h.2.state == .m || h.2.state == .e))

/-- The home of an HBM line enters a request in its directory. -/
def enterRequest (s : State) (agent l : Nat) (write : Bool) : State :=
  match homeOf s (128 * l) with
  | some h => if h < 640 then s.putDir h (noteRequest (s.line l) (s.dir h) s.tick agent l write) else s
  | none => s

/-- A request for a line (R178), on behalf of a partition: when the agent lacks the permission, the home probes, and the
directory and the intervals change. -/
def getLine (s : State) (agent part l : Nat) (write : Bool) : State :=
  if holdsLine s agent l write then notePart s agent part l
  else if !mayHold s agent l then s
  else
    let s := evictPool (enterRequest (sendProbes s agent part l) agent l write) l
    if write then grantWrite s agent part l else grantRead s agent part l

/-- What a core's access to a line waits for before the data may be read or written: data written back whose hash is still to be
checked, or the write-back itself, which its request brings about (R230). None: nothing. -/
def awaitData (s : State) (core part l : Nat) (write : Bool) : Option State :=
  if !cached s (128 * l) then none
  else if unchecked s l then some s
  else if write && (s.line l).holders.any (fun h => h.1 != core && (h.2.state == .m || h.2.state == .o) && !filtered s part h.1) then
    some (getLine s core part l true)
  else none

/-- The same for an access that the line's home makes, for which it recalls the line (R202). -/
def awaitHome (s : State) (part l : Nat) : Option State :=
  if !cached s (128 * l) then none
  else if unchecked s l then some s
  else if (s.line l).holders.any (fun h => (h.2.state == .m || h.2.state == .o) && !filtered s part h.1) then
    some (recallBut (sendProbes s (homeAgent s (128 * l)) part l) l (filtered s part))
  else none

/-! ### Walks through a core's L1 (R174, R241) -/

/-- The lines of the page-table entries that a walk reads. -/
def walkLines (s : State) (va : Nat) : Nat → Nat → Nat → List Nat
  | 0, _, _ => []
  | fuel + 1, level, table =>
    let a := table + 8 * vaIndex va level
    let e := s.read64 a
    lineOf a :: (if s.badLines.contains (lineOf a) || !e.getLsbD 0 || !entryOk s e level || e.getLsbD 1 then []
      else walkLines s va fuel (level + 1) (entryAddr e))

/-- The reads of a core's walk: each takes read permission as any read does. A cached translation needs no walk. -/
def walkReads (s : State) (core part va : Nat) : State :=
  if Config.coreCount ≤ core ∨ (s.core core).tlb.any (fun e => e.part == part && e.vpage == va / 65536) then s
  else (walkLines s va 3 1 (s.part part).root).foldl
    (fun s l => if cached s (128 * l) && !quarantined s (128 * l) then getLine s core part l false else s) s

/-- Keep a walk's result in the core's translation cache (R174: only a valid leaf). -/
def cacheLeaf (s : State) (core part va : Nat) : State :=
  let w := findLeaf s core part va
  let s := walkReads s core part va
  match w with
  | .leaf e level =>
    s.updCore core (fun c =>
      if c.tlb.any (fun x => x.part == part && x.vpage == va / 65536) then c
      else { c with tlb := ⟨part, va / 65536, e, level⟩ :: c.tlb })
  | .bad => logWalk s core part va
  | .uncorrectable => logWalk s core part va
  | .absent => s

end Sys2Proof.Machine
end

