-- ==== Sys2Proof/Machine/Ladder.lean ====
section
/-! DEFINITION. The lease and its holder (R314 to R317), the gate of management requests (R315, R317, R325), and the start of
a rung of the reset ladder (R320, R323). -/
namespace Sys2Proof.Machine

/-! ### The lease (Table 15-1) -/

def leaseHolder (v : DWord) : Nat := field64 v 2 0
def leaseValid (v : DWord) : Bool := v.getLsbD 3
def leaseEpoch (v : DWord) : Nat := field64 v 15 4
def leaseEnd (v : DWord) : Nat := field64 v 63 16
def leaseWord (holder epoch fin : Nat) : DWord := BitVec.ofNat 64 (fin * 2 ^ 16 + epoch % 4096 * 2 ^ 4 + 8 + holder)

/-- A firmware core runs: there is a verified image for it, and its die is not held in reset (R21, R324, R334). -/
def runs (s : State) (c : Nat) : Bool := s.fw.fwRun && (decide (4 ≤ c) || !(s.fronts.getD c FrontEnd.idle).inReset)

/-- The leader, while its lease runs; a holder that has been reset is a follower (R321). -/
def leader (s : State) : Option Nat :=
  if leaseValid s.fw.lease ∧ s.tick < leaseEnd s.fw.lease ∧ s.fw.demoted = false ∧ runs s (leaseHolder s.fw.lease) = true then some (leaseHolder s.fw.lease) else none

/-- A firmware core is healthy when its HEALTH was written within the last 15,625 ticks (R314). -/
def healthy (s : State) (c : Nat) : Bool :=
  let h := s.fw.health.getD c 0
  h != 0 && decide ((s.tick + 2 ^ 48 + 1 - h) % 2 ^ 48 ≤ 15625)

def lowestHealthy (s : State) : Option Nat := (span 0 5).find? (healthy s)

/-- A live update is under way, until its close (R325). -/
def updating (s : State) : Bool :=
  match s.fw.update with
  | .captured | .installing | .committed | .rollingBack | .reinstalled => true
  | .none | .ready | .rolledBack => false

/-- The group of a team that has escalated, with its frame slot (R255). -/
def escalatedAt (tm : Team) : Option (Nat × Nat) :=
  (tm.groups.filterMap (fun e => match e.2.status with
    | .waiting (.escalated slot) => some (e.1, slot)
    | _ => none)).head?

/-- Requests that wait for the close of an update: management requests, escalations and page requests (R325). -/
def waitingRequests (s : State) : Nat :=
  s.fw.queued.length + (s.teams.filter (fun e => (escalatedAt e.2).isSome)).length + (s.teams.filter (fun e => e.2.pri)).length

/-- During an update 256 requests are queued; later ones are refused with status BUSY (R325). -/
def requestsFull (s : State) : Bool := updating s && decide (256 ≤ waitingRequests s)

/-! ### The gate -/

inductive Gate where
  | go | held | busy | refused
  deriving DecidableEq, Repr

/-- A management write by a firmware core (R315). -/
def gateWrite (s : State) (writer epoch : Nat) : Gate :=
  if leader s ≠ some writer ∨ leaseEpoch s.fw.lease ≠ epoch then .refused
  else if updating s then (if requestsFull s then .busy else .held)
  else .go

/-- A request that the leader executes (R317, R330). -/
def gateRequest (s : State) : Gate :=
  if updating s then (if requestsFull s then .busy else .held)
  else if (leader s).isNone then .held
  else .go

/-- Hold a request for the leader. -/
def holdRequest (s : State) (i : Instr) : State := { s with fw := { s.fw with queued := s.fw.queued ++ [i] } }

/-- A management write through its gate: refused or turned away writes are logged and change nothing. -/
def throughGate (s : State) (i : Instr) (writer epoch : Nat) (act : State → State) : State :=
  match gateWrite s writer epoch with
  | .go => act s
  | .held => holdRequest s i
  | .busy => s.logEvent 4 1 writer [epoch]
  | .refused => s.logEvent 4 2 writer [epoch]

/-- A held request as its new holder sends it. -/
def restamp (holder epoch : Nat) (i : Instr) : Instr :=
  match i with
  | .managementWrite _ _ w => .managementWrite holder epoch w
  | .plimWrite _ _ p c v => .plimWrite holder epoch p c v
  | .wayMaskWrite _ _ h v => .wayMaskWrite holder epoch h v
  | .wayFlush _ _ h v => .wayFlush holder epoch h v
  | .policyLoad _ _ p => .policyLoad holder epoch p
  | .policySwap _ _ p => .policySwap holder epoch p
  | i => i

/-! ### Rungs -/

/-- Time limits of Table 15-3 in ticks. -/
def rungLimit (rung : Nat) : Nat :=
  match rung with
  | 1 => 7813
  | 2 => 156250
  | 3 => 390625
  | 4 => 1562500
  | 5 => 7812500
  | _ => 39062500

/-- A queue as a rung's target: 64 * partition + queue. -/
def queueTarget (part queue : Nat) : Nat := 64 * part + queue

/-- The scope of rung r on target t contains that of rung q on target u. -/
def scopeContains (s : State) (r t q u : Nat) : Bool :=
  if 5 ≤ r then decide (q ≤ r)
  else if r = q then t == u
  else match r, q with
    | 4, 2 => t == u
    | 4, 1 => (((s.part (u / 64)).queues.find? (fun e => e.1 == u % 64)).map (fun e => e.2.die)) == some t
    | 3, 1 => u / 64 == t
    | _, _ => false

/-- Longest pause of one front end, by its pause timer (1 ms, which R314 rounds to 7,813 ticks). -/
def pauseLimit : Nat := 7813

/-- One millisecond, and the budget of an update's pauses (2 ms, R325, R326), in half ticks. -/
def pauseHalf : Nat := 15625
def pauseBudget : Nat := 31250

/-- A front end's dispatch is paused now: its pause timer ends the pause by itself (R325). -/
def State.pausedOn (s : State) (die : Nat) : Bool :=
  let f := s.fronts.getD die FrontEnd.idle
  f.paused && decide (s.tick < f.pauseSince + pauseLimit)

/-- Before READY, the cores of an update restart into the old image, which may pause once more (R326). -/
def rollBack (s : State) : State :=
  match s.fw.update with
  | .captured | .installing =>
    { s with fw := { s.fw with update := .rollingBack, pausedHalf := pauseHalf }, fronts := s.fronts.map (fun f => { f with paused := false }) }
  | _ => s

/-- A rung is requested: absorbed by a running rung that contains it; lower ones that it contains are abandoned (Table 15-5).
A rung 4 needed on two dies at once is rung 5. A rung 4 or above rolls an update back (R326). -/
def startRung (s : State) (rung target : Nat) (missed : Option Nat) : State :=
  let two := rung == 4 && s.fw.rungs.any (fun r => r.rung == 4 && r.target != target)
  let n := if two then 5 else rung
  let u := if two then 0 else target
  if s.fw.rungs.any (fun r => scopeContains s r.rung r.target n u) then s
  else
    let s := if 4 ≤ n then rollBack s else s
    let keep := s.fw.rungs.filter (fun r => !scopeContains s n u r.rung r.target)
    let limit := if n ≤ 4 ∧ (leader s).isNone then none else some (s.tick + rungLimit n)
    let run : RungRun := ⟨n, u, limit, missed⟩
    ({ s with fw := { s.fw with rungs := keep ++ [run] } }).logEvent 4 (0x10 + n) u []

end Sys2Proof.Machine
end

