-- ==== Sys2Proof/Machine/Kill.lean ====
section
/-! DEFINITION. Report records (R318, R319, R435), removing a team (R47, R167 steps 1 and 2) and ending a launch (R289). -/
namespace Sys2Proof.Machine

/-- The number under which the front ends' own translations are made: they have no translation cache. -/
def feCore : Nat := 4095

/-- A store performed at the home of its line by an agent without a cache (the front end, firmware) for a partition: every cached
copy is recalled, and the home stamps it. -/
def State.homeStore (s : State) (part a : Nat) (bs : List Byte) : State :=
  homeWrite s (lineOf a) part none (fun s =>
    { (s.putBytes a bs).stamp (homeAgent s a) with marks := clearMarks s.marks a bs.length })

/-! ### Releases that no group issues -/

/-- The team number under which the front ends' own writes are marked: no group lies within TEAM or CLUSTER scope of them. -/
def feTeam : Nat := 2 ^ 64

/-- A tick no release sees before the counter wraps (R242). -/
def wrapSplit : Nat := 2 ^ 49

/-- Hold a release of a thread of its own, an engine's or a front end's, with its own timestamp and homes. -/
def holdPlain (s : State) (kind : RelKind) (team : Nat) (role : Role) (owner : Nat) (pc : DWord) (scope : Scope)
    (ts : VTime) (homes : List Nat) (split core part : Nat) (wrote : List Nat := []) : State :=
  let h : Held :=
    { kind := kind, team := team, group := 64, role := role, seq := 0, pt := .at pc, lane := owner, scope := scope,
      enforce := (s.part part).enforce, ts := ts, homes := homes, split := if s.wrapHold then wrapSplit else split,
      core := core, log := none, part := part, drain := [], wrote := wrote }
  { s.bumpId with held := aput s.held s.newId h }

/-! ### Report rings -/

/-- The bytes of a record (Table 15-2); `isGrid` is KIND, `failed` is STATUS. -/
def reportBytes (r : Report) : List Byte :=
  bytesOf 4 r.tag.toNat ++ bytesOf 4 r.grid.toNat
    ++ bytesOf 2 (r.isGrid.toNat + 4 * r.failed.toNat + 16 * r.rung) ++ bytesOf 2 r.cause ++ bytesOf 4 r.queue
    ++ bytesOf 8 r.tick ++ bytesOf 8 0

/-- The record that reports lost records (R319). -/
def lostReport (s : State) (p : Nat) : Report :=
  ⟨p, 0xFFFFFFFF#32, BitVec.ofNat 32 (min (s.part p).lost (2 ^ 32 - 1)), false, true, 0, 0x104, 0, s.tick⟩

/-- Write one record to its ring when the ring has space and is mapped; the store of the write index is a release at SYSTEM scope
(R318), held as any is. None when the record cannot be written. -/
def putReport (s : State) (r : Report) : Option State :=
  match (s.part r.part).report with
  | none => none
  | some ring =>
    if ring.rd + 2 ^ ring.logSize ≤ ring.wr then none
    else
      match translate s feCore r.part (ring.base + 32 * (ring.wr % 2 ^ ring.logSize)) [.wr] with
      | .ok key =>
        let vt := s.now (homeAgent s key)
        let s := s.homeStore r.part key (reportBytes r)
        let s := s.updPart r.part (fun p => { p with report := some { ring with wr := ring.wr + 1 } })
        let homes := (homeOf s key).elim [] (fun h => [h])
        some (holdPlain s (.reportIndex r.part (ring.wr + 1) r) feTeam .vector 0 0 .system vt homes 0 feCore r.part)
      | .cause _ _ => none

/-- Write what can be written: first the count of lost records, then the held records in order. -/
def flushReports (s : State) : State :=
  let s := s.parts.foldl (fun s e =>
    if e.2.lost = 0 then s
    else match putReport s (lostReport s e.1) with
      | some s' => s'.updPart e.1 (fun p => { p with lost := 0 })
      | none => s) s
  s.reports.foldl (fun s r => match putReport s r with
    | some s' => s'
    | none => { s with reports := s.reports ++ [r] }) { s with reports := [] }

/-- Produce a record (R318). One that its ring cannot take is held; beyond 65,536 held records it is counted as lost, and the
count is logged (R319). -/
def addReport (s : State) (r : Report) : State :=
  let s := flushReports { s with reports := s.reports ++ [r] }
  if s.reports.length ≤ 65536 then s
  else
    let n := (s.part r.part).lost + 1
    ({ s with reports := s.reports.dropLast }.updPart r.part (fun p => { p with lost := n })).logEvent 5 0x104 0 [r.part, n]

/-- The packet record of a launch. -/
def launchReport (s : State) (l : Launch) (failed : Bool) (cause rung : Nat) : Report :=
  ⟨l.part, l.tag, 0, false, failed, rung, cause, l.queue, s.tick⟩

/-- A packet reported failed before it made a launch (R285, R287). -/
def packetReport (s : State) (part queue : Nat) (tag : Word) (cause rung : Nat) : State :=
  addReport s ⟨part, tag, 0, false, true, rung, cause, queue, s.tick⟩

/-- The record of a grid: a completed one keeps the tick at which it completed (Table 15-2). -/
def gridReport (s : State) (l : Launch) (g : Grid) (failed : Bool) (cause rung : Nat) : Report :=
  ⟨l.part, l.tag, g.gridid, true, failed, rung, if failed then cause else 0, l.queue, if failed then s.tick else g.outcome⟩

/-! ### Reads and writes of the front ends -/

/-- The outcome of a read by a front end or a core on the front end's behalf: words, or a lane code. -/
inductive FeRead where
  | ok (key : Nat)
  | bad (code : Nat) (ats : Bool)
  deriving DecidableEq, Repr

/-- Table 8-3's conditions for an access of n bytes, aligned to n or to `al`, by an agent other than a lane. -/
def feAccess (s : State) (core part va n al : Nat) (rights : List Right) (store : Bool) : FeRead :=
  if 2 ^ 55 < va + n then .bad 0x22 false
  else if va % al ≠ 0 then .bad 0x23 false
  else
    match translate s core part va rights with
    | .cause c ats => .bad (0x20 + c) ats
    | .ok key => if accessBad s key false store || (store && s.badLines.contains (lineOf key)) then .bad 0x26 false else .ok key

/-- The packet is finished: the read index advances and is stored at RDADDR, a relaxed store at SYSTEM scope. -/
def advance (s : State) (part queue : Nat) : State :=
  let q := (s.part part).queue queue
  let rd := q.rd + 1
  let s := s.updQueue part queue (fun q => { q with rd := rd, wait := none, lined := none })
  match feAccess s feCore part q.rdaddr 8 8 [.wr] true with
  | .ok key => s.homeStore part key (bytesOf 8 rd.toNat)
  | .bad code _ => s.logEvent 5 code queue [part]

/-! ### Removing a team -/

/-- Held releases that belong to the front end and not to a team. -/
def RelKind.frontEnd : RelKind → Bool
  | .gridEnd _ => true
  | .launchEnd _ => true
  | .reportIndex _ _ _ => true
  | _ => false

/-- Free what a resident team holds on its core: ports, copies, tile operations. -/
def freeCore (c : Core) (t : Nat) : Core :=
  { c with
    ports := c.ports.map (fun p => match p.holder with
      | some (u, _) => if u = t then { p with holder := none } else p
      | none => p)
    copies := c.copies.filter (fun e => decide (e.2.team ≠ t))
    tiles := c.tiles.filter (fun e => decide (e.team ≠ t)) }

/-- The flush of R242 when a core ceases to host a partition: the lines that its L1 holds for it. -/
def flushIfLast (s : State) (c part : Nat) : State :=
  if (teamsOn s c).any (fun e => e.2.part == part) then s else flushAgent s c (fun _ h => h.parts.contains part)

/-- A placement, retirement, save or new ready item has occurred: every engine has something new to decide (R299). -/
def State.stir (s : State) : State := { s with parts := s.parts.map (fun e => (e.1, { e.2 with rested := [] })) }

/-- A pre-emption whose team goes away reports "nothing to pre-empt" (Tables 11-8 and 14-11): an event-log entry, since the
manual gives the report no other place (log entry 62). -/
def nothingToPreempt (s : State) (t part : Nat) : State :=
  if (s.part part).preempting.contains t then s.logEvent 3 0 part [t] else s

/-- Take a team out of the tables and free everything it holds in one step (R47). -/
def removeTeam (s : State) (t : Nat) : State :=
  match s.team? t with
  | none => s
  | some x =>
    let s := nothingToPreempt s t x.part
    let s := { s with
      teams := adel s.teams t
      held := s.held.filter (fun e => decide (e.2.team ≠ t) || e.2.kind.frontEnd)
      shoots := s.shoots.filter (fun e => decide (e.2.team ≠ t)) }
    let s := s.updPart x.part (fun p => { p with
      savePool := p.savePool ++ [(x.saveVA, x.savePA)],
      preempting := p.preempting.filter (· != t) })
    let s := s.stir
    if x.status = .resident then flushIfLast (s.updCore x.core (fun c => freeCore c t)) x.core x.part else s

/-- Change a launch's spawn-tree counter. -/
def State.updLaunch (s : State) (l : Nat) (f : Launch → Launch) : State :=
  match alook s.launches l with
  | some x => { s with launches := aput s.launches l (f x) }
  | none => s

def State.updGrid (s : State) (g : Nat) (f : Grid → Grid) : State :=
  match alook s.grids g with
  | some x => { s with grids := aput s.grids g (f x) }
  | none => s

/-- The blocks of a buffer that a region takes, keyed 64 * buffer + block. -/
def Region.blockKeys (r : Region) (b : Nat) : List Nat := (span (r.base / 2048) (ceilDiv r.quota 2048)).map (64 * b + ·)

/-- Scrub the CB region of a resident team to zero (R167 step 2). -/
def scrubCB (s : State) (x : Team) : State :=
  if x.status = .resident then
    s.updCore x.core (fun c => { c with zeroed := unionNat ((x.region 2).blockKeys 2) c.zeroed })
  else s

/-- Steps 1 and 2 of R167: the groups stop at once, copies and tile operations are abandoned, accepted entries that were
not handed over lower the spawn-tree counter (R293), CB is scrubbed, and every resource is freed. The writes that the team made
visible stay, and count among its grid's (R288). -/
def killTeam (s : State) (t : Nat) : State :=
  match s.team? t with
  | none => s
  | some x =>
    let n := (x.pendq.filter (·.accepted)).length
    let s := s.updGrid x.grid (fun g => { g with vt := max g.vt x.vt, homes := unionNat x.homes g.homes })
    removeTeam (scrubCB (s.updLaunch x.launch (fun l => { l with count := l.count - n })) x) t

/-- A held release that stands for the end of one of a launch's grids or of the launch itself. -/
def relOfLaunch (s : State) (l : Nat) : RelKind → Bool
  | .gridEnd g => match alook s.grids g with | some x => x.launch == l | none => false
  | .launchEnd m => m == l
  | _ => false

/-- A queue that one of these seed grids holds is held no longer; the packet is finished. -/
def freeSeed (s : State) (part queue : Nat) (gone : List Nat) : State :=
  match ((s.part part).queue queue).seed with
  | some g =>
    if gone.contains g then (advance s part queue).updQueue part queue (fun q => { q with seed := none }) else s
  | none => s

/-- R289: the launch ends. Its teams are killed; grids that have ended stay completed, every other grid is failed; each
grid that began gets its record, then the packet; the counter is cleared and no signal is written. A seed that was not yet
placed no longer holds its queue. -/
def endLaunch (s : State) (l cause rung : Nat) : State :=
  match alook s.launches l with
  | none => s
  | some x =>
    let s := (s.teams.filter (fun e => decide (e.2.launch = l))).foldl (fun s e => killTeam s e.1) s
    let s := { s with held := s.held.filter (fun e => !relOfLaunch s l e.2.kind) }
    let mine := s.grids.filter (fun e => decide (e.2.launch = l))
    let s := { s with grids := s.grids.filter (fun e => decide (e.2.launch ≠ l)), launches := adel s.launches l }
    let s := freeSeed s x.part x.queue (mine.map (·.1))
    let s := mine.foldl (fun s e => addReport s (gridReport s x e.2 (e.2.fate != .completed) cause rung)) s
    addReport s (launchReport s x true cause rung)

/-- A team is killed under steps 1, 2 and 4 of R167 and reported failed: its grid fails and its launch ends. The kill is
recorded in Beret's event log. -/
def failTeam (s : State) (t cause : Nat) : State :=
  match s.team? t with
  | none => s
  | some x => endLaunch ((killTeam s t).logEvent 3 cause x.core [t, x.part, x.queue]) x.launch cause 0

end Sys2Proof.Machine
end

