-- ==== Sys2Proof/Machine/Ops.lean ====
section
/-! DEFINITION. The shared operations of a group: the reconvergence stack (R248, R249), taking a trap (R244 to R254) and
returning from one (R255, R256, R437), and the bookkeeping of runs, REP, halts and issue (R39 to R45, R245, R297). -/
namespace Sys2Proof.Machine

abbrev Out := Host.Outcome State Fault Refusal

/-! ### The reconvergence stack -/

def kindCode : EntryKind → Nat | .reconv => 0 | .trap => 1 | .trapXop => 2
def kindOfCode (n : Nat) : EntryKind := match n with | 1 => .trap | 2 => .trapXop | _ => .reconv

/-- The 16 bytes of an entry (Table 11-1). -/
def entryBytes (e : StackEntry) : List Byte :=
  bytesOf 8 (field64 e.pc 54 2 * 2 ^ 11 + kindCode e.kind * 2 ^ 9 + e.mpc * 2 ^ 4 + e.gidx) ++ bytesOf 8 e.mask.toNat

def entryOf (lo hi : DWord) : StackEntry :=
  ⟨hi, BitVec.ofNat 64 (field64 lo 63 11 * 4), kindOfCode (field64 lo 10 9), field64 lo 8 4, field64 lo 3 0⟩

/-- The spill region of a group and its frame slots, by physical address (Table 11-2). -/
def spillAddr (tm : Team) (g i : Nat) : Nat := tm.savePA + 0x100000 + g * 0x4000 + 16 * i
def frameAddr (tm : Team) (g slot : Nat) : Nat := tm.savePA + g * 0x4000 + (slot - 1) * 0x1000
def frameVA (tm : Team) (g slot : Nat) : Nat := tm.saveVA + g * 0x4000 + (slot - 1) * 0x1000

def spilledEntry (s : State) (tm : Team) (g i : Nat) : StackEntry :=
  entryOf (s.read64 (spillAddr tm g i)) (s.read64 (spillAddr tm g i + 8))

/-- Push an entry; a full stack first moves its oldest entry to the spill region. None when both are full (R249). -/
def pushEntry (s : State) (t g : Nat) (e : StackEntry) : Option State :=
  match s.team? t, s.group? t g with
  | some tm, some gr =>
    if gr.stack.length < Config.stackOnChip then some (s.updGroup t g (fun y => { y with stack := e :: y.stack }))
    else if gr.spilled ≥ Config.stackSpill then none
    else
      let old := gr.stack.getLastD e
      let a := spillAddr tm g gr.spilled
      let s := hardWrite s tm.part a 16 (fun s => s.putBytes a (entryBytes old))
      some (s.updGroup t g (fun y => { y with stack := e :: y.stack.dropLast, spilled := y.spilled + 1 }))
  | _, _ => none

/-- Pop the top entry; the spill region refills the on-chip stack. -/
def popEntry (s : State) (t g : Nat) : State :=
  match s.team? t, s.group? t g with
  | some tm, some gr =>
    if gr.spilled = 0 then s.updGroup t g (fun y => { y with stack := y.stack.tail })
    else
      let e := spilledEntry s tm g (gr.spilled - 1)
      s.updGroup t g (fun y => { y with stack := y.stack.tail ++ [e], spilled := y.spilled - 1 })
  | _, _ => s

/-- Push an entry of KIND 00, or kill the team with CAUSE 0x0105 and log it (R249). -/
def pushOrKill (s : State) (t g : Nat) (e : StackEntry) : State :=
  match pushEntry s t g e with
  | some s' => s'
  | none => failTeam s t 0x105

/-! ### Ports and runs -/

/-- Home port (R37): 0 copy, 1 tile, 2 and 3 the vector/scalar ports. -/
def homePort (r : Role) (g : Nat) : Nat := match r with | .copy => 0 | .matrix => 1 | .vector => 2 + g % 2

/-- The group gives its port up. -/
def freePort (s : State) (c t g : Nat) : State :=
  s.updCore c (fun k => { k with
    ports := k.ports.map (fun p => if p.holder = some (t, g) then { p with holder := none } else p) })

def holdsPort (s : State) (c t g : Nat) : Bool := (s.core c).ports.any (fun p => p.holder == some (t, g))

/-- TCAUSE of a halted sibling (R245): CODE 0x41 with SKID. -/
def haltCause (skid : Nat) : Word := BitVec.ofNat 32 (0x41 + skid * 2 ^ 16)

/-- Another group of the team has a handler running. -/
def Team.handled (x : Team) (g : Nat) : Bool := x.handler.isSome && x.handler != some g

/-- A run ends (R39): the port is free, and a group whose team has a handler running or pending halts, its TCAUSE with its skid
(R245). -/
def endRun (s : State) (t g : Nat) : State :=
  match s.team? t with
  | none => s
  | some tm =>
    let s := freePort s tm.core t g
    s.updGroup t g (fun y =>
      let y := { y with runPos := 0, passes := 0, starving := none }
      if tm.handled g ∧ (y.status = .ready ∨ y.status = .halted) then { y with status := .halted, tcause := haltCause y.skid }
      else y)

/-- The place of a group's next instruction. -/
def Group.point (y : Group) : ResumePt := ⟨match y.rep with | some r => r.addr | none => y.pc, y.rep, none, none⟩

/-- The same with the sequence in progress and the lanes to be replayed. -/
def Group.place (y : Group) : ResumePt := { y.point with xop := y.xop, replay := y.replay }

/-- The address of the word that executes at a place: REP's prefixed word stands at REP's address + 4 (R374). -/
def ResumePt.word (p : ResumePt) : DWord := match p.rep with | some r => r.addr + 4 | none => p.pc

def Group.goto (y : Group) (p : ResumePt) : Group := { y with pc := p.pc, rep := p.rep, xop := p.xop, replay := p.replay }

/-- Where the group stands once the instruction at its place is done: the next repetition or the word after REP's pair
(R375), the next discarded release or the resume address (R437), or the next word. -/
def Group.next (y : Group) : Group :=
  let y := { y with replay := none, xop := none }
  match y.redo with
  | _ :: p :: rest => ({ y with redo := p :: rest }).goto p
  | [_] => ({ y with redo := [] }).goto y.redoEnd
  | [] =>
    match y.rep with
    | some r => if r.idx + 1 < r.count then { y with rep := some { r with idx := r.idx + 1 } }
                else { y with rep := none, pc := r.addr + 8 }
    | none => { y with pc := y.pc + 4 }

/-- One more instruction issued after the trap of another group. -/
def Group.skidded (y : Group) : Group := { y with skid := if y.midway then y.skid else y.skid + 1, midway := false }

/-- A group's issue counts in its skid while another group of its team has a handler (R245), unless the instruction had issued
before the trap (R44), and in PERF event 2. -/
def noteIssue (s : State) (t g : Nat) : State :=
  match s.team? t with
  | none => s
  | some tm =>
    let s := s.count t 2 1
    if tm.handled g then s.updGroup t g Group.skidded else s

/-- Whether the instruction at the group's place is a run of its own: a repetition (R41), a replay (R256) or a
re-executed release (R437). -/
def Group.alone (y : Group) : Bool := y.rep.isSome || y.replay.isSome || !y.redo.isEmpty

/-- A waiting group whose instruction has been done is ready. -/
def GStatus.resumed : GStatus → GStatus
  | .waiting _ => .ready
  | st => st

/-- The instruction has issued: the place advances, and its run goes on or ends. -/
def finish (s : State) (t g : Nat) (e : Bool) : State :=
  match s.group? t g with
  | none => s
  | some y =>
    let stop := e || y.alone
    let s := noteIssue s t g
    let s := s.updGroup t g (fun y => { y.next with runPos := y.runPos + 1, status := y.status.resumed })
    if stop then endRun s t g else s

/-- The instruction has issued, but holds the group's next issue and the port until an operation of it is done (R343). -/
def finishHolding (s : State) (t g : Nat) (e : Bool) (seq : Nat) : State :=
  (noteIssue s t g).updGroup t g (fun y =>
    { y.next with runPos := y.runPos + 1, status := .waiting (.flagsDone seq (e || y.alone)) })

/-- A control transfer: like `finish`, with the address of the next instruction given (R90). -/
def finishAt (s : State) (t g : Nat) (pc : DWord) : State :=
  let s := noteIssue s t g
  endRun (s.updGroup t g (fun y =>
    let y := { y with replay := none, xop := none, rep := none, status := y.status.resumed }
    match y.redo with
    | [] => { y with pc := pc }
    | _ => { y with redo := [], pc := pc })) t g

/-- The group waits, at its place, and frees its port: its run has ended (R51, R207, R414), for a sibling of a group with a handler
with its skid in TCAUSE (R245). -/
def waitHere (s : State) (t g : Nat) (w : Wait) : State :=
  match s.team? t with
  | none => s
  | some tm =>
    let s := freePort s tm.core t g
    s.updGroup t g (fun y =>
      { y with status := .waiting w, runPos := 0, passes := 0, starving := none,
               tcause := if tm.handled g then haltCause y.skid else y.tcause })

/-- The group waits and keeps its port (R278, R366). -/
def waitHolding (s : State) (t g : Nat) (w : Wait) : State :=
  s.updGroup t g (fun y => { y with status := .waiting w })

/-- The status a group takes when what it waited for has come about: halted while its team has another handler. -/
def wakeStatus (tm : Team) (g : Nat) : GStatus := if tm.handled g then .halted else .ready

/-- A wait ends and its instruction is done: the group is ready at its next place, its run ended. -/
def finishWait (s : State) (t g : Nat) : State :=
  match s.team? t with
  | none => s
  | some tm => finish (s.updGroup t g (fun y => { y with status := wakeStatus tm g })) t g true

/-- The re-executed instruction of a wait goes on from ready. -/
def wakeHere (s : State) (t g : Nat) : State :=
  match s.team? t with
  | none => s
  | some tm => s.updGroup t g (fun y => { y with status := wakeStatus tm g })

/-! ### Taking a trap -/

/-- What a trap records (R80, R82, R252, R253). `causes`: low four bits of the lane code, per lane. `xop`: the sequence whose micro-op
traps (R277). -/
structure Trap where
  code : Nat
  prec : Bool := true
  causes : List (Nat × Nat) := []
  emask : Lanes := 0
  faddr : List (Nat × Nat) := []
  hmask : Lanes := 0
  aux : List (Nat × Nat × Nat) := []
  cont : Option ContRec := none
  pt : ResumePt
  trapPC : DWord
  xop : Option XopResume := none
  redo : List ResumePt := []
  resume : ResumePt
  copy : Option Nat := none
  deriving DecidableEq, Repr

/-- The sequence that the trap stops (R65): its micro-op's, or the one in the middle of which the group goes on after the trap of
another instruction (KIND 10 and T0 to T7 in the frame for it as well; log entry 75). -/
def Trap.inside (i : Trap) : Option XopResume :=
  match i.xop with
  | some r => some r
  | none => if i.redo.isEmpty && i.prec then none else i.resume.xop

/-- LV (Table 3-8): lane causes are recorded. -/
def Trap.lv (i : Trap) : Bool := !i.causes.isEmpty

/-- TCAUSE (Table 3-8). -/
def tcauseWord (i : Trap) : Word :=
  BitVec.ofNat 32 (i.code + i.prec.toNat * 2 ^ 8 + i.lv.toNat * 2 ^ 9
    + (match i.pt.rep with | some r => r.idx * 2 ^ 10 | none => 0)
    + (match i.xop with | some r => r.mpc * 2 ^ 21 + 2 ^ 26 | none => 0))

/-- The 32 bytes of TLANES (R82). -/
def tlanesNat (causes : List (Nat × Nat)) : Nat := causes.foldl (fun a e => a + e.2 * 2 ^ (4 * e.1)) 0

/-- The code of highest priority among lane causes (R82): the lowest. -/
def laneCode (causes : List (Nat × Nat)) : Nat := 0x20 + causes.foldl (fun a e => min a e.2) 6

def maskOfLanes (ls : List Nat) : Lanes := ls.foldl (fun (m : Lanes) l => m ||| (1 <<< l)) 0

def contBytes (c : ContRec) : List Byte :=
  bytesOf 8 c.head.toNat ++ bytesOf 8 c.line.toNat ++ bytesOf 8 c.start.toNat ++ bytesOf 8 c.fin.toNat ++ bytesOf 8 c.pc.toNat

/-- The frame as a list of (offset, bytes) over zeros (Table 11-3). -/
def frameParts (i : Trap) (gr : Group) : List (Nat × List Byte) :=
  [(0x000, bytesOf 4 (tcauseWord i).toNat), (0x008, bytesOf 8 i.trapPC.toNat), (0x010, bytesOf 8 i.pt.pc.toNat),
   (0x018, bytesOf 8 i.emask.toNat), (0x020, bytesOf 8 (maskOfLanes (i.causes.map (·.1))).toNat),
   (0x028, bytesOf 8 i.hmask.toNat), (0x030, bytesOf 4 gr.gmr.toNat),
   (0x040, (span 0 8).flatMap (fun r => bytesOf 4 (gr.getS r).toNat)), (0x060, bytesOf 32 (tlanesNat i.causes))]
  ++ i.aux.map (fun a => (a.1, bytesOf a.2.1 a.2.2))
  ++ (match i.cont with | some c => [(0x080, contBytes c)] | none => [])
  ++ i.faddr.map (fun a => (0x200 + 8 * a.1, bytesOf 8 a.2))
  ++ (match i.inside with
      | some r => r.t.map (fun e => (0x800 + 256 * (e.1 / 64) + 4 * (e.1 % 64), bytesOf 4 e.2.toNat))
      | none => [])

/-- Write a frame: zeros, then its parts. -/
def writeFrame (s : State) (part base : Nat) (parts : List (Nat × List Byte)) : State :=
  hardWrite s part base 0x1000 (fun s =>
    parts.foldl (fun s p => s.putBytes (base + p.1) p.2) { s with mem := sclear s.mem base 0x1000 })

/-- The vector entry of a code (R247). -/
def vectorOf (p : Partition) (code : Nat) : DWord := BitVec.ofNat 64 (field64 p.tvbase 54 8 * 256 + 16 * code)

/-- The lowest free frame slot. -/
def freeSlot (gr : Group) : Nat := ((span 1 4).find? (fun n => (alook gr.frames n).isNone)).getD 5

/-- The halt of R245 reaches a sibling: between runs it halts at once with SKID 0; inside a run it halts at the run's end, and an
instruction that it has already issued does not count in its skid (R44). A waiting group keeps its wait and executes its instruction
again. A halted group is not ready, so its pass count is 0 (R297). -/
def haltSibling (s : State) (c t h : Nat) (y : Group) : Group :=
  let between : Group := { y with tcause := haltCause 0, skid := 0, midway := false, passes := 0, starving := none }
  match y.status with
  | .ready => if holdsPort s c t h then { y with skid := 0, midway := y.xop.isSome } else { between with status := .halted }
  | .waiting (.flagsDone _ _) => { y with skid := 0, midway := false }
  | .waiting _ => if holdsPort s c t h then { y with skid := 0, midway := true } else { between with midway := true }
  | _ => y

/-- A group that has won its port and has issued nothing yet, its first instruction still waiting to issue, is between runs: it gives
the port up. -/
def Group.unbegun (y : Group) : Bool := y.status == .ready && y.runPos == 0 && y.xop.isNone

/-- The halt of R245 for the siblings of group g. -/
def haltSiblings (s : State) (c t g : Nat) (groups : List (Nat × Group)) : State :=
  let s := groups.foldl (fun s e => if e.2.unbegun then freePort s c t e.1 else s) s
  s.updTeam t (fun x =>
    { x with handler := some g, stopped := false
             groups := x.groups.map (fun e => if e.1 = g then e else (e.1, haltSibling s c t e.1 e.2)) })

/-- Trap entry (R244), one step: the frame, TCAUSE and TLANES, S0:2, GMR, the stack entry, SUPER, the handler mask, the
halt of the siblings, and the vector entry; a save that had stopped the team's issue waits again (Table 11-8). A trap that is delivered at a run end runs its handler in every live lane (R254). A fifth entry kills the team (R257), as does a full stack (R249). -/
def takeTrap (s : State) (t g : Nat) (i : Trap) : State :=
  match s.team? t, s.group? t g with
  | some tm, some gr =>
    if gr.frames.length ≥ 4 then failTeam s t 0x106
    else
      let slot := freeSlot gr
      let kind : EntryKind := if i.inside.isSome then .trapXop else .trap
      match pushEntry s t g ⟨gr.active, i.pt.pc, kind, (i.inside.map (·.mpc)).getD 0, slot⟩ with
      | none => failTeam s t 0x105
      | some s =>
        let s := writeFrame s tm.part (frameAddr tm g slot) (frameParts i gr)
        let hidden : FrameHidden :=
          ⟨i.code, i.lv, i.prec, i.pt.pc, i.emask, i.pt.rep, i.redo, i.resume, i.copy, i.xop, gr.nextSeq⟩
        let mask := if i.lv then maskOfLanes (i.causes.map (·.1)) else if i.prec then gr.active else gr.live
        let running := tm.handled g
        let s := s.updGroup t g (fun y =>
          { ((y.setS 0 (BitVec.ofNat 32 (frameVA tm g slot))).setS 1 (BitVec.ofNat 32 (frameVA tm g slot / 2 ^ 32))) with
            tcause := tcauseWord i, tlanes := i.causes, gmr := 0, frames := aput y.frames slot hidden, active := mask,
            pc := vectorOf (s.part tm.part) i.code, rep := none, replay := none, xop := none, redo := [], runPos := 0,
            passes := 0, starving := none, status := if running then .pendingHandler else .ready })
        let s := freePort s tm.core t g
        if running then s else haltSiblings s tm.core t g tm.groups
  | _, _ => s

/-- The current place of a site as a trap's pc fields: the stack entry holds REP's address inside a REP (R376). -/
def trapAt (x : Site) (code : Nat) : Trap :=
  { code := code, emask := x.gr.emask x.tm.width ||| x.errs, pt := x.gr.point, trapPC := x.gr.point.word,
    redo := x.gr.redo, resume := x.gr.redoEnd }

/-- A precise trap of the issuing group's instruction with no lane causes. -/
def trapWhole (s : State) (x : Site) (code : Nat) : State := takeTrap s x.t x.g (trapAt x code)

/-- A precise trap with one cause for the group as lane 0: LV = 0, FADDR of lane 0 (R339, R294). -/
def trapScalar (s : State) (x : Site) (cause addr : Nat) (ats : Bool) : State :=
  takeTrap s x.t x.g { trapAt x (0x20 + cause) with faddr := [(0, addr)], hmask := if ats then 1 else 0 }

/-- A precise trap with lane causes (R82, R338); a lane with a register in error that has no cause of higher priority records 6. -/
def trapLanes (s : State) (x : Site) (causes : List (Nat × Nat)) (faddr : List (Nat × Nat)) (hmask : Lanes) : State :=
  let all := causes ++ ((lanesOf x.errs).filter (fun l => causes.all (fun c => c.1 != l))).map (fun l => (l, 6))
  takeTrap s x.t x.g { trapAt x (laneCode all) with causes := all, faddr := faddr, hmask := hmask }

/-! ### Forwarding -/

def Loc.line (l : Loc) : Nat := lineOf l.addr

def Acc.on (a : Acc) (l : Loc) : Bool := !a.done && a.loc.space == l.space && a.loc.team == l.team && a.loc.line == l.line

/-- A byte of a location as the group's earlier pending stores leave it (forwarding, R200); a byte that has landed already is read where
it is (R199). -/
def forwardByte (ops : List PendOp) (seq : Nat) (l : Loc) (i : Nat) (here : Byte) : Byte :=
  ops.foldl (fun b p =>
    if p.seq < seq ∧ p.kind = .store then
      p.accs.foldl (fun b a =>
        if a.on l ∧ a.loc.addr ≤ l.addr + i ∧ l.addr + i < a.loc.addr + p.size then
          if (alook a.landed (l.addr + i - a.loc.addr)).isSome then here
          else (a.data.flatMap (fun w => bytesOf 4 w.toNat)).getD (l.addr + i - a.loc.addr) b
        else b) b
    else b) here

/-- A word of memory as the group itself reads it. -/
def groupWord (s : State) (y : Group) (a : Nat) : Word :=
  BitVec.ofNat 32 (ofBytes ((span 0 4).map (fun i => forwardByte y.ops y.nextSeq ⟨0, 0, a⟩ i (s.locByte ⟨0, 0, a⟩ i))))

/-! ### Returning from a trap -/

/-- The pending handler that runs next when a handler has returned: the lowest GROUPID (R245). -/
def nextHandler (x : Team) : Option Nat := (x.groups.find? (fun e => e.2.status == .pendingHandler)).map (·.1)

/-- A handler has returned: the next pending one starts, or the halted groups resume. -/
def handlerDone (x : Team) : Team :=
  match nextHandler x with
  | some h => ({ x with handler := some h }).updGroup h (fun y => { y with status := .ready })
  | none =>
    ({ x with handler := none }).mapGroups (fun _ (y : Group) => if y.status = GStatus.halted then { y with status := GStatus.ready } else y)

/-- The frame's fields that POPR takes (R252). -/
def frameRact (s : State) (tm : Team) (g slot : Nat) : Word := s.read32 (frameAddr tm g slot + 4)
def frameGmr (s : State) (tm : Team) (g slot : Nat) : Word := s.read32 (frameAddr tm g slot + 0x30)
def frameTemps (s : State) (tm : Team) (g slot w : Nat) : List (Nat × Word) :=
  (span 0 8).foldl (fun m n => (span 0 w).foldl (fun m l =>
    sput 0 m (64 * n + l) (s.read32 (frameAddr tm g slot + 0x800 + 256 * n + 4 * l))) m) []

/-- A held copy that POPR resumes or abandons: RACT 00 lets it go on, RACT 01 drops it and lowers the cp of the group that issued
it (Table 11-5, R151). -/
def settleCopy (s : State) (tm : Team) (t : Nat) (slot : Option Nat) (abandon : Bool) : State :=
  match slot.bind (fun n => (alook (s.core tm.core).copies n).map (fun c => (n, c.group))) with
  | none => s
  | some (n, g) =>
    let s := s.updCore tm.core (fun c => { c with
      copies := if abandon then adel c.copies n
        else c.copies.map (fun e => if e.1 = n then (e.1, { e.2 with held := none }) else e) })
    if abandon then s.updGroup t g (fun y => { y with cp := y.cp - 1 }) else s

/-- The frame slot is freed and the entry popped; S0 to S7 and GMR come back from the frame, MASK from the entry. -/
def restoreFrame (s : State) (tm : Team) (t g : Nat) (e : StackEntry) : State :=
  let base := frameAddr tm g e.gidx
  let regs := (span 0 8).map (fun r => s.read32 (base + 0x40 + 4 * r))
  let gmr := frameGmr s tm g e.gidx
  (popEntry s t g).updGroup t g (fun y =>
    { (y.setSn 0 regs) with gmr := gmr, active := e.mask, frames := adel y.frames e.gidx, rep := none, replay := none,
                            xop := none, redo := [], runPos := 0 })

/-- The resume address, with what POPR takes of a sequence in progress there: its micro-PC and its temporaries (R65, R255). -/
def FrameHidden.back (h : FrameHidden) (e : StackEntry) (temps : List (Nat × Word)) : ResumePt :=
  { h.resume with xop := h.resume.xop.map (fun r => { r with mpc := e.mpc, t := temps }) }

/-- Where RACT 01 resumes after a precise trap (Table 11-5, R376, R277, R437); after an imprecise one both resume at the
place. -/
def skipPoint (h : FrameHidden) (e : StackEntry) (temps : List (Nat × Word)) : ResumePt :=
  if !h.redo.isEmpty then h.back e temps
  else match h.rep with
    | some r => .at (r.addr + 8)
    | none => .at (e.pc + 4)

/-- What RACT 00 leaves for the group to run (R256, R277, R376, R437). -/
def retryGroup (y : Group) (h : FrameHidden) (e : StackEntry) (rmask : Lanes) (temps : List (Nat × Word)) : Group :=
  let lanes := rmask &&& h.emask
  let y := match h.redo with
    | [] => if h.prec then { y with pc := e.pc, rep := h.rep } else y.goto (h.back e temps)
    | p :: _ => ({ y with redo := h.redo, redoEnd := h.back e temps }).goto p
  if !h.prec then y
  else
    let y := if h.lv then { y with replay := some (lanes &&& e.mask) } else y
    { y with xop := h.xop.map (fun r => { r with mpc := e.mpc, t := temps }) }

/-- A group's frames are all returned: its handler is done. -/
def leaveHandler (s : State) (t g : Nat) : State :=
  match s.group? t g with
  | some y => if y.frames.isEmpty then s.updTeam t handlerDone else s
  | none => s

/-- Step 2 of R255 for RACT 00 and 01, after the fence. When every lane of the replay mask has exited, 00 acts as 01
(R45). -/
def returnFrom (s : State) (t g : Nat) (e : StackEntry) (h : FrameHidden) (skip : Bool) : State :=
  match s.team? t, s.group? t g with
  | some tm, some gr =>
    let rmask : Lanes := s.read64 (frameAddr tm g e.gidx + 0x20)
    let temps := if e.kind = .trapXop then frameTemps s tm g e.gidx tm.width else []
    let gone := h.prec && h.lv && (rmask &&& h.emask) != 0 && (rmask &&& h.emask &&& gr.live) == 0
    let skip := skip || gone
    let s := settleCopy s tm t h.copy skip
    let s := restoreFrame s tm t g e
    let s := s.updGroup t g (fun y => if skip && h.prec then y.goto (skipPoint h e temps) else retryGroup y h e rmask temps)
    leaveHandler s t g
  | _, _ => s

/-- RACT 10: the team is to be saved as in R265 with the wake condition "firmware"; the group waits at its POPR, which
runs again when the team resumes. No deadline applies. An escalation that is refused BUSY is logged, and the POPR is issued again (log
entry 48). -/
def escalateTeam (s : State) (t g slot : Nat) : State :=
  if requestsFull s then wakeHere (s.logEvent 4 1 t []) t g
  else (waitHere s t g (.escalated slot)).updTeam t (fun x => { x with saving := some (2 ^ 64) })

/-- The lines of a frame that a trap return reads: that of RACT and what RACT 00 and 01 restore, T0 to T7 for KIND 10. -/
def frameLines (tm : Team) (g : Nat) (e : StackEntry) (restores : Bool) : List Nat :=
  let base := frameAddr tm g e.gidx
  lineOf base :: (if restores && e.kind == .trapXop then
    (span 0 8).flatMap (fun n => (span 0 ((tm.width + 31) / 32)).map (fun k => lineOf (base + 0x800 + 256 * n + 128 * k))) else [])

/-- Why POPR or EXIT does not return by an entry of KIND 01 or 10 (R255, R368): a frame that cannot be read kills the team with CAUSE
0x0109; a nonzero reserved bit of RACT, as the group reads it, raises 0x09 precisely. For a GMR of the frame that breaks Table 3-3,
which RACT 00 and 01 would restore, no rule says what happens, and the model refuses it in the same way, so that no reserved field of
GMR ever reads nonzero (R9, R73; log entry 63). -/
def returnRefusal (s : State) (tm : Team) (g : Nat) (y : Group) (e : StackEntry) : Option Nat :=
  let base := frameAddr tm g e.gidx
  let ract := groupWord s y (base + 4)
  let restores := decide (fieldOf ract 1 0 < 2)
  if (frameLines tm g e restores).any (fun l => s.badLines.contains l) then some 0x109
  else if fieldOf ract 31 2 ≠ 0 ∨ (restores = true ∧ gmrOk (groupWord s y (base + 0x30)) = false) then some 0x09
  else none

/-- The refusal of a return. -/
def refuseReturn (s : State) (x : Site) (code : Nat) : State := if code = 0x109 then failTeam s x.t code else trapWhole s x code

/-- POPR or EXIT on an entry of KIND 01 or 10 (Table 11-5), after the fence of R255 has completed: the frame is read then. -/
def trapReturn (s : State) (t g : Nat) : State :=
  match s.team? t, s.group? t g with
  | some tm, some gr =>
    match gr.stack with
    | [] => s
    | e :: _ =>
      match alook gr.frames e.gidx with
      | none => s
      | some h =>
        let back := fun (skip : Bool) => returnFrom (endRun (noteIssue (wakeHere s t g) t g) t g) t g e h skip
        match fieldOf (frameRact s tm g e.gidx) 1 0 with
        | 0 => back false
        | 1 => back true
        | 2 => escalateTeam s t g e.gidx
        | _ => failTeam s t h.code
  | _, _ => s

/-! ### Checks 1 to 5 of R92 and the issue of an instruction -/

/-- The class of Table 2-3, which also says which engine an instruction needs. -/
def roleAllows (i : Instr) (r : Role) : Bool :=
  match i, r with
  | .cpy .., .copy | .cpyg .., .copy | .cpyred .., .copy => true
  | .cpy .., _ | .cpyg .., _ | .cpyred .., _ => false
  | .tmmaPair .., .matrix | .tmmaQuad .., .matrix | .tzero .., .matrix => true
  | .tmmaPair .., _ | .tmmaQuad .., _ | .tzero .., _ => false
  | .tcvt .., .copy | .tquant .., .copy => false
  | .tstat .., .vector | .trd .., .vector | .twr .., .vector => true
  | .tstat .., _ | .trd .., _ | .twr .., _ => false
  | _, _ => true

end Sys2Proof.Machine
end

