-- ==== Sys2Proof/Machine/Order.lean ====
section
/-! DEFINITION. Ordering: held releases and their timestamps (R205, R233), acquires (R197), Piccolo's log and its checks
(R223 to R227), quarantine and containment (R236 to R240, R437). -/
namespace Sys2Proof.Machine

def scopeLe (a b : Scope) : Bool := decide (scopeCode a ≤ scopeCode b)

/-- B lies within scope sc of A, for groups by team and core (R196, Table 0-3). CLUSTER contains TEAM (R5), wherever a team that was
saved has resumed. -/
def within (sc : Scope) (ta ga ca tb gb cb : Nat) : Bool :=
  match sc with
  | .group => ta == tb && ga == gb
  | .team => ta == tb
  | .cluster => ta == tb || ca / 192 == cb / 192
  | .device | .system => true

/-! ### Piccolo's log -/

/-- The entries that are not yet freed: replayed ones are freed from the front (R224). -/
def freeLog : List LogEntry → List LogEntry
  | [] => []
  | e :: es => if e.replayed then freeLog es else e :: es

/-- What Piccolo still knows: the entries that are not yet freed, and of the freed ones those with whose time a later entry of their
group, not replayed yet, is still to be compared (R227; DEDUCED, log entry 74). -/
def keptLog (log : List LogEntry) : List LogEntry :=
  (log.takeWhile (·.replayed)).filter (fun x =>
    log.any (fun y => !y.replayed && y.team == x.team && y.group == x.group && decide (x.seq < y.seq))) ++ freeLog log

/-- Room for entries (R223: at most 256 that are not freed). -/
def logFree (c : Core) : Nat := Config.commitLog - (freeLog c.log).length

/-- Add an entry; its index is the next in cyclic order. -/
def logAdd (s : State) (core : Nat) (e : LogEntry) : State :=
  s.updCore core (fun c => { c with log := c.log ++ [{ e with idx := c.logNext }],
                                    logNext := (c.logNext + 1) % Config.commitLog })

def lowestLane (m : Lanes) : Nat := (lanesOf m).headD 0

/-- An entry of the issuing group at its place. -/
def entryAt (x : Site) (kind : LogKind) (scope : Scope) (line : Option Nat) : LogEntry :=
  { idx := 0, team := x.t, group := x.g, seq := x.gr.nextSeq, pc := x.gr.point.word, mpc := none,
    lane := lowestLane (x.gr.emask x.tm.width), kind := kind, scope := scope, line := line, time := none, fwd := none,
    rid := none, replayed := false, deps := [], asEarlier := none }

/-- The time of what takes effect in the current tick with no agent that stamps it (R221). -/
def State.thisTick (s : State) : EvTime := ⟨s.tick * 65536, none, false⟩

/-- An entry with no line whose time is the current tick: a fork, a join or the return of a wait (R221). A join stands for the
writes that it joins by their largest time (R226). -/
def logNow (s : State) (x : Site) (kind : LogKind) (scope : Scope) (joined : Option EvTime) : State :=
  logAdd s x.tm.core { entryAt x kind scope none with time := some s.thisTick, asEarlier := joined }

/-- What a group takes from completed engine operations that it joins: their times, homes and lines (R205, R233, R234). -/
def Group.takeDone (y : Group) (ops : List DoneOp) : Group :=
  { y with lastVT := ops.foldl (fun m o => max m o.vt) y.lastVT, homes := ops.foldl (fun m o => unionNat o.homes m) y.homes,
           wrote := ops.foldl (fun m o => unionNat o.wrote m) y.wrote,
           done := y.done.map (fun o => if ops.any (fun p => p.id == o.id) then { o with covered := true } else o) }

/-- The largest time of the memory writes of some operations. -/
def joinedTime (ops : List DoneOp) : Option EvTime :=
  ops.foldl (fun (m : Option EvTime) o => if o.homes.isEmpty ∧ o.vt = 0 then m else match m with
    | some e => if e.vt < o.vt then some ⟨o.vt, o.agent, true⟩ else m
    | none => some ⟨o.vt, o.agent, true⟩) none

/-- Change the entries of a core that satisfy a condition. -/
def logMap (s : State) (core : Nat) (p : LogEntry → Bool) (f : LogEntry → LogEntry) : State :=
  s.updCore core (fun c => { c with log := c.log.map (fun e => if p e then f e else e) })

inductive Cls where
  | ld | st | ldacq | strel | atom | fence
  deriving DecidableEq, Repr

/-- The rows and columns under which an entry is checked (R225). -/
def classesOf : LogKind → List Cls
  | .ld => [.ld]
  | .st => [.st]
  | .ldacq => [.ldacq]
  | .strel => [.strel]
  | .atom acq rel => [.atom] ++ (if acq then [.ldacq] else []) ++ (if rel then [.strel] else [])
  | .fence => [.fence]
  | .other asRelease => if asRelease then [.strel] else [.ldacq]

inductive Verdict where
  | p | n | l | d
  deriving DecidableEq, Repr

/-- Table 10-1. -/
def verdict : Cls → Cls → Verdict
  | _, .fence => .n
  | .fence, _ => .n
  | .ldacq, _ => .n
  | _, .strel => .n
  | .ld, .ld => .p
  | .ld, .ldacq => .p
  | .ld, .st => .d
  | .ld, .atom => .d
  | .st, _ => .l
  | .strel, _ => .l
  | .atom, .st => .d
  | .atom, .atom => .d
  | .atom, _ => .l

/-- The ordering entry's scope decides an N (R226): at GROUP it is checked as L. -/
def orderScope (x y : LogEntry) (cx cy : Cls) : Scope :=
  match cx, cy with
  | .ldacq, _ => x.scope
  | .fence, _ => x.scope
  | _, _ => y.scope

def sameLine (x y : LogEntry) : Bool := match x.line, y.line with | some a, some b => a == b | _, _ => false

/-- A verdict, at the scope that the pair is ordered at when it is N: whether y may not pass x. -/
def Verdict.holds (v : Verdict) (x y : LogEntry) (sc : Scope) : Bool :=
  match v with
  | .p => false
  | .l => sameLine x y
  | .d => sameLine x y || y.deps.contains x.seq
  | .n => sc != .group || sameLine x y

/-- The verdicts on a pair of entries of one group, x earlier, with the scope of the ordering entry: their own, and an N for each
FENCE between them (R226). -/
def verdicts (log : List LogEntry) (x y : LogEntry) : List (Verdict × Scope) :=
  (classesOf x.kind).flatMap (fun cx => (classesOf y.kind).map (fun cy => (verdict cx cy, orderScope x y cx cy)))
    ++ (log.filter (fun f => f.kind == .fence && f.team == x.team && f.group == x.group && decide (x.seq < f.seq ∧ f.seq < y.seq))).map
        (fun f => (.n, f.scope))

/-- y may not pass x. -/
def mustOrder (log : List LogEntry) (x y : LogEntry) : Bool := (verdicts log x y).any (fun v => v.1.holds x y v.2)

/-- The scope that a violation of y against x reports: the release's or fence's that orders them, else y's own. -/
def violationScope (log : List LogEntry) (x y : LogEntry) : Scope :=
  match (verdicts log x y).find? (fun v => v.1 == .n && v.1.holds x y v.2) with
  | some v => v.2
  | none => y.scope

/-- y passes x under R221: an earlier tick; or, of one agent, an earlier time, a read lying before the write of the same SEQ. -/
def passes (y x : EvTime) : Bool :=
  decide (y.vt / 65536 < x.vt / 65536) ||
    (x.agent.isSome && x.agent == y.agent && (decide (y.vt < x.vt) || (y.vt == x.vt && !y.write && x.write)))

/-- The time under which y is checked against the earlier entry x. The flush of a host write counts at SYSTEM scope only. -/
def earlierTime (log : List LogEntry) (x y : LogEntry) : Option EvTime :=
  if x.line.isSome && !(verdicts log x y).any (fun v => v.1 == .n && v.2 == .system) then x.time
  else x.asEarlier <|> x.time

/-- The earlier entries of y's group that y may not pass. -/
def blockers (log : List LogEntry) (y : LogEntry) : List LogEntry :=
  log.filter (fun x => x.team == y.team && x.group == y.group && decide (x.seq < y.seq) && x.kind != .fence && mustOrder log x y)

/-- Whether an entry is replayed without a time of its own (R224): releases, fences, entries with no line. -/
def noTime (e : LogEntry) : Bool := e.rid.isSome || e.line.isNone

/-! ### Held releases -/

/-- The mark that a release leaves on a word (R197). -/
def Held.mark (h : Held) (word : Nat) : Mark := ⟨word, h.ts, h.scope, h.team, h.core, h.wrote⟩

def clearTick (h : Held) : Nat := max (h.ts / 65536) h.split

/-- A home's clear-through as the cores see it (R232): the home is cleared through every tick below this one. -/
def State.clearedBelow (s : State) (home : Nat) : Nat := (alook s.homes home).getD s.tick

/-- The group's earlier operations are all performed, and its earlier releases have completed (R205, R224). -/
def priorDone (s : State) (id : Nat) (h : Held) : Bool :=
  h.group == 64 ||
    ((match s.group? h.team h.group with
      | some y => y.ops.all (fun o => o.settled || decide (o.seq ≥ h.seq))
      | none => true)
     && s.held.all (fun e => e.1 == id || e.2.team != h.team || e.2.group != h.group || decide (e.2.seq ≥ h.seq)))

def replayedOf (s : State) (id : Nat) (h : Held) : Bool :=
  match h.log with
  | none => true
  | some _ => (s.core h.core).log.all (fun e => e.rid != some id || e.replayed)

/-- Step 1 of R208: the groups' own operations. Whether the drain covers the element accesses of engine operations in flight as well no
rule says; here it does not (log entry 83). -/
def drained (s : State) (h : Held) : Bool :=
  h.drain.all (fun d => match s.group? d.1 d.2.1 with
    | some y => y.ops.all (fun o => o.settled || decide (d.2.2 ≤ o.seq))
    | none => true)

/-- A containment trap is pending for a group of the team, or its handler runs (R237). -/
def Team.contained (x : Team) : Bool :=
  x.groups.any (fun e => e.2.traps.any (fun p => p.code == 0x40) || e.2.frames.any (fun f => f.2.code == 0x40))

/-- A post is held with its team while a containment trap is being handled (R237). -/
def postHeld (s : State) (h : Held) : Bool :=
  match h.kind with
  | .post _ _ => (match s.team? h.team with | some x => x.contained | none => false)
  | _ => false

/-- The stores of a report ring's write index keep their order (R318). -/
def indexTurn (s : State) (h : Held) : Bool :=
  match h.kind with
  | .reportIndex p wr _ => s.held.all (fun e => match e.2.kind with | .reportIndex q v _ => q != p || decide (wr ≤ v) | _ => true)
  | _ => true

/-- R233 and R235: a release completes when what precedes it is performed, Piccolo has replayed it, the tick is beyond its
timestamp (R222), and in ENFORCE mode every involved home is cleared through its clearance tick. From the hold of the tick wrap on
no release that issued after it completes (R242). -/
def clearable (s : State) (id : Nat) (h : Held) : Bool :=
  priorDone s id h && drained s h && replayedOf s id h && !postHeld s h && indexTurn s h && decide (h.split < wrapSplit)
    && decide (h.ts / 65536 < s.tick)
    && (!h.enforce || h.homes.all (fun d => decide (clearTick h < s.clearedBelow d)))

/-- Hold a release of the issuing group at its place. Its number is the current `nextId`; it takes the group's next place
in program order; at TEAM scope or wider the release split is made
(R234). Piccolo's entries: one for each line of its own write, or one with no line. -/
def holdRelease (s : State) (x : Site) (kind : RelKind) (scope : Scope) (ownHomes : List Nat)
    (log : Option (LogKind × List Nat)) (mpc : Option Nat := none) : State :=
  let id := s.newId
  let gr := x.gr
  let split := scope != .group && splits s x.tm.core gr.wrote
  let s := if split then releaseSplit s x.tm.core gr.wrote else s
  let h : Held :=
    { kind := kind, team := x.t, group := x.g, role := gr.role, seq := gr.nextSeq, pt := gr.point,
      lane := lowestLane (gr.emask x.tm.width), scope := scope, enforce := (s.part x.tm.part).enforce, ts := gr.lastVT,
      homes := unionNat ownHomes gr.homes, split := if s.wrapHold then wrapSplit else if split then s.tick else 0,
      core := x.tm.core, log := log.map (fun _ => (s.core x.tm.core).logNext), part := x.tm.part, drain := [], wrote := gr.wrote }
  let s := match log with
    | some (k, lines) =>
      (if lines.isEmpty then [none] else lines.map some).foldl
        (fun s l => logAdd s x.tm.core { entryAt x k scope l with mpc := mpc, rid := some id }) s
    | none => s
  { (s.bumpId.onSite x (fun y => { y with nextSeq := y.nextSeq + 1 })) with held := aput s.held id h }

/-- Hold an engine's post or a front-end release: a thread of its own with its own timestamp and homes; the release split covers
the lines `wrote` that the operation wrote in the core's L1 (R234). -/
def holdThread (s : State) (kind : RelKind) (team : Nat) (role : Role) (owner : Nat) (pc : DWord) (scope : Scope)
    (ts : VTime) (homes wrote : List Nat) (core part : Nat) : State :=
  let split := splits s core wrote
  holdPlain (if split then releaseSplit s core wrote else s) kind team role owner pc scope ts homes (if split then s.tick else 0) core part wrote

/-- The later held releases of a group take a write's time and home (R205, R233). -/
def feedHeld (held : List (Nat × Held)) (t g seq : Nat) (vt : VTime) (home : Option Nat) : List (Nat × Held) :=
  held.map (fun e =>
    if e.2.team = t ∧ e.2.group = g ∧ seq < e.2.seq then
      (e.1, { e.2 with ts := max e.2.ts vt, homes := match home with | some d => insertNat d e.2.homes | none => e.2.homes })
    else e)

/-- A write of a group has become visible: its time returns to the group (R204), to Piccolo's entries of it and of the
loads that forwarded from it, and to the releases that wait for it. -/
def noteWrite (s : State) (t g seq line : Nat) (vt : VTime) (agent : Nat) : State :=
  match s.team? t with
  | none => s
  | some tm =>
    let home := homeOf s (128 * line)
    let add := fun hs => match home with | some d => insertNat d hs | none => hs
    let s := s.updGroup t g (fun y =>
      { y with lastVT := max y.lastVT vt, homes := add y.homes, wrote := insertNat line y.wrote })
    let s := s.updTeam t (fun x => { x with vt := max x.vt vt, homes := add x.homes })
    let s := logMap s tm.core (fun e => e.team == t && e.group == g && e.line == some line && e.time.isNone
        && (e.seq == seq || e.fwd == some seq)) (fun e => { e with time := some ⟨vt, some agent, true⟩ })
    { s with held := feedHeld s.held t g seq vt home }

/-- A load has bound its value on a line (R221). -/
def noteBind (s : State) (t g seq line : Nat) (fwd : Option Nat) (vt : VTime) (agent : Nat) : State :=
  match s.team? t with
  | none => s
  | some tm =>
    logMap s tm.core (fun e => e.team == t && e.group == g && e.line == some line && e.seq == seq && e.time.isNone)
      (fun e => match fwd with | some q => { e with fwd := some q } | none => { e with time := some ⟨vt, some agent, false⟩ })

/-- The group acquires a release timestamp (R205), with the lines of its core's L1 that were written before that release (R234); so do its
releases that have issued behind the acquire at place `seq`. -/
def acquire (s : State) (t g seq : Nat) (ts : VTime) (wrote : List Nat) : State :=
  let s := s.updGroup t g (fun y => { y with lastVT := max y.lastVT ts, wrote := unionNat wrote y.wrote })
  { s with held := feedHeld s.held t g seq ts none }

/-- The releases that an acquire by group (t, g) at scope sc takes up from a word it reads (R197). -/
def marksSeen (s : State) (key : Nat) (sc : Scope) (t g core : Nat) : List Mark :=
  s.marks.filter (fun m => decide (m.word = key / 4) && within m.scope m.team 64 m.core t g core && within sc t g core m.team 64 m.core)

/-- The largest timestamp among them. -/
def markSeen (s : State) (key : Nat) (sc : Scope) (t g core : Nat) : VTime :=
  (marksSeen s key sc t g core).foldl (fun m e => max m e.ts) 0

/-- Acquire what some words carry: the largest release timestamp, and the lines. -/
def acquireMarks (s : State) (t g seq core : Nat) (ms : List Mark) : State :=
  acquire s t g seq (ms.foldl (fun m e => max m e.ts) 0)
    (ms.foldl (fun m e => if e.core = core then unionNat e.wrote m else m) [])

/-! ### Arrivals (R55, R59) -/

def ringField (d : Word) (hi lo : Nat) : Nat := fieldOf d hi lo
def roleCode : Role → Nat | .copy => 0 | .matrix => 1 | .vector => 2

/-- A ring of a team that is declared (V = 1), with the stage below STG + 1. -/
def Team.stage? (x : Team) (r st : Nat) : Option (Ring × Stage) :=
  match alook x.rings r with
  | some ring =>
    if ring.desc.getLsbD 20 ∧ st ≤ fieldOf ring.desc 3 0 then some (ring, ring.stages.getD st Stage.idle) else none
  | none => none

def Team.putStage (x : Team) (r st : Nat) (v : Stage) : Team :=
  match alook x.rings r with
  | some ring => { x with rings := aput x.rings r { ring with stages := setAt ring.stages st v } }
  | none => x

def isProducer (d : Word) (r : Role) : Bool := roleCode r == fieldOf d 5 4
def isConsumer (d : Word) (r : Role) : Bool := roleCode r == fieldOf d 7 6

/-- The last arrival of a half-lap: P turns, and what the half-lap's arrivals carried goes to those that wait for it (R57). -/
def Stage.turn (st : Stage) : Stage :=
  { st with a := 0, p := !st.p, ts := st.nts, homes := st.nhomes, wrote := st.nwrote, nts := 0, nhomes := [], nwrote := [] }

/-- Arrive (R55) with the timestamp, homes and lines it carries; none when the side does not own the stage. -/
def arriveStage (d : Word) (st : Stage) (role : Role) (ts : VTime) (homes wrote : List Nat) : Option Stage :=
  let st := { st with nts := max st.nts ts, nhomes := unionNat homes st.nhomes, nwrote := unionNat wrote st.nwrote }
  if isProducer d role && !st.p then some (if st.a = fieldOf d 13 8 then st.turn else { st with a := st.a + 1 })
  else if isConsumer d role && st.p then some (if st.a = fieldOf d 19 14 then st.turn else { st with a := st.a + 1 })
  else none

/-- The phase changes: what its arrivals carried goes to those that wait for it (R60). -/
def Barrier.turn (b : Barrier) : Barrier := { b with count := 0, phase := !b.phase, ts := b.nts, wrote := b.nwrote, nts := 0, nwrote := [] }

/-- An arrival at a barrier whose release has completed (R59, R346). -/
def arriveBarrier (b : Barrier) (ts : VTime) (wrote : List Nat) : Barrier :=
  let b := { b with nts := max b.nts ts, nwrote := unionNat wrote b.nwrote }
  if b.count + 1 = b.e then b.turn else { b with count := b.count + 1 }

/-! ### Entries of the pending-launch queue (R290, R291) -/

abbrev Rec := List Word

def rWord (r : Rec) (i : Nat) : Word := r.getD i 0
def rPdelta (r : Rec) : Int := signedOf (fieldOf (rWord r 3) 21 16) 6

/-- The launch's counter has room for one more. -/
def counterFree (s : State) (l : Nat) : Bool :=
  match alook s.launches l with | some x => decide (x.count < 2 ^ 32 - 1) | none => true

/-- The groups of a team that wait in SPAWN: since when, with the record and header that they have read. -/
def spawnWaiters (x : Team) : List (Nat × Nat × Group × List Word × List Word) :=
  x.groups.filterMap (fun e => match e.2.status with
    | .waiting (.spawn since r h) => some (since, e.1, e.2, r, h)
    | _ => none)

/-- The priority of a grid: PDELTA added to the spawning team's, within 0 and the launch's PRIO (R290). -/
def childPrio (s : State) (x : Site) (r : Rec) : Nat :=
  let top := match alook s.launches x.tm.launch with | some l => l.prio | none => 47
  min ((x.tm.prio : Int) + rPdelta r).toNat top

/-- Reserve an entry and hold SPAWN's release at DEVICE scope. -/
def reserveSpawn (s : State) (x : Site) (r : Rec) (h : List Word) : State :=
  let p : PendLaunch := ⟨s.newId, false, r, h, childPrio s x r⟩
  (holdRelease s x (.spawn s.newId) .device [] (some (.other true, []))).updTeam x.t (fun tm => { tm with pendq := tm.pendq ++ [p] })

/-- An entry or a count has become free: the group that has waited longest in SPAWN takes it, without arbitration (R291). -/
def grantSpawn (s : State) (t : Nat) : State :=
  match s.team? t with
  | none => s
  | some tm =>
    let waiting := spawnWaiters tm
    match waiting.find? (fun w => waiting.all (fun v => decide (w.1 ≤ v.1))) with
    | none => s
    | some (_, g, y, r, h) =>
      let x : Site := ⟨t, g, tm, y, 0⟩
      if tm.status ≠ .resident ∨ Config.pendingEntries ≤ tm.pendq.length ∨ counterFree s tm.launch = false ∨ logFree (s.core tm.core) = 0 then s
      else finishWait (reserveSpawn s x r h) t g

/-- The same for every team of a launch whose counter has fallen. -/
def grantSpawns (s : State) (l : Nat) : State :=
  (s.teams.filter (fun e => e.2.launch == l)).foldl (fun s e => grantSpawn s e.1) s

/-! ### Retirement adjustments (R59) -/

/-- Whether a group's role takes part in a barrier (R58). -/
def participates (b : Barrier) (r : Role) : Bool := b.desc.getLsbD 3 && b.desc.getLsbD (roleCode r)

/-- The adjustment of one barrier when a participating group retires (R59). -/
def retireBarrier (b : Barrier) (n : Nat) (y : Group) : Barrier :=
  if participates b y.role then
    let here := y.arrived.contains n && y.phase0.contains n == b.phase
    let e := b.e - 1
    let c := if here then b.count - 1 else b.count
    if c = e ∧ e ≠ 0 then { b with e := e }.turn else { b with e := e, count := c }
  else b

/-- The release of a BARARV or a RINGPUT. -/
def RelKind.arrives : RelKind → Bool
  | .bararv _ | .ringput _ _ => true
  | _ => false

/-- A BARARV or RINGPUT release of a group is still held. -/
def arrivalHeld (s : State) (t g : Nat) : Bool :=
  s.held.any (fun h => h.2.team == t && h.2.group == g && h.2.kind.arrives)

/-- The retirement adjustments, once no BARARV and no RINGPUT of the group is outstanding (R346, R380). -/
def settleRetired (s : State) (t g : Nat) : State :=
  if arrivalHeld s t g then s
  else
    match s.group? t g with
    | some y => s.updTeam t (fun x => { x with barriers := x.barriers.map (fun b => (b.1, retireBarrier b.2 b.1 y)) })
    | none => s

/-! ### Imprecise traps and containment -/

/-- A trap pending for a group, kept in ascending CODE (R246). -/
def addTrap (ts : List PendTrap) (p : PendTrap) : List PendTrap :=
  match ts with
  | [] => [p]
  | q :: qs => if p.code < q.code then p :: q :: qs else q :: addTrap qs p

def pendTrap (s : State) (t g : Nat) (p : PendTrap) : State := s.updGroup t g (fun y => { y with traps := addTrap y.traps p })

/-- What a violation reports (R240): KIND, line, interval ticks, UKIND, DIE, UNIT; for ORDER the entry Y. -/
structure Violation where
  kind : Nat
  line : Nat
  start : Nat
  fin : Nat
  ukind : Nat
  die : Nat
  unit : Nat
  entry : Option LogEntry := none
  deriving DecidableEq, Repr

/-- The containment record (Tables 10-6 and 10-7). -/
def contRecord (v : Violation) (group lane : Nat) (pcv imp : Bool) (scope : Scope) (clidx : Option Nat) (pc : DWord) : ContRec :=
  { head := BitVec.ofNat 64 (group * 2 ^ 40 + lane * 2 ^ 34 + pcv.toNat * 2 ^ 33 + imp.toNat * 2 ^ 32 + v.kind * 2 ^ 30
      + scopeCode scope * 2 ^ 27 + v.ukind * 2 ^ 24 + v.die * 2 ^ 21 + v.unit * 2 ^ 10
      + (match clidx with | some c => 2 ^ 9 + c | none => 0)),
    line := BitVec.ofNat 64 (128 * v.line % 2 ^ 52), start := BitVec.ofNat 64 v.start, fin := BitVec.ofNat 64 v.fin, pc := pc }

/-- Quarantine a line at its home (R238): every cached copy is recalled without its data; the 65th line of a home
quarantines every line that the home homes, and brings the die's rung. -/
def quarantineLine (s : State) (l : Nat) : State :=
  if s.quarantine.contains l then s
  else
    let h := homeOf s (128 * l)
    let n := (s.quarantine.filter (fun m => homeOf s (128 * m) == h)).length
    let s := recallBlind s l
    let s := ({ s with cleared := s.cleared.filter (· != l), recalls := s.recalls.filter (· != l) }).logEvent 1 0x26 (h.getD 0) [l]
    match h with
    | some d =>
      if n ≥ 64 then
        let s := (s.lines.filter (fun e => homeOf s (128 * e.1) == h)).foldl (fun s e => recallBlind s e.1) s
        let s := ({ s with
          quarantinedHomes := insertNat d s.quarantinedHomes
          cleared := s.cleared.filter (fun m => homeOf s (128 * m) != h) }).logEvent 1 0x65 d [l]
        if d < 640 then startRung s 4 (d / 160) none else startRung s 5 0 none
      else { s with quarantine := insertNat l s.quarantine }
    | none => { s with quarantine := insertNat l s.quarantine }

/-- The quarantine of a line begins; it takes effect by the end of the tick, or at once (R238, R243). -/
def beginQuarantine (s : State) (l : Nat) (soon : Bool) : State :=
  if soon then { s with recalls := insertNat l s.recalls } else quarantineLine s l

/-- The quarantines that have begun take effect. -/
def settleRecalls (s : State) : State := { s.recalls.foldl quarantineLine s with recalls := [] }

/-- What a discarded release leaves undone (Table 10-5, R346, R379): of a PGMAP from the pool, the page (R367). -/
def undoRelease (s : State) (h : Held) : State :=
  match h.kind with
  | .strel q | .atom q => s.updGroup h.team h.group (fun y => { y with ops := y.ops.filter (fun o => decide (o.seq ≠ q)) })
  | .ringput r st =>
    s.updTeam h.team (fun x => match x.stage? r st with
      | some (_, v) => x.putStage r st { v with rv := v.rv - 1 }
      | none => x)
  | .bararv n => s.updGroup h.team h.group (fun y => { y with arrived := y.arrived.filter (· != n) })
  | .spawn e => s.updTeam h.team (fun x => { x with pendq := x.pendq.filter (fun p => decide (p.id ≠ e)) })
  | .pgmapFill a _ _ _ | .pgmapLeaf a _ _ _ true => s.logEvent 2 0x40 h.core [a, h.part]
  | _ => s

/-- A held release that is given up: it is undone, and its entries in Piccolo's log are replayed. -/
def giveUp (s : State) (ids : List Nat) (hs : List Held) : State :=
  let s := hs.foldl undoRelease s
  let s := { s with held := s.held.filter (fun e => !ids.contains e.1) }
  hs.foldl (fun s h => logMap s h.core (fun e => match e.rid with | some i => ids.contains i | none => false)
    (fun e => { e with rid := none, replayed := true, time := some s.thisTick })) s

/-- Piccolo's entries of an operation's lines on which no lane was performed, and of loads that forwarded from it there,
take the tick as their time. -/
def closeEntries (s : State) (t g seq : Nat) : State :=
  match s.team? t with
  | none => s
  | some tm =>
    logMap s tm.core (fun e => e.team == t && e.group == g && e.time.isNone && ((e.seq == seq && e.fwd.isNone) || e.fwd == some seq))
      (fun e => { e with time := some s.thisTick })

/-- The lanes of an operation that are still to do: those not performed, and those whose cause is to be reported. -/
def PendOp.undone (o : PendOp) : Lanes := maskOfLanes ((o.accs.filter (fun a => !a.done)).map (·.lane) ++ o.late.map (·.lane))

/-- What is not done of the operation that a group waits for is given up, when a trap comes first: the group stands at the
instruction, or the micro-op, for just those lanes, so that no lane is performed twice (R215, R256; log entry 75). -/
def dropWaited (s : State) (t g : Nat) : State :=
  match s.group? t g with
  | none => s
  | some y =>
    match y.status with
    | .waiting (.opDone q) =>
      match y.ops.find? (fun o => decide (o.seq = q)) with
      | none => s
      | some o =>
        let s := match o.rid.bind (fun r => (alook s.held r).map (fun h => (r, h))) with
          | some (r, h) => giveUp s [r] [h]
          | none => s
        (closeEntries s t g q).updGroup t g (fun y => { y with
          ops := y.ops.filter (fun p => decide (p.seq ≠ q)), status := .ready, replay := some o.undone,
          xop := match o.mpc, y.xop with | some m, some r => some { r with mpc := m } | _, r => r })
    | _ => s

/-- A containment trap with PREC = 0 for a group, or for the team's lowest live group when that one has retired; a team
with no live group is failed with CAUSE 0x40 (R237, R239). -/
def containImprecise (s : State) (t g : Nat) (v : Violation) (lane : Nat) (pcv : Bool) (scope : Scope) (clidx : Option Nat)
    (pc : DWord) : State :=
  match s.team? t with
  | none => s
  | some tm =>
    let target := match tm.group? g with
      | some y => if y.isRetired then (tm.live.head?).map (·.1) else some g
      | none => (tm.live.head?).map (·.1)
    match target with
    | some h => pendTrap s t h ⟨0x40, none, [], some (contRecord v g lane pcv true scope clidx pc), []⟩
    | none => failTeam s t 0x40

/-- The containment record of a group's discarded releases, the earliest of which is h: that of an ORDER violation names the entry Y in
HEAD (Table 10-7) and in PC (Table 10-6) where Y is of this group; the trap's own PCs are the release's (R437; log entry 61). -/
def releaseRecord (v : Violation) (t g : Nat) (h : Held) : ContRec :=
  match v.entry with
  | some y =>
    if y.team = t ∧ y.group = g then contRecord v g y.lane true false h.scope (some y.idx) y.pc
    else contRecord v g h.lane true false h.scope h.log h.pt.word
  | none => contRecord v g h.lane true false h.scope h.log h.pt.word

/-- The wait of a group for a discarded release is at the release itself, which RACT 00 executes again. -/
def waitsAt (y : Group) (h : Held) : Bool := (match y.status with | .waiting _ => true | _ => false) && h.pt == y.point

/-- Discard the held releases of one group (R237, R437): they are undone in order, and the group takes one containment
trap at the earliest. RACT 00 will execute each again and go on at the group's next instruction not yet issued; what the group waits
for and has not done is done then. A group in a handler that began after the earliest takes the trap when it has returned. The releases
of a group that has retired have no lane left to execute them again: the trap is imprecise, as for a post of such a group
(log entry 61). -/
def discardGroup (s : State) (t g : Nat) (v : Violation) : State :=
  let mine := s.held.filter (fun e => decide (e.2.team = t) && decide (e.2.group = g))
  let all := mine.map (·.2)
  match all, s.group? t g with
  | h :: _, some y =>
    let last := all.getLastD h
    let s := giveUp s (mine.map (·.1)) all
    if y.isRetired then
      let s := if all.any (fun h => h.kind.arrives) then settleRetired s t g else s
      containImprecise s t g v h.lane true h.scope h.log h.pt.word
    else
      let cont := some (releaseRecord v t g h)
      if y.frames.any (fun f => decide (h.seq < f.2.seq)) then pendTrap s t g ⟨0x40, none, [], cont, all.map (·.pt)⟩
      else
        let here := waitsAt y last
        let s := if here then wakeHere s t g else dropWaited s t g
        match s.group? t g with
        | none => s
        | some z =>
          let s := match z.status with | .waiting _ => wakeHere s t g | _ => s
          let todo := if here then y.redo.drop 1 else y.redo
          let after : ResumePt :=
            if !y.redo.isEmpty then y.redoEnd
            else if here then (match y.rep with | some _ => y.next.point | none => .at (y.pc + 4))
            else z.place
          takeTrap s t g
            { code := 0x40, emask := y.active, pt := h.pt, trapPC := h.pt.word, redo := all.map (·.pt) ++ todo, resume := after, cont := cont }
  | _, _ => s

/-- Every held release of a team is discarded when one of them is affected (R237). Posts stay held with the team. An entry that a
discarded SPAWN frees goes to the group that has waited longest for one (R291). -/
def discardTeam (s : State) (t : Nat) (v : Violation) : State :=
  match s.team? t with
  | none => s
  | some tm => grantSpawn (tm.groups.foldl (fun s e => discardGroup s t e.1 v) s) t

/-- The involved homes of a held release (R233): those of its own write and of every write ordered before it, the writes that are
not yet visible included. -/
def involvedHomes (s : State) (h : Held) : List Nat :=
  match s.group? h.team h.group with
  | some y =>
    unionNat ((y.ops.filter (fun o => decide (o.seq < h.seq) && o.kind != .load)).flatMap (fun o =>
      o.accs.filterMap (fun a => if a.done || a.loc.space != 0 then none else homeOf s a.loc.addr))) h.homes
  | none => h.homes

/-- A write ordered before a held release is not visible yet: its time, and the release's timestamp with it, is still to come. -/
def writesPending (s : State) (h : Held) : Bool :=
  match s.group? h.team h.group with
  | some y => y.ops.any (fun o => decide (o.seq < h.seq) && o.kind != .load && !o.settled)
  | none => false

/-- The affected releases of a failing interval at a home (R236). -/
def affected (s : State) (home start : Nat) : List (Nat × Held) :=
  s.held.filter (fun e => e.2.enforce && (involvedHomes s e.2).contains home && (decide (start ≤ clearTick e.2) || writesPending s e.2))

/-- The class data of a violation: its kind and its physical line in 52 bits, its start in 48, how long it lasted in 28 (log entry 42). -/
def violationData (kind line start fin : Nat) : BitVec 128 :=
  BitVec.ofNat 128 (128 * line % 2 ^ 52 + kind % 128 + 2 ^ 52 * (start % 2 ^ 48) + 2 ^ 100 * ((fin + 2 ^ 48 - start % 2 ^ 48) % 2 ^ 28))

/-- A violation in Beret's event log (R239). -/
def logViolation (s : State) (v : Violation) : State := s.logBits 1 0x40 v.unit (violationData v.kind v.line v.start v.fin)

/-- Contain a violation: log it, quarantine the line; discard the affected releases and the other held releases of their teams;
a grid-end or launch-completion release fails its launch with CAUSE 0x0102; with no affected release the team of the
interval's writer takes a trap with PREC = 0 when it is resident (R236 to R239). A report ring's index store is discarded: the next one carries the
index. R240 names no SCOPE, LANE or group for a trap with no affected release; the model writes GROUP (0), 0 and the group that takes it
(log entry 61). -/
def contain (s : State) (v : Violation) (hit : List (Nat × Held)) (writer : Option (Nat × Nat)) (soon : Bool) : State :=
  let s := beginQuarantine (logViolation s v) v.line soon
  if hit.isEmpty then
    match writer with
    | some (t, g) =>
      match s.team? t with
      | some tm => if tm.status = .resident then containImprecise s t g v 0 false .group none 0 else s
      | none => s
    | none => s
  else
    hit.foldl (fun s e =>
      if (alook s.held e.1).isNone then s
      else match e.2.kind with
        | .gridEnd gd => match alook s.grids gd with | some x => endLaunch s x.launch 0x102 0 | none => s
        | .launchEnd l => endLaunch s l 0x102 0
        | .reportIndex _ _ _ => { s with held := adel s.held e.1 }
        | .post _ _ =>
          containImprecise (discardTeam s e.2.team v) e.2.team e.2.lane v 0 true e.2.scope none e.2.pt.pc
        | _ => discardTeam s e.2.team v) s

/-- A release or a fence (Table 10-5). -/
def LogKind.releases (k : LogKind) : Bool := (classesOf k).any (fun c => c == .strel || c == .fence)

/-- The group's first release at or after an entry in program order. -/
def firstRelease (log : List LogEntry) (y : LogEntry) : Option Nat :=
  (log.filter (fun e => e.team == y.team && e.group == y.group && decide (y.seq ≤ e.seq) && e.kind.releases)).foldl
    (fun (m : Option Nat) e => some (min (m.getD e.seq) e.seq)) none

/-- An ORDER violation of entry y against x (R227, R236, R239): y's line is quarantined, and the group's first release at
or after y is affected when it is held, in ENFORCE mode; otherwise the group of y takes an imprecise trap. `soon`: the quarantine takes
effect by the end of the tick only (R243). -/
def orderViolation (s : State) (core : Nat) (y x : LogEntry) (soon : Bool) : State :=
  let s := logMap s core (fun e => e.idx == y.idx) (fun e => { e with replayed := true })
  let v : Violation :=
    { kind := 0, line := y.line.getD 0, start := match y.time with | some t => t.vt / 65536 | none => s.tick,
      fin := match x.time with | some t => t.vt / 65536 | none => s.tick, ukind := 0, die := core / 384, unit := core,
      entry := some y }
  let scope := violationScope (s.core core).log x y
  let imprecise :=
    let s := beginQuarantine (logViolation s v) v.line soon
    match s.team? y.team with
    | some tm =>
      if tm.status = .resident then containImprecise s y.team y.group v y.lane true scope (some y.idx) y.pc else s
    | none => s
  match s.held.find? (fun e => decide (e.2.team = y.team ∧ e.2.group = y.group ∧ firstRelease (s.core core).log y = some e.2.seq)) with
  | some h => if h.2.enforce then contain s v [h] none soon else imprecise
  | none => imprecise

/-- An entry whose time has returned while an earlier entry that it may not pass has none (R227, second case). -/
def overtaken (log : List LogEntry) (y : LogEntry) : Option LogEntry :=
  if y.time.isSome && !y.replayed then (blockers log y).find? (fun x => x.time.isNone) else none

/-- A time has returned for the entries of an operation on a line, and of the loads that forwarded from it: an earlier entry that
it may not pass and whose time has not returned is an ORDER violation found at once. -/
def checkReturned (s : State) (core t g seq line : Nat) (soon : Bool := false) : State :=
  let log := (s.core core).log
  let back := log.filter (fun e => e.team == t && e.group == g && e.line == some line && (e.seq == seq || e.fwd == some seq))
  match back.findSome? (fun y => (overtaken log y).map (fun x => (y, x))) with
  | some (y, x) => orderViolation s core y x soon
  | none => s

end Sys2Proof.Machine
end

