-- ==== Sys2Proof/Machine/Operands.lean ====
section
/-! DEFINITION. Operands: the registers each instruction names (R35, R91, R96), stepping under REP (R374, R375), the checks
3 to 5 of R92 and the scoreboard, buffer records and their per-lane checks (R169 to R173). -/
namespace Sys2Proof.Machine

/-! ### Registers that an instruction names: (V?, first, count) -/

abbrev Use := Bool × Nat × Nat

def uV (r : RegNo) (n : Nat := 1) : Use := (true, r.toNat, n)
def uS (r : RegNo) (n : Nat := 1) : Use := (false, r.toNat, n)

/-- Every V and S register that an instruction names, whether source or destination. XOP's operands depend on its
sequence and are checked by R274. -/
def usesOf : Instr → List Use
  | .sadd _ d a b | .ssub _ d a b | .smul _ d a b | .smulh _ d a b | .sand _ d a b | .sor _ d a b | .sxor _ d a b
  | .sshl _ d a b | .sshr _ d a b | .ssra _ d a b | .smin _ d a b | .smax _ d a b | .ssel _ d a b => [uS d, uS a, uS b]
  | .scmp _ _ _ a b => [uS a, uS b]
  | .smov _ w d a => [uS d (wsizeN w), uS a (wsizeN w)]
  | .smovQdst _ a => [uS a]
  | .smovQsend _ a => [uS a 4]
  | .smovQrecv _ d => [uS d 4]
  | .saddi _ d _ | .sandi _ d _ | .sori _ d _ | .sshli _ d _ | .sli _ d _ | .slih _ d _ => [uS d]
  | .vadd _ d a b | .vsub _ d a b | .vmul _ d a b | .vfma _ d a b | .vmin _ d a b | .vmax _ d a b | .vand _ d a b
  | .vor _ d a b | .vxor _ d a b | .vshl _ d a b | .vshr _ d a b | .vsra _ d a b | .vmulh _ d a b | .vsel _ d a b
  | .vshfl _ d a b => [uV d, uV a, uV b]
  | .vabs _ d a | .vneg _ d a | .vclz _ d a | .vpopc _ d a | .vcvt _ d a _ | .vrcp _ d a | .vrsq _ d a | .vsqrt _ d a
  | .vexp2 _ d a | .vlog2 _ d a | .vtanh _ d a | .vclass _ d a | .vscan _ _ d a => [uV d, uV a]
  | .vcmp _ _ _ a b => [uV a, uV b]
  | .vmov _ w d a => [uV d (wsizeN w), uV a (wsizeN w)]
  | .vbcast _ d a => [uV d, uS a]
  | .vbfly _ d a b => [uV d, uV a, uS b]
  | .vred _ _ d a => [uS d, uV a]
  | .vvote _ _ a => [uV a]
  | .velect _ d => [uS d]
  | .vquant _ d a _ => [uV d 2, uV a]
  | .vdeq _ d a _ => [uV d, uV a 2]
  | .kmovFromS _ _ a => [uS a 2]
  | .kmovToS _ d _ => [uS d 2]
  | .modes _ a => [uS a]
  | .ld _ w d a b | .ldacq _ w d a b | .st _ w d a b | .strel _ w d a b | .ldb _ w d a b | .stb _ w d a b =>
    [uV d (wsizeN w), uS a 8, uV b]
  | .lds _ w d a b | .sts _ w d a b => [uS d (wsizeN w), uS a 8, uS b]
  | .atomAdd _ _ d a b | .atomMin _ _ d a b | .atomMax _ _ d a b | .atomAnd _ _ d a b | .atomOr _ _ d a b
  | .atomXor _ _ d a b | .atomXchg _ _ d a b => [uV d, uS a 8, uV b]
  | .atomCas _ _ d a b => [uV d 2, uS a 8, uV b]
  | .atomsAdd _ _ d a b | .atomsMin _ _ d a b | .atomsMax _ _ d a b | .atomsAnd _ _ d a b | .atomsOr _ _ d a b
  | .atomsXor _ _ d a b | .atomsXchg _ _ d a b => [uS d, uS a 8, uS b]
  | .atomsCas _ _ d a b => [uS d 2, uS a 8, uS b]
  | .pref _ a b => [uS a 8, uV b]
  | .cpy _ d _ | .cpyg _ d _ | .cpyred _ d _ => [uS d 24]
  | .tmmaPair _ d a b => [uS d, uS a 2, uV b]
  | .tmmaQuad _ d a b => [uS d, uS a 4, uV b]
  | .tzero _ d => [uS d]
  | .tstat _ d a => [uV d 4, uS a]
  | .trd _ w d a b | .twr _ w d a b => [uV d (wsizeN w), uS a, uS b]
  | .tcvt _ d a b | .tquant _ d a b => [uS d, uS a, uS b]
  | .call d _ => [uS d 2]
  | .ret a => [uS a 2]
  | .spawn a => [uS a 16]
  | .cwait a b => [uS a 2, uS b]
  | .rdsys _ w d n => if n = 0 then [uV d] else [uS d (wsizeN w)]
  | .wrsys _ w d _ => [uS d (wsizeN w)]
  | .pgmapPool _ d a | .pgmapMap _ d a => [uS d 2, uS a 4]
  | .tinv _ a => [uS a 4]
  | .csload _ a b => [uS a 2, uS b]
  | _ => []

/-- Step sizes of the d, a and b fields under REP; none for a field that is no register (R374, R375). XOP's follow its
bound sequence (R276) and are given by the caller. -/
def stepsOf : Instr → Option Nat × Option Nat × Option Nat
  | .sadd .. | .ssub .. | .smul .. | .smulh .. | .sand .. | .sor .. | .sxor .. | .sshl .. | .sshr .. | .ssra .. | .smin ..
  | .smax .. | .ssel .. | .scmp .. => (some 1, some 1, some 1)
  | .smov _ w _ _ => (some (wsizeN w), some (wsizeN w), none)
  | .smovQdst .. => (some 1, some 1, none)
  | .smovQsend .. | .smovQrecv .. => (some 4, some 4, none)
  | .saddi .. | .sandi .. | .sori .. | .sshli .. | .sli .. | .slih .. => (some 1, none, none)
  | .vadd .. | .vsub .. | .vmul .. | .vfma .. | .vmin .. | .vmax .. | .vand .. | .vor .. | .vxor .. | .vshl .. | .vshr ..
  | .vsra .. | .vmulh .. | .vcmp .. | .vsel .. | .vshfl .. | .vbfly .. => (some 1, some 1, some 1)
  | .vabs .. | .vneg .. | .vclz .. | .vpopc .. | .vbcast .. | .vcvt .. | .vrcp .. | .vrsq .. | .vsqrt .. | .vexp2 ..
  | .vlog2 .. | .vtanh .. | .vred .. | .vscan .. | .vvote .. | .vclass .. => (some 1, some 1, none)
  | .vmov _ w _ _ => (some (wsizeN w), some (wsizeN w), none)
  | .velect .. => (some 1, none, none)
  | .vquant .. => (some 2, some 1, none)
  | .vdeq .. => (some 1, some 2, none)
  | .kand .. | .kor .. | .kxor .. => (some 1, some 1, some 1)
  | .knot .. | .kmovK .. => (some 1, some 1, none)
  | .kmovFromS .. => (some 1, some 2, none)
  | .kmovToS .. => (some 2, some 1, none)
  | .ld _ w _ _ _ | .ldacq _ w _ _ _ | .st _ w _ _ _ | .strel _ w _ _ _ | .ldb _ w _ _ _ | .stb _ w _ _ _
  | .lds _ w _ _ _ | .sts _ w _ _ _ => (some (wsizeN w), some 8, some 1)
  | .atomAdd .. | .atomMin .. | .atomMax .. | .atomAnd .. | .atomOr .. | .atomXor .. | .atomXchg .. | .atomsAdd ..
  | .atomsMin .. | .atomsMax .. | .atomsAnd .. | .atomsOr .. | .atomsXor .. | .atomsXchg .. => (some 1, some 8, some 1)
  | .atomCas .. | .atomsCas .. => (some 2, some 8, some 1)
  | .pref .. => (none, some 8, some 1)
  | .trd _ w _ _ _ | .twr _ w _ _ _ => (some (wsizeN w), some 1, some 1)
  | _ => (none, none, none)

/-- Table 17-3: the words that REP may prefix. -/
def repAllowed : Instr → Bool
  | .bru .. | .brk .. | .call .. | .ret .. | .popr | .exit | .trap .. | .bkpt .. | .rep .. | .barwait .. | .ringget ..
  | .wait .. | .drain .. | .fencesc | .cwait .. | .spawn .. => false
  | .pushr .. | .mode .. | .modes .. | .fence .. | .bararv .. | .ringput .. => false
  | .cpy .. | .cpyg .. | .cpyred .. | .tmmaPair .. | .tmmaQuad .. | .tzero .. | .tstat .. | .tcvt .. | .tquant .. => false
  | .rdsys .. | .wrsys .. | .pgmapPool .. | .pgmapMap .. | .tinv .. | .csload .. | .csbind .. => false
  | _ => true

/-- The bound sequence's header of a team's XOP entry (R279): the partition's master copy, which every bank mirrors. -/
def boundImage (s : State) (tm : Team) (n : Nat) : Option (List DWord) :=
  match alook tm.bind n with
  | some slot => alook (s.part tm.part).master slot
  | none => none

/-- Step sizes of an XOP's operands (R276): W's size when scaled, 8 for a record, 1 for a single register. -/
def xopSteps (h : DWord) (w : WSize) : Option Nat × Option Nat × Option Nat :=
  let one := fun (file : Nat) (scaled : Bool) =>
    if file = 0 then none else if scaled then some (wsizeN w) else if file = 3 then some 8 else some 1
  (one (field64 h 10 8) (h.getLsbD 17), one (field64 h 13 11) (h.getLsbD 18), one (field64 h 16 14) (h.getLsbD 19))

/-- The step sizes in force for a prefixed instruction. -/
def stepsAt (s : State) (tm : Team) (i : Instr) : Option Nat × Option Nat × Option Nat :=
  match i with
  | .xop _ n w _ _ _ =>
    match boundImage s tm n.toNat with
    | some (h :: _) => xopSteps h w
    | _ => (some 1, some 1, some 1)
  | _ => stepsOf i

/-- A step bit is set for a field that the word does not use as a register (R374). -/
def badSteps (st : Option Nat × Option Nat × Option Nat) (r : RepPos) : Bool :=
  (r.sd && st.1.isNone) || (r.sa && st.2.1.isNone) || (r.sb && st.2.2.isNone)

/-- The word of repetition `idx`: each stepped field raised; none when a field passes 127 (R375). Format U's d stands in
bits 22:16. -/
def steppedWord (w : Nat) (i : Instr) (st : Option Nat × Option Nat × Option Nat) (r : RepPos) : Option Nat :=
  let up := fun (on : Bool) (sz : Option Nat) => if on then r.idx * sz.getD 0 else 0
  let formU := match i with | .sli .. => true | .slih .. => true | _ => false
  let dd := up r.sd st.1
  let da := up r.sa st.2.1
  let db := up r.sb st.2.2
  let dOld := if formU then bitsOf w 22 16 else bitsOf w 20 14
  if dOld + dd > 127 ∨ (da ≠ 0 ∧ bitsOf w 13 7 + da > 127) ∨ (db ≠ 0 ∧ bitsOf w 6 0 + db > 127) then none
  else some (w + dd * (if formU then 2 ^ 16 else 2 ^ 14) + da * 2 ^ 7 + db)

/-! ### Checks 3 to 5 of R92 -/

/-- The boundary bit of an instruction; those of Table 2-5 carry it. -/
def boundary : Instr → Bool
  | .sadd e .. | .ssub e .. | .smul e .. | .smulh e .. | .sand e .. | .sor e .. | .sxor e .. | .sshl e .. | .sshr e ..
  | .ssra e .. | .smin e .. | .smax e .. | .scmp e .. | .ssel e .. | .smov e .. | .smovQdst e .. | .smovQsend e ..
  | .smovQrecv e .. | .saddi e .. | .sandi e .. | .sori e .. | .sshli e .. | .sli e .. | .slih e .. => e
  | .vadd e .. | .vsub e .. | .vmul e .. | .vfma e .. | .vmin e .. | .vmax e .. | .vabs e .. | .vneg e .. | .vand e ..
  | .vor e .. | .vxor e .. | .vshl e .. | .vshr e .. | .vsra e .. | .vmulh e .. | .vclz e .. | .vpopc e .. | .vcmp e ..
  | .vsel e .. | .vmov e .. | .vbcast e .. | .vcvt e .. | .vrcp e .. | .vrsq e .. | .vsqrt e .. | .vexp2 e ..
  | .vlog2 e .. | .vtanh e .. | .vshfl e .. | .vbfly e .. | .vred e .. | .vscan e .. | .vvote e .. | .velect e ..
  | .vquant e .. | .vdeq e .. | .vclass e .. => e
  | .kand e .. | .kor e .. | .kxor e .. | .knot e .. | .kmovK e .. | .kmovFromS e .. | .kmovToS e .. | .mode e ..
  | .modes e .. => e
  | .ld e .. | .ldacq e .. | .st e .. | .strel e .. | .lds e .. | .sts e .. | .ldb e .. | .stb e .. | .atomAdd e ..
  | .atomMin e .. | .atomMax e .. | .atomAnd e .. | .atomOr e .. | .atomXor e .. | .atomXchg e .. | .atomCas e ..
  | .atomsAdd e .. | .atomsMin e .. | .atomsMax e .. | .atomsAnd e .. | .atomsOr e .. | .atomsXor e .. | .atomsXchg e ..
  | .atomsCas e .. | .pref e .. => e
  | .cpy e .. | .cpyg e .. | .cpyred e .. | .tmmaPair e .. | .tmmaQuad e .. | .tzero e .. | .tstat e .. | .trd e ..
  | .twr e .. | .tcvt e .. | .tquant e .. => e
  | .pushr e .. | .bararv e .. | .ringput e .. | .fence e .. | .nop e | .rdsys e .. | .wrsys e .. | .pgmapPool e ..
  | .pgmapMap e .. | .tinv e .. | .csload e .. | .csbind e .. | .xop e .. => e
  | _ => true

/-- The budget of a role in V registers (R35). -/
def budgetOf (tm : Team) (r : Role) : Nat := 8 * (tm.budgets.getD (roleCode r) 0)

/-- Checks 3 to 5 of R92, then Table 17-3 for a prefixed word (R374): the cause of the first that fails. -/
def precheck (x : Site) (i : Instr) : Option Nat :=
  if x.gr.runPos + 1 ≥ Config.runLength ∧ boundary i = false ∧ x.gr.alone = false then some 0x03
  else if !roleAllows i x.gr.role then some 0x04
  else if (usesOf i).any (fun u => u.1 && decide (u.2.1 + u.2.2 > budgetOf x.tm x.gr.role)) then some 0x05
  else if x.gr.rep.isSome ∧ !repAllowed i then some 0x02
  else none

/-! ### The scoreboard (R157, R337, R343, R359) -/

def overlap (a n b m : Nat) : Bool := decide (a < b + m ∧ b < a + n)

/-- A pending load or atomic that will write a register. -/
def PendOp.writes (o : PendOp) (u : Use) : Bool :=
  o.kind != .store && o.dst.vec == u.1 && overlap o.dst.base o.dst.n u.2.1 u.2.2

/-- An FP32 ADD, MIN or MAX holds its group's next issue (R343); a store that XFAULT fires becomes visible before it (R85). -/
def PendOp.holdsIssue (o : PendOp) : Bool :=
  o.early ||
    match o.kind with
    | .atom op => decide (op ≤ 2) && o.typ == .fp32
    | _ => false

/-- A TSTAT whose results a use names. -/
def tstatWrites (c : Core) (t g : Nat) (u : Use) : Bool :=
  c.tiles.any (fun o => o.team == t && o.group == g &&
    (match o.kind with | .tstat _ _ d => u.1 && overlap d 4 u.2.1 u.2.2 | _ => false))

/-- An instruction that makes memory events or forks an engine: it waits for a pending acquire (R195, R210). -/
def makesEvents : Instr → Bool
  | .ld .. | .ldacq .. | .st .. | .strel .. | .lds .. | .sts .. | .ldb .. | .stb .. | .atomAdd .. | .atomMin ..
  | .atomMax .. | .atomAnd .. | .atomOr .. | .atomXor .. | .atomXchg .. | .atomCas .. | .atomsAdd .. | .atomsMin ..
  | .atomsMax .. | .atomsAnd .. | .atomsOr .. | .atomsXor .. | .atomsXchg .. | .atomsCas .. => true
  | .cpy .. | .cpyg .. | .cpyred .. | .tmmaPair .. | .tmmaQuad .. | .tzero .. | .tstat .. | .trd .. | .twr .. | .tcvt ..
  | .tquant .. => true
  | .bararv .. | .barwait .. | .ringput .. | .ringget .. | .cwait .. | .spawn .. | .xop .. | .smovQsend .. | .smovQrecv .. => true
  | _ => false

/-- Some operation still in flight keeps the instruction from issuing. -/
def stalled (s : State) (x : Site) (uses : List Use) (events : Bool) : Bool :=
  x.gr.ops.any (fun o => x.gr.pending o && (o.holdsIssue || uses.any o.writes || (events && o.acq)))
    || uses.any (tstatWrites (s.core x.tm.core) x.t x.g)

/-! ### Dependencies (R195, R223) -/

/-- The register that a group's dependency table names: V[r] is r, S[r] 128 + r, K[r] 256 + r. -/
def Use.keys (u : Use) : List Nat := span (if u.1 then u.2.1 else 128 + u.2.1) u.2.2

/-- K registers whose value an instruction's result takes up: read, and written. A guard only says which lanes act. -/
def kReads : Instr → List Nat
  | .kand _ _ a b | .kor _ _ a b | .kxor _ _ a b => [256 + a.toNat, 256 + b.toNat]
  | .knot _ _ a | .kmovK _ _ a | .kmovToS _ _ a => [256 + a.toNat]
  | _ => []
def kWrites : Instr → List Nat
  | .kand _ d _ _ | .kor _ d _ _ | .kxor _ d _ _ | .knot _ d _ | .kmovK _ d _ | .kmovFromS _ d _ => [256 + d.toNat]
  | .scmp _ _ d _ _ | .vcmp _ _ d _ _ => [256 + d.toNat]
  | .vvote _ d _ => [256 + d.toNat]
  | _ => []

/-! ### Registers in error (R261) -/

/-- The first register that an instruction names is a destination only. -/
def destOnly : Instr → Bool
  | .scmp .. | .ssel .. | .smovQdst .. | .smovQsend .. | .saddi .. | .sandi .. | .sori .. | .sshli .. | .slih .. => false
  | .vfma .. | .vcmp .. | .vsel .. | .vvote .. | .kmovFromS .. | .modes .. => false
  | .st .. | .strel .. | .stb .. | .sts .. | .atomAdd .. | .atomMin .. | .atomMax .. | .atomAnd .. | .atomOr .. | .atomXor ..
  | .atomXchg .. | .atomCas .. | .atomsAdd .. | .atomsMin .. | .atomsMax .. | .atomsAnd .. | .atomsOr .. | .atomsXor ..
  | .atomsXchg .. | .atomsCas .. => false
  | .cpy .. | .cpyg .. | .cpyred .. | .tmmaPair .. | .tmmaQuad .. | .tzero .. | .twr .. | .tcvt .. | .tquant .. => false
  | .ret .. | .spawn .. | .cwait .. | .wrsys .. | .tinv .. | .csload .. => false
  | _ => true

/-- The registers that an instruction reads. PREF reports nothing (R369). -/
def readsOf (i : Instr) : List Use :=
  match i with
  | .pref .. => []
  | _ => if destOnly i then (usesOf i).drop 1 else usesOf i

/-- The bits of its V sources that an instruction does not ignore (R62): those of the element type, or all 32; of VDEQ's, V[a]. -/
def readBits (m : Word) : Instr → Word
  | .vadd .. | .vsub .. | .vmul .. | .vfma .. | .vmin .. | .vmax .. | .vabs .. | .vneg .. | .vshl .. | .vshr .. | .vsra ..
  | .vmulh .. | .vclz .. | .vpopc .. | .vcmp .. | .vcvt .. | .vrcp .. | .vrsq .. | .vsqrt .. | .vexp2 .. | .vlog2 .. | .vtanh ..
  | .vquant .. | .vclass .. | .vdeq .. => BitVec.ofNat 32 (2 ^ typeBits (gmrType m) - 1)
  | .vred _ o .. | .vscan _ o .. => if o = .or then BitVec.allOnes 32 else BitVec.ofNat 32 (2 ^ typeBits (gmrType m) - 1)
  | _ => BitVec.allOnes 32

def Group.inError (y : Group) (key : Nat) (bits : Word) : Bool := y.bad.any (fun e => e.1 == key && e.2 &&& bits != 0)

/-- An S register that an instruction reads is in error. -/
def sError (x : Site) (i : Instr) : Bool :=
  (readsOf i).any (fun u => !u.1 && (span u.2.1 u.2.2).any (fun r => x.gr.inError (sKey r) (BitVec.allOnes 32)))

/-- A V register that a lane reads is in error; VSHFL and VBFLY read V[a] of another lane unless that has exited (R61); a lane of
VQUANT reads V[a] of every lane of its block that takes part, for their scale (R409). -/
def vError (x : Site) (i : Instr) (l : Nat) : Bool :=
  let err := fun (r l : Nat) => x.gr.inError (64 * r + l) (readBits x.gr.gmr i)
  let other := fun (r l : Nat) => laneOf x.gr.live l && err r l
  match i with
  | .vshfl _ _ a b => err b.toNat l || other a.toNat ((x.gr.getV b.toNat l).toNat % x.tm.width)
  | .vbfly _ _ a b => other a.toNat (l ^^^ (x.gr.getS b.toNat).toNat % x.tm.width)
  | .vquant _ _ a _ => (span (l / 32 * 32) 32).any (fun j => laneOf (x.gr.emask x.tm.width) j && err a.toNat j)
  | .vdeq _ _ a _ => err a.toNat l || x.gr.inError (64 * (a.toNat + 1) + l) (BitVec.allOnes 32)
  | _ => (readsOf i).any (fun u => u.1 && (span u.2.1 u.2.2).any (fun r => err r l))

/-- Lanes record uncorrectable data error for a register in error. -/
def trapErrors (s : State) (x : Site) (errs : Lanes) : State :=
  takeTrap s x.t x.g
    { trapAt x 0x26 with causes := (lanesOf errs).map (fun l => (l, 6)), faddr := (lanesOf errs).map (fun l => (l, 0)) }

/-- What the lanes without an error have done stands; then the others' report, unless the instruction has reported already,
waits to report, or has not issued. -/
def reportErrors (s : State) (x : Site) (errs : Lanes) (o : Out) : Out :=
  match o with
  | .next t =>
    match t.group? x.t x.g with
    | none => o
    | some y =>
      let waits : Bool := match y.status with | .waiting (.opDone _) => true | _ => false
      if t = s ∨ y.frames.length ≠ x.gr.frames.length ∨ waits then o else .next (trapErrors t x errs)
  | _ => o

/-- Where no lane's result stands without the register in error, nothing of the instruction is done. Refusals that rest on no
register's value come first: privilege, type and convergence (R393, R395, R416). -/
def refuseErrors (s : State) (x : Site) (errs : Lanes) (o : Out) : Out :=
  match o with
  | .next t =>
    match t.group? x.t x.g with
    | none => .next (trapErrors s x errs)
    | some y =>
      if y.frames.length ≠ x.gr.frames.length ∧ [0x06, 0x08, 0x36].contains (fieldOf y.tcause 7 0) then o
      else .next (trapErrors s x errs)
  | _ => o

/-- The scalar instructions: CODE 0x26 with LV = 0 for an S register in error (R261). -/
def scalarForm : Instr → Bool
  | .sadd .. | .ssub .. | .smul .. | .smulh .. | .sand .. | .sor .. | .sxor .. | .sshl .. | .sshr .. | .ssra .. | .smin ..
  | .smax .. | .scmp .. | .ssel .. | .smov .. | .smovQdst .. | .smovQsend .. | .smovQrecv .. | .saddi .. | .sandi .. | .sori ..
  | .sshli .. | .sli .. | .slih .. => true
  | _ => false

/-- The scalar memory forms, which act once as lane 0 (R339). -/
def scalarMemory : Instr → Bool
  | .lds .. | .sts .. | .atomsAdd .. | .atomsMin .. | .atomsMax .. | .atomsAnd .. | .atomsOr .. | .atomsXor .. | .atomsXchg ..
  | .atomsCas .. => true
  | _ => false

/-- Memory forms, whose lanes report what else they meet (R82). -/
def memoryForm (i : Instr) : Bool :=
  match i with
  | .ld .. | .ldacq .. | .st .. | .strel .. | .ldb .. | .stb .. => true
  | .atomAdd .. | .atomMin .. | .atomMax .. | .atomAnd .. | .atomOr .. | .atomXor .. | .atomXchg .. | .atomCas .. => true
  | _ => scalarMemory i

/-- The result of every lane rests on the registers of all of them, or a lane done would change what another still reads: the lanes of
the whole instruction record the error, so that a retry does it as a whole (log entry 58). -/
def crossLane : Instr → Bool
  | .vred .. | .vscan .. | .tmmaPair .. | .tmmaQuad .. => true
  | .vshfl _ d a _ | .vbfly _ d a _ => d == a
  | _ => false

/-- Issue an instruction one of whose group's registers is in error. One that names no V register is its group's, whatever the
guard. -/
def issueChecked (s : State) (i : Instr) (x : Site) (k : Site → Out) : Out :=
  let lanewise := (usesOf i).any (·.1)
  if sError x i && scalarForm i then .next (trapWhole s x 0x26)
  else
    let m := if scalarMemory i then 1 else if lanewise then x.gr.emask x.tm.width else x.gr.active
    let errs := if sError x i then m else maskOf x.tm.width (fun l => laneOf m l && vError x i l)
    if errs = 0 then k x
    else if crossLane i || (sError x i && !memoryForm i) then refuseErrors s x m (k x)
    else reportErrors s x errs (k { x with errs := errs, gr := { x.gr with replay := some (m &&& ~~~errs) } })

/-- Issue an instruction of the issuing group: checks 3 to 5 of R92, then the scoreboard (a stalled instruction leaves the
state as it is), then its own effect. -/
def issue (s : State) (i : Instr) (k : Site → Out) : Out :=
  match s.site? with
  | none => .fault .noIssuingGroup
  | some x =>
    match precheck x i with
    | some code => .next (trapWhole s x code)
    | none =>
      if stalled s x (usesOf i) (makesEvents i) then .next s
      else if x.gr.bad.isEmpty then k x
      else issueChecked s i x k

/-- The instruction is done: apply a change to the issuing group and go on. -/
def doneWith (s : State) (x : Site) (e : Bool) (f : Group → Group) : Out := .next (finish (s.onSite x f) x.t x.g e)

/-- The lanes that an instruction of a site computes, rising. -/
def Site.lanes (x : Site) : List Nat := lanesOf (x.gr.emask x.tm.width)
def Site.mode (x : Site) : VMode := gmrMode x.gr.gmr

/-- Counters (R337): loads, TRD and atomics; stores and TWR (R157). -/
def Group.ldCount (y : Group) : Nat := (y.ops.filter (fun o => o.kind != .store && !o.settled)).length
def Group.stCount (y : Group) : Nat := (y.ops.filter (fun o => o.kind == .store && !o.settled)).length

/-- The counter that the instruction counts on holds its largest value (R337). -/
def atLimit (y : Group) (load : Bool) : Bool := if load then decide (31 ≤ y.ldCount) else decide (31 ≤ y.stCount)

/-! ### Buffer records (R169, R170) -/

structure BufRec where
  base : DWord
  stride : Nat
  extent : Nat
  ctrl : Word
  rest : List Word
  deriving DecidableEq, Repr

def recordAt (g : Group) (a : Nat) : BufRec :=
  ⟨g.getPair a, (g.getS (a + 2)).toNat, (g.getS (a + 3)).toNat, g.getS (a + 4), g.getSn (a + 5) 3⟩

def BufRec.space (r : BufRec) : Nat := fieldOf r.ctrl 2 0
def BufRec.coreField (r : BufRec) : Nat := fieldOf r.ctrl 31 24

/-- A core field of Table 6-2: 0 to 191, or 255. -/
def coreFieldOk (c : Nat) : Bool := decide (c ≤ 191) || c == 255

/-- Tables 8-1 and 8-2. -/
def BufRec.ok (r : BufRec) : Bool :=
  r.rest.all (· == 0) && fieldOf r.ctrl 23 10 == 0 && fieldOf r.ctrl 7 7 == 0 && fieldOf r.ctrl 3 3 == 0 && decide (r.space ≤ 3)
    && (if r.space = 0 then r.coreField == 0 && fieldOf r.ctrl 9 8 == 0 && field64 r.base 63 55 == 0
        else coreFieldOk r.coreField && field64 r.base 63 17 == 0)

/-- The team that a core field names (R136): the issuing team for 255 or its own core; else the resident team of its grid
with the lowest TEAMID on that core of the cluster. -/
def resolveCore (s : State) (t : Nat) (tm : Team) (c : Nat) : Option Nat :=
  if c = 255 ∨ c = tm.core % 192 then some t
  else
    let target := tm.core / 192 * 192 + c
    let cand := (teamsOn s target).filter (fun e => decide (e.2.grid = tm.grid))
    (cand.foldl (fun (best : Option (Nat × Nat)) e =>
      match best with
      | some (_, i) => if e.2.teamIdx < i then some (e.1, e.2.teamIdx) else best
      | none => some (e.1, e.2.teamIdx)) none).map (·.1)

/-- Which accesses an instruction makes (Table 8-3 row 4). -/
inductive AccKind where
  | load | store | atomic
  deriving DecidableEq, Repr

def recordRight (r : BufRec) (k : AccKind) : Bool :=
  match k with | .load => r.ctrl.getLsbD 4 | .store => r.ctrl.getLsbD 5 | .atomic => r.ctrl.getLsbD 6

/-- The leaf right of an access (Table 8-5). -/
def leafRights (k : AccKind) : List Right :=
  match k with | .load => [.rd] | .store => [.wr] | .atomic => [.at]

/-- The outcome of a lane's checks. -/
inductive LaneRes where
  | good (lane va : Nat) (loc : Loc)
  | bad (b : BadLane)
  deriving DecidableEq, Repr

/-- The swizzle of a typed-buffer offset (R170). -/
def swizzle (swz x : Nat) : Nat :=
  if swz = 0 then x
  else
    let row := x / 2048
    row * 2048 + ((x / 16 % 128) ^^^ (row % 2 ^ (swz + 1))) * 16 + x % 16

/-- R170 and Table 8-3 for one lane; `typed` is LDB and STB. For a region that R136 cannot resolve there is no quota to check the
access against; the model checks it against the 2^17 bytes of the buffer (log entry 64). -/
def checkLane (s : State) (x : Site) (r : BufRec) (k : AccKind) (typed : Bool) (size lane off : Nat) : LaneRes :=
  let o := off * r.stride
  if r.space = 0 ∨ !r.ok then
    let va := r.base.toNat + o
    let bad := fun c ats => LaneRes.bad ⟨lane, c, va % 2 ^ 64, ats⟩
    if !r.ok then bad 1 false
    else if o + size > r.extent ∨ va + size > 2 ^ 55 then bad 2 false
    else if va % size ≠ 0 then bad 3 false
    else if typed ∨ !recordRight r k then bad 4 false
    else
      match translate s x.tm.core x.tm.part va (leafRights k) with
      | .cause c ats => bad c ats
      | .ok key => if accessBad s key x.gr.super (k == .store) then bad 6 false else .good lane va ⟨0, 0, key⟩
  else
    let y := swizzle (fieldOf r.ctrl 9 8) (field64 r.base 16 0 + o)
    let bad := fun c => LaneRes.bad ⟨lane, c, y, false⟩
    let owner := resolveCore s x.t x.tm r.coreField
    let quota := match owner with
      | some u => match s.team? u with | some ty => (ty.region (r.space - 1)).quota | none => 2 ^ 17
      | none => 2 ^ 17
    if o + size > r.extent ∨ y + size > quota then bad 2
    else if y % size ≠ 0 then bad 3
    else if !typed ∨ !recordRight r k ∨ r.space = 3 then bad 4
    else match owner with
      | some u => .good lane y ⟨r.space, u, y⟩
      | none => bad 4

def goodOf (rs : List LaneRes) : List (Nat × Nat × Loc) :=
  rs.filterMap (fun r => match r with | .good l va loc => some (l, va, loc) | .bad _ => none)

def badOf (rs : List LaneRes) : List BadLane :=
  rs.filterMap (fun r => match r with | .bad b => some b | .good .. => none)

/-- Distinct memory lines of a list of locations, rising. -/
def linesOf (locs : List Loc) : List Nat :=
  unionNat (locs.filterMap (fun l => if l.space = 0 then some (lineOf l.addr) else none)) []

/-- The causes of bad lanes as a trap records them, with FADDR and HMASK. -/
def trapBad (s : State) (x : Site) (bs : List BadLane) (scalar : Bool) : State :=
  if scalar then
    match bs with
    | b :: _ => trapScalar s x b.cause b.va b.ats
    | [] => s
  else
    trapLanes s x (bs.map (fun b => (b.lane, b.cause))) (bs.map (fun b => (b.lane, b.va)))
      (maskOfLanes ((bs.filter (·.ats)).map (·.lane)))

end Sys2Proof.Machine
end

