-- ==== Sys2Proof/Machine/Geometry.lean ====
section
/-! DEFINITION. Where copies and tile operations reach: layout records (R140 to R143, R155), tile handles (R135, R136), tile
forms (R153, R154), and the hazard detector's intervals (R139). -/
namespace Sys2Proof.Machine

/-! ### Types that copies and tiles move (Tables 6-5, 7-3) -/

inductive CType where
  | plain (t : ElemType)
  | bx (f : BxFmt)
  | mx (t : ElemType)
  deriving DecidableEq, Repr

def ctypeOf (n : Nat) : Option CType :=
  match n with
  | 24 => some (.bx .bx8) | 25 => some (.bx .bx6) | 26 => some (.bx .bx4) | 27 => some (.bx .bx2)
  | 28 => some (.mx .e4m3) | 29 => some (.mx .e5m2) | 30 => some (.mx .e2m1)
  | _ => (typeOfCode n).map .plain

/-- The format codes of AFMT, BFMT and FMT. -/
def tileFmt (n : Nat) : Option CType :=
  match n with
  | 0 => some (.plain .bf16) | 1 => some (.plain .e4m3) | 2 => some (.plain .e5m2) | 3 => some (.mx .e2m1)
  | 4 => some (.bx .bx8) | 5 => some (.bx .bx6) | 6 => some (.bx .bx4) | 7 => some (.bx .bx2)
  | 8 => some (.plain .tf8) | 9 => some (.mx .e4m3) | 10 => some (.mx .e5m2) | _ => none

/-- Accumulator formats (Table 7-1). -/
def accType (n : Nat) : Option ElemType := match n with | 0 => some .fp32 | 1 => some .fp16 | 2 => some .bf16 | _ => none

def CType.bits : CType → Nat
  | .plain t => typeBits t
  | .bx f => bxBits f
  | .mx t => typeBits t

def CType.isBlock : CType → Bool | .plain _ => false | _ => true

/-- Bytes of one packed block (R118): the scale byte and 32 elements. -/
def CType.blockBytes (t : CType) : Nat := 1 + 4 * t.bits

/-! ### Tile handles -/

def hCore (h : Word) : Nat := fieldOf h 31 24
def hBuf (h : Word) : Nat := fieldOf h 23 22
def hOff (h : Word) : Nat := fieldOf h 16 0

/-- Table 6-2. -/
def handleOk (h : Word) : Bool :=
  coreFieldOk (hCore h) && decide (hBuf h < 3) && fieldOf h 21 17 == 0 && fieldOf h 7 0 == 0

/-- The handle names a core of the cluster other than the issuing one. -/
def isRemote (tm : Team) (h : Word) : Bool := hCore h != 255 && hCore h != tm.core % 192

/-- The team whose region a handle names (R136). -/
def handleTeam (s : State) (t : Nat) (tm : Team) (h : Word) : Option Nat := resolveCore s t tm (hCore h)

/-- The quota of the region that a handle names; none when it does not resolve. -/
def handleQuota (s : State) (t : Nat) (tm : Team) (h : Word) : Option Nat :=
  match handleTeam s t tm h with
  | some u => (s.team? u).map (fun x => (x.region (hBuf h)).quota)
  | none => none

/-- A footprint past the end of the region's quota; an unresolved handle is judged later (R151, R160). -/
def pastQuota (s : State) (t : Nat) (tm : Team) (h : Word) (fin : Nat) : Bool :=
  match handleQuota s t tm h with
  | some q => decide (q < fin)
  | none => false

/-! ### Post specifications (R99, R55) -/

def postE (p : Nat) : Bool := p.testBit 7
def postStage (p : Nat) : Nat := bitsOf p 3 0
def postRing (p : Nat) : Nat := bitsOf p 6 4

/-- A post specification in a register value: E = 0 needs zeros elsewhere. -/
def postOk (p : Nat) : Bool := postE p || p == 0

/-- An engine post is refused at issue: ring undeclared, stage too high, or no side of the ring has the role. -/
def postRefused (tm : Team) (role : Role) (p : Nat) : Bool :=
  postE p &&
    (match tm.stage? (postRing p) (postStage p) with
     | some (ring, _) => !(isProducer ring.desc role || isConsumer ring.desc role)
     | none => true)

/-! ### Layout records (Tables 6-3, 6-4) -/

abbrev CRec := List Word

def cw (r : CRec) (i : Nat) : Word := r.getD i 0
def cN (r : CRec) (i : Nat) : Nat := (cw r i).toNat
def cCtrl (r : CRec) (hi lo : Nat) : Nat := fieldOf (cw r 4) hi lo
def cSrcBuf (r : CRec) : Bool := cCtrl r 1 0 == 1
def cDstBuf (r : CRec) : Bool := cCtrl r 3 2 == 1
def cSType (r : CRec) : CType := (ctypeOf (cCtrl r 8 4)).getD (.plain .i32)
def cDType (r : CRec) : CType := (ctypeOf (cCtrl r 13 9)).getD (.plain .i32)
def cRMode (r : CRec) : RMode := rmodeOfCode (cCtrl r 15 14)
def cSat (r : CRec) : Bool := (cw r 4).getLsbD 16
def cRank (r : CRec) : Nat := cCtrl r 19 17
def cSwz (r : CRec) : Nat := cCtrl r 22 21
def cIlv (r : CRec) : Nat := cCtrl r 26 23
def cSrc (r : CRec) : Nat := (pairOf (cw r 0) (cw r 1)).toNat
def cDst (r : CRec) : Nat := (pairOf (cw r 2) (cw r 3)).toNat
def cIdx (r : CRec) : Nat := (pairOf (cw r 22) (cw r 23)).toNat
def cDim (r : CRec) (n : Nat) : Nat := cN r (6 + n)
def cStride (r : CRec) (n : Nat) : Nat := if n = 0 then 0 else cN r (10 + n)
def cOrg (r : CRec) (n : Nat) : Int := (cw r (15 + n)).toInt
def cWinField (r : CRec) (n : Nat) : Nat :=
  match n with
  | 0 => fieldOf (cw r 20) 15 0
  | 1 => fieldOf (cw r 20) 31 16
  | 2 => fieldOf (cw r 21) 9 0
  | 3 => fieldOf (cw r 21) 19 10
  | _ => fieldOf (cw r 21) 29 20
/-- Wn of R142. -/
def cWin (r : CRec) (n : Nat) : Nat := if n < cRank r then cWinField r n + 1 else 1

/-- The tensor side is the memory side, or the source when both are typed buffers (R142). -/
def tensorIsSrc (r : CRec) : Bool := !cSrcBuf r || cDstBuf r
def tensorInMem (r : CRec) : Bool := if tensorIsSrc r then !cSrcBuf r else true
def tensorBase (r : CRec) : Nat := if tensorIsSrc r then cSrc r else cDst r
def tensorType (r : CRec) : CType := if tensorIsSrc r then cSType r else cDType r
def denseHandle (r : CRec) : Word := if tensorIsSrc r then cw r 2 else cw r 0
def denseType (r : CRec) : CType := if tensorIsSrc r then cDType r else cSType r
def tensorHandle (r : CRec) : Word := if tensorIsSrc r then cw r 0 else cw r 2

/-- Geometry of the dense side. -/
def rowBytes (r : CRec) : Nat := cWin r 0 * (denseType r).bits / 8
def pitch (r : CRec) : Nat := roundUp (rowBytes r) 16 + 16 * cIlv r
def rowCount (r : CRec) : Nat := cWin r 1 * cWin r 2 * cWin r 3 * cWin r 4
def scaleCount (r : CRec) : Nat := if (denseType r).isBlock then cWin r 0 / 32 * rowCount r else 0
def denseEnd (r : CRec) : Nat := hOff (denseHandle r) + pitch r * rowCount r + scaleCount r

/-- The offset within the region of the byte that holds the first bit of element w0 of a row. -/
def denseByte (r : CRec) (row w0 : Nat) : Nat :=
  let x := w0 * (denseType r).bits / 8
  let chunk := if cSwz r = 0 then x / 16 else (x / 16) ^^^ (row % 2 ^ (cSwz r + 1))
  hOff (denseHandle r) + row * pitch r + chunk * 16 + x % 16

/-- The offset of a block's scale byte in the dense side (R155). -/
def denseScale (r : CRec) (row block : Nat) : Nat :=
  hOff (denseHandle r) + pitch r * rowCount r + row * (cWin r 0 / 32) + block

/-- The byte address on the tensor side of tensor position p, or of the packed block that holds it. -/
def tensorAddr (r : CRec) (p : List Nat) : Nat :=
  let p0 := p.getD 0 0
  let t := tensorType r
  let first := match t with
    | .plain e => p0 * typeBits e / 8
    | _ => p0 / 32 * t.blockBytes
  let base := if tensorInMem r then tensorBase r else hOff (tensorHandle r)
  base + first + sumNat ((span 1 4).map (fun n => p.getD n 0 * cStride r n))

/-- Bytes that one element, or one packed block, takes on the tensor side. -/
def tensorUnit (r : CRec) : Nat :=
  match tensorType r with
  | .plain e => (typeBits e + 7) / 8
  | t => t.blockBytes

/-- The largest inside index of a dimension, when some window index is inside. -/
def insideTop (r : CRec) (n : Nat) : Option Nat :=
  if n < cRank r then
    let lo := max 0 (cOrg r n)
    let hi := min ((cDim r n : Int) - 1) (cOrg r n + cWinField r n)
    if lo ≤ hi then some hi.toNat else none
  else some 0

/-- The end of the footprint of a typed-buffer tensor side; none when no position is inside. -/
def tensorEnd (r : CRec) : Option Nat :=
  match insideTop r 0, insideTop r 1, insideTop r 2, insideTop r 3, insideTop r 4 with
  | some a, some b, some c, some d, some e => some (tensorAddr r [a, b, c, d, e] + tensorUnit r)
  | _, _, _, _, _ => none

/-- A copy belongs to the path of each buffer it touches, and to MEM when a side is memory (R149). -/
def onPath (r : CRec) (p : DrainPath) : Bool :=
  let buf := fun b => (cSrcBuf r && hBuf (cw r 0) == b) || (cDstBuf r && hBuf (cw r 2) == b)
  match p with
  | .wb => buf 0
  | .ab => buf 1
  | .cb => buf 2
  | .mem => !cSrcBuf r || !cDstBuf r

/-- The paths of a copy. -/
def copyPaths (r : CRec) : List DrainPath := [DrainPath.wb, .ab, .cb, .mem].filter (onPath r)

/-! ### Table 6-6 -/

/-- Check 1: reserved fields, values not allowed, DIMn. -/
def recFields (op : Nat) (r : CRec) : Bool :=
  let k := cRank r
  cCtrl r 31 27 == 0 && cCtrl r 20 20 == 0 && decide (1 ≤ k ∧ k ≤ 5) && decide (cCtrl r 1 0 ≤ 1 ∧ cCtrl r 3 2 ≤ 1)
    && (ctypeOf (cCtrl r 8 4)).isSome && (ctypeOf (cCtrl r 13 9)).isSome
    && (if cSrcBuf r then cN r 1 == 0 else cSrc r / 2 ^ 55 == 0) && (if cDstBuf r then cN r 3 == 0 else cDst r / 2 ^ 55 == 0)
    && (span 0 5).all (fun n =>
        if n < k then decide (1 ≤ cDim r n ∧ cDim r n < 2 ^ 31)
        else cDim r n == 0 && cStride r n == 0 && cN r (15 + n) == 0 && cWinField r n == 0)
    && fieldOf (cw r 21) 31 30 == 0
    && (if op = 1 then cIdx r / 2 ^ 55 == 0 else cIdx r == 0)

/-- Check 2: kinds, Table 6-1, Table 6-2. -/
def recSides (tm : Team) (r : CRec) : Bool :=
  (cSrcBuf r || cDstBuf r)
    && (!cDstBuf r || (handleOk (cw r 2) && hBuf (cw r 2) != 2))
    && (!cSrcBuf r || (handleOk (cw r 0) && (hBuf (cw r 0) != 2 || !isRemote tm (cw r 0))))

/-- Check 3: the rule of CPYG (op 1) and of CPYRED (op 2). -/
def recOpcode (op : Nat) (r : CRec) : Bool :=
  match op with
  | 1 => !cSrcBuf r && cDstBuf r && decide (2 ≤ cRank r) && cIdx r % 4 == 0
  | 2 => cSrcBuf r && !cDstBuf r && [CType.plain .fp32, .plain .fp16, .plain .bf16, .plain .i32, .plain .n32].contains (cDType r)
  | _ => true

/-- A type's demand on ORG0, WIN0 + 1 and DIM0. -/
def recUnit (t : CType) : Nat := if t.isBlock then 32 else if t = .plain .e2m1 then 2 else 1

/-- The element size to which memory addresses and strides are aligned. -/
def memUnit (t : CType) : Nat := match t with | .plain e => max 1 (typeBits e / 8) | _ => 1

/-- Check 4. -/
def recAlign (r : CRec) : Bool :=
  let u := max (recUnit (cSType r)) (recUnit (cDType r))
  let dense := denseType r
  cOrg r 0 % (u : Int) == 0 && cWin r 0 % u == 0 && cDim r 0 % u == 0
    && (recUnit dense == 1 || (cIlv r == 0 && cSwz r == 0))
    && (cSwz r == 0 || (cIlv r == 0 && pitch r % (16 * 2 ^ (cSwz r + 1)) == 0))
    && (!tensorInMem r ||
        (tensorBase r % memUnit (tensorType r) == 0 && (span 1 4).all (fun n => cStride r n % memUnit (tensorType r) == 0)))

/-- Check 5's footprints. -/
def recQuota (s : State) (t : Nat) (tm : Team) (r : CRec) : Bool :=
  !pastQuota s t tm (denseHandle r) (denseEnd r)
    && (tensorInMem r || (match tensorEnd r with | some e => !pastQuota s t tm (tensorHandle r) e | none => true))

/-! ### Tile forms (R153, R154) -/

/-- Row pitch of an input tile, untransposed. -/
def tilePitch (t : CType) (k : Nat) : Nat := ceilDiv (k * t.bits) 128 * 16

/-- Bytes of an input tile of K = k elements a row. -/
def tileBytes (t : CType) (k : Nat) (trans : Bool) : Nat :=
  if trans then k * 64 * t.bits / 8 else 64 * tilePitch t k + (if t.isBlock then 64 * (k / 32) else 0)

/-- Bytes of an accumulator tile. -/
def accBytes (t : ElemType) : Nat := 4096 * (typeBits t / 8)

/-- Fields of a TMMA format word (Table 7-3). -/
def fwA (w : Word) : Option CType := tileFmt (fieldOf w 3 0)
def fwB (w : Word) : Option CType := tileFmt (fieldOf w 7 4)
def fwAcc (w : Word) : Option ElemType := accType (fieldOf w 9 8)
def fwTA (w : Word) : Bool := w.getLsbD 10
def fwTB (w : Word) : Bool := w.getLsbD 11
def fwK (w : Word) : Nat := 32 * fieldOf w 13 12
def fwZ (w : Word) : Bool := w.getLsbD 14

/-- Table 7-4 row 3: the format word is one that the table allows. -/
def fwOk (w : Word) : Bool :=
  fieldOf w 31 15 == 0 && (fieldOf w 13 12 == 1 || fieldOf w 13 12 == 2) && (fwAcc w).isSome
    && (match fwA w with | some t => !(t.isBlock && fwTA w) | none => false)
    && (match fwB w with | some t => !(t.isBlock && fwTB w) | none => false)

/-- Fields of a conversion word (Table 7-5). -/
def cvFmt (w : Word) : Option CType := tileFmt (fieldOf w 3 0)
def cvSrc (w : Word) : Option ElemType := accType (fieldOf w 5 4)
def cvR (w : Word) : RMode := rmodeOfCode (fieldOf w 7 6)
def cvSat (w : Word) : Bool := w.getLsbD 8
def cvT (w : Word) : Bool := w.getLsbD 9
def cvPost (w : Word) : Nat := fieldOf w 23 16

/-! ### The hazard detector -/

/-- A range of bytes of a core's buffer, by physical offset. -/
structure Span where
  core : Nat
  buf : Nat
  lo : Nat
  hi : Nat
  wr : Bool
  deriving DecidableEq, Repr

/-- A range of a region as a span. -/
def spanOf (s : State) (u : Option Nat) (buf lo hi : Nat) (wr : Bool) : List Span :=
  match u with
  | none => []
  | some u => match s.team? u with
    | some x => if lo < hi then [⟨x.core, buf, (x.region buf).base + lo, (x.region buf).base + hi, wr⟩] else []
    | none => []

def handleSpan (s : State) (t : Nat) (tm : Team) (h : Word) (len : Nat) (wr : Bool) : List Span :=
  spanOf s (handleTeam s t tm h) (hBuf h) (hOff h) (hOff h + len) wr

/-- The end of the last byte that the dense side reads or writes: the last scale byte, or the last row's highest byte, without its
padding. -/
def denseTop (r : CRec) : Nat :=
  if (denseType r).isBlock then denseEnd r
  else
    let row := rowCount r - 1
    let key := if cSwz r = 0 then 0 else row % 2 ^ (cSwz r + 1)
    hOff (denseHandle r) + row * pitch r
      + (span 0 (ceilDiv (rowBytes r) 16)).foldl (fun m c => max m ((c ^^^ key) * 16 + min 16 (rowBytes r - 16 * c))) 0

/-- The footprint of a typed-buffer tensor side, from the OFFSET of its handle (R142). -/
def tensorSpans (s : State) (t : Nat) (tm : Team) (r : CRec) : List Span :=
  if tensorInMem r then [] else
    match tensorEnd r with
    | some e => handleSpan s t tm (tensorHandle r) (e - hOff (tensorHandle r)) false
    | none => []

/-- The footprints of a copy that is to issue (R142). -/
def copyFootprint (s : State) (t : Nat) (tm : Team) (r : CRec) : List Span :=
  handleSpan s t tm (denseHandle r) (denseEnd r - hOff (denseHandle r)) (tensorIsSrc r) ++ tensorSpans s t tm r

/-- What the detector records for a copy in flight: the bytes that it reads and writes. -/
def copySpans (s : State) (t : Nat) (tm : Team) (r : CRec) : List Span :=
  handleSpan s t tm (denseHandle r) (denseTop r - hOff (denseHandle r)) (tensorIsSrc r) ++ tensorSpans s t tm r

/-- One interval for what is read and one for what is written of each buffer: from the lowest byte to the highest. -/
def boundSpans (spans : List Span) : List Span :=
  spans.map (fun a => (spans.filter (fun b => b.core == a.core && b.buf == a.buf && b.wr == a.wr)).foldl
    (fun m b => { m with lo := min m.lo b.lo, hi := max m.hi b.hi }) a)

/-- The footprints of a tile operation of team t (R153, R154), whose A and B handles name regions of ra and rb. -/
def tileSpans (s : State) (t : Nat) (k : TileKind) (dh ah bh : Word) (ra rb : Option Nat) : List Span :=
  let at' := fun (u : Option Nat) (h : Word) (len : Nat) (wr : Bool) => spanOf s u (hBuf h) (hOff h) (hOff h + len) wr
  let own := at' (some t)
  match k with
  | .tmma fw =>
    let acc := accBytes ((fwAcc fw).getD .fp32)
    at' ra ah (tileBytes ((fwA fw).getD (.plain .bf16)) (fwK fw) (fwTA fw)) false
      ++ at' rb bh (tileBytes ((fwB fw).getD (.plain .bf16)) (fwK fw) (fwTB fw)) false
      ++ own dh acc true ++ (if fwZ fw then [] else own dh acc false)
  | .tzero => own dh 16384 true
  | .tstat ty _ _ => own dh (accBytes ty) false
  | .tcvt c | .tquant c =>
    own dh (tileBytes ((cvFmt c).getD (.plain .bf16)) 64 (cvT c)) true ++ own ah (accBytes ((cvSrc c).getD .fp32)) false

/-- The intervals of every copy and tile operation in flight; a handle that resolved at issue is not resolved again (R160). -/
def flying (s : State) : List Span :=
  s.cores.flatMap (fun c =>
    c.2.copies.flatMap (fun e => match s.team? e.2.team with
      | some tm => boundSpans (copySpans s e.2.team tm e.2.record)
      | none => [])
    ++ c.2.tiles.flatMap (fun o => match s.team? o.team with
      | some tm => boundSpans (tileSpans s o.team o.kind o.dh o.ah o.bh (o.ra <|> handleTeam s o.team tm o.ah) (o.rb <|> handleTeam s o.team tm o.bh))
      | none => []))

def Span.meets (a b : Span) : Bool :=
  a.core == b.core && a.buf == b.buf && (a.wr || b.wr) && decide (a.lo < b.hi ∧ b.lo < a.hi)

/-- The buffer-hazard condition for new accesses of a team (R139). -/
def hazard (s : State) (tm : Team) (mine : List Span) : Bool :=
  (s.part tm.part).hzd && mine.any (fun a => (flying s).any a.meets)

end Sys2Proof.Machine
end

