-- ==== Sys2Proof/Machine/Memory.lean ====
section
/-! DEFINITION. Loads, stores and PREF (R336 to R339, R358 to R360, R369, R385 to R387): the checks of each lane, and the
pending operation that the memory system performs later. -/
namespace Sys2Proof.Machine

/-- What a memory instruction asks for. `data` answers a lane's store data or atomic operands. -/
structure MemReq where
  kind : OpKind
  acq : Bool := false
  rel : Bool := false
  scalar : Bool := false
  typed : Bool := false
  counted : Bool := false
  dst : RegDst := ⟨true, 0, 0⟩
  words : Nat
  typ : ElemType := .i32
  record : BufRec
  off : Nat → Nat
  data : Nat → List Word
  mpc : Option Nat := none

def MemReq.access (q : MemReq) : AccKind := match q.kind with | .load => .load | .store => .store | .atom _ => .atomic
def MemReq.isLoad (q : MemReq) : Bool := q.kind != .store

/-- Only FP32 ADD, MIN and MAX raise flags: the group's next issue and the port are held until every lane has completed (R343). -/
def MemReq.raises (q : MemReq) : Bool := match q.kind with | .atom op => decide (op < 3) && q.typ == .fp32 | _ => false

/-- How Piccolo logs it (R225). -/
def MemReq.logKind (q : MemReq) : LogKind :=
  match q.kind with
  | .load => if q.acq then .ldacq else .ld
  | .store => if q.rel then .strel else .st
  | .atom _ => .atom q.acq q.rel

/-- Lanes that the instruction accesses: lane 0 for a scalar form (R339), unless a register that it reads is in error. -/
def MemReq.lanes (q : MemReq) (x : Site) : List Nat := if q.scalar then (if x.errs = 0 then [0] else []) else x.lanes

/-- What a home can perform on host memory (R202, R342): integer ADD, XCHG, CAS. -/
def hostCan (op : Nat) (t : ElemType) : Bool := op == 6 || op == 7 || (op == 0 && (t == .i32 || t == .n32))

/-- The leaf of an address names host memory. -/
def onHost (s : State) (core part va : Nat) : Bool :=
  match findLeaf s core part va with
  | .leaf e _ => field64 e 59 58 == 1
  | _ => false

/-- The checks of one lane, R342's included: a permission fault comes before the conditions of its translation and its data (R82). -/
def MemReq.check (q : MemReq) (s : State) (x : Site) (l : Nat) : LaneRes :=
  match checkLane s x q.record q.access q.typed (4 * q.words) l (q.off l) with
  | .bad b =>
    match q.kind with
    | .atom op =>
      if 5 ≤ b.cause ∧ !hostCan op q.typ ∧ onHost s x.tm.core x.tm.part b.va then .bad { b with cause := 4, ats := false } else .bad b
    | _ => .bad b
  | .good l va loc =>
    match q.kind with
    | .atom op => if targetOf loc.addr = .host ∧ !hostCan op q.typ then .bad ⟨l, 4, va, false⟩ else .good l va loc
    | _ => .good l va loc

/-- The hazard detector's view of the good lanes of a typed access. -/
def laneSpans (s : State) (good : List (Nat × Nat × Loc)) (bytes : Nat) (wr : Bool) : List Span :=
  good.flatMap (fun g => spanOf s (some g.2.2.team) (g.2.2.space - 1) g.2.2.addr (g.2.2.addr + bytes) wr)

/-- Keep in the core's translation cache the leaves that the good lanes used. -/
def cacheLeaves (s : State) (x : Site) (good : List (Nat × Nat × Loc)) : State :=
  (unionNat ((good.filter (fun g => g.2.2.space == 0)).map (fun g => g.2.1 / 65536)) []).foldl
    (fun s p => cacheLeaf s x.tm.core x.tm.part (65536 * p)) s

/-- The walks of the lines that lanes met in vain, one for each virtual line (R172): those of an access to memory whose record
grants it. Their reads take permission as any do, and a broken or uncorrectable entry is logged (R173). -/
def logWalks (s : State) (x : Site) (q : MemReq) (bad : List BadLane) : State :=
  if q.typed || q.record.space != 0 || !q.record.ok || !recordRight q.record q.access then s
  else
    (unionNat ((bad.filter (fun b => decide (4 ≤ b.cause ∧ b.va < 2 ^ 55))).map (fun b => b.va / 128)) []).foldl
      (fun s l => logWalk (walkReads s x.tm.core x.tm.part (128 * l)) x.tm.core x.tm.part (128 * l)) s

/-- XFAULT's count of an execution with a good lane (R85): the new count, and whether the injection fires. -/
def xfaultCount (s : State) (x : Site) : Nat × Bool :=
  if (s.part x.tm.part).xfen && x.gr.xfault.getLsbD 0 then
    (x.gr.xcount + 1, x.gr.xcount + 1 == fieldOf x.gr.xfault 15 8)
  else (x.gr.xcount, false)

/-- The page-table level of the leaf that translates an address. -/
def leafLevel (s : State) (core part va : Nat) : Nat := match findLeaf s core part va with | .leaf _ level => level | _ => 3

/-- The accesses of the good lanes, n bytes each, at the operand's first register. -/
def goodAccesses (s : State) (x : Site) (q : MemReq) (good : List (Nat × Nat × Loc)) : List Acc :=
  good.map (fun g => ⟨g.1, 0, g.2.1, g.2.2, q.data g.1, false,
    if g.2.2.space = 0 then leafLevel s x.tm.core x.tm.part g.2.1 else 3, []⟩)

/-- The requests of an instruction (R172): the physical line of each virtual line that its accesses use, by rising virtual line. -/
def requests (accs : List Acc) : List Nat :=
  let mem := accs.filter (fun a => a.loc.space == 0)
  (unionNat (mem.map (fun a => a.va / 128)) []).filterMap (fun v =>
    (mem.find? (fun a => a.va / 128 == v)).map (fun a => lineOf a.loc.addr))

/-- Put the operation of the good lanes in flight: its log entries, one for each request; its hold when it is a release; its place
in program order; a store that XFAULT fires is performed in the very next step. Answers the state and the operation's number. -/
def putOp (s : State) (x : Site) (q : MemReq) (accs : List Acc) (bad : List BadLane) : State × Nat :=
  let s := cacheLeaves s x (accs.map (fun a => (a.lane, a.va, a.loc)))
  let seq := x.gr.nextSeq
  let scope := gmrScope x.gr.gmr
  let lines := requests accs
  let (n, early) := if q.counted then xfaultCount s x else (x.gr.xcount, false)
  let held := q.rel && !early
  let o : PendOp :=
    { seq := seq, kind := q.kind, pt := x.gr.point, mpc := q.mpc, acq := q.acq, rel := q.rel, scope := scope,
      dst := if q.scalar then { q.dst with vec := false } else q.dst,
      size := 4 * q.words, typ := q.typ, accs := accs, early := early,
      rid := if held then some s.newId else none, super := x.gr.super,
      emask := if q.scalar then 1 else x.gr.emask x.tm.width ||| x.errs, late := bad, since := s.tick, deps := [] }
  let s :=
    if held then
      holdRelease s x (match q.kind with | .atom _ => .atom seq | _ => .strel seq) scope
        (unionNat (lines.filterMap (fun l => homeOf s (128 * l))) []) (some (q.logKind, lines)) q.mpc
    else
      let s := if q.typed then s else lines.foldl (fun s l => logAdd s x.tm.core { entryAt x q.logKind scope (some l) with mpc := q.mpc }) s
      s.onSite x (fun y => { y with nextSeq := y.nextSeq + 1 })
  let s := if early then { s with agenda := .event (.xfaultFire x.t x.g seq) :: s.agenda } else s
  (s.onSite x (fun y => { y with ops := y.ops ++ [o], xcount := n }), seq)

/-- What the lanes of an access that do not take part because a register they read is in error record: a cause of higher priority
that they meet as well, else 6 (R82). -/
def errorLanes (s : State) (x : Site) (q : MemReq) : List BadLane :=
  (lanesOf x.errs).map (fun l => match q.check s x l with
    | .bad b => b
    | .good _ va _ => ⟨l, 6, if q.scalar then va else 0, false⟩)

/-- The operation of the good accesses goes in flight. With bad lanes, the good ones complete first, the group holding its port;
with no good lane the trap is taken at once. -/
def launchOp (s : State) (x : Site) (e : Bool) (q : MemReq) (accs : List Acc) (bad : List BadLane) : Out :=
  if accs.isEmpty then .next (trapBad s x bad q.scalar)
  else
    let (s, seq) := putOp s x q accs bad
    if !bad.isEmpty then .next (waitHolding s x.t x.g (.opDone seq))
    else if q.raises then .next (finishHolding s x.t x.g e seq)
    else .next (finish s x.t x.g e)

/-- A memory instruction after its own checks (R336 to R339). An empty effective mask makes no access. A full Piccolo log makes it
wait (R223). -/
def memGo (s : State) (x : Site) (e : Bool) (q : MemReq) : Out :=
  if (q.lanes x).isEmpty ∧ x.errs = 0 then doneWith s x e id
  else if atLimit x.gr q.isLoad then .next s
  else
    let rs := (q.lanes x).map (q.check s x)
    let good := goodOf rs
    let walked := badOf rs
    let accs := goodAccesses s x q good
    if q.typed && hazard s x.tm (laneSpans s good (4 * q.words) (!q.isLoad)) then .next (trapWhole s x 0x32)
    else if !accs.isEmpty ∧ !q.typed ∧ logFree (s.core x.tm.core) < (requests accs).length then .next s
    else launchOp (logWalks s x q walked) x e q accs (walked ++ errorLanes s x q)

/-! ### The requests of the instructions -/

def vOff (x : Site) (b : RegNo) (l : Nat) : Nat := (x.gr.getV b.toNat l).toNat

def loadReq (x : Site) (w : WSize) (d a b : RegNo) (acq typed : Bool) : MemReq :=
  { kind := .load, acq := acq, typed := typed, dst := ⟨true, d.toNat, wsizeN w⟩, words := wsizeN w,
    record := recordAt x.gr a.toNat, off := vOff x b, data := fun _ => [] }

def storeReq (x : Site) (w : WSize) (d a b : RegNo) (rel typed : Bool) : MemReq :=
  { kind := .store, rel := rel, typed := typed, counted := !typed, words := wsizeN w, record := recordAt x.gr a.toNat,
    off := vOff x b, data := fun l => (span 0 (wsizeN w)).map (fun m => x.gr.getV (d.toNat + m) l) }

def execLd (e : Bool) (w : WSize) (d a b : RegNo) (s : State) : Out :=
  issue s (.ld e w d a b) (fun x => memGo s x e (loadReq x w d a b false false))

/-- LDACQ: an acquire at GMR.SCOPE over all its lanes and members. -/
def execLdacq (e : Bool) (w : WSize) (d a b : RegNo) (s : State) : Out :=
  issue s (.ldacq e w d a b) (fun x => memGo s x e (loadReq x w d a b true false))

def execSt (e : Bool) (w : WSize) (d a b : RegNo) (s : State) : Out :=
  issue s (.st e w d a b) (fun x => memGo s x e (storeReq x w d a b false false))

/-- STREL: a release at GMR.SCOPE over all its lanes and members. -/
def execStrel (e : Bool) (w : WSize) (d a b : RegNo) (s : State) : Out :=
  issue s (.strel e w d a b) (fun x => memGo s x e (storeReq x w d a b true false))

def execLdb (e : Bool) (w : WSize) (d a b : RegNo) (s : State) : Out :=
  issue s (.ldb e w d a b) (fun x => memGo s x e (loadReq x w d a b false true))

def execStb (e : Bool) (w : WSize) (d a b : RegNo) (s : State) : Out :=
  issue s (.stb e w d a b) (fun x => memGo s x e (storeReq x w d a b false true))

/-- LDS: once for the group, as lane 0, whatever the guard (R339). -/
def execLds (e : Bool) (w : WSize) (d a b : RegNo) (s : State) : Out :=
  issue s (.lds e w d a b) (fun x => memGo s x e
    { kind := .load, scalar := true, dst := ⟨false, d.toNat, wsizeN w⟩, words := wsizeN w,
      record := recordAt x.gr a.toNat, off := fun _ => (x.gr.getS b.toNat).toNat, data := fun _ => [] })

def execSts (e : Bool) (w : WSize) (d a b : RegNo) (s : State) : Out :=
  issue s (.sts e w d a b) (fun x => memGo s x e
    { kind := .store, scalar := true, counted := true, words := wsizeN w, record := recordAt x.gr a.toNat,
      off := fun _ => (x.gr.getS b.toNat).toNat, data := fun _ => x.gr.getSn d.toNat (wsizeN w) })

/-- PREF (R369): a lane that passes every check may bring its line, when it is cached and not quarantined, into the core's
L1 with read permission; the model always does. No register, counter, flag or trap. -/
def execPref (e : Bool) (a b : RegNo) (s : State) : Out :=
  issue s (.pref e a b) (fun x =>
    let r := recordAt x.gr a.toNat
    let good := goodOf (x.lanes.map (fun l => checkLane s x r .load false 4 l (vOff x b l)))
    let lines := (linesOf (good.map (·.2.2))).filter (fun l => cached s (128 * l) && !quarantined s (128 * l))
    doneWith (lines.foldl (fun s l => getLine s x.tm.core x.tm.part l false) (cacheLeaves s x good)) x e id)

/-! ### Atomics (R340 to R344) -/

/-- Types that an atomic operation accepts (Table 16-2). -/
def atomTypeOk (op : Nat) (t : ElemType) : Bool :=
  match op with
  | 0 => t == .i32 || t == .n32 || t == .fp32
  | 1 => t == .i32 || t == .n32 || t == .fp32 || t == .tf32
  | 2 => t == .i32 || t == .n32 || t == .fp32 || t == .tf32
  | _ => true

/-- Operations 0 to 7 of R340. Operands are the value in V[d] (S[d]), and for CAS the new value of the next register. -/
def atomGo (s : State) (i : Instr) (op : Nat) (scalar e : Bool) (c : AtomOrd) (d a b : RegNo) : Out :=
  issue s i (fun x =>
    if !atomTypeOk op (gmrType x.gr.gmr) then .next (trapWhole s x 0x08)
    else
      let n := if op = 7 then 2 else 1
      memGo s x e
        { kind := .atom op, acq := c == .acq || c == .acqrel, rel := c == .rel || c == .acqrel, scalar := scalar, counted := true,
          dst := ⟨!scalar, d.toNat, 1⟩, words := 1, typ := gmrType x.gr.gmr, record := recordAt x.gr a.toNat,
          off := if scalar then fun _ => (x.gr.getS b.toNat).toNat else vOff x b,
          data := fun l => if scalar then x.gr.getSn d.toNat n else (span 0 n).map (fun m => x.gr.getV (d.toNat + m) l) })

def execAtomAdd (e : Bool) (c : AtomOrd) (d a b : RegNo) (s : State) : Out :=
  atomGo s (.atomAdd e c d a b) 0 false e c d a b
def execAtomMin (e : Bool) (c : AtomOrd) (d a b : RegNo) (s : State) : Out :=
  atomGo s (.atomMin e c d a b) 1 false e c d a b
def execAtomMax (e : Bool) (c : AtomOrd) (d a b : RegNo) (s : State) : Out :=
  atomGo s (.atomMax e c d a b) 2 false e c d a b
def execAtomAnd (e : Bool) (c : AtomOrd) (d a b : RegNo) (s : State) : Out :=
  atomGo s (.atomAnd e c d a b) 3 false e c d a b
def execAtomOr (e : Bool) (c : AtomOrd) (d a b : RegNo) (s : State) : Out :=
  atomGo s (.atomOr e c d a b) 4 false e c d a b
def execAtomXor (e : Bool) (c : AtomOrd) (d a b : RegNo) (s : State) : Out :=
  atomGo s (.atomXor e c d a b) 5 false e c d a b
def execAtomXchg (e : Bool) (c : AtomOrd) (d a b : RegNo) (s : State) : Out :=
  atomGo s (.atomXchg e c d a b) 6 false e c d a b
def execAtomCas (e : Bool) (c : AtomOrd) (d a b : RegNo) (s : State) : Out :=
  atomGo s (.atomCas e c d a b) 7 false e c d a b

def execAtomsAdd (e : Bool) (c : AtomOrd) (d a b : RegNo) (s : State) : Out :=
  atomGo s (.atomsAdd e c d a b) 0 true e c d a b
def execAtomsMin (e : Bool) (c : AtomOrd) (d a b : RegNo) (s : State) : Out :=
  atomGo s (.atomsMin e c d a b) 1 true e c d a b
def execAtomsMax (e : Bool) (c : AtomOrd) (d a b : RegNo) (s : State) : Out :=
  atomGo s (.atomsMax e c d a b) 2 true e c d a b
def execAtomsAnd (e : Bool) (c : AtomOrd) (d a b : RegNo) (s : State) : Out :=
  atomGo s (.atomsAnd e c d a b) 3 true e c d a b
def execAtomsOr (e : Bool) (c : AtomOrd) (d a b : RegNo) (s : State) : Out :=
  atomGo s (.atomsOr e c d a b) 4 true e c d a b
def execAtomsXor (e : Bool) (c : AtomOrd) (d a b : RegNo) (s : State) : Out :=
  atomGo s (.atomsXor e c d a b) 5 true e c d a b
def execAtomsXchg (e : Bool) (c : AtomOrd) (d a b : RegNo) (s : State) : Out :=
  atomGo s (.atomsXchg e c d a b) 6 true e c d a b
def execAtomsCas (e : Bool) (c : AtomOrd) (d a b : RegNo) (s : State) : Out :=
  atomGo s (.atomsCas e c d a b) 7 true e c d a b

end Sys2Proof.Machine
end

