-- ==== Sys2Proof/Machine/Vector.lean ====
section
/-! DEFINITION. The vector-class instructions (R390 to R413): which lanes they compute, their destinations, their type
sets and their traps. What one lane computes stands in Flags.lean. -/
namespace Sys2Proof.Machine

/-- A vector-class instruction after the checks of R92: the type trap (R390), then its effect with GMR as it stands. -/
def vecIssue (s : State) (i : Instr) (ok : ElemType → Bool) (k : Site → Out) : Out :=
  issue s i (fun x => if ok (gmrType x.gr.gmr) then k x else .next (trapWhole s x 0x08))

def anyType (_ : ElemType) : Bool := true

def orFlags (fs : List Fl) : Fl := fs.foldl (· ||| ·) 0

/-- Write one V register in the given lanes, with the flags of the written elements (R391, R392). -/
def vecWrite (s : State) (x : Site) (e : Bool) (d : RegNo) (rs : List (Nat × Word × Fl)) : Out :=
  doneWith (s.raise x.t (orFlags (rs.map (fun r => r.2.2)))) x e (fun y => y.setVs d.toNat (rs.map (fun r => (r.1, r.2.1))))

/-- A lane-by-lane instruction: every source of every lane is read before any destination is written (R29). -/
def vecMap (s : State) (i : Instr) (ok : ElemType → Bool) (e : Bool) (d : RegNo) (f : Site → Nat → Word × Fl) : Out :=
  vecIssue s i ok (fun x => vecWrite s x e d (x.lanes.map (fun l => (l, f x l))))

def vec2 (s : State) (i : Instr) (ok : ElemType → Bool) (e : Bool) (d a b : RegNo) (f : VMode → Word → Word → Word × Fl) : Out :=
  vecMap s i ok e d (fun x l => f x.mode (x.gr.getV a.toNat l) (x.gr.getV b.toNat l))

def vec1 (s : State) (i : Instr) (ok : ElemType → Bool) (e : Bool) (d a : RegNo) (f : VMode → Word → Word × Fl) : Out :=
  vecMap s i ok e d (fun x l => f x.mode (x.gr.getV a.toNat l))

/-! ### Elementwise arithmetic (R400, R401) -/

def execVadd (e : Bool) (d a b : RegNo) (s : State) : Out :=
  vec2 s (.vadd e d a b) setArith e d a b (fun m => laneAdd m false)
def execVsub (e : Bool) (d a b : RegNo) (s : State) : Out :=
  vec2 s (.vsub e d a b) setArith e d a b (fun m => laneAdd m true)
def execVmul (e : Bool) (d a b : RegNo) (s : State) : Out := vec2 s (.vmul e d a b) setArith e d a b laneMul
/-- VFMA: V[d] is the addend. -/
def execVfma (e : Bool) (d a b : RegNo) (s : State) : Out :=
  vecMap s (.vfma e d a b) setArith e d (fun x l =>
    laneFma x.mode (x.gr.getV a.toNat l) (x.gr.getV b.toNat l) (x.gr.getV d.toNat l))
def execVmin (e : Bool) (d a b : RegNo) (s : State) : Out :=
  vec2 s (.vmin e d a b) setArith e d a b (fun m => laneMinMax m false)
def execVmax (e : Bool) (d a b : RegNo) (s : State) : Out :=
  vec2 s (.vmax e d a b) setArith e d a b (fun m => laneMinMax m true)
def execVabs (e : Bool) (d a : RegNo) (s : State) : Out := vec1 s (.vabs e d a) setArith e d a (fun m => laneAbsNeg m false)
def execVneg (e : Bool) (d a : RegNo) (s : State) : Out := vec1 s (.vneg e d a) setArith e d a (fun m => laneAbsNeg m true)

/-! ### Integer bit operations (R402) -/

def execVshl (e : Bool) (d a b : RegNo) (s : State) : Out :=
  vec2 s (.vshl e d a b) setInt e d a b (fun m => laneBit m .shl)
def execVshr (e : Bool) (d a b : RegNo) (s : State) : Out :=
  vec2 s (.vshr e d a b) setInt e d a b (fun m => laneBit m .shr)
def execVsra (e : Bool) (d a b : RegNo) (s : State) : Out :=
  vec2 s (.vsra e d a b) setInt e d a b (fun m => laneBit m .sra)
def execVmulh (e : Bool) (d a b : RegNo) (s : State) : Out :=
  vec2 s (.vmulh e d a b) setInt e d a b (fun m => laneBit m .mulh)
def execVclz (e : Bool) (d a : RegNo) (s : State) : Out :=
  vec1 s (.vclz e d a) setInt e d a (fun m w => laneBit m .clz w 0)
def execVpopc (e : Bool) (d a : RegNo) (s : State) : Out :=
  vec1 s (.vpopc e d a) setInt e d a (fun m w => laneBit m .popc w 0)

/-! ### Bitwise, moves and selection (R403): every type, no flag -/

def execVand (e : Bool) (d a b : RegNo) (s : State) : Out :=
  vec2 s (.vand e d a b) anyType e d a b (fun _ p q => (p &&& q, 0))
def execVor (e : Bool) (d a b : RegNo) (s : State) : Out :=
  vec2 s (.vor e d a b) anyType e d a b (fun _ p q => (p ||| q, 0))
def execVxor (e : Bool) (d a b : RegNo) (s : State) : Out :=
  vec2 s (.vxor e d a b) anyType e d a b (fun _ p q => (p ^^^ q, 0))
/-- VMOV: overlapping groups copy whole values. -/
def execVmov (e : Bool) (w : WSize) (d a : RegNo) (s : State) : Out :=
  vecIssue s (.vmov e w d a) anyType (fun x =>
    let vs := (span 0 (wsizeN w)).map (fun m => (m, x.lanes.map (fun l => (l, x.gr.getV (a.toNat + m) l))))
    doneWith s x e (fun y => vs.foldl (fun y p => y.setVs (d.toNat + p.1) p.2) y))
def execVbcast (e : Bool) (d a : RegNo) (s : State) : Out :=
  vecMap s (.vbcast e d a) anyType e d (fun x _ => (x.gr.getS a.toNat, 0))
/-- VSEL: V[d] is the condition. -/
def execVsel (e : Bool) (d a b : RegNo) (s : State) : Out :=
  vecMap s (.vsel e d a b) anyType e d (fun x l =>
    (if x.gr.getV d.toNat l ≠ 0 then x.gr.getV a.toNat l else x.gr.getV b.toNat l, 0))

/-! ### Comparison, conversion, special functions, classes (R404 to R408) -/

/-- A K destination takes 0 outside the effective mask (R391); of the lanes that are not computed this time, because they are done or
have recorded a cause, it keeps the bits (R256, R338). -/
def vecK (x : Site) (d : KNo) (ls : List Nat) (y : Group) : Group :=
  let all := ({ x.gr with replay := none } : Group).emask x.tm.width
  y.setK x.tm.width d.toNat ((x.gr.getK d.toNat &&& all &&& ~~~maskOfLanes x.lanes) ||| maskOfLanes ls)

def execVcmp (e : Bool) (c : VCond) (d : KNo) (a b : RegNo) (s : State) : Out :=
  vecIssue s (.vcmp e c d a b) setArith (fun x =>
    let rs := x.lanes.map (fun l => (l, laneCmp x.mode c (x.gr.getV a.toNat l) (x.gr.getV b.toNat l)))
    doneWith (s.raise x.t (orFlags (rs.map (fun r => r.2.2)))) x e (vecK x d ((rs.filter (fun r => r.2.1)).map (·.1))))
def execVcvt (e : Bool) (d a : RegNo) (t : ElemType) (s : State) : Out :=
  vec1 s (.vcvt e d a t) anyType e d a (fun m => laneCvt m t)
def execVrcp (e : Bool) (d a : RegNo) (s : State) : Out :=
  vec1 s (.vrcp e d a) setFltTap e d a (fun m => laneSpecial m .rcp)
def execVrsq (e : Bool) (d a : RegNo) (s : State) : Out :=
  vec1 s (.vrsq e d a) setFltTap e d a (fun m => laneSpecial m .rsq)
def execVsqrt (e : Bool) (d a : RegNo) (s : State) : Out :=
  vec1 s (.vsqrt e d a) setFltTap e d a (fun m => laneSpecial m .sqrt)
def execVexp2 (e : Bool) (d a : RegNo) (s : State) : Out :=
  vec1 s (.vexp2 e d a) setFltTap e d a (fun m => laneSpecial m .exp2)
def execVlog2 (e : Bool) (d a : RegNo) (s : State) : Out :=
  vec1 s (.vlog2 e d a) setFltTap e d a (fun m => laneSpecial m .log2)
def execVtanh (e : Bool) (d a : RegNo) (s : State) : Out :=
  vec1 s (.vtanh e d a) setFltTap e d a (fun m => laneSpecial m .tanh)
def execVclass (e : Bool) (d a : RegNo) (s : State) : Out :=
  vec1 s (.vclass e d a) setClass e d a (fun m w => (classWord m.t w.toNat, 0))

/-! ### Blocks (R409, R410) -/

/-- The results of one VQUANT block of 32 lanes: scale word and mantissas of the lanes of the mask. -/
def quantBlock (x : Site) (a : RegNo) (f : BxFmt) (lo : Nat) : List (Nat × Word × Word × Fl) :=
  let m := x.gr.emask x.tm.width
  let vals := (span lo 32).map (fun l => if laneOf m l then decodeVal x.mode.t (x.gr.getV a.toNat l).toNat else .zero false)
  let (sc, ms) := quantiseBX (bxBits f) vals x.mode.r
  (((span lo 32).zip ms).filter (fun p => laneOf m p.1)).map (fun p =>
    (p.1, BitVec.ofInt 32 p.2.1, BitVec.ofNat 32 (sc + 256 * bxCode f), p.2.2))

def execVquant (e : Bool) (d a : RegNo) (f : BxFmt) (s : State) : Out :=
  vecIssue s (.vquant e d a f) setFltTap (fun x =>
    if x.tm.width = 16 then .next (trapWhole s x 0x36)
    else
      let rs := quantBlock x a f 0 ++ (if x.tm.width = 64 then quantBlock x a f 32 else [])
      doneWith (s.raise x.t (orFlags (rs.map (fun r => r.2.2.2)))) x e (fun y =>
        (y.setVs d.toNat (rs.map (fun r => (r.1, r.2.1)))).setVs (d.toNat + 1) (rs.map (fun r => (r.1, r.2.2.1)))))

/-- VDEQ: a lane whose scale word has a bit of 31:10 set records illegal encoding, one with V[a] in error as well (R82); the good lanes
complete first (R393). -/
def execVdeq (e : Bool) (d a : RegNo) (t : ElemType) (s : State) : Out :=
  vecIssue s (.vdeq e d a t) setDeq (fun x =>
    let rs := x.lanes.map (fun l => (l, laneDeq x.mode t (x.gr.getV a.toNat l) (x.gr.getV (a.toNat + 1) l)))
    let good := rs.filterMap (fun r => r.2.map (fun v => (r.1, v)))
    let worse := (lanesOf x.errs).filter (fun l => !x.gr.inError (64 * (a.toNat + 1) + l) (BitVec.allOnes 32) &&
      (laneDeq x.mode t (x.gr.getV a.toNat l) (x.gr.getV (a.toNat + 1) l)).isNone)
    let bad := (rs.filter (fun r => r.2.isNone)).map (fun r => (r.1, 1)) ++ worse.map (fun l => (l, 1))
    if bad.isEmpty then vecWrite s x e d good
    else
      let s := s.raise x.t (orFlags (good.map (fun r => r.2.2)))
      let s := s.onSite x (fun y => y.setVs d.toNat (good.map (fun r => (r.1, r.2.1))))
      .next (trapLanes s x bad (bad.map (fun b => (b.1, 0))) 0))

/-! ### Cross-lane (R411 to R413) -/

/-- A source lane of the group; one that has exited supplies zero. -/
def srcLane (x : Site) (a : RegNo) (l : Nat) : Word := if laneOf x.gr.live l then x.gr.getV a.toNat l else 0

def execVshfl (e : Bool) (d a b : RegNo) (s : State) : Out :=
  vecMap s (.vshfl e d a b) anyType e d (fun x l => (srcLane x a ((x.gr.getV b.toNat l).toNat % x.tm.width), 0))
def execVbfly (e : Bool) (d a b : RegNo) (s : State) : Out :=
  vecMap s (.vbfly e d a b) anyType e d (fun x l => (srcLane x a (l ^^^ (x.gr.getS b.toNat).toNat % x.tm.width), 0))

/-- VRED over the lanes of the mask, each result from its own operands with one rounding. -/
def execVred (e : Bool) (o : RedOp) (d a : RegNo) (s : State) : Out :=
  vecIssue s (.vred e o d a) (setRed o) (fun x =>
    let r := reduceLanes x.mode o (x.lanes.map (x.gr.getV a.toNat))
    doneWith (s.raise x.t r.2) x e (fun y => y.setS d.toNat r.1))
def execVscan (e : Bool) (o : RedOp) (d a : RegNo) (s : State) : Out :=
  vecMap s (.vscan e o d a) (setRed o) e d (fun x l =>
    reduceLanes x.mode o ((x.lanes.filter (fun j => decide (j ≤ l))).map (x.gr.getV a.toNat)))
def execVvote (e : Bool) (d : KNo) (a : RegNo) (s : State) : Out :=
  vecIssue s (.vvote e d a) anyType (fun x => doneWith s x e (vecK x d (x.lanes.filter (fun l => x.gr.getV a.toNat l != 0))))
def execVelect (e : Bool) (d : RegNo) (s : State) : Out :=
  vecIssue s (.velect e d) anyType (fun x => doneWith s x e (fun y =>
    y.setS d.toNat (match x.lanes with | l :: _ => BitVec.ofNat 32 l | [] => 0xFFFFFFFF)))

end Sys2Proof.Machine
end

