-- ==== Sys2Proof/Machine/Sequence.lean ====
section
/-! DEFINITION. Sequence images and their checks (R270 to R273, Table 12-4), and the bound opcodes XOP0 to XOP15 (R274 to
R277). A sequence runs until a micro-op has to wait; a memory micro-op is completed before the next one. -/
namespace Sys2Proof.Machine

/-! ### Fields -/

def hdFile (h : DWord) (k : Nat) : Nat := field64 h (10 + 3 * k) (8 + 3 * k)
def hdScale (h : DWord) (k : Nat) : Bool := h.getLsbD (17 + k)
def hdWallow (h : DWord) : Nat := field64 h 23 20
def hdDout (h : DWord) : Bool := h.getLsbD 24
def hdLen (h : DWord) : Nat := field64 h 4 0 + 1

def uOp (u : DWord) : Nat := field64 u 63 58
def uTov (u : DWord) : Bool := u.getLsbD 57
def uPred (u : DWord) : Nat := field64 u 46 45
def uNeg (u : DWord) : Bool := u.getLsbD 44
def uImm (u : DWord) : Nat := field64 u 11 0
/-- Selectors: 0 DST, 1 to 3 the sources; KIND and INDEX. -/
def uSelLow (k : Nat) : Nat := 36 - 8 * k
def uSel (u : DWord) (k : Nat) : Nat := field64 u (43 - 8 * k) (36 - 8 * k)
def selKind (x : Nat) : Nat := x / 32
def selIdx (x : Nat) : Nat := x % 32

/-- Whether a micro-op uses DST, and how many sources (Table 12-3); none for an unlisted code. -/
def uShape (op : Nat) : Option (Bool × Nat) :=
  match op with
  | 0x01 | 0x02 | 0x03 | 0x05 | 0x06 | 0x08 | 0x09 | 0x0A | 0x0B | 0x0C | 0x0D | 0x10 | 0x11 | 0x14 | 0x20 => some (true, 2)
  | 0x04 => some (true, 3)
  | 0x0E | 0x12 | 0x13 | 0x18 | 0x19 | 0x1A => some (true, 1)
  | 0x21 => some (false, 3)
  | 0x30 | 0x3F => some (false, 0)
  | _ => none

def isMemOp (u : DWord) : Bool := uOp u == 0x20 || uOp u == 0x21

/-! ### Table 12-4 -/

/-- The lowest bit of the first field, from the low end, that a check marks. -/
def firstBit (l : List (Nat × Bool)) : Option Nat := (l.find? (·.2)).map (·.1)

/-- Reason 3: Table 12-1. -/
def headerBad (h : DWord) : Option Nat :=
  let scaled := hdScale h 0 || hdScale h 1 || hdScale h 2
  firstBit [(5, field64 h 7 5 != 0), (8, decide (3 < hdFile h 0)), (11, decide (3 < hdFile h 1)), (14, decide (3 < hdFile h 2)),
    (17, (span 0 3).any (fun k => hdScale h k && hdFile h k != 1 && hdFile h k != 2)),
    (20, hdWallow h == 0 || (!scaled && hdWallow h != 1)), (24, hdDout h && hdFile h 0 != 1), (25, field64 h 63 25 != 0)]

/-- Reason 5: values that are not allowed or must be 0. -/
def uFieldBad (u : DWord) : Option Nat :=
  let op := uOp u
  let sel := fun k => decide (5 < selKind (uSel u k)) || ((selKind (uSel u k) == 0 || selKind (uSel u k) == 5) && selIdx (uSel u k) != 0)
  if op = 0x3F then
    firstBit [(0, uImm u != 0), (12, uSel u 3 != 0), (20, uSel u 2 != 0), (28, uSel u 1 != 0), (36, uSel u 0 != 0), (44, uNeg u),
      (45, uPred u != 0), (47, field64 u 48 47 != 0), (49, field64 u 51 49 != 0), (52, field64 u 56 52 != 0), (57, uTov u)]
  else
    firstBit [(0, (isMemOp u && uImm u != 0) || (op == 0x13 && (typeOfCode (uImm u % 32)).isNone)),
      (2, op == 0x10 && uImm u / 4 != 0), (5, op == 0x13 && uImm u / 32 != 0),
      (12, sel 3), (20, sel 2), (28, sel 1), (36, sel 0), (44, uNeg u && uPred u == 0),
      (45, uPred u == 3 || (op == 0x11 && uPred u == 0)), (47, field64 u 48 47 == 1),
      (49, field64 u 51 51 == 0 && field64 u 50 49 != 0),
      (52, if uTov u then (typeOfCode (field64 u 56 52)).isNone else field64 u 56 52 != 0)]

/-- Reason 6 for one selector: it is used exactly when the micro-op uses it, and its KIND suits the file and the use. -/
def selBad (h u : DWord) (k : Nat) : Bool :=
  let (dst, n) := (uShape (uOp u)).getD (false, 0)
  let used := if k = 0 then dst else decide (k ≤ n)
  let kind := selKind (uSel u k)
  let idx := selIdx (uSel u k)
  let asRec := isMemOp u && k == 1
  if !used then kind != 0
  else
    match kind with
    | 0 => true
    | 1 => decide (7 < idx) || asRec
    | 5 => k == 0 || asRec
    | _ =>
      let f := hdFile h (kind - 2)
      f == 0 || (f == 3) != asRec || (f == 3 && idx != 0) || (f == 2 && decide (7 < idx))
        || (k == 0 && (kind != 2 || !hdDout h || uOp u == 0x10))

def uSelBad (h u : DWord) : Option Nat := firstBit ((span 0 4).reverse.map (fun k => (uSelLow k, selBad h u k)))

/-- The first micro-op that a check refuses, with the lowest bit of the field. -/
def firstOp (f : DWord → Option Nat) (us : List DWord) : Option (Nat × Nat) :=
  ((span 0 us.length).filterMap (fun i => (f (us.getD i 0)).map (fun b => (i, b)))).head?

/-- Reasons 3 to 9 in order: reason, index of the micro-op (0xFF for none), lowest bit of the field. -/
def imageBad (h : DWord) (us : List DWord) : Option (Nat × Nat × Nat) :=
  let last := us.length - 1
  let at' := fun (reason : Nat) (r : Option (Nat × Nat)) => r.map (fun p => (reason, p.1, p.2))
  let mems := (span 0 us.length).filter (fun i => isMemOp (us.getD i 0))
  let skip := (span 0 us.length).find? (fun i =>
    let n := signedOf (uImm (us.getD i 0)) 12
    uOp (us.getD i 0) == 0x30 && (decide (n < 1 ∨ 30 < n) || decide ((last : Int) < i + n + 1)))
  let ends := (span 0 us.length).find? (fun i => (uOp (us.getD i 0) == 0x3F) != (i == last))
  ((headerBad h).map (fun b => (3, 0xFF, b)))
    <|> at' 4 (firstOp (fun u => if (uShape (uOp u)).isNone then some 58 else none) us)
    <|> at' 5 (firstOp uFieldBad us)
    <|> at' 6 (firstOp (uSelBad h) us)
    <|> (mems.drop 2).head?.map (fun i => (7, i, 58))
    <|> skip.map (fun i => (8, i, 0))
    <|> ends.map (fun i => (9, i, 58))

/-! ### Issue checks (R274) -/

/-- The register field of an operand: 0 d, 1 a, 2 b. -/
structure XWord where
  w : WSize
  d : Nat
  a : Nat
  b : Nat
  deriving DecidableEq, Repr

def XWord.field (x : XWord) (k : Nat) : Nat := match k with | 0 => x.d | 1 => x.a | _ => x.b

/-- Registers that an operand names. -/
def operandSize (h : DWord) (x : XWord) (k : Nat) : Nat :=
  if hdFile h k = 3 then 8 else if hdScale h k then wsizeN x.w else 1

/-- An operand that check 2 of R274 refuses. -/
def operandBad (h : DWord) (us : List DWord) (x : XWord) (k : Nat) : Bool :=
  let f := hdFile h k
  let r := x.field k
  let n := operandSize h x k
  if f = 0 then r != 0
  else r % n != 0 || decide ((if f = 1 then 128 else 124) < r + n)
    || us.any (fun u => (span 0 4).any (fun j => selKind (uSel u j) == k + 2 && decide (n ≤ selIdx (uSel u j))))

def xopRefusal (s : State) (x : Site) (n : Nat) (w : XWord) : Option Nat :=
  match boundImage s x.tm n with
  | none => some 0x07
  | some [] => some 0x07
  | some (h :: us) =>
    if !(hdWallow h).testBit (wsizeCode w.w) || (span 0 3).any (operandBad h us w) then some 0x02
    else if (span 0 3).any (fun k => hdFile h k == 1 && decide (budgetOf x.tm x.gr.role < w.field k + operandSize h w k)) then some 0x05
    else none

/-! ### Execution -/

def tGet (t : List (Nat × Word)) (n l : Nat) : Word := sget 0 t (64 * n + l)

/-- A source selector's value in a lane. -/
def readSel (h : DWord) (w : XWord) (y : Group) (t : List (Nat × Word)) (u : DWord) (k l : Nat) : Word :=
  let x := uSel u k
  match selKind x with
  | 0 => 0
  | 1 => tGet t (selIdx x) l
  | 5 => BitVec.ofInt 32 (signedOf (uImm u) 12)
  | kd => if hdFile h (kd - 2) = 1 then y.getV (w.field (kd - 2) + selIdx x) l else y.getS (w.field (kd - 2) + selIdx x)

/-- Q0 and Q1 are bit 0 of T6 and of T7 (R272). -/
def predOf (t : List (Nat × Word)) (u : DWord) (l : Nat) : Bool :=
  if uPred u = 0 then true else (tGet t (5 + uPred u) l).getLsbD 0 != uNeg u

/-- Type, rounding and saturation of a micro-op (Table 12-2). -/
def uMode (gmr : Word) (u : DWord) : VMode :=
  let m := gmrMode gmr
  { t := if uTov u then (typeOfCode (field64 u 56 52)).getD .i32 else m.t,
    r := if u.getLsbD 51 then rmodeOfCode (field64 u 50 49) else m.r,
    sat := match field64 u 48 47 with | 2 => false | 3 => true | _ => m.sat }

/-- The types that a micro-op's counterpart accepts (R273). -/
def uTypeOk (op : Nat) (t : ElemType) : Bool :=
  match op with
  | 0x01 | 0x02 | 0x03 | 0x04 | 0x05 | 0x06 | 0x10 => setArith t
  | 0x0B | 0x0C | 0x0D | 0x0E => setInt t
  | 0x18 | 0x19 | 0x1A => setFltTap t
  | _ => true

/-- The result of a computing micro-op in a lane. `src` reads a source in any lane. -/
def uLane (m : VMode) (u : DWord) (src : Nat → Nat → Word) (live : Lanes) (width : Nat) (pred : Bool) (l : Nat) : Word × Fl :=
  let x := src 1 l
  let y := src 2 l
  match uOp u with
  | 0x01 => laneAdd m false x y
  | 0x02 => laneAdd m true x y
  | 0x03 => laneMul m x y
  | 0x04 => laneFma m x y (src 3 l)
  | 0x05 => laneMinMax m false x y
  | 0x06 => laneMinMax m true x y
  | 0x08 => (x &&& y, 0)
  | 0x09 => (x ||| y, 0)
  | 0x0A => (x ^^^ y, 0)
  | 0x0B => laneBit m .shl x y
  | 0x0C => laneBit m .shr x y
  | 0x0D => laneBit m .sra x y
  | 0x0E => laneBit m .clz x 0
  | 0x10 =>
    let c : VCond := match uImm u % 4 with | 0 => .eq | 1 => .ne | 2 => .lt | _ => .le
    let r := laneCmp m c x y
    (if r.1 then 1 else 0, r.2)
  | 0x11 => (if pred then x else y, 0)
  | 0x13 => laneCvt m ((typeOfCode (uImm u % 32)).getD .i32) x
  | 0x14 => let j := y.toNat % width; (if laneOf live j then src 1 j else 0, 0)
  | 0x18 => laneSpecial m .rcp x
  | 0x19 => laneSpecial m .exp2 x
  | 0x1A => laneSpecial m .log2 x
  | _ => (x, 0)

/-- V register number under which a pending load names temporary n. -/
def tempReg (n : Nat) : Nat := 128 + n

/-- The registers that a micro-op names, temporaries included. -/
def uUses (h : DWord) (w : XWord) (u : DWord) : List Use :=
  (span 0 4).flatMap (fun k =>
    let x := uSel u k
    match selKind x with
    | 0 | 5 => []
    | 1 => [(true, tempReg (selIdx x), 1)]
    | kd =>
      let r := w.field (kd - 2)
      match hdFile h (kd - 2) with
      | 1 => [(true, r + selIdx x, 1)]
      | 2 => [(false, r + selIdx x, 1)]
      | _ => [(false, r, 8)])

/-- Write a destination selector in some lanes: answers the group and the temporaries. -/
def writeSel (w : XWord) (y : Group) (t : List (Nat × Word)) (u : DWord) (rs : List (Nat × Word)) : Group × List (Nat × Word) :=
  let x := uSel u 0
  if selKind x = 1 then (y, rs.foldl (fun t r => sput 0 t (64 * selIdx x + r.1) r.2) t)
  else (y.setVs (w.d + selIdx x) rs, t)

/-- A sequence in the course of a step: the group's registers, the temporaries, the flags raised so far. -/
structure XRun where
  y : Group
  t : List (Nat × Word)
  fl : Fl

/-- The state with the sequence's effects so far. -/
def XRun.flush (r : XRun) (s : State) (x : Site) : State := (s.onSite x (fun _ => r.y)).raise x.t r.fl

/-- The sequence `q` stands before micro-op `mpc`. -/
def XRun.resume (r : XRun) (q : XopResume) (mpc : Nat) : XopResume := { q with mpc := mpc, t := r.t }

/-- The sequence waits before micro-op `mpc`. -/
def XRun.pause (r : XRun) (s : State) (x : Site) (q : XopResume) (mpc : Nat) : State :=
  XRun.flush { r with y := { r.y with xop := some (r.resume q mpc) } } s x

/-- The trap of a micro-op (R277). -/
def XRun.trap (r : XRun) (s : State) (x : Site) (q : XopResume) (mpc : Nat) (i : Trap) : State :=
  takeTrap (r.flush s x) x.t x.g { i with xop := some (r.resume q mpc) }

/-- The sequence has gone past its first micro-op: from here on every lane of the mask takes part. -/
def XRun.past (r : XRun) : XRun := { r with y := { r.y with replay := r.y.replay.map (fun _ => BitVec.allOnes 64) } }

/-- The bits of its V sources that a micro-op does not ignore, as its counterpart (R62). -/
def uBits (t : ElemType) (u : DWord) : Word :=
  match uOp u with
  | 0x08 | 0x09 | 0x0A | 0x11 | 0x12 | 0x14 | 0x20 | 0x21 => BitVec.allOnes 32
  | _ => BitVec.ofNat 32 (2 ^ typeBits t - 1)

/-- A source of a micro-op is a register in error, in a lane (R261): S registers and records are in error in every lane. UXLANE
reads its first source in another lane, unless that has exited. -/
def uSrcError (h : DWord) (w : XWord) (r : XRun) (u : DWord) (x : Site) (bits : Word) (k l : Nat) : Bool :=
  let sel := uSel u k
  let kd := selKind sel
  if kd = 0 ∨ kd = 1 ∨ kd = 5 then false
  else
    let reg := w.field (kd - 2) + selIdx sel
    match hdFile h (kd - 2) with
    | 1 =>
      if uOp u = 0x14 ∧ k = 1 then
        let j := (readSel h w r.y r.t u 2 l).toNat % x.tm.width
        laneOf x.gr.live j && r.y.inError (64 * reg + j) bits
      else r.y.inError (64 * reg + l) bits
    | 2 => r.y.inError (sKey reg) (BitVec.allOnes 32)
    | _ => (span reg 8).any (fun q => r.y.inError (sKey q) (BitVec.allOnes 32))

/-- The lanes of a micro-op that read a register in error. -/
def uErrors (h : DWord) (w : XWord) (r : XRun) (u : DWord) (x : Site) (m : Lanes) : Lanes :=
  if r.y.bad.isEmpty then 0
  else
    let bits := uBits (uMode r.y.gmr u).t u
    maskOf x.tm.width (fun l => laneOf m l && (span 1 3).any (fun k => uSrcError h w r u x bits k l))

/-- The access of ULDX or USTX. -/
def uReq (h : DWord) (w : XWord) (r : XRun) (u : DWord) (mpc : Nat) : MemReq :=
  let store := uOp u == 0x21
  let dst := uSel u 0
  { kind := if store then .store else .load, counted := store, words := 1, mpc := some mpc,
    dst := if store then ⟨true, 0, 0⟩
      else if selKind dst = 1 then ⟨true, tempReg (selIdx dst), 1⟩ else ⟨true, w.d + selIdx dst, 1⟩,
    record := recordAt r.y (w.field (selKind (uSel u 1) - 2)), off := fun l => (readSel h w r.y r.t u 2 l).toNat,
    data := fun l => if store then [readSel h w r.y r.t u 3 l] else [] }

/-- The site of a memory micro-op: its lanes are those of the sequence's own mask (R274), whatever the guard says by now. -/
def uSite (x : Site) (r : XRun) (m errs : Lanes) : Site :=
  { x with gr := { r.y with gmr := r.y.gmr &&& ~~~8, replay := some (m &&& ~~~errs) }, errs := errs }

/-- A memory micro-op for the lanes `m` (R275), those of `errs` with a register in error: it waits at the counter's limit and for
room in the log; with a good lane it is put in flight and the group waits for it, holding its port. None when it has no lane and
the sequence `k` goes on. -/
def uMem (s : State) (x : Site) (k : XopResume) (h : DWord) (w : XWord) (r : XRun) (u : DWord) (mpc : Nat) (m : Lanes) : Option State :=
  if m = 0 then none
  else
    let errs := uErrors h w r u x m
    let x' : Site := uSite x r m errs
    let q := uReq h w r u mpc
    if atLimit r.y q.isLoad then some (r.pause s x k mpc)
    else
      let rs := (lanesOf (m &&& ~~~errs)).map (q.check s x')
      let accs := goodAccesses s x' q (goodOf rs)
      let bad := badOf rs ++ errorLanes s x' q
      if accs.isEmpty then
        let causes := bad.map (fun b => (b.lane, b.cause))
        some (r.trap (logWalks s x' q (badOf rs)) x k mpc { trapAt x' (laneCode causes) with
          causes := causes, faddr := bad.map (fun b => (b.lane, b.va)), hmask := maskOfLanes ((bad.filter (·.ats)).map (·.lane)) })
      else if logFree (s.core x.tm.core) < (requests accs).length then some (r.pause s x k mpc)
      else
        let s := r.past.pause (logWalks s x' q (badOf rs)) x k (mpc + 1)
        let (s, seq) := putOp s x' q accs bad
        some (waitHolding s x.t x.g (.opDone seq))

/-- A computing micro-op in the lanes `m`: the group, the temporaries and the flags after it. -/
def uCompute (x : Site) (h : DWord) (w : XWord) (r : XRun) (u : DWord) (md : VMode) (m : Lanes) : XRun :=
  let rs := (lanesOf m).map (fun l => (l, uLane md u (readSel h w r.y r.t u) x.gr.live x.tm.width (predOf r.t u l) l))
  let (y, t) := writeSel w r.y r.t u (rs.map (fun p => (p.1, p.2.1)))
  ⟨y, t, rs.foldl (fun (f : Fl) p => f ||| p.2.2) r.fl⟩

/-- Run the sequence `k` from micro-op `mpc`, with the mask of R274; the group's replay mask, when it has one, holds for the
first micro-op only. The EMASK of a trap inside the sequence is the micro-op's mask (log entry 86). -/
def xopRun (s : State) (x : Site) (e : Bool) (k : XopResume) (h : DWord) (us : List DWord) (w : XWord) (mask : Lanes) : Nat → Nat → XRun → Out
  | 0, _, r => .next (finish (r.flush s x) x.t x.g e)
  | fuel + 1, mpc, r =>
    let u := us.getD mpc (0xFC00000000000000#64)
    let first := match r.y.replay with | some l => l | none => BitVec.allOnes 64
    let pm := maskOf x.tm.width (predOf r.t u) &&& mask
    if uOp u = 0x3F then .next (finish (r.flush s x) x.t x.g e)
    else if uOp u = 0x30 then
      xopRun s x e k h us w mask fuel (if pm = mask then mpc + 1 + (signedOf (uImm u) 12).toNat else mpc + 1) r
    else if stalled s x (uUses h w u) (isMemOp u) then .next (r.pause s x k mpc)
    else
      let m := (if uOp u = 0x11 then mask else pm) &&& first
      if isMemOp u then
        match uMem s x k h w r u mpc m with
        | some s' => .next s'
        | none => xopRun s x e k h us w mask fuel (mpc + 1) r.past
      else
        let md := uMode r.y.gmr u
        if !uTypeOk (uOp u) md.t then .next (r.trap s x k mpc { trapAt x 0x08 with emask := m })
        else
          let errs := uErrors h w r u x m
          let r' := (uCompute x h w r u md (m &&& ~~~errs)).past
          if errs = 0 then xopRun s x e k h us w mask fuel (mpc + 1) r'
          else
            .next (r'.trap s x k mpc { trapAt x 0x26 with
              emask := m, causes := (lanesOf errs).map (fun l => (l, 6)), faddr := (lanesOf errs).map (fun l => (l, 0)) })

/-- XOP (R274): the issue checks when it begins; a sequence in progress goes on with the image and the mask that it began with, less
the lanes that have exited. -/
def execXop (e : Bool) (n : BitVec 4) (w : WSize) (d a b : RegNo) (s : State) : Out :=
  issue s (.xop e n w d a b) (fun x =>
    let xw : XWord := ⟨w, d.toNat, a.toNat, b.toNat⟩
    match x.gr.xop with
    | some k => xopRun s x e k (k.image.headD 0) k.image.tail xw (k.mask &&& x.gr.active) 33 k.mpc ⟨x.gr, k.t, 0⟩
    | none =>
      match xopRefusal s x n.toNat xw, boundImage s x.tm n.toNat with
      | some code, _ => .next (trapWhole s x code)
      | none, some (h :: us) =>
        let mask := ({ x.gr with replay := none } : Group).emask x.tm.width
        xopRun s x e ⟨0, [], .xop e n w d a b, h :: us, mask⟩ h us xw mask 33 0 ⟨x.gr, [], 0⟩
      | none, _ => .next s)

end Sys2Proof.Machine
end

