-- ==== Sys2Proof/Machine/Deps.lean ====
section
/-! DEFINITION. What an instruction's issue leaves behind it beside its own effect: the values that its results, addresses and data
depend on (R195, R223), and the join of a TSTAT whose results it reads (R165, R210). -/
namespace Sys2Proof.Machine

/-! ### Sources and destinations -/

/-- The image of an XOP: of a sequence in progress the one it began with. -/
def xopImage (s : State) (x : Site) (n : Nat) : Option (List DWord) :=
  match x.gr.xop with
  | some q => some q.image
  | none => boundImage s x.tm n

/-- The V and S registers that a bound sequence's micro-ops read as operands. -/
def xopSources (s : State) (x : Site) (n : Nat) (w : XWord) : List Use :=
  match xopImage s x n with
  | some (h :: us) => (span 0 3).filterMap (fun j =>
      if hdFile h j ≠ 0 ∧ us.any (fun u => (span 1 3).any (fun k => selKind (uSel u k) == j + 2)) then
        some (hdFile h j == 1, w.field j, operandSize h w j)
      else none)
  | _ => []

/-- The registers that an instruction reads, a bound sequence's operands included. -/
def sourcesAt (s : State) (x : Site) (i : Instr) : List Use :=
  match i with
  | .xop _ n w d a b => xopSources s x n.toNat ⟨w, d.toNat, a.toNat, b.toNat⟩
  | .pref .. => usesOf i
  | _ => readsOf i

/-- The registers that take a result when the instruction issues; those of loads and atomics take theirs later. -/
def resultsAt (s : State) (x : Site) (i : Instr) : List Use :=
  match i with
  | .xop _ n w d a b =>
    (match xopImage s x n.toNat with
     | some (h :: _) => if hdDout h then [(true, d.toNat, operandSize h ⟨w, d.toNat, a.toNat, b.toNat⟩ 0)] else []
     | _ => [])
  | .pref .. => []
  | .ssel .. | .saddi .. | .sandi .. | .sori .. | .sshli .. | .slih .. | .vfma .. | .vsel .. => (usesOf i).take 1
  | _ => if destOnly i then (usesOf i).take 1 else []

/-! ### The join of a TSTAT -/

/-- Completed TSTATs, not yet joined, one of whose result registers is read. -/
def statsRead (y : Group) (uses : List Use) : List DoneOp :=
  y.done.filter (fun o => !o.covered && (match o.stat with
    | some d => uses.any (fun u => u.1 && overlap d 4 u.2.1 u.2.2)
    | none => false))

/-- Before an instruction that reads a TSTAT's result issues, its wait on the scoreboard has joined that TSTAT (R165), with an entry
in Piccolo's log. None when the log is full: the instruction waits. -/
def joinStats (s : State) (x : Site) (i : Instr) : Option State :=
  let ops := statsRead x.gr (sourcesAt s x i)
  if ops.isEmpty then some s
  else if logFree (s.core x.tm.core) = 0 then none
  else some ((logNow s x (.other false) .team (joinedTime ops)).onSite x (fun y => { y.takeDone ops with nextSeq := y.nextSeq + 1 }))

/-! ### Dependencies -/

/-- Entries of the dependency table that stand for no register: the branches so far, and a sequence's temporaries. -/
def ctlKey : Nat := 384
def tempKey : Nat := 385

/-- What some registers depend on. -/
def Group.depsOf (y : Group) (ks : List Nat) : List Nat := ks.foldl (fun m k => unionNat ((alook y.deps k).getD []) m) []

/-- The K register of GMR's guard. -/
def guardKey (m : Word) : List Nat := if m.getLsbD 3 then [256 + fieldOf m 2 0] else []

/-- What a branch's direction or target depends on. -/
def branchKeys : Instr → List Nat
  | .brk _ k _ => [256 + k.toNat]
  | .ret a => (uS a 2).keys
  | _ => []

def setDeps (m : List (Nat × List Nat)) (ks v : List Nat) : List (Nat × List Nat) :=
  ks.foldl (fun m k => if v.isEmpty then adel m k else aput m k v) m

/-- The dependencies that an instruction's issue passes on: to its log entries, those of its address and data; to its pending
operations, those of its execution as well; to the registers it writes. Of its loads and atomics each destination depends on that
operation. A register written in some lanes only keeps what it depended on (log entry 70). -/
def passDeps (s : State) (x : Site) (i : Instr) (y : Group) : List Nat × List Nat × List (Nat × List Nat) :=
  let new := y.ops.filter (fun o => decide (x.gr.nextSeq ≤ o.seq) && o.kind != .store)
  let src := x.gr.depsOf ((sourcesAt s x i).flatMap Use.keys ++ kReads i)
  let how := x.gr.depsOf (guardKey x.gr.gmr)
  let part := x.gr.emask x.tm.width != fullMask x.tm.width
  let keep := fun (u : Use) => if u.1 && part then x.gr.depsOf u.keys else []
  let ds := setDeps x.gr.deps [ctlKey] (unionNat (x.gr.depsOf (branchKeys i)) (x.gr.depsOf [ctlKey]))
  match i with
  | .xop .. =>
    let temps := unionNat (if x.gr.xop.isNone then [] else x.gr.depsOf [tempKey]) (unionNat how src)
    let after := new.foldl (fun m o => insertNat o.seq m) temps
    let ds := setDeps ds [tempKey] (if y.xop.isNone then [] else after)
    (temps, unionNat temps (x.gr.depsOf [ctlKey]),
      (resultsAt s x i).foldl (fun m u => setDeps m u.keys (unionNat after (keep u))) ds)
  | _ =>
    let ds := (resultsAt s x i).foldl (fun m u => setDeps m u.keys (unionNat (unionNat how src) (keep u))) ds
    let ds := setDeps ds (kWrites i) (unionNat how src)
    (src, unionNat src (unionNat how (x.gr.depsOf [ctlKey])),
      new.foldl (fun m o =>
        let u : Use := (o.dst.vec, o.dst.base, o.dst.n)
        setDeps m u.keys (insertNat o.seq (keep u))) ds)

/-- Only operations that Piccolo's log still holds can be depended on. -/
def trimDeps (log : List LogEntry) (t g : Nat) (m : List (Nat × List Nat)) : List (Nat × List Nat) :=
  m.filterMap (fun e =>
    let v := e.2.filter (fun n => log.any (fun l => l.team == t && l.group == g && l.seq == n))
    if v.isEmpty then none else some (e.1, v))

/-- Record the dependencies of the instruction that has issued in state `s`. -/
def noteDeps (s : State) (i : Instr) (after : State) : State :=
  match s.site? with
  | none => after
  | some x =>
    match after.group? x.t x.g with
    | none => after
    | some y =>
      if x.gr.deps.isEmpty ∧ y.nextSeq = x.gr.nextSeq then after
      else
        let (src, all, ds) := passDeps s x i y
        let after := logMap after x.tm.core (fun e => e.team == x.t && e.group == x.g && decide (x.gr.nextSeq ≤ e.seq))
          (fun e => { e with deps := src })
        let ds := trimDeps (after.core x.tm.core).log x.t x.g ds
        after.onSite x (fun y => { y with
          deps := ds
          ops := y.ops.map (fun o => if x.gr.nextSeq ≤ o.seq then { o with deps := all } else o) })

end Sys2Proof.Machine
end

