-- ==== Sys2Proof/Machine/Arbiter.lean ====
section
/-! DEFINITION. Which instruction a port issues next: readiness and arbitration (R37, R39, R297), fetch (R93, R259) and the
stepping of a prefixed word under REP (R374, R375). -/
namespace Sys2Proof.Machine

/-! ### Fetch -/

inductive Fetched where
  | word (key : Nat) (w : Word)
  | bad (cause : Nat) (ats : Bool)
  deriving DecidableEq, Repr

/-- The word at a virtual address, for execution (R93): a leaf with X, and data that is good. -/
def fetchWord (s : State) (core part : Nat) (super : Bool) (va : Nat) : Fetched :=
  if 2 ^ 55 ≤ va then .bad 5 false
  else
    match translate s core part va [.x] with
    | .cause c ats => .bad c ats
    | .ok key => if dataBad s key super then .bad 6 false else .word key (s.read32 key)

def fetchAt (s : State) (x : Site) : Fetched := fetchWord s x.tm.core x.tm.part x.gr.super x.gr.point.word.toNat

/-- The step that a word stands for when it is not prefixed: an instruction, or a refusal by check 1 or 2 of R92. -/
def instrOf (w : Word) : Instr :=
  match decode w with
  | .instr i => i
  | .illegalInstruction => .illegalInstruction w
  | .illegalEncoding => .illegalEncoding w

/-- Whether the d and the a field of a word name message ports (R64, R186). -/
def portFields : Instr → Bool × Bool
  | .smov _ _ d a => (decide (124 ≤ d.toNat), decide (124 ≤ a.toNat))
  | .smovQdst _ a => (true, decide (124 ≤ a.toNat))
  | .smovQsend .. => (true, false)
  | .smovQrecv .. => (false, true)
  | _ => (false, false)

/-- A stepped field has fallen in S124 to S127 (R375). -/
def stepsOnPort (i j : Instr) (r : RepPos) : Bool :=
  portFields j != portFields i || (decide (0 < r.idx) && ((r.sd && (portFields j).1) || (r.sa && (portFields j).2)))

/-- The step that a prefixed word stands for at a repetition (R374, R375): the word with its stepped fields raised; a step
bit on a field that is no register is refused after checks 1 to 5. -/
def repInstr (s : State) (x : Site) (r : RepPos) (w : Word) : Instr :=
  match decode w with
  | .illegalInstruction => .illegalInstruction w
  | .illegalEncoding => .illegalEncoding w
  | .instr i =>
    let st := stepsAt s x.tm i
    match steppedWord w.toNat i st r with
    | none => .illegalEncoding w
    | some v =>
      let j := instrOf (BitVec.ofNat 32 v)
      if (badSteps st r ∧ precheck x j = none) ∨ stepsOnPort i j r then .illegalEncoding w else j

/-- The step at a group's place: of a sequence in progress the XOP that was accepted (R274), else what the word there stands for. -/
def instrAt (s : State) (x : Site) : Instr :=
  match x.gr.xop with
  | some q => q.i
  | none =>
    match fetchAt s x with
    | .bad _ _ => .fetchFault
    | .word _ w =>
      match x.gr.rep with
      | none => instrOf w
      | some r => repInstr s x r w

/-! ### Waits that the group's own instruction ends when it executes again -/

/-- The phase that a RINGGET awaits (R56). -/
def awaited (d : Word) (r : Role) : Bool := isConsumer d r

/-- Whether what a group waits for has come about, so that its instruction can execute again. Waits that an event ends
(CWAIT, SPAWN, fences, TINV, PGMAP, CSLOAD, POPR, escalation, RELEASE_COMPLETE) are never over by themselves. -/
def waitOver (s : State) (x : Site) (w : Wait) : Bool :=
  match w with
  | .bar n => match alook x.tm.barriers n with
    | some b => b.phase != x.gr.phase0.contains n
    | none => true
  | .ring r st => match x.tm.stage? r st with
    | some (ring, v) => v.p == awaited ring.desc x.gr.role
    | none => true
  | .qrecv => x.gr.q.cut || x.gr.q.nextFlit.isSome
  | .loadStall => let i := instrAt s x; !(stalled s x (usesOf i) (makesEvents i))
  | .limits ld st cp tm => decide (x.gr.ldCount ≤ ld ∧ x.gr.stCount ≤ st ∧ x.gr.cp ≤ cp ∧ x.gr.tm ≤ tm)
  | .drain _ ids _ => !((s.core x.tm.core).copies.any (fun e => ids.contains e.2.id))
  | _ => false

/-- The group may issue now (R297): ready, or waiting for what has come about while no other group of its team has a handler
(R245); its next instruction does not stall; its team's issue has not stopped for a save (R265). -/
def mayIssue (s : State) (x : Site) : Bool :=
  !x.tm.stopped && match x.gr.status with
  | .ready => let i := instrAt s x; !(stalled s x (usesOf i) (makesEvents i))
  | .waiting w => (x.tm.handler.isNone || x.tm.handler == some x.g) && waitOver s x w
  | _ => false

/-- An imprecise trap that is to be delivered before the group's next run (R246). -/
def trapDue (y : Group) : Bool := !y.traps.isEmpty && !y.super

def siteOf (s : State) (t g : Nat) : Option Site :=
  match s.team? t with
  | some tm => (tm.group? g).map (fun gr => ⟨t, g, tm, gr, 0⟩)
  | none => none

/-- Groups homed on a port of a core. -/
def homed (s : State) (c p : Nat) : List Site :=
  (teamsOn s c).flatMap (fun e => (e.2.groups.filter (fun h => decide (homePort h.2.role h.1 = p) && !h.2.isRetired)).map
    (fun h => ⟨e.1, h.1, e.2, h.2, 0⟩))

/-- Candidate a goes before candidate b under R297. -/
def precedes (a b : Site) : Bool :=
  let byAge := decide (a.tm.placed < b.tm.placed) || (a.tm.placed == b.tm.placed && decide (a.gr.slot < b.gr.slot))
  match a.gr.starving, b.gr.starving with
  | some i, some j => decide (i < j) || (i == j && byAge)
  | some _, none => true
  | none, some _ => false
  | none, none => decide (b.tm.prio < a.tm.prio) || (a.tm.prio == b.tm.prio && byAge)

def firstOf : List Site → Option Site
  | [] => none
  | a :: as => match firstOf as with
    | some b => if precedes b a then some b else some a
    | none => some a

/-- A decision of a port: the winner holds it; the losers count a pass and may become starving; a group that is not ready
starts afresh. -/
def arbitrate (s : State) (c p : Nat) : Option (State × Site) :=
  let all := homed s c p
  let ready := all.filter (fun x => !trapDue x.gr && mayIssue s x)
  match firstOf ready with
  | none => none
  | some w =>
    let n := ((s.core c).ports.getD p Port.idle).decisions
    let isReady := fun (x : Site) => ready.any (fun y => y.t == x.t && y.g == x.g)
    let s := all.foldl (fun s x =>
      if x.t = w.t ∧ x.g = w.g then (s.count x.t 3 1).updGroup x.t x.g (fun y => { y with passes := 0, starving := none })
      else if isReady x then
        (s.count x.t 4 1).updGroup x.t x.g (fun y =>
          { y with passes := y.passes + 1, starving := if y.starving.isNone ∧ y.passes + 1 = 64 then some n else y.starving })
      else s.updGroup x.t x.g (fun y => { y with passes := 0, starving := none })) s
    let s := s.updCore c (fun k => { k with ports := setAt k.ports p ⟨some (w.t, w.g), n + 1⟩ })
    some (s, w)

/-- The instruction that a port issues: of the run that holds it, or of the run that wins it. A core that the debug path
has halted starts no run (R263), and none issues in retention sleep (R242). The leaf of the fetched page stays in the core's
translation cache (R174), and a TSTAT whose result the instruction reads is joined (R165). -/
def portIssue (s : State) (c p : Nat) : Option (State × Instr) :=
  let pick : Option (State × Nat × Nat) :=
    if s.sleeping then none
    else match ((s.core c).ports.getD p Port.idle).holder with
    | some (t, g) =>
      match siteOf s t g with
      | some x => if mayIssue s x then some (s, t, g) else none
      | none => none
    | none => if (s.core c).debugHalt then none else (arbitrate s c p).map (fun r => (r.1, r.2.t, r.2.g))
  match pick with
  | none => none
  | some (s, t, g) =>
    match siteOf s t g with
    | none => none
    | some x =>
      let i := instrAt s x
      let s := if x.gr.xop.isSome then s else cacheLeaf s x.tm.core x.tm.part x.gr.point.word.toNat
      (joinStats s x i).map (fun s => ({ s with cur := some (t, g) }, i))

/-! ### Words that are not executed -/

/-- Check 1 of R92. -/
def execIllegalInstruction (_w : Word) (s : State) : Out :=
  match s.site? with
  | none => .fault .noIssuingGroup
  | some x => .next (trapWhole s x 0x01)

/-- Check 2 of R92. -/
def execIllegalEncoding (_w : Word) (s : State) : Out :=
  match s.site? with
  | none => .fault .noIssuingGroup
  | some x => .next (trapWhole s x 0x02)

/-- A fetch fault (R93, R259): every lane of the active mask records it at the word's address, of a word that was to be retried
those to be replayed, so that the next retry performs no completed lane again (R256). A handler's word kills the team (R247). A place
whose word can be fetched changes nothing. -/
def execFetchFault (s : State) : Out :=
  match s.site? with
  | none => .fault .noIssuingGroup
  | some x =>
    match fetchAt s x with
    | .word _ _ => .next s
    | .bad c ats =>
      if x.gr.super then .next (failTeam s x.t 0x107)
      else
        let m := match x.gr.replay with | some r => x.gr.active &&& r | none => x.gr.active
        let ls := lanesOf m
        let va := x.gr.point.word.toNat
        .next (takeTrap s x.t x.g
          { trapAt x (0x20 + c) with
            emask := m, causes := ls.map (fun l => (l, c)), faddr := ls.map (fun l => (l, va)),
            hmask := if ats then m else 0 })

end Sys2Proof.Machine
end

