-- ==== Sys2Proof/Machine/Control.lean ====
section
/-! DEFINITION. Control instructions: branches, calls, the reconvergence stack, EXIT, REP, NOP, TRAP and BKPT (R45, R46,
R347 to R350, R354, R363, R368, R370, R373 to R377, R398). -/
namespace Sys2Proof.Machine

/-- The target of a branch word: its own address + 4 times the signed offset (R90). -/
def branchTo (pc : DWord) (o : DWord) : DWord := pc + 4 * o

def execNop (e : Bool) (s : State) : Out := issue s (.nop e) (fun x => doneWith s x e id)

def execBru (o : BitVec 16) (s : State) : Out :=
  issue s (.bru o) (fun x => .next (finishAt s x.t x.g (branchTo x.gr.pc (o.signExtend 64))))

/-- BRK (R349): the lanes of the condition branch; the others go on first when the mask divides. -/
def execBrk (neg : Bool) (k : KNo) (o : BitVec 19) (s : State) : Out :=
  issue s (.brk neg k o) (fun x =>
    let kv := x.gr.getK k.toNat
    let c := (if neg then ~~~kv else kv) &&& fullMask x.tm.width
    let taken := x.gr.active &&& c
    let rest := x.gr.active &&& ~~~c
    let target := branchTo x.gr.pc (o.signExtend 64)
    if rest = 0 then .next (finishAt s x.t x.g target)
    else if taken = 0 then .next (finishAt s x.t x.g (x.gr.pc + 4))
    else
      let s := pushOrKill s x.t x.g ⟨taken, target, .reconv, 0, 0⟩
      .next (finishAt (s.updGroup x.t x.g (fun y => { y with active := rest })) x.t x.g (x.gr.pc + 4)))

def execPushr (e : Bool) (o : BitVec 19) (s : State) : Out :=
  issue s (.pushr e o) (fun x =>
    let s := pushOrKill s x.t x.g ⟨x.gr.active, branchTo x.gr.pc (o.signExtend 64), .reconv, 0, 0⟩
    .next (finish s x.t x.g e))

/-- CALL (R350): S[d]:S[d + 1] takes the address of the next word. -/
def execCall (d : RegNo) (o : BitVec 16) (s : State) : Out :=
  issue s (.call d o) (fun x =>
    let s := s.onSite x (fun y => y.setPair d.toNat (x.gr.pc + 4))
    .next (finishAt s x.t x.g (branchTo x.gr.pc (o.signExtend 64))))

/-- RET (R377). -/
def execRet (a : RegNo) (s : State) : Out :=
  issue s (.ret a) (fun x =>
    let v := x.gr.getPair a.toNat
    if field64 v 1 0 ≠ 0 then .next (trapWhole s x 0x23)
    else if field64 v 63 55 ≠ 0 then .next (trapWhole s x 0x22)
    else .next (finishAt s x.t x.g v))

/-- A trap return by an entry begins: FENCE DEVICE, held as a release, for which the group waits, unless the return is refused
(R255). A full log makes it wait. -/
def fenceReturn (s : State) (x : Site) (e : StackEntry) (w : Nat → Wait) : Out :=
  match returnRefusal s x.tm x.g x.gr e with
  | some code => .next (refuseReturn s x code)
  | none =>
    if logFree (s.core x.tm.core) = 0 then .next s
    else
      let id := s.newId
      .next (waitHere (holdRelease s x .popr .device [] (some (.fence, []))) x.t x.g (w id))

/-- POPR (R368). -/
def execPopr (s : State) : Out :=
  issue s .popr (fun x =>
    match x.gr.stack with
    | [] => .next (trapWhole s x 0x36)
    | e :: _ =>
      if e.kind = .reconv then
        .next (finishAt ((popEntry s x.t x.g).updGroup x.t x.g (fun y => { y with active := e.mask })) x.t x.g e.pc)
      else fenceReturn s x e .popr)

/-! ### EXIT (R45, R46, R354) -/

/-- Every entry of a group's stack, newest first, the spilled ones last. -/
def wholeStack (s : State) (tm : Team) (g : Nat) (y : Group) : List StackEntry :=
  y.stack ++ ((span 0 y.spilled).map (spilledEntry s tm g)).reverse

/-- The stack without the lanes that exit: an entry whose mask becomes zero is gone. -/
def stackLess (es : List StackEntry) (gone : Lanes) : List StackEntry :=
  (es.map (fun e => { e with mask := e.mask &&& ~~~gone })).filter (fun e => e.mask != 0)

/-- Put a whole stack back: the newest entries on chip, the others spilled, oldest at the lowest address. -/
def putStack (s : State) (t g : Nat) (es : List StackEntry) : State :=
  match s.team? t with
  | none => s
  | some tm =>
    let low := (es.drop Config.stackOnChip).reverse
    let s := if low.isEmpty then s else hardWrite s tm.part (spillAddr tm g 0) (16 * low.length) (fun s =>
      s.putBytes (spillAddr tm g 0) (low.flatMap entryBytes))
    s.updGroup t g (fun y => { y with
      stack := es.take Config.stackOnChip, spilled := low.length,
      frames := y.frames.filter (fun f => es.any (fun e => e.kind != .reconv && e.gidx == f.1)) })

/-- The group's active lanes leave it for good. -/
def exitLanes (s : State) (t g : Nat) : State :=
  match s.team? t, s.group? t g with
  | some tm, some y =>
    let s := putStack s t g (stackLess (wholeStack s tm g y) y.active)
    s.updGroup t g (fun z => { z with live := z.live &&& ~~~y.active, active := 0 })
  | _, _ => s

/-- The group's last lane has exited: it retires, and a handler that it ran is over. -/
def retireGroup (s : State) (t g : Nat) : State :=
  let ran := match s.team? t with | some x => x.handler == some g | none => false
  let s := endRun (noteIssue s t g) t g
  let s := s.updGroup t g (fun y =>
    { y with status := .retired, rep := none, replay := none, xop := none, redo := [], ops := y.ops.filter (fun o => !o.settled) })
  let s := settleRetired s t g
  if ran then s.updTeam t handlerDone else s

/-- EXIT: what the stack holds without the exiting lanes decides. A trap entry on top is returned from in full, and the
lanes leave when its fence is done. -/
def execExit (s : State) : Out :=
  issue s .exit (fun x =>
    match stackLess (wholeStack s x.tm x.g x.gr) x.gr.active with
    | [] => .next (retireGroup (exitLanes s x.t x.g) x.t x.g)
    | e :: _ =>
      if e.kind = .reconv then
        let s := popEntry (exitLanes s x.t x.g) x.t x.g
        let s := finishAt (s.updGroup x.t x.g (fun y => { y with active := e.mask })) x.t x.g e.pc
        .next (if x.gr.super then leaveHandler s x.t x.g else s)
      else fenceReturn s x e .poprExit)

/-! ### REP, TRAP, BKPT -/

/-- REP (R373, R376): ends its run; its prefixed word follows repetition by repetition. -/
def execRep (stepB stepA stepD : Bool) (n : BitVec 6) (s : State) : Out :=
  issue s (.rep stepB stepA stepD n) (fun x =>
    let s := (noteIssue s x.t x.g).onSite x (fun y =>
      { y with rep := some ⟨y.pc, n.toNat + 1, stepD, stepA, stepB, 0⟩, replay := none })
    .next (endRun s x.t x.g))

/-- A precise trap whose stack entry holds the address of the next word, with the immediate in AUX (R347, R398). TRAP and BKPT have
their effect and count as issued in PERF event 2; an instruction that is refused or whose access faults does not. R87 does not
say which of them count (log entry 71). -/
def softTrap (s : State) (x : Site) (code : Nat) (c : BitVec 14) : State :=
  takeTrap (noteIssue s x.t x.g) x.t x.g
    { trapAt x code with pt := .at (x.gr.pc + 4), aux := [(0x080, 8, c.toNat)] }

def execTrap (c : BitVec 14) (s : State) : Out := issue s (.trap c) (fun x => .next (softTrap s x 0x42 c))
def execBkpt (c : BitVec 14) (s : State) : Out := issue s (.bkpt c) (fun x => .next (softTrap s x 0x43 c))

end Sys2Proof.Machine
end

