-- ==== Sys2Proof/Machine/Engines.lean ====
section
/-! DEFINITION. The issue of copies (R140 to R147, R351) and of tile operations (R156 to R166, R394, R395), and the
instructions TRD and TWR (R164), which are pending operations of their group as LDB and STB are. -/
namespace Sys2Proof.Machine

/-- The fork edge of an engine operation (R210): its entry in Piccolo's log, checked as STREL, and its place in program
order. -/
def fork (s : State) (x : Site) : State :=
  (logNow s x (.other true) .group none).onSite x (fun y => { y with nextSeq := y.nextSeq + 1 })

/-! ### Copies -/

/-- The lowest free copy slot of a core. -/
def freeCopySlot (c : Core) : Option Nat := (span 0 Config.copySlots).find? (fun n => (alook c.copies n).isNone)

/-- Copies of a team in flight. -/
def teamCopies (c : Core) (t : Nat) : Nat := (c.copies.filter (fun e => decide (e.2.team = t))).length

/-- The first refusal of a copy (R351, Table 6-6). -/
def copyRefusal (s : State) (x : Site) (op : Nat) (r : CRec) (post : Nat) : Option Nat :=
  if !(recFields op r && recSides x.tm r && recOpcode op r && recAlign r) then some 0x33
  else if postRefused x.tm x.gr.role post then some 0x37
  else if x.tm.cslots = 0 ∨ !recQuota s x.t x.tm r then some 0x31
  else if hazard s x.tm (copyFootprint s x.t x.tm r) then some 0x32
  else none

/-- Issue of CPY (op 0), CPYG (1) and CPYRED (2), once for the group; the record is read at issue. Without a free slot,
room in the team's quota, room in cp or in Piccolo's log, the instruction waits and holds the port. -/
def copyGo (s : State) (i : Instr) (op : Nat) (e : Bool) (d : RegNo) (p : BitVec 8) : Out :=
  issue s i (fun x =>
    let r := x.gr.getSn d.toNat 24
    match copyRefusal s x op r p.toNat with
    | some code => .next (trapWhole s x code)
    | none =>
      let c := s.core x.tm.core
      match freeCopySlot c with
      | none => .next s
      | some slot =>
        if x.tm.cslots ≤ teamCopies c x.t ∨ 63 ≤ x.gr.cp ∨ logFree c = 0 then .next s
        else
          let k : Copy :=
            { id := s.newId, team := x.t, group := x.g, seq := x.gr.nextSeq, op := op, record := r, post := p.toNat,
              pc := x.gr.point.word, done := [], rows := [], adds := [], held := none, vt := 0, agent := none, homes := [],
              wrote := [], landing := [], taken := [] }
          let s := (fork s.bumpId x).updCore x.tm.core (fun c => { c with copies := aput c.copies slot k })
          doneWith s x e (fun y => { y with cp := y.cp + 1 }))

def execCpy (e : Bool) (d : RegNo) (p : BitVec 8) (s : State) : Out := copyGo s (.cpy e d p) 0 e d p
def execCpyg (e : Bool) (d : RegNo) (p : BitVec 8) (s : State) : Out := copyGo s (.cpyg e d p) 1 e d p
def execCpyred (e : Bool) (d : RegNo) (p : BitVec 8) (s : State) : Out := copyGo s (.cpyred e d p) 2 e d p

/-! ### Tile operations -/

/-- A handle of the team's own CB, AB (`b` = 2, 1). -/
def ownHandle (tm : Team) (h : Word) (b : Nat) : Bool := handleOk h && hBuf h == b && !isRemote tm h

/-- Put a tile operation in the core's queue; at 15 outstanding ones, or with a full log, it waits and holds the port. -/
def tileGo (s : State) (x : Site) (e : Bool) (k : TileKind) (dh ah bh : Word) (post : Nat) : Out :=
  if hazard s x.tm (tileSpans s x.t k dh ah bh (handleTeam s x.t x.tm ah) (handleTeam s x.t x.tm bh)) then .next (trapWhole s x 0x32)
  else if 15 ≤ x.gr.tm ∨ logFree (s.core x.tm.core) = 0 then .next s
  else
    let o : TileOp :=
      { id := s.newId, team := x.t, group := x.g, seq := x.gr.nextSeq, kind := k, dh := dh, ah := ah, bh := bh,
        ra := handleTeam s x.t x.tm ah, rb := handleTeam s x.t x.tm bh, post := post, pc := x.gr.point.word,
        landing := none, taken := [] }
    let s := (fork s.bumpId x).updCore x.tm.core (fun c => { c with tiles := c.tiles ++ [o] })
    doneWith s x e (fun y => { y with tm := y.tm + 1 })

/-- The first refusal of TMMA before the hazard (Table 7-4, checks 1 to 6). `p` and `q` are S[a + 2] and S[a + 3] of the
quad form, zero for the pair form. -/
def tmmaRefusal (s : State) (x : Site) (fw dh ah bh p q : Word) : Option Nat :=
  if x.gr.emask x.tm.width ≠ fullMask x.tm.width then some 0x36
  else if !fwOk fw then some 0x34
  else if !(ownHandle x.tm dh 2 && handleOk ah && hBuf ah != 2 && handleOk bh && hBuf bh != 2 && fieldOf p 31 8 == 0
      && postOk p.toNat && q == 0) then some 0x33
  else if postRefused x.tm x.gr.role p.toNat then some 0x37
  else if pastQuota s x.t x.tm dh (hOff dh + accBytes ((fwAcc fw).getD .fp32))
      || pastQuota s x.t x.tm ah (hOff ah + tileBytes ((fwA fw).getD (.plain .bf16)) (fwK fw) (fwTA fw))
      || pastQuota s x.t x.tm bh (hOff bh + tileBytes ((fwB fw).getD (.plain .bf16)) (fwK fw) (fwTB fw)) then some 0x31
  else none

/-- Lanes whose format word differs from lane 0's (R160). -/
def diverging (x : Site) (b : RegNo) : Lanes :=
  maskOf x.tm.width (fun l => x.gr.getV b.toNat l != x.gr.getV b.toNat 0)

def tmmaGo (s : State) (x : Site) (e : Bool) (d a b : RegNo) (p q : Word) : Out :=
  let fw := x.gr.getV b.toNat 0
  let dh := x.gr.getS d.toNat
  let ah := x.gr.getS a.toNat
  let bh := x.gr.getS (a.toNat + 1)
  let diff := diverging x b
  if x.gr.emask x.tm.width = fullMask x.tm.width ∧ diff ≠ 0 then
    .next (takeTrap s x.t x.g { trapAt x 0x35 with aux := [(0x080, 8, diff.toNat)] })
  else
    match tmmaRefusal s x fw dh ah bh p q with
    | some code => .next (trapWhole s x code)
    | none => tileGo s x e (.tmma fw) dh ah bh p.toNat

/-- TMMA, pair form: no post. -/
def execTmmaPair (e : Bool) (d a b : RegNo) (s : State) : Out :=
  issue s (.tmmaPair e d a b) (fun x => tmmaGo s x e d a b 0 0)

/-- TMMA, quad form: S[a + 2] holds the post specification (R99). -/
def execTmmaQuad (e : Bool) (d a b : RegNo) (s : State) : Out :=
  issue s (.tmmaQuad e d a b) (fun x => tmmaGo s x e d a b (x.gr.getS (a.toNat + 2)) (x.gr.getS (a.toNat + 3)))

/-- TZERO (R163). -/
def execTzero (e : Bool) (d : RegNo) (s : State) : Out :=
  issue s (.tzero e d) (fun x =>
    let dh := x.gr.getS d.toNat
    if !ownHandle x.tm dh 2 then .next (trapWhole s x 0x33)
    else if pastQuota s x.t x.tm dh (hOff dh + 16384) then .next (trapWhole s x 0x31)
    else tileGo s x e .tzero dh 0 0 0)

/-- TSTAT (R165): the lanes of the effective mask; with none it makes no access (R337). -/
def execTstat (e : Bool) (d a : RegNo) (s : State) : Out :=
  issue s (.tstat e d a) (fun x =>
    let h := x.gr.getS a.toNat
    let t := gmrType x.gr.gmr
    if x.tm.width ≠ 64 then .next (trapWhole s x 0x36)
    else if !isFlt t then .next (trapWhole s x 0x08)
    else if !ownHandle x.tm h 2 then .next (trapWhole s x 0x33)
    else if pastQuota s x.t x.tm h (hOff h + accBytes t) then .next (trapWhole s x 0x31)
    else if x.gr.emask x.tm.width = 0 then doneWith s x e id
    else tileGo s x e (.tstat t (x.gr.emask x.tm.width) d.toNat) h 0 0 0)

/-- The first refusal of TCVT and TQUANT before the hazard (R166); `blocks` is TQUANT. -/
def cvtRefusal (s : State) (x : Site) (dh ah c : Word) (blocks : Bool) : Option Nat :=
  if !(fieldOf c 31 24 == 0 && fieldOf c 15 10 == 0 && postOk (cvPost c) && (cvSrc c).isSome && ownHandle x.tm dh 1
      && ownHandle x.tm ah 2) then some 0x33
  else if !(match cvFmt c with | some t => t.isBlock == blocks | none => false) || (blocks && cvT c) then some 0x34
  else if postRefused x.tm x.gr.role (cvPost c) then some 0x37
  else if pastQuota s x.t x.tm dh (hOff dh + tileBytes ((cvFmt c).getD (.plain .bf16)) 64 (cvT c))
      || pastQuota s x.t x.tm ah (hOff ah + accBytes ((cvSrc c).getD .fp32)) then some 0x31
  else none

def cvtGo (s : State) (x : Site) (e : Bool) (d a b : RegNo) (blocks : Bool) : Out :=
  let dh := x.gr.getS d.toNat
  let ah := x.gr.getS a.toNat
  let c := x.gr.getS b.toNat
  match cvtRefusal s x dh ah c blocks with
  | some code => .next (trapWhole s x code)
  | none => tileGo s x e (if blocks then .tquant c else .tcvt c) dh ah 0 (cvPost c)

def execTcvt (e : Bool) (d a b : RegNo) (s : State) : Out := issue s (.tcvt e d a b) (fun x => cvtGo s x e d a b false)
def execTquant (e : Bool) (d a b : RegNo) (s : State) : Out := issue s (.tquant e d a b) (fun x => cvtGo s x e d a b true)

/-! ### TRD and TWR -/

/-- The CB byte of lane l and member m (R164). -/
def trdAddr (x : Site) (h : Word) (off l m : Nat) : Nat := hOff h + off + 4 * (m * x.tm.width + l)

/-- The cause of a lane, in the order of R164: extent, misalignment, permission. -/
def trdCause (x : Site) (h : Word) (off n l : Nat) : Option Nat :=
  if (x.tm.region 2).quota < trdAddr x h off l (n - 1) + 4 then some 2
  else if off % 4 ≠ 0 then some 3
  else if hBuf h ≠ 2 ∨ isRemote x.tm h then some 4
  else none

/-- The words of the good lanes, one access each. -/
def trdAccesses (x : Site) (h : Word) (off n : Nat) (good : List Nat) (data : Nat → Nat → List Word) : List Acc :=
  good.flatMap (fun l => (span 0 n).map (fun m =>
    ⟨l, m, trdAddr x h off l m, ⟨3, x.t, trdAddr x h off l m⟩, data l m, false, 3, []⟩))

/-- The lanes that record a cause: the address is that of the first word. A lane with a register in error records 6 unless it meets a
cause of higher priority (R82). -/
def trdBad (x : Site) (h : Word) (off n : Nat) : List BadLane :=
  (x.lanes.filterMap (fun l => (trdCause x h off n l).map (fun c => ⟨l, c, trdAddr x h off l 0, false⟩)))
    ++ (lanesOf x.errs).map (fun l => match trdCause x h off n l with
      | some c => ⟨l, c, trdAddr x h off l 0, false⟩
      | none => ⟨l, 6, 0, false⟩)

/-- Shared by TRD (a load) and TWR (a store): the words of the good lanes go in flight. With no lane there is no access. That
only the good lanes' bytes stand in the hazard check, as R360 has it for LDB, is the model's choice (log entry 81). -/
def trdGo (s : State) (x : Site) (e : Bool) (kind : OpKind) (n : Nat) (d a b : RegNo) : Out :=
  let h := x.gr.getS a.toNat
  let off := (x.gr.getS b.toNat).toNat
  let wr := kind == .store
  if !handleOk h then .next (trapWhole s x 0x33)
  else if x.lanes.isEmpty ∧ x.errs = 0 then doneWith s x e id
  else if atLimit x.gr (!wr) then .next s
  else
    let good := x.lanes.filter (fun l => (trdCause x h off n l).isNone)
    let accs := trdAccesses x h off n good (fun l m => if wr then [x.gr.getV (d.toNat + m) l] else [])
    let spans : List Span := accs.flatMap (fun c => spanOf s (some x.t) 2 c.loc.addr (c.loc.addr + 4) wr)
    if hazard s x.tm spans then .next (trapWhole s x 0x32)
    else
      launchOp s x e
        { kind := kind, typed := true, dst := ⟨true, d.toNat, n⟩, words := 1, record := recordAt x.gr a.toNat,
          off := fun _ => 0, data := fun _ => [] } accs (trdBad x h off n)

/-- TRD: V[d + m][l] takes the word at its CB byte. -/
def execTrd (e : Bool) (w : WSize) (d a b : RegNo) (s : State) : Out :=
  issue s (.trd e w d a b) (fun x => trdGo s x e .load (wsizeN w) d a b)

/-- TWR: the word at its CB byte takes V[d + m][l]. -/
def execTwr (e : Bool) (w : WSize) (d a b : RegNo) (s : State) : Out :=
  issue s (.twr e w d a b) (fun x => trdGo s x e .store (wsizeN w) d a b)

end Sys2Proof.Machine
end

