-- ==== Sys2Proof/Machine/Sync.lean ====
section
/-! DEFINITION. Barriers, rings, WAIT, DRAIN and fences (R52 to R60, R149, R207, R208, R345, R346, R353, R355, R378 to R380,
R414, R415). Arrivals and fences are releases: they take effect at RELEASE_COMPLETE. -/
namespace Sys2Proof.Machine

/-- A wait that returns: its Piccolo entry, checked as LDACQ at TEAM scope, and the timestamps and homes it acquires; a join's entry
carries the largest time of the writes that it joins. A full log makes it wait. -/
def returnWait (s : State) (x : Site) (ts : VTime) (homes : List Nat) (joined : Option EvTime) (f : Group → Group) : Out :=
  if logFree (s.core x.tm.core) = 0 then .next s
  else
    let s := (logNow s x (.other false) .team joined).onSite x (fun y => { y with nextSeq := y.nextSeq + 1 })
    doneWith s x true (fun y => f { y with lastVT := max y.lastVT ts, homes := unionNat homes y.homes })

/-- The barrier of a number, when the group takes part in it. -/
def barrierOf (x : Site) (n : Nat) : Option Barrier :=
  match alook x.tm.barriers n with
  | some b => if participates b x.gr.role then some b else none
  | none => none

/-- BARARV: Arrived and Phase0 are set at issue; the arrival is made when the release completes (R346). -/
def execBararv (e : Bool) (n : BitVec 4) (s : State) : Out :=
  issue s (.bararv e n) (fun x =>
    let k := n.toNat
    match barrierOf x k with
    | none => .next (trapWhole s x 0x38)
    | some b =>
      if x.gr.arrived.contains k then .next (trapWhole s x 0x38)
      else if logFree (s.core x.tm.core) = 0 then .next s
      else
        let s := holdRelease s x (.bararv k) .team [] (some (.other true, []))
        doneWith s x e (fun y => { y with
          arrived := insertNat k y.arrived,
          phase0 := if b.phase then insertNat k y.phase0 else y.phase0.filter (· != k) }))

/-- BARWAIT: waits for the phase to change, then acquires (R60). -/
def execBarwait (n : BitVec 4) (s : State) : Out :=
  issue s (.barwait n) (fun x =>
    let k := n.toNat
    match barrierOf x k with
    | none => .next (trapWhole s x 0x38)
    | some b =>
      if !x.gr.arrived.contains k then .next (trapWhole s x 0x38)
      else if b.phase = x.gr.phase0.contains k then .next (waitHere s x.t x.g (.bar k))
      else returnWait s x b.ts [] none (fun y => { y with arrived := y.arrived.filter (· != k), wrote := unionNat b.wrote y.wrote }))

/-- RINGPUT's checks and reservation (R379). -/
def execRingput (e : Bool) (g : BitVec 4) (r : BitVec 3) (s : State) : Out :=
  issue s (.ringput e g r) (fun x =>
    match x.tm.stage? r.toNat g.toNat with
    | none => .next (trapWhole s x 0x37)
    | some (ring, v) =>
      let owns := if v.p then isConsumer ring.desc x.gr.role else isProducer ring.desc x.gr.role
      let n := if v.p then fieldOf ring.desc 19 14 else fieldOf ring.desc 13 8
      if !owns || decide (n + 1 ≤ v.a + v.rv) then .next (trapWhole s x 0x37)
      else if logFree (s.core x.tm.core) = 0 then .next s
      else
        let s := holdRelease s x (.ringput r.toNat g.toNat) .team [] (some (.other true, []))
        let s := s.updTeam x.t (fun tm => tm.putStage r.toNat g.toNat { v with rv := v.rv + 1 })
        doneWith s x e id)

/-- RINGGET: waits until the stage is the group's side's, then acquires what its arrivals carried (R57, R210). -/
def execRingget (g : BitVec 4) (r : BitVec 3) (s : State) : Out :=
  issue s (.ringget g r) (fun x =>
    match x.tm.stage? r.toNat g.toNat with
    | none => .next (trapWhole s x 0x37)
    | some (ring, v) =>
      if !(isProducer ring.desc x.gr.role || isConsumer ring.desc x.gr.role) then .next (trapWhole s x 0x37)
      else if v.p = isConsumer ring.desc x.gr.role then
        returnWait s x v.ts v.homes none (fun y => { y with wrote := unionNat v.wrote y.wrote })
      else .next (waitHere s x.t x.g (.ring r.toNat g.toNat)))

/-- Completed engine operations are joined, with an entry in Piccolo's log when one is due. -/
def joinDone (s : State) (x : Site) (ops : List DoneOp) (entry : Bool) : Out :=
  if entry then returnWait s x 0 [] (joinedTime ops) (fun y => y.takeDone ops)
  else doneWith s x true (fun y => y.takeDone ops)

/-- WAIT (R414, R415): it joins every completed operation of the group; the join entry is due when no earlier one covered one of
them. -/
def execWait (ld st : BitVec 5) (cp : BitVec 6) (tm : BitVec 4) (s : State) : Out :=
  issue s (.wait ld st cp tm) (fun x =>
    if x.gr.ldCount ≤ ld.toNat ∧ x.gr.stCount ≤ st.toNat ∧ x.gr.cp ≤ cp.toNat ∧ x.gr.tm ≤ tm.toNat then
      joinDone s x x.gr.done (x.gr.done.any (fun o => !o.covered))
    else .next (waitHere s x.t x.g (.limits ld.toNat st.toNat cp.toNat tm.toNat)))

/-- The completed copies of a team on a path that issued before a DRAIN (Table 9-3). -/
def Team.drained (tm : Team) (p : DrainPath) (before : Nat) : List DoneOp :=
  tm.groups.flatMap (fun e => e.2.done.filter (fun o => o.paths.contains p && decide (o.id < before)))

/-- DRAIN (R149, R353): waits for the copies of the path that the core had in flight when it issued, and joins those of its team that
had issued by then, with a join entry when there are such. -/
def execDrain (p : DrainPath) (s : State) : Out :=
  issue s (.drain p) (fun x =>
    let flight := (s.core x.tm.core).copies.filter (fun e => onPath e.2.record p)
    let (ids, before) : List Nat × Nat := match x.gr.status with
      | .waiting (.drain _ ids before) => (ids, before)
      | _ => (flight.map (fun (e : Nat × Copy) => e.2.id), s.newId)
    if flight.any (fun e => ids.contains e.2.id) then .next (waitHere s x.t x.g (.drain p ids before))
    else joinDone s x (x.tm.drained p before) (!(x.tm.drained p before).isEmpty))

/-- FENCE (R207): a release and an acquire for which the group waits. -/
def execFence (e : Bool) (c : Scope) (s : State) : Out :=
  issue s (.fence e c) (fun x =>
    if logFree (s.core x.tm.core) = 0 then .next s
    else
      let id := s.newId
      .next (waitHere (holdRelease s x .fence c [] (some (.fence, []))) x.t x.g (.fence id)))

/-- The groups of a core with their places in program order: what a FENCESC drains. -/
def drainList (s : State) (core : Nat) : List (Nat × Nat × Nat) :=
  (teamsOn s core).flatMap (fun e => e.2.groups.map (fun h => (e.1, h.1, h.2.nextSeq)))

/-- FENCESC, steps 1 and 2 of R208; step 3 is the next TICK's. -/
def execFencesc (s : State) : Out :=
  issue s .fencesc (fun x =>
    if logFree (s.core x.tm.core) = 0 then .next s
    else
      let id := s.newId
      let dr := drainList s x.tm.core
      let s := holdRelease s x .fencesc .system [] (some (.fence, []))
      let s := { s with held := s.held.map (fun h => if h.1 = id then (h.1, { h.2 with drain := dr }) else h) }
      .next (waitHere s x.t x.g (.fence id)))

end Sys2Proof.Machine
end

