-- ==== Sys2Proof/Machine/Launch.lean ====
section
/-! DEFINITION. Kernel headers and launch records (R33, R53, R58, R290), demands and partition limits (R31, R35, R50, R295,
R296), SPAWN (R291) and CWAIT (R294). -/
namespace Sys2Proof.Machine

/-! ### Kernel header -/

def wordsOf (s : State) (key n : Nat) : List Word := (span 0 n).map (fun i => s.read32 (key + 4 * i))

/-- Table 2-6; a ring at or above the ring-count quota is wholly zero. -/
def ringDescOk (nrings n : Nat) (d : Word) : Bool :=
  if d.getLsbD 20 then
    decide (n < nrings) && fieldOf d 31 21 == 0 && fieldOf d 7 6 != 3 && fieldOf d 5 4 != 3 && fieldOf d 7 6 != fieldOf d 5 4
      && fieldOf d 3 0 != 0
  else d == 0

/-- Table 2-8; `counts` are the groups of each role. -/
def barrierDescOk (counts : List Nat) (d : Word) : Bool :=
  if d.getLsbD 3 then fieldOf d 31 4 == 0 && (span 0 3).any (fun r => d.getLsbD r && counts.getD r 0 != 0) else d == 0

/-- R33: a header of 32 words. -/
def headerOk (h : List Word) (nrings : Nat) (counts : List Nat) : Bool :=
  (span 0 8).all (fun n => ringDescOk nrings n (h.getD n 0)) && (span 8 16).all (fun n => barrierDescOk counts (h.getD n 0))
    && (span 24 8).all (fun n => h.getD n 0 == 0)

/-! ### Launch records (Table 13-4) -/

def rCode (r : Rec) : Nat := (pairOf (rWord r 0) (rWord r 1)).toNat
def rTeams (r : Rec) : Nat := (rWord r 2).toNat
def rGroups (r : Rec) : Nat := fieldOf (rWord r 3) 6 0
def rWidth (r : Rec) : Nat := match fieldOf (rWord r 3) 9 8 with | 0 => 16 | 1 => 32 | _ => 64
def rCoop (r : Rec) : Bool := (rWord r 3).getLsbD 12
def rCounts (r : Rec) : List Nat := [fieldOf (rWord r 4) 6 0, fieldOf (rWord r 4) 14 8, fieldOf (rWord r 4) 22 16]
def rBudgets (r : Rec) : List Nat := [fieldOf (rWord r 5) 4 0, fieldOf (rWord r 5) 12 8, fieldOf (rWord r 5) 20 16]
def rQuotas (r : Rec) : List Nat := [(rWord r 6).toNat, (rWord r 7).toNat, (rWord r 8).toNat]
def rSlots (r : Rec) : Nat := fieldOf (rWord r 9) 6 0
def rRings (r : Rec) : Nat := fieldOf (rWord r 9) 11 8
def rScope (r : Rec) : Scope := (scopeOfCode (fieldOf (rWord r 9) 14 12)).getD .device
def rArg (r : Rec) : DWord := pairOf (rWord r 10) (rWord r 11)
def rCnt (r : Rec) : Nat := (pairOf (rWord r 12) (rWord r 13)).toNat

/-- Table 13-4 and Table 2-2. -/
def recordOk (r : Rec) : Bool :=
  rCode r % 128 == 0 && decide (rCode r < 2 ^ 55) && decide (1 ≤ rTeams r ∧ rTeams r < 2 ^ 31)
    && decide (1 ≤ rGroups r ∧ rGroups r ≤ 64) && fieldOf (rWord r 3) 9 8 != 3 && fieldOf (rWord r 3) 7 7 == 0
    && fieldOf (rWord r 3) 11 10 == 0 && fieldOf (rWord r 3) 15 13 == 0 && fieldOf (rWord r 3) 31 22 == 0
    && fieldOf (rWord r 4) 7 7 == 0 && fieldOf (rWord r 4) 15 15 == 0 && fieldOf (rWord r 4) 31 23 == 0
    && sumNat (rCounts r) == rGroups r
    && fieldOf (rWord r 5) 7 5 == 0 && fieldOf (rWord r 5) 15 13 == 0 && fieldOf (rWord r 5) 31 21 == 0
    && (rBudgets r).all (fun b => decide (b ≤ 16)) && (rQuotas r).all (fun q => q % 256 == 0 && decide (q ≤ 0x20000))
    && fieldOf (rWord r 9) 7 7 == 0 && fieldOf (rWord r 9) 31 15 == 0 && decide (rSlots r ≤ 64) && decide (rRings r ≤ 8)
    && (fieldOf (rWord r 9) 14 12 == 3 || fieldOf (rWord r 9) 14 12 == 4)
    && rCnt r % 4 == 0 && rWord r 14 == 0 && rWord r 15 == 0
    && decide (rGroups r * rWidth r ≤ 1024)

/-! ### Demands (R295, R296) -/

/-- A demand, or a limit: slots, lane-registers in units of 128, WB, AB and CB in KiB, copy slots. -/
structure Demand where
  slots : Nat
  vreg : Nat
  bufs : List Nat
  cslot : Nat
  deriving DecidableEq, Repr

def Demand.zero : Demand := ⟨0, 0, [0, 0, 0], 0⟩
def Demand.add (a b : Demand) : Demand :=
  ⟨a.slots + b.slots, a.vreg + b.vreg, (span 0 3).map (fun i => a.bufs.getD i 0 + b.bufs.getD i 0), a.cslot + b.cslot⟩
def Demand.le (a b : Demand) : Bool :=
  decide (a.slots ≤ b.slots ∧ a.vreg ≤ b.vreg ∧ a.cslot ≤ b.cslot) && (span 0 3).all (fun i => decide (a.bufs.getD i 0 ≤ b.bufs.getD i 0))

def demandFrom (width : Nat) (counts budgets quotas : List Nat) (cslot : Nat) : Demand :=
  { slots := sumNat counts,
    vreg := ceilDiv (sumNat ((span 0 3).map (fun i => counts.getD i 0 * width * 8 * budgets.getD i 0))) 128,
    bufs := quotas.map (fun q => 2 * ceilDiv q 2048), cslot := cslot }

def recDemand (r : Rec) : Demand := demandFrom (rWidth r) (rCounts r) (rBudgets r) (rQuotas r) (rSlots r)
def Team.demand (x : Team) : Demand := demandFrom x.width [x.nCopy, x.nMatrix, x.nVector] x.budgets x.quotas x.cslots

/-- PLIM (Table 13-5). -/
def plimDemand (v : DWord) : Demand :=
  ⟨field64 v 6 0, field64 v 15 7, [field64 v 23 16, field64 v 31 24, field64 v 39 32], field64 v 46 40⟩
def plimRings (v : DWord) : Nat := field64 v 50 47

/-- What a whole core has (R13, R14). -/
def coreDemand : Demand := ⟨64, 512, [128, 128, 128], 64⟩

def usable (s : State) (p : Nat) : List (Nat × DWord) := (s.part p).plim.filter (fun e => field64 e.2 6 0 != 0)

/-- How many teams of a demand a limit holds at once, up to a bound. -/
def copiesIn (lim d : Demand) : Nat → Nat
  | 0 => 0
  | n + 1 =>
    let k := copiesIn lim d n
    if k < n then k
    else
      let m := n + 1
      let all : Demand := ⟨m * d.slots, m * d.vreg, d.bufs.map (m * ·), m * d.cslot⟩
      if all.le lim && all.le coreDemand then n + 1 else n

/-- The teams of a record that a core could hold when idle (at most 64, one group slot each). -/
def wholeOn (r : Rec) (v : DWord) : Nat := if rRings r ≤ plimRings v then copiesIn (plimDemand v) (recDemand r) 64 else 0

/-- Some usable core can ever hold a team; a cooperative grid needs room for all of its teams at once (R50). -/
def demandOk (s : State) (p : Nat) (r : Rec) : Bool :=
  let n := sumNat ((usable s p).map (fun e => wholeOn r e.2))
  if rCoop r then decide (rTeams r ≤ n) else decide (1 ≤ n)

/-! ### SPAWN -/

/-- The header at a record's CODE, when SPAWN accepts record and header. -/
def spawnCheck (s : State) (x : Site) (r : Rec) : Option (List Word) :=
  if !recordOk r then none
  else
    match feAccess s x.tm.core x.tm.part (rCode r) 128 128 [.rd] false with
    | .bad _ _ => none
    | .ok key =>
      let h := wordsOf s key 32
      if headerOk h (rRings r) (rCounts r) && demandOk s x.tm.part r then some h else none

/-- SPAWN: a full pending-launch queue or a full counter is a blocking point, at which it keeps the record and header that it has read; a full
log makes it wait at its port. Another group that has waited longer goes first. -/
def execSpawn (a : RegNo) (s : State) : Out :=
  issue s (.spawn a) (fun x =>
    let r := x.gr.getSn a.toNat 16
    match spawnCheck s x r with
    | none => .next (trapWhole s x 0x30)
    | some h =>
      if Config.pendingEntries ≤ x.tm.pendq.length ∨ counterFree s x.tm.launch = false ∨ (spawnWaiters x.tm).isEmpty = false then
        .next (waitHere s.bumpId x.t x.g (.spawn s.newId r h))
      else if logFree (s.core x.tm.core) = 0 then .next s
      else .next (finish (reserveSpawn s x r h) x.t x.g true))

/-! ### CWAIT -/

/-- A read of CWAIT's counter (R294). -/
inductive CRead where
  | bad (cause : Nat) (ats : Bool)
  | short (key : Nat)
  | reached (key : Nat)
  deriving DecidableEq, Repr

def cwaitRead (s : State) (x : Site) (va : Nat) (target : Word) : CRead :=
  if va % 4 ≠ 0 then .bad 3 false
  else if 2 ^ 55 ≤ va then .bad 5 false
  else
    match translate s x.tm.core x.tm.part va [.rd] with
    | .cause c ats => .bad c ats
    | .ok key =>
      if dataBad s key x.gr.super then .bad 6 false
      else if target.toNat ≤ (s.read32 key).toNat then .reached key
      else .short key

/-- CWAIT returns: an acquire at DEVICE scope of what the counter's word carries, logged as LDACQ. -/
def cwaitReturn (s : State) (x : Site) (key : Nat) : State :=
  let s := logAdd s x.tm.core { entryAt x .ldacq .device (some (lineOf key)) with
    time := some ⟨s.now (homeAgent s key), some (homeAgent s key), false⟩ }
  let s := acquireMarks s x.t x.g x.gr.nextSeq x.tm.core (marksSeen s key .device x.t x.g x.tm.core)
  s.onSite x (fun y => { y with nextSeq := y.nextSeq + 1 })

/-- A write of the group's own that is still pending on the line of an address. -/
def ownPending (x : Site) (key : Nat) : Bool :=
  x.gr.ops.any (fun o => o.kind != .load && o.accs.any (fun a => !a.done && a.loc.space == 0 && lineOf a.loc.addr == lineOf key))

/-- CWAIT reads at issue; while it waits, WAIT_VALUE_REREAD reads again. -/
def execCwait (a b : RegNo) (s : State) : Out :=
  issue s (.cwait a b) (fun x =>
    let va := (x.gr.getPair a.toNat).toNat
    let target := x.gr.getS b.toNat
    match cwaitRead s x va target with
    | .bad c ats => .next (trapScalar (logWalk s x.tm.core x.tm.part va) x c va ats)
    | .short key => .next (waitHere s x.t x.g (.cwait (x.gr.getPair a.toNat) target key))
    | .reached key =>
      if ownPending x key ∨ logFree (s.core x.tm.core) = 0 then .next s
      else .next (finish (cwaitReturn s x key) x.t x.g true))

end Sys2Proof.Machine
end

