-- ==== Sys2Proof/Machine/Waits.lean ====
section
/-! DEFINITION. Waiting: the reading of awaited values (R294), blocking points (R51, R298), and the cycles that pass (R87). -/
namespace Sys2Proof.Machine

/-! ### Reading an awaited value again (R294) -/

/-- What is watched for a wait: the place where its value was last read, which stays watched when its leaf goes, and the place to which
its address translates by now. -/
def watched (s : State) (w : WaitAt) (core part va key : Nat) : List (WaitAt × Nat) :=
  (w, key) :: (match translate s core part va [.rd] with
    | .ok k => if k = key then [] else [(w, k)]
    | .cause _ _ => [])

/-- The memory keys of the counters and values that groups and queues await. -/
def waitKeys (s : State) : List (WaitAt × Nat) :=
  s.teams.flatMap (fun e => e.2.groups.flatMap (fun g => match g.2.status with
    | .waiting (.cwait va _ key) =>
      watched s (.group e.1 g.1) (if e.2.status = .resident then e.2.core else feCore) e.2.part va.toNat key
    | _ => []))
  ++ s.parts.flatMap (fun e => e.2.queues.flatMap (fun q => match q.2.wait with
    | some w => watched s (.queue e.1 q.1) feCore e.1 (pairOf (w.getD 6 0) (w.getD 7 0)).toNat q.2.watch
    | none => []))

/-- The waits on some keys are due: the front end reads them next. -/
def makeDue (s : State) (which : Nat → Bool) : State :=
  let ws := (((waitKeys s).filter (fun w => which w.2)).map (·.1)).eraseDups
  { s with due := s.due ++ ws.filter (fun w => !s.due.contains w), agenda := ws.map (fun w => .event (.waitValueReread w)) ++ s.agenda }

/-- The device does not see other agents' writes to a host line or an HDM-H range. -/
def unseen (s : State) (key : Nat) : Bool := targetOf key == .host || uncachedPool s key

/-- What a move leaves behind it: the counters whose lines it wrote are read again. -/
def noteWritten (before after : State) : State :=
  if (waitKeys after).isEmpty then after
  else makeDue after (fun key => before.bytes (128 * lineOf key) 128 != after.bytes (128 * lineOf key) 128)

/-- A wait that may be read again now. -/
def mayReread (s : State) (w : WaitAt) : Bool :=
  s.due.contains w || (waitKeys s).any (fun k => k.1 == w && unseen s k.2)
/-! ### Blocking points -/

/-- R51. -/
def Wait.blocking : Wait → Bool
  | .bar _ | .ring _ _ | .cwait _ _ _ | .spawn _ _ _ | .qrecv | .loadStall | .escalated _ => true
  | _ => false

/-- The group waits at a blocking point for what has not come about. -/
def blockedAt (s : State) (x : Site) : Bool :=
  match x.gr.status with
  | .waiting w => w.blocking && !waitOver s x w
  | _ => false

/-- Halted, or with a handler that has not begun (R245). While another group of its team has its handler, so is a group that waits with
its run ended: it can issue nothing until that handler returns. -/
def isHalted (s : State) (x : Site) : Bool :=
  match x.gr.status with
  | .halted | .pendingHandler => true
  | .waiting _ => x.tm.handler.isSome && x.tm.handler != some x.g && !holdsPort s x.tm.core x.t x.g
  | _ => false

/-- A SPAWN of the team is held for clearance: the team is at no blocking point (Table 13-6). -/
def spawnHeld (s : State) (t : Nat) : Bool :=
  s.held.any (fun h => h.2.team == t && match h.2.kind with | .spawn _ => true | _ => false)

/-- All of a team's live groups that are not halted wait at blocking points. -/
def teamBlocked (s : State) (t : Nat) (tm : Team) : Bool :=
  let up := (tm.live.map (fun e => (⟨t, e.1, tm, e.2, 0⟩ : Site))).filter (fun x => !isHalted s x)
  !up.isEmpty && !spawnHeld s t && up.all (fun x => blockedAt s x && !trapDue x.gr)

/-- Every live group waits at a blocking point (Table 14-4, TBLOCK; PERF event 8). -/
def allBlocked (s : State) (t : Nat) (tm : Team) : Bool :=
  !spawnHeld s t && tm.live.all (fun e => blockedAt s ⟨t, e.1, tm, e.2, 0⟩)

/-! ### Cycles (R87; log entry 5) -/

/-- A PERF register counts cycles: events 1, 8 and 9. -/
def countsCycles (r : DWord) : Bool := let e := field64 r 63 56; e == 1 || e == 8 || e == 9

/-- A release of the team is held by the checkers: what precedes it is performed. -/
def heldForClearance (s : State) (t : Nat) : Bool :=
  s.held.any (fun h => h.2.team == t && priorDone s h.1 h.2 && drained s h.2)

/-- n cycles pass for a resident team in this state. -/
def teamCycles (s : State) (n : Nat) (e : Nat × Team) : Nat × Team :=
  if e.2.status != .resident || !e.2.perf.any (fun p => countsCycles p.2) then e
  else
    let x := e.2.count 1 n
    let x := if allBlocked s e.1 e.2 then x.count 8 n else x
    (e.1, if heldForClearance s e.1 then x.count 9 n else x)

/-- The tick's cycles pass until a given one. -/
def State.cyclesTo (s : State) (c : Nat) : State :=
  if c ≤ s.cycle then s else { s with teams := s.teams.map (teamCycles s (c - s.cycle)), cycle := c }

/-- Some cycles of the tick pass, how many is free (R436). -/
def State.someCycles (s : State) : State :=
  ({ s with fresh := s.fresh + 1 }).cyclesTo (s.cycle + (Config.perfCycles s.fresh).toNat % (128 - min 127 s.cycle))

/-- What passes between one move and the next, where a counter of cycles sees it. -/
def passCycles (s : State) : State :=
  if s.teams.any (fun e => e.2.status == .resident && e.2.perf.any (fun p => countsCycles p.2)) then s.someCycles else s

end Sys2Proof.Machine
end

