-- ==== Sys2Proof/Machine/System.lean ====
section
/-! DEFINITION. System registers (R74 to R87, R371, R372, R416, R417), PGMAP, TINV, CSLOAD and CSBIND at issue (R278, R279,
R364 to R367, R396, R397). The last four's effects beyond their fences stand in Release.lean. -/
namespace Sys2Proof.Machine

/-! ### RDSYS -/

/-- COREID (Table 3-6). -/
def coreId (tm : Team) : Nat :=
  tm.core + tm.core / 384 * 2 ^ 11 + tm.core / 192 % 2 * 2 ^ 13 + tm.core % 192 * 2 ^ 14 + tm.part * 2 ^ 22

/-- GRIDID: the number that the front end gave the team's grid. -/
def gridIdOf (s : State) (tm : Team) : Word :=
  match alook s.grids tm.grid with
  | some g => g.gridid
  | none => BitVec.ofNat 32 tm.grid

/-- XFAULT as it reads: zero while CHKMODE.XFEN = 0 (R85). -/
def xfaultRead (s : State) (x : Site) : Word := if (s.part x.tm.part).xfen then x.gr.xfault else 0

def Team.perfReg (tm : Team) (n : Nat) : DWord := (alook tm.perf n).getD 0

/-- The words of a system register, lowest first (R372); none for an unassigned number. LANEID is read lane by lane. -/
def sysRead (s : State) (x : Site) (n : Nat) : Option (List Word) :=
  let one := fun (v : Nat) => some [BitVec.ofNat 32 v]
  let two := fun (v : DWord) => some [loWord v, hiWord v]
  match n with
  | 0x001 => one x.g
  | 0x002 => one x.tm.teamIdx
  | 0x003 => some [gridIdOf s x.tm]
  | 0x004 => one (coreId x.tm)
  | 0x005 => two (BitVec.ofNat 64 (s.tick % 2 ^ 48))
  | 0x006 => one x.tm.flags.toNat
  | 0x007 => some [x.gr.gmr]
  | 0x010 => some [x.gr.tcause]
  | 0x011 => some ((span 0 8).map (fun i => BitVec.ofNat 32 (tlanesNat x.gr.tlanes / 2 ^ (32 * i))))
  | 0x012 => two (s.part x.tm.part).tvbase
  | 0x013 => two (s.part x.tm.part).ftpool
  | 0x014 => some [xfaultRead s x]
  | 0x015 => some [(s.part x.tm.part).chkmode]
  | _ => if 0x020 ≤ n ∧ n ≤ 0x027 then two (x.tm.perfReg (n - 0x020)) else none

/-- Registers that only SUPER may read (Table 3-5). -/
def superRead (n : Nat) : Bool := n == 0x010 || n == 0x011 || n == 0x012 || n == 0x013

/-- RDSYS: LANEID goes to the lanes of the effective mask, every other register to S[d] upward. -/
def execRdsys (e : Bool) (w : WSize) (d : RegNo) (n : BitVec 10) (s : State) : Out :=
  issue s (.rdsys e w d n) (fun x =>
    if n = 0 then doneWith s x e (fun y => y.setVs d.toNat (x.lanes.map (fun l => (l, BitVec.ofNat 32 l))))
    else
      match sysRead s x n.toNat with
      | none => .next (trapWhole s x 0x02)
      | some ws =>
        if superRead n.toNat ∧ x.gr.super = false then .next (trapWhole s x 0x06)
        else doneWith s x e (fun y => y.setSn d.toNat ws))

/-! ### WRSYS -/

/-- Values that XFAULT refuses (Table 18-10). -/
def xfaultBad (v : Word) : Bool :=
  fieldOf v 31 17 != 0 || fieldOf v 7 3 != 0 || decide (2 ≤ fieldOf v 2 1)
    || (v.getLsbD 0 && (fieldOf v 2 1 == 0 || fieldOf v 15 8 == 0))

/-- XFAULT after a write: ARM, KIND and NTH as given, FIRED cleared by a one (Table 18-10). -/
def xfaultWrite (old v : Word) : Word :=
  BitVec.ofNat 32 (fieldOf v 15 0 + (if old.getLsbD 16 && !v.getLsbD 16 then 2 ^ 16 else 0))

/-- Values that a PERF register refuses. -/
def perfBad (v : DWord) : Bool := field64 v 55 48 != 0 || decide (10 ≤ field64 v 63 56)

/-- WRSYS (R416, R417): it takes effect before the group's next instruction; a counter of cycles begins at some cycle of the tick. A write with ARM = 1 counts stores afresh. -/
def execWrsys (e : Bool) (w : WSize) (d : RegNo) (n : BitVec 10) (s : State) : Out :=
  issue s (.wrsys e w d n) (fun x =>
    let v := x.gr.getS d.toNat
    let p := x.gr.getPair d.toNat
    if n = 0x006 then
      if fieldOf v 31 7 ≠ 0 then .next (trapWhole s x 0x09)
      else
        let t := s.updTeam x.t (fun tm => { tm with flags := tm.flags &&& ~~~(v.setWidth 7) })
        .next (finish t x.t x.g e)
    else if n = 0x014 then
      if (s.part x.tm.part).xfen = false then .next (trapWhole s x 0x06)
      else if xfaultBad v then .next (trapWhole s x 0x09)
      else doneWith s x e (fun y =>
        { y with xfault := xfaultWrite y.xfault v, xcount := if v.getLsbD 0 then 0 else y.xcount })
    else if 0x020 ≤ n.toNat ∧ n.toNat ≤ 0x027 then
      if perfBad p then .next (trapWhole s x 0x09)
      else
        let t := finish (if countsCycles p then s.someCycles else s) x.t x.g e
        .next (t.updTeam x.t (fun tm => { tm with perf := sput 0 tm.perf (n.toNat - 0x020) p }))
    else if (sysWidth n.toNat).isNone then .next (trapWhole s x 0x02)
    else .next (trapWhole s x 0x06))

/-! ### PGMAP, TINV, CSLOAD: the fence at issue -/

/-- A SUPER instruction that begins with FENCE DEVICE: its release is held, and the group waits at its place. With a full
log it waits and holds the port. -/
def superFence (s : State) (i : Instr) (holdPort : Bool) (kind : Site → RelKind) (w : Nat → Wait) (bad : Site → Option Nat) :
    Out :=
  issue s i (fun x =>
    if x.gr.super = false then .next (trapWhole s x 0x06)
    else match bad x with
      | some code => .next (trapWhole s x code)
      | none =>
        if logFree (s.core x.tm.core) = 0 then .next s
        else
          let id := s.newId
          let t := holdRelease s x (kind x) .device [] (some (.fence, []))
          .next (if holdPort then waitHolding t x.t x.g (w id) else waitHere t x.t x.g (w id)))

/-- PGMAP holds its port (R367). -/
def execPgmapPool (e : Bool) (d a : RegNo) (s : State) : Out :=
  superFence s (.pgmapPool e d a) true (fun x => .pgmapFence true (x.gr.getSn a.toNat 4) d.toNat e) .pgmapFence (fun _ => none)
def execPgmapMap (e : Bool) (d a : RegNo) (s : State) : Out :=
  superFence s (.pgmapMap e d a) true (fun x => .pgmapFence false (x.gr.getSn a.toNat 4) d.toNat e) .pgmapFence (fun _ => none)

/-- The request quad of TINV (Table 18-4): first page, number of pages, ALL; none when it breaks the table. -/
def tinvRequest (q : List Word) : Option (Nat × Nat × Bool) :=
  let v := (pairOf (q.getD 0 0) (q.getD 1 0)).toNat
  let page := bitsOf v 54 16
  let pages := fieldOf (q.getD 2 0) 15 0
  let all := (q.getD 3 0).getLsbD 0
  if bitsOf v 63 55 = 0 ∧ fieldOf (q.getD 2 0) 31 16 = 0 ∧ fieldOf (q.getD 3 0) 31 1 = 0 ∧ page + pages < 2 ^ 39
      ∧ (all = false ∨ (page = 0 ∧ pages = 0)) then some (page, pages + 1, all)
  else none

/-- TINV frees its port while it waits (R397). -/
def execTinv (e : Bool) (a : RegNo) (s : State) : Out :=
  superFence s (.tinv e a) false
    (fun x => let r := (tinvRequest (x.gr.getSn a.toNat 4)).getD (0, 1, false); .tinv r.1 r.2.1 r.2.2) .tinvFence
    (fun x => if (tinvRequest (x.gr.getSn a.toNat 4)).isNone then some 0x02 else none)

/-- CSLOAD holds its port (R278); its operands are read when it issues. -/
def execCsload (e : Bool) (a b : RegNo) (s : State) : Out :=
  superFence s (.csload e a b) true (fun x => .csload (x.gr.getPair a.toNat) (x.gr.getS b.toNat) e) .csload (fun _ => none)

/-- CSBIND (R279): the reference counts of R280 follow from the teams' binding tables. -/
def execCsbind (e : Bool) (q n : BitVec 4) (s : State) : Out :=
  issue s (.csbind e q n) (fun x =>
    if (alook (s.part x.tm.part).master q.toNat).isNone then .next (trapWhole s x 0x07)
    else
      let t := s.updTeam x.t (fun tm => { tm with bind := aput tm.bind n.toNat q.toNat })
      .next (finish t x.t x.g e))

end Sys2Proof.Machine
end

