-- ==== Sys2Proof/Machine/Visible.lean ====
section
/-! DEFINITION. The memory system's steps: LOAD_COMPLETE, WRITE_VISIBLE, REMOTE_ATOMIC, XFAULT_FIRE, COHERENCE_REQUEST,
REGION_MERGE, PROBE and BACK_INVALIDATION_SNOOP (R171, R178 to R183, R192, R199 to R204, R337, R341 to R343, R359, R386). -/
namespace Sys2Proof.Machine

/-! ### Permission -/

/-- The partition of a team. -/
def partOf (s : State) (t : Nat) : Nat := match s.team? t with | some x => x.part | none => 0

/-- The permission a core's own access needs on a cached line, counted as an L1 miss when it lacks it (PERF event 7). -/
def coreLine (s : State) (t core l : Nat) (write : Bool) : State :=
  let part := partOf s t
  if !cached s (128 * l) then s
  else
    let miss := !holdsLine s core l write
    let s := getLine s core part l write
    if miss then s.count t 7 1 else s

/-- A group's or copy's write through its core's L1: the permission, and the writer of the open interval (R239). -/
def writeLine (s : State) (t g core l : Nat) : State :=
  if cached s (128 * l) then noteAuthor (coreLine s t core l true) core l (t, g) else s

/-- Who supplies or stamps an access of a core to a line: the L1 that holds a cached line, as R204 has it (R178 names the home
slice for every write; log entry 65), else the line's home. -/
def lineAgent (s : State) (core l : Nat) : Nat := if cached s (128 * l) then core else homeAgent s (128 * l)

/-! ### Pending operations of a group -/

def findOp (s : State) (t g seq : Nat) : Option (Group × PendOp) :=
  match s.group? t g with
  | some y => (y.ops.find? (fun o => decide (o.seq = seq))).map (fun o => (y, o))
  | none => none

/-- Earlier operations of the group that have an access left on a line. -/
def earlierOn (y : Group) (seq : Nat) (l : Loc) : List PendOp :=
  y.ops.filter (fun p => decide (p.seq < seq) && p.accs.any (fun a => a.on l))

/-- The accesses of an operation on one line, still to be performed: those of two virtual lines that name it too, so that the order of
lanes of R171 holds between them (log entry 78). -/
def PendOp.todo (o : PendOp) (line : Nat) : List Acc := o.accs.filter (fun a => !a.done && a.loc.line == line)

def PendOp.finishLine (o : PendOp) (line : Nat) (late : List BadLane) : PendOp :=
  { o with accs := o.accs.map (fun a => if a.loc.line = line then { a with done := true } else a), late := o.late ++ late }

/-- Lanes of a list of accesses whose data is uncorrectable or whose line is quarantined when it is performed (R238). -/
def lateLanes (s : State) (o : PendOp) (as : List Acc) (store : Bool) : List BadLane :=
  (as.filter (fun a => a.loc.space == 0 && accessBad s a.loc.addr o.super store)).map (fun a => ⟨a.lane, 6, a.va, false⟩)

/-- What an operation's accesses on a line wait for first (R230): an atomic, at the line's home; a load or a store, in its core's L1. -/
def awaitOp (s : State) (tm : Team) (o : PendOp) (line : Nat) (as : List Acc) : Option State :=
  if as.any (fun a => a.loc.space == 0) = false ∨ quarantined s (128 * line) then none
  else match o.kind with
  | .load => awaitData s tm.core tm.part line false
  | .store => awaitData s tm.core tm.part line true
  | .atom _ => awaitHome s tm.part line

def goodAccs (as : List Acc) (late : List BadLane) : List Acc := as.filter (fun a => !late.any (fun b => b.lane == a.lane))

/-- Write the destination registers of a lane: V, S, or a temporary of the sequence in progress. -/
def Group.putDst (y : Group) (d : RegDst) (lane : Nat) (ws : List Word) : Group :=
  if !d.vec then y.setSn d.base ws
  else if d.base < 128 then
    (span 0 ws.length).foldl (fun y m => y.setV (d.base + m) lane (ws.getD m 0)) y
  else match y.xop with
    | some r => { y with xop := some { r with t := sput 0 r.t (64 * (d.base - 128) + lane) (ws.getD 0 0) } }
    | none => y

/-- A wait that an asynchronous trap ends before its instruction is done is abandoned: its held release goes, and the
instruction executes again (R419), of an access in flight what is not done. -/
def abandonWait (s : State) (t g : Nat) : State :=
  match s.group? t g with
  | some y =>
    match y.status with
    | .waiting w =>
      let rid := match w with
        | .fence r | .tinvFence r | .popr r | .poprExit r | .pgmapFence r | .pgmapLeaf r | .csload r => some r
        | _ => none
      let s := match rid.bind (fun r => (alook s.held r).map (fun h => (r, h))) with
        | some (r, h) => giveUp s [r] [h]
        | none => s
      wakeHere (dropWaited s t g) t g
    | _ => s
  | none => s

/-- The causes that an operation has left to report: a lane that has exited reports none (R45). -/
def lateOf (y : Group) (o : PendOp) : List BadLane :=
  if y.isRetired then [] else if o.dst.vec then o.late.filter (fun b => laneOf y.live b.lane) else o.late

/-- The lane trap of an operation whose good lanes have completed (R338, R339). A group that waits for it takes it at its
place; one that has gone on takes it now, and after a retry goes on where it stands (log entry 75). -/
def opTrap (s : State) (t g : Nat) (o : PendOp) : State :=
  match s.group? t g with
  | none => s
  | some y =>
      let here := y.status == .waiting (.opDone o.seq)
      let o := { o with late := lateOf y o }
      let s := abandonWait s t g
      let z := (s.group? t g).getD y
      let base : Trap :=
        { code := 0x26, emask := o.emask, pt := o.pt, trapPC := o.pt.word,
          xop := match o.mpc, y.xop with | some m, some r => some { r with mpc := m } | _, _ => none,
          redo := if here then y.redo else o.pt :: y.redo,
          resume := if here || !y.redo.isEmpty then y.redoEnd else z.place }
      if !o.dst.vec then
        match o.late with
        | b :: _ => takeTrap s t g { base with code := 0x20 + b.cause, faddr := [(0, b.va)], hmask := if b.ats then 1 else 0 }
        | [] => s
      else
        let causes := o.late.map (fun b => (b.lane, b.cause))
        takeTrap s t g { base with
          code := laneCode causes, causes := causes, faddr := o.late.map (fun b => (b.lane, b.va)),
          hmask := maskOfLanes ((o.late.filter (·.ats)).map (·.lane)) }

/-- The group's wait for an operation that is done is over: it goes on at its place, or with its run (R343). -/
def opOver (s : State) (t g : Nat) (o : PendOp) : State :=
  match s.group? t g, o.kind with
  | some y, .atom _ =>
    if y.status = .waiting (.flagsDone o.seq true) then endRun (s.updGroup t g (fun y => { y with status := .ready })) t g
    else if y.status = .waiting (.flagsDone o.seq false) ∨ y.status = .waiting (.opDone o.seq) then
      s.updGroup t g (fun y => { y with status := .ready })
    else s
  | _, _ => s.updGroup t g (fun y => if y.status = .waiting (.opDone o.seq) then { y with status := .ready } else y)

/-- Put back an operation; when every access is done it leaves the group, and its late causes are reported, those of an operation
that issued before the handler that runs when that has returned. -/
def settleOp (s : State) (t g : Nat) (o : PendOp) : State :=
  match s.group? t g with
  | none => s
  | some y =>
    let s := if o.settled then closeEntries s t g o.seq else s
    if o.settled && (y.reports o || (lateOf y o).isEmpty) then
      let s := s.updGroup t g (fun y => { y with ops := y.ops.filter (fun p => decide (p.seq ≠ o.seq)) })
      if (lateOf y o).isEmpty then opOver s t g o else opTrap s t g o
    else s.updGroup t g (fun y => { y with ops := y.ops.map (fun p => if p.seq = o.seq then o else p) })

/-- An operation that had to wait for the handler's return reports its causes (LOAD_COMPLETE, WRITE_VISIBLE, REMOTE_ATOMIC). -/
def reportLate (s : State) (t g seq : Nat) : State :=
  match findOp s t g seq with
  | some (_, o) => if o.settled then settleOp s t g o else s
  | none => s

/-- Write the destination registers of a lane. What an access that issued before a trap entry brings for S0 to S7 belongs to the code
that the frame saved them for, and goes to its copies there (R43, R252). -/
def bindDst (s : State) (t g seq : Nat) (d : RegDst) (lane : Nat) (ws : List Word) : State :=
  match s.team? t, s.group? t g with
  | some tm, some y =>
    if d.vec then s.updGroup t g (fun y => y.putDst d lane ws)
    else
      let newer := y.frames.filter (fun f => decide (seq < f.2.seq))
      match newer.find? (fun f => newer.all (fun e => decide (f.2.seq ≤ e.2.seq))) with
      | none => s.updGroup t g (fun y => y.putDst d lane ws)
      | some (slot, _) =>
        (span 0 ws.length).foldl (fun s m =>
          if d.base + m < 8 then s.write32 (frameAddr tm g slot + 0x40 + 4 * (d.base + m)) (ws.getD m 0)
          else s.updGroup t g (fun y => y.putDst { d with base := d.base + m } lane [ws.getD m 0])) s
  | _, _ => s

/-! ### Loads -/

/-- A byte that an access reads now. -/
def loadByte (s : State) (y : Group) (o : PendOp) (l : Loc) (i : Nat) : Byte := forwardByte y.ops o.seq l i (s.locByte l i)

/-- The words of an access; the bytes that it has read ahead stand (R134). -/
def loadWords (s : State) (y : Group) (o : PendOp) (a : Acc) : List Word :=
  (span 0 (o.size / 4)).map (fun m =>
    BitVec.ofNat 32 (ofBytes ((span (4 * m) 4).map (fun i => (alook a.landed i).getD (loadByte s y o a.loc i)))))

/-- An access of an operation reads or writes a byte of another's. -/
def PendOp.covers (p : PendOp) (o : PendOp) (a : Acc) : Bool :=
  p.accs.any (fun b => b.on a.loc && overlap b.loc.addr p.size a.loc.addr o.size)

/-- The youngest earlier store of the group that is pending on an access's line. -/
def lastStore (y : Group) (o : PendOp) (a : Acc) : Option PendOp := ((earlierOn y o.seq a.loc).filter (fun p => p.kind == .store)).getLast?

/-- The youngest earlier pending store that the load's line forwards from. -/
def forwardsFrom (y : Group) (o : PendOp) (as : List Acc) : Option Nat := (as.findSome? (lastStore y o)).map (·.seq)

/-- A load may bind a line (Table 9-1, same-line row; R199): no earlier atomic of the group is pending on it, no earlier load of the
same lane reads a byte of it, and the youngest earlier store pending on it is one that the access forwards from and that is no held
release (R437). -/
def loadReady (y : Group) (o : PendOp) (as : List Acc) : Bool :=
  as.all (fun a =>
    (earlierOn y o.seq a.loc).all (fun p => match p.kind with
      | .store => true
      | .load => !p.accs.any (fun b => b.on a.loc && b.lane == a.lane && overlap b.loc.addr p.size a.loc.addr o.size)
      | .atom _ => false)
    && (match lastStore y o a with
      | some p => p.rid.isNone && p.covers o a
      | none => true))

/-- The word of a load is forwarded, in a byte at least, from an earlier store of its group (R200): it carries no release that
others made. -/
def wordForwarded (y : Group) (o : PendOp) (a : Acc) (i : Nat) : Bool :=
  (earlierOn y o.seq a.loc).any (fun p => p.kind == .store && p.accs.any (fun b =>
    b.on a.loc && overlap b.loc.addr p.size (a.loc.addr + 4 * i) 4))

/-- LOAD_COMPLETE: the load's accesses on one line bind their values. -/
def execLoadComplete (team group seq line : Nat) (s : State) : Out :=
  match s.team? team, findOp s team group seq with
  | some tm, some (y, o) =>
    let as := o.todo line
    if as = [] then .next (reportLate s team group seq)
    else if s.sleeping = true ∨ tm.status ≠ .resident ∨ o.kind ≠ .load ∨ loadReady y o as = false then .next s
    else match awaitOp s tm o line as with
    | some s' => .next s'
    | none =>
      let inMem := as.any (fun a => a.loc.space == 0)
      let late := lateLanes s o as false
      let good := goodAccs as late
      let s := if inMem ∧ good ≠ [] then coreLine s team tm.core line false else s
      let vals := good.map (fun a => (a, loadWords s y o a))
      let agent := lineAgent s tm.core line
      let s := if inMem then noteBind s team group seq line (forwardsFrom y o good) (s.now agent) agent else s
      let s := if o.acq then
          good.foldl (fun s a => acquireMarks s team group seq tm.core ((span 0 (o.size / 4)).flatMap (fun i =>
            if wordForwarded y o a i then [] else marksSeen s (a.loc.addr + 4 * i) o.scope team group tm.core))) s
        else s
      let s := vals.foldl (fun s v => bindDst s team group seq { o.dst with base := o.dst.base + v.1.m } v.1.lane v.2) s
      let s := if inMem then checkReturned s tm.core team group seq line else s
      .next (match findOp s team group seq with
        | some _ => settleOp s team group (o.finishLine line late)
        | none => s)
  | _, _ => .next s

/-! ### Stores -/

/-- A store that defines a whole line by a SUPER group clears its quarantine (R238). -/
def defineLine (s : State) (o : PendOp) (line : Nat) (as : List Acc) : State :=
  let full := (span (128 * line) 128).all (fun b => as.any (fun a => decide (a.loc.addr ≤ b ∧ b < a.loc.addr + o.size)))
  if o.super && full then { clearQuarantine s line with badLines := s.badLines.filter (· != line) } else s

/-- A store over the host-visible mapping of a doorbell rings it (R283, log entry 72): that of queue q lies at 8 * q, that of the
report ring at 0x200 (R335). -/
def ringDoorbells (s : State) (size : Nat) (as : List Acc) : State :=
  if size < 8 ∨ as.all (fun a => targetOf a.loc.addr != .host) then s
  else
    let hit := fun (a : Nat) => as.any (fun x => decide (x.loc.addr ≤ a ∧ a + 8 ≤ x.loc.addr + size))
    { s with agenda := s.parts.flatMap (fun e => match Config.bar0 e.2.owner e.1 with
      | none => []
      | some h =>
        (e.2.queues.filter (fun q => hit (hostBase + h + 8 * q.1))).map (fun q =>
            .event (.doorbellWrite e.1 q.1 (s.read64 (hostBase + h + 8 * q.1))))
          ++ (if hit (hostBase + h + 0x200) then [.event (.reportDoorbell e.1 (s.read64 (hostBase + h + 0x200)))] else [])) ++ s.agenda }

/-- The bytes of a store's accesses, in lane order. -/
def storeBytes (o : PendOp) (good : List Acc) (s : State) : State :=
  good.foldl (fun (s : State) a =>
    { s.putBytes a.loc.addr (a.data.flatMap (fun w => bytesOf 4 w.toNat)) with
      marks := clearMarks s.marks a.loc.addr o.size }) s

/-- Perform the store's accesses on one line of memory: the permission, the bytes in lane order, the visibility time. -/
def performStore (s : State) (t g core : Nat) (o : PendOp) (line : Nat) (good : List Acc) : State :=
  if good = [] then s
  else
    let s := writeLine (defineLine s o line good) t g core line
    let agent := lineAgent s core line
    let vt := s.now agent
    let s := storeBytes o good s
    noteWrite ((ringDoorbells s o.size good).stamp agent) t g o.seq line vt agent

/-- A write may be performed: no earlier operation of the group is pending on its line (Table 9-1). -/
def writeReady (y : Group) (o : PendOp) (as : List Acc) : Bool := as.all (fun a => (earlierOn y o.seq a.loc).isEmpty)

/-- The loads on whose values the write depends, and that forwarded from a store still pending, are ordered before it as that store
is (Table 9-1, last row; R221): it waits for the store. -/
def depsReady (s : State) (t g core : Nat) (y : Group) (o : PendOp) : Bool :=
  (s.core core).log.all (fun e => !(e.team == t && e.group == g && e.seq < o.seq && o.deps.contains e.seq && e.time.isNone &&
    (match e.fwd with | some q => y.ops.any (fun p => p.seq == q) | none => false) &&
    y.ops.any (fun p => p.seq == o.seq)))

/-- A byte of an access is not to be written any more: it has landed, or that of a later lane of the instruction has, which the byte ends
with (R171). -/
def PendOp.wrote (o : PendOp) (a : Acc) (i : Nat) : Bool :=
  (alook a.landed i).isSome || o.accs.any (fun c => decide (a.lane < c.lane ∨ (a.lane = c.lane ∧ a.m < c.m)) && c.loc.space == a.loc.space
    && c.loc.team == a.loc.team && decide (c.loc.addr ≤ a.loc.addr + i) && (alook c.landed (a.loc.addr + i - c.loc.addr)).isSome)

/-- The bytes of a typed-buffer store that have not landed ahead (R134). -/
def storeBuffer (o : PendOp) (s : State) (a : Acc) : State :=
  let bs := a.data.flatMap (fun w => bytesOf 4 w.toNat)
  if o.accs.all (fun c => c.landed.isEmpty) then s.locPut a.loc bs
  else (span 0 bs.length).foldl (fun s i =>
    if o.wrote a i then s else s.locPut { a.loc with addr := a.loc.addr + i } [bs.getD i 0]) s

/-- WRITE_VISIBLE: the store's accesses on one line are performed. A store that is a release waits for RELEASE_COMPLETE. -/
def execWriteVisible (team group seq line : Nat) (s : State) : Out :=
  match s.team? team, findOp s team group seq with
  | some tm, some (y, o) =>
    let as := o.todo line
    if as = [] then .next (reportLate s team group seq)
    else if s.sleeping = true ∨ o.kind ≠ .store ∨ o.early = true ∨ o.rid.isSome = true ∨ writeReady y o as = false
        ∨ depsReady s team group tm.core y o = false ∨ s.room 1 = false then .next s
    else match awaitOp s tm o line as with
    | some s' => .next s'
    | none =>
      let late := lateLanes s o as true
      let good := goodAccs as late
      let mem := good.filter (fun a => a.loc.space == 0)
      let s := performStore s team group tm.core o line mem
      let s := (good.filter (fun a => a.loc.space != 0)).foldl (storeBuffer o) s
      let s := if mem = [] then s else checkReturned s tm.core team group seq line
      .next (match findOp s team group seq with
        | some _ => settleOp s team group (o.finishLine line late)
        | none => s)
  | _, _ => .next s

/-- A byte of a typed-buffer access that is read or written ahead of the others of its access: each byte of a race is decided separately
(R134). -/
def accessByte (s : State) (team group seq lane m byte : Nat) : State :=
  match findOp s team group seq with
  | none => s
  | some (y, o) =>
    match o.accs.find? (fun a => !a.done && a.lane == lane && a.m == m && a.loc.space != 0 && (alook a.landed byte).isNone && byte < o.size) with
    | none => s
    | some a =>
      let note := fun (s : State) (b : Byte) => s.updGroup team group (fun y => { y with ops := y.ops.map (fun p =>
        if p.seq = seq then { p with accs := p.accs.map (fun c => if c = a then { c with landed := aput c.landed byte b } else c) } else p) })
      if s.sleeping then s
      else match o.kind with
        | .load => if loadReady y o [a] then note s (loadByte s y o a.loc byte) else s
        | .store =>
          if writeReady y o [a] then
            let b := (a.data.flatMap (fun w => bytesOf 4 w.toNat)).getD byte 0
            note (if o.wrote a byte then s else s.locPut { a.loc with addr := a.loc.addr + byte } [b]) b
          else s
        | .atom _ => s

/-! ### Atomics -/

/-- The value that an atomic writes, none for a CAS that finds an unequal word, and its flags (Table 16-2). -/
def atomicResult (op : Nat) (t : ElemType) (old v w : Word) : Option Word × Fl :=
  let m : VMode := ⟨t, .rne, false⟩
  match op with
  | 0 => let r := laneAdd m false old v; (some r.1, r.2)
  | 1 => let r := laneMinMax m false old v; (some r.1, r.2)
  | 2 => let r := laneMinMax m true old v; (some r.1, r.2)
  | 3 => (some (old &&& v), 0)
  | 4 => (some (old ||| v), 0)
  | 5 => (some (old ^^^ v), 0)
  | 6 => (some v, 0)
  | _ => (if old = v then some w else none, 0)

/-- The home performs an atomic's accesses on one line as one batch, in ascending lane order (R342): answers the state, the
words found, the addresses written, and the flags. -/
def atomicBatch (op : Nat) (t : ElemType) : List Acc → State → State × List (Nat × Word) × List Nat × Fl
  | [], s => (s, [], [], 0)
  | a :: as, s =>
    let old := s.read32 a.loc.addr
    let (r, f) := atomicResult op t old (a.data.getD 0 0) (a.data.getD 1 0)
    let s := match r with | some v => s.write32 a.loc.addr v | none => s
    let (s, olds, wrote, fs) := atomicBatch op t as s
    (s, (a.lane, old) :: olds, if r.isSome then a.loc.addr :: wrote else wrote, f ||| fs)

/-- Perform an atomic's good accesses on one line at its home, as one instant (R231), return the old words, stamp and acquire. `rel`
is the release that it is, when it is one that was held: the words that it wrote carry it (R203). -/
def performAtomic (s : State) (t g core : Nat) (o : PendOp) (op line : Nat) (good : List Acc) (rel : Option Held) : State :=
  if good = [] then s
  else
    let seen := if o.acq then good.flatMap (fun a => marksSeen s a.loc.addr o.scope t g core) else []
    let (_, olds, wrote, fl) := atomicBatch op o.typ good s
    let s := homeWrite s line (partOf s t) (some (t, g)) (fun s => (atomicBatch op o.typ good s).1)
    let s := olds.foldl (fun s r => bindDst s t g o.seq o.dst r.1 [r.2]) (s.raise t fl)
    let agent := homeAgent s (128 * line)
    let vt := s.now agent
    let s := if wrote.isEmpty then noteBind s t g o.seq line none vt agent else noteWrite (s.stamp agent) t g o.seq line vt agent
    let s := match rel with
      | some h => { s with marks := s.marks ++ wrote.map (fun a => h.mark (a / 4)) }
      | none => s
    acquireMarks s t g o.seq core seen

/-- A group's atomic on one line. One that is a release waits for RELEASE_COMPLETE first. -/
def groupAtomic (s : State) (team group seq line : Nat) : State :=
  match s.team? team, findOp s team group seq with
  | some tm, some (y, o) =>
    let as := o.todo line
    match o.kind with
    | .atom op =>
      if as = [] then reportLate s team group seq
      else if s.sleeping = true ∨ o.early = true ∨ o.rid.isSome = true ∨ writeReady y o as = false
          ∨ depsReady s team group tm.core y o = false ∨ s.room 1 = false then s
      else match awaitOp s tm o line as with
      | some s' => s'
      | none =>
        let late := lateLanes s o as false
        let s := performAtomic s team group tm.core o op line (goodAccs as late) none
        let s := checkReturned s tm.core team group seq line
        match findOp s team group seq with
        | some _ => settleOp s team group (o.finishLine line late)
        | none => s
    | _ => s
  | _, _ => s

/-! ### XFAULT -/

/-- The distinct lines of an operation's accesses, rising. -/
def PendOp.lines (o : PendOp) : List Nat := linesOf (o.accs.map (·.loc))

/-- A store's accesses on one line made visible at the line's home, in lane order (R85). -/
def performEarly (s : State) (t g : Nat) (o : PendOp) (line : Nat) (good : List Acc) : State :=
  if good = [] then s
  else
    let agent := homeAgent s (128 * line)
    let s := homeWrite (defineLine s o line good) line (partOf s t) (some (t, g)) (storeBytes o good)
    noteWrite ((ringDoorbells s o.size good).stamp agent) t g o.seq line (s.now agent) agent

/-- XFAULT_FIRE (R85, R243): the firing store is performed at once, ahead of the group's earlier stores; ARM clears and FIRED
sets in the same step. Piccolo finds the order violation as the time returns (R227); the quarantine takes effect by the end of the tick,
and what others read of the line before then is the injected value (Table 19-7). -/
def execXfaultFire (team group seq : Nat) (s : State) : Out :=
  match s.team? team, findOp s team group seq with
  | some tm, some (_, o) =>
    if o.early = false ∨ s.sleeping = true ∨ s.room o.lines.length = false then .next s
    else match o.lines.findSome? (fun l => if quarantined s (128 * l) then none else awaitHome s tm.part l) with
    | some s' => .next s'
    | none =>
      let s := s.updGroup team group (fun y => { y with
        xfault := (y.xfault ||| 0x10000#32) &&& ~~~(1#32), xcount := 0 })
      let s := o.lines.foldl (fun s l =>
        match findOp s team group seq with
        | none => s
        | some (_, o) =>
          let as := o.todo l
          let late := lateLanes s o as (o.kind == .store)
          let good := goodAccs as late
          let s := match o.kind with
            | .atom op => performAtomic s team group tm.core o op l good none
            | _ => performEarly s team group o l good
          let s := checkReturned s tm.core team group seq l true
          match findOp s team group seq with
          | some _ => settleOp s team group (o.finishLine l late)
          | none => s) s
      .next s
  | _, _ => .next s

/-! ### Coherence -/

/-- COHERENCE_REQUEST (R178): an agent that may hold the line asks its home for it, on behalf of a partition. -/
def execCoherenceRequest (who : Requester) (line : Nat) (write : Bool) (s : State) : Out :=
  if s.sleeping || quarantined s (128 * line) then .next s else .next (getLine s who.agent who.part line write)

/-- REGION_MERGE (R182): two sibling halves without a request for 4,096 ticks become one region of their home's directory. -/
def execRegionMerge (region : HomeRegion) (s : State) : Out :=
  let base := region.base
  let d := s.dir region.home
  match alook d base with
  | none => .next s
  | some a =>
    match alook d (base + 2 ^ a.logSize) with
    | none => .next s
    | some b =>
      if a.logSize = b.logSize ∧ a.logSize < 9 ∧ base % 2 ^ (a.logSize + 1) = 0 ∧ a.last + 4096 ≤ s.tick ∧ b.last + 4096 ≤ s.tick then
        let both : DirRegion := ⟨a.logSize + 1, unionNat a.holders b.holders, max a.last b.last⟩
        .next (s.putDir region.home (aput (adel d (base + 2 ^ a.logSize)) base both))
      else .next s

/-- PROBE (R183): a core answers a probe that was sent to it. One without a team of the probe's partition answers absent and
counts it; another answers from its L1 state, which the request that sent the probe has already changed. -/
def execProbe (core part line : Nat) (s : State) : Out :=
  if !s.probes.contains (core, part, line) then .next s
  else
    let s := { s with probes := s.probes.erase (core, part, line) }
    if (teamsOn s core).any (fun e => e.2.part == part) then .next s
    else .next (s.updCore core (fun c => { c with filtered := if c.filtered = 0xFFFFFFFF then c.filtered else c.filtered + 1 }))

/-- BACK_INVALIDATION_SNOOP (R192): every device copy of a pool line is invalidated or downgraded; what has been performed is
in the data sent, and a write not yet performed asks afresh. A counter awaited in the line is read again (R294). -/
def execBackInvalidationSnoop (line : Nat) (invalidate : Bool) (s : State) : Out :=
  let ls := s.line line
  if targetOf (128 * line) ≠ .pool then .next s
  else if invalidate then .next (makeDue (recallLine s line) (fun key => lineOf key == line))
  else if ls.writer.isSome then
    .next (makeDue (reopen s line false (ls.holders.map (fun h => (h.1, { h.2 with state := .s }))) none) (fun key => lineOf key == line))
  else .next (makeDue s (fun key => lineOf key == line))

end Sys2Proof.Machine
end

