-- ==== Sys2Proof/Machine/Release.lean ====
section
/-! DEFINITION. RELEASE_COMPLETE with the effects of every kind of held release (R205, R222, R233, R47, R48, R55, R60, R255,
R278, R288, R290, R366, R367, R379, R397), TICK and TICK_WRAP (R4, R232, R242), and shoot-downs (R217, R218, R262). -/
namespace Sys2Proof.Machine

/-- A completed release leaves the table; its entries with no line take the tick as their time (R221); FENCE has none. -/
def dropHeld (s : State) (id : Nat) (h : Held) : State :=
  logMap { s with held := adel s.held id } h.core (fun e => e.rid == some id && e.line.isNone && e.kind != .fence)
    (fun e => { e with time := some s.thisTick })

/-! ### Releases that write -/

/-- The words of accesses carry a release's timestamp (R197). -/
def markWords (s : State) (h : Held) (size : Nat) (good : List Acc) : State :=
  { s with marks := s.marks ++ good.flatMap (fun a => (span 0 (size / 4)).map (fun i => h.mark (a.loc.addr / 4 + i))) }

/-- The write of STREL, or of an atomic that is a release, line by line; a late cause is reported as any is. -/
def performRelease (s : State) (h : Held) (seq : Nat) : State :=
  match findOp s h.team h.group seq with
  | none => s
  | some (_, o) =>
    let s := s.updGroup h.team h.group (fun y =>
      { y with ops := y.ops.map (fun p => if p.seq = seq then { p with rid := none } else p) })
    o.lines.foldl (fun s l =>
      match findOp s h.team h.group seq with
      | none => s
      | some (_, o) =>
        let as := o.todo l
        let late := lateLanes s o as (o.kind == .store)
        let good := goodAccs as late
        let s := match o.kind with
          | .atom op => performAtomic s h.team h.group h.core o op l good (some h)
          | _ => markWords (performStore s h.team h.group h.core o l good) h o.size good
        let s := checkReturned s h.core h.team h.group seq l
        match findOp s h.team h.group seq with
        | some _ => settleOp s h.team h.group (o.finishLine l late)
        | none => s) s

/-! ### Arrivals -/

/-- The group that a trap of a group's operation is delivered to: the lowest live group when it has retired. -/
def liveTarget (tm : Team) (g : Nat) : Option Nat :=
  match tm.group? g with
  | some y => if y.isRetired then (tm.live.head?).map (·.1) else some g
  | none => (tm.live.head?).map (·.1)

/-- An arrival on a stage, or the ring-protocol trap, imprecise, that names it (R55). A RINGPUT passed its checks at issue, but an
engine's post that reserved nothing may have filled the half-lap before its release completed: R55 has RINGPUT trap precisely and
no rule says what happens so late; the model traps imprecisely with no AUX (log entry 66). -/
def arriveAt (s : State) (h : Held) (r st g : Nat) (aux : List (Nat × Nat × Nat)) (f : Stage → Stage) : State :=
  match s.team? h.team with
  | none => s
  | some tm =>
    match tm.stage? r st with
    | none => s
    | some (ring, v) =>
      match arriveStage ring.desc (f v) h.role h.ts h.homes h.wrote with
      | some v' => s.putTeam h.team (tm.putStage r st v')
      | none =>
        let s := s.putTeam h.team (tm.putStage r st (f v))
        match liveTarget tm g with
        | some u => pendTrap s h.team u ⟨0x37, none, aux, none, []⟩
        | none => failTeam s h.team 0x37

/-- A group that retired before its arrival then has its retirement adjustments made (R346, R380). -/
def settleGone (s : State) (h : Held) : State :=
  match s.group? h.team h.group with
  | some y => if y.isRetired then settleRetired s h.team h.group else s
  | none => s

/-- A barrier's arrival. -/
def arriveBar (s : State) (h : Held) (n : Nat) : State :=
  settleGone (s.updTeam h.team (fun x => match alook x.barriers n with
    | some b => { x with barriers := aput x.barriers n (arriveBarrier b h.ts h.wrote) }
    | none => x)) h

/-! ### PGMAP (R365 to R367) -/

/-- The fields of a request quad (Table 17-1). -/
def pgVa (q : List Word) : Nat := (pairOf (q.getD 0 0) (q.getD 1 0)).toNat
def pgPage (q : List Word) : Nat := fieldOf (q.getD 2 0) 11 8 * 2 ^ 48 + (q.getD 3 0).toNat * 65536
def pgTgt (q : List Word) : Nat := fieldOf (q.getD 2 0) 5 4

def pgQuadOk (pool : Bool) (q : List Word) : Bool :=
  pgVa q / 2 ^ 55 == 0 && fieldOf (q.getD 2 0) 31 12 == 0 && fieldOf (q.getD 2 0) 7 6 == 0
    && (!pool || (pgPage q == 0 && pgTgt q == 0))

/-- The leaf that a request writes. -/
def pgLeaf (q : List Word) (page : Nat) : DWord :=
  let r := fun (i : Nat) => fieldOf (q.getD 2 0) i i
  BitVec.ofNat 64 (pgTgt q * 2 ^ 58 + r 3 * 2 ^ 57 + r 2 * 2 ^ 56 + r 1 * 2 ^ 55 + r 0 * 2 ^ 54 + page / 65536 % 2 ^ 36 * 65536 + 3)

/-- The next table that an entry names; none for an entry that is invalid, a leaf, malformed or unreadable. -/
def nextTable (s : State) (a level : Nat) : Option Nat :=
  let e := s.read64 a
  if s.badLines.contains (lineOf a) || !e.getLsbD 0 || e.getLsbD 1 || !entryOk s e level then none else some (entryAddr e)

/-- The address of the level-3 entry of a page. -/
def leafAddr (s : State) (root va : Nat) : Option Nat :=
  match nextTable s (root + 8 * vaIndex va 1) 1 with
  | some t1 => (nextTable s (t1 + 8 * vaIndex va 2) 2).map (fun t2 => t2 + 8 * vaIndex va 3)
  | none => none

/-- A leaf store of an earlier PGMAP is held for an entry. -/
def leafHeld (s : State) (a : Nat) : Bool :=
  s.held.any (fun h => match h.2.kind with | .pgmapFill b _ _ _ | .pgmapLeaf b _ _ _ _ => b == a | _ => false)

def poolCount (f : DWord) : Nat := field64 f 63 52
def poolNext (f : DWord) : Nat := field64 f 51 16 * 65536
/-- FTPOOL after a page is taken (R84). -/
def poolTake (f : DWord) : DWord :=
  BitVec.ofNat 64 ((poolCount f - 1) * 2 ^ 52 + (field64 f 51 16 + 1) % 2 ^ 36 * 65536)

/-- The status of a request, or the entry's address and the page. -/
def pgTest (s : State) (part : Nat) (pool : Bool) (q : List Word) : Nat ⊕ (Nat × Nat) :=
  if !pgQuadOk pool q then .inl 5
  else
    match leafAddr s (s.part part).root (pgVa q) with
    | none => .inl 3
    | some a =>
      if s.badLines.contains (lineOf a) then .inl 3
      else if (s.read64 a).getLsbD 0 || leafHeld s a then .inl 2
      else if pool && poolCount (s.part part).ftpool == 0 then .inl 1
      else if !pool && !inTarget s (pgTgt q) 3 (pgPage q) then .inl 4
      else .inr (a, if pool then poolNext (s.part part).ftpool else pgPage q)

/-- A group's write of a line at its home, with its visibility time there. -/
def homeLine (s : State) (t g seq l : Nat) (f : State → State) : State :=
  let agent := homeAgent s (128 * l)
  let vt := s.now agent
  noteWrite ((homeWrite s l (partOf s t) (some (t, g)) f).stamp agent) t g seq l vt agent

/-- The zero fill of a pool page at DEVICE scope. -/
def zeroPage (s : State) (t g seq page : Nat) : State :=
  (span (page / 128) 512).foldl (fun s l => homeLine s t g seq l (fun s =>
    { s with mem := sclear s.mem (128 * l) 128, marks := clearMarks s.marks (128 * l) 128 })) s

/-- PGMAP's result pair; the group goes on. -/
def pgDone (s : State) (t g d : Nat) (e : Bool) (v : DWord) : State :=
  finish (s.updGroup t g (fun y => y.setPair d v)) t g e

/-- PGMAP's group waits for a release of its own (R367). -/
def holdPgmap (s : State) (h : Held) (kind : RelKind) (homes : List Nat) (log : Option (LogKind × List Nat)) : State :=
  match siteOf s h.team h.group with
  | none => s
  | some x => (holdRelease s x kind .device homes log).updGroup h.team h.group (fun y => { y with status := .waiting (.pgmapLeaf s.newId) })

/-- The leaf store: its visibility time at once, in a tick beyond that of every write before it (R222, R367), and the completion held at
its home until it is cleared. -/
def pgmapStore (s : State) (h : Held) (a : Nat) (leaf : DWord) (d : Nat) (e pool : Bool) : State :=
  let agent := homeAgent s a
  let vt := s.now agent
  let s := noteWrite (s.stamp agent) h.team h.group h.seq (lineOf a) vt agent
  let rid := s.newId
  let s := holdPgmap s h (.pgmapLeaf a leaf d e pool) ((homeOf s a).elim [] (fun k => [k])) (some (.strel, [lineOf a]))
  logMap s h.core (fun l => l.rid == some rid) (fun l => { l with time := some ⟨vt, some agent, true⟩ })

/-- The effect of R366 once PGMAP's fence has completed. The zero fill of a page from the pool comes first; the leaf store follows when the
fill's tick has passed. With a full Piccolo log it waits. -/
def pgmapAct (s : State) (id : Nat) (h : Held) (pool : Bool) (q : List Word) (d : Nat) (e : Bool) : State :=
  if logFree (s.core h.core) = 0 then s
  else
    let s' := dropHeld s id h
    match pgTest s' h.part pool q with
    | .inl st => pgDone s' h.team h.group d e (BitVec.ofNat 64 (2 * st))
    | .inr (a, page) =>
      if pool then
        let s := zeroPage (s'.updPart h.part (fun p => { p with ftpool := poolTake p.ftpool })) h.team h.group h.seq page
        holdPgmap s h (.pgmapFill a (pgLeaf q page) d e) [] none
      else pgmapStore s' h a (pgLeaf q page) d e false

/-- The leaf becomes visible to walks and to every other agent. -/
def pgmapWrite (s : State) (h : Held) (a : Nat) (leaf : DWord) (d : Nat) (e : Bool) : State :=
  let s := homeWrite s (lineOf a) h.part (some (h.team, h.group)) (fun s => { s.write64 a leaf with marks := clearMarks s.marks a 8 })
  pgDone s h.team h.group d e leaf

/-! ### CSLOAD (R278, Table 12-4) -/

/-- A doubleword of an image; none when a condition of Table 8-3 meets it. -/
def imageWord (s : State) (x : Site) (va : Nat) : Option DWord :=
  if 2 ^ 55 < va + 8 then none
  else
    match translate s x.tm.core x.tm.part va [.rd] with
    | .cause _ _ => none
    | .ok key => if dataBad s key x.gr.super then none else some (s.read64 key)

/-- The image at an address: header and micro-ops. -/
def readImage (s : State) (x : Site) (va : Nat) : Option (List DWord) :=
  match imageWord s x va with
  | none => none
  | some h =>
    let us := (span 1 (hdLen h)).filterMap (fun i => imageWord s x (va + 8 * i))
    if us.length = hdLen h then some (h :: us) else none

/-- A live team of the partition, resident or saved, names the slot in its binding table (R280). -/
def slotBound (s : State) (part slot : Nat) : Bool :=
  s.teams.any (fun e => e.2.part == part && e.2.bind.any (fun b => b.2 == slot))

/-- The reason, micro-op index and bit of the first failing check, or the image. A check that offends no field, of reason 2 or 10, has bit 0
(log entry 30). -/
def csCheck (s : State) (x : Site) (addr : DWord) (sel : Word) : (Nat × Nat × Nat) ⊕ List DWord :=
  if fieldOf sel 31 4 ≠ 0 ∨ addr.toNat % 8 ≠ 0 then .inl (1, 0xFF, if fieldOf sel 31 4 ≠ 0 then 4 else 0)
  else
    match readImage s x addr.toNat with
    | none => .inl (2, 0xFF, 0)
    | some [] => .inl (2, 0xFF, 0)
    | some (h :: us) =>
      match imageBad h us with
      | some r => .inl r
      | none => if slotBound s x.tm.part (fieldOf sel 3 0) then .inl (10, 0xFF, 0) else .inr (h :: us)

/-- Write an image to the master copy and to every bank of the partition. -/
def putSlot (s : State) (part slot : Nat) (image : List DWord) : State :=
  let s := s.updPart part (fun p => { p with master := aput p.master slot image })
  { s with cores := s.cores.map (fun c => (c.1, { c.2 with
      banks := c.2.banks.map (fun b => if b.part = some part then { b with slots := aput b.slots slot image } else b) })) }

def csloadAct (s : State) (h : Held) (addr : DWord) (sel : Word) (e : Bool) : State :=
  match siteOf s h.team h.group with
  | none => s
  | some x =>
    match csCheck s x addr sel with
    | .inl (reason, idx, bit) =>
      takeTrap (logWalk s x.tm.core x.tm.part addr.toNat) h.team h.group { trapAt x 0x44 with aux := [(0x080, 1, reason), (0x081, 1, idx), (0x082, 1, bit)] }
    | .inr image => finish (putSlot s h.part (fieldOf sel 3 0) image) h.team h.group e

/-! ### Shoot-downs (Table 9-4) -/

/-- The X-die's address translation cache, as an agent of a shoot-down. -/
def xdieAgent : Nat := 1536

/-- A page at a level of the table meets a range of 64 KiB pages. -/
def pageMeets (level vpage first pages : Nat) : Bool :=
  let n := leafAlign level / 65536
  decide (vpage / n * n < first + pages ∧ first < vpage / n * n + n)

/-- The host page behind a host leaf's base or a key. -/
def hostPage (key : Nat) : Nat := (key - hostBase) / 65536

/-- A shoot-down names a cached entry (R397). A host invalidation, which has no team, names the leaves of its partition whose page
of host memory meets its range (R175, R218). -/
def Shoot.names (k : Shoot) (e : TlbEntry) : Bool :=
  e.part == k.part &&
    (if k.team = feTeam then field64 e.leaf 59 58 == 1 && pageMeets e.level (entryAddr e.leaf / 65536) k.vpage k.pages
     else k.all || pageMeets e.level e.vpage k.vpage k.pages)

/-- The agents that hold translations that a shoot-down may name, or could use one: cores, and the X-die. -/
def shootAgents (s : State) (which : Nat → Bool) : List Nat :=
  (s.cores.filter (fun c => c.2.tlb.any (fun e => which e.part) || (teamsOn s c.1).any (fun t => which t.2.part))).map (·.1)
    ++ [xdieAgent]

/-- Step 2 of Table 9-4: the broadcast; the group waits for the acknowledgements. -/
def tinvStart (s : State) (h : Held) (vpage pages : Nat) (all : Bool) : State :=
  let k : Shoot :=
    { team := h.team, group := h.group, part := h.part, vpage := vpage, pages := pages, all := all,
      todo := shootAgents s (· == h.part), unacked := [] }
  let id := s.newId
  { s.bumpId.updGroup h.team h.group (fun y => { y with status := .waiting (.tinvAcks id) }) with shoots := aput s.shoots id k }

/-- An access of a team, already translated through an entry that a shoot-down names, and not yet performed. -/
def teamUses (k : Shoot) (x : Team) : Bool :=
  x.part == k.part && x.groups.any (fun g => g.2.ops.any (fun o => o.accs.any (fun a =>
    !a.done && a.loc.space == 0 &&
      (if k.team = feTeam then targetOf a.loc.addr == .host && pageMeets 3 (hostPage a.loc.addr) k.vpage k.pages
       else k.all || pageMeets a.level (a.va / 65536) k.vpage k.pages))))

/-- What an agent waits for before it acknowledges: a core for its own accesses; the X-die, which sends every translated request
to the host, for those of every core when the host invalidates (R175). -/
def usesNamed (s : State) (k : Shoot) (agent : Nat) : Bool :=
  if agent = xdieAgent then k.team == feTeam && s.teams.any (fun t => t.2.status == .resident && teamUses k t.2)
  else (teamsOn s agent).any (fun t => teamUses k t.2)

/-- SHOOTDOWN (steps 2 and 3): the agent stops using the matching entries. -/
def execShootdown (id agent : Nat) (s : State) : Out :=
  match alook s.shoots id with
  | none => .next s
  | some k =>
    if !k.todo.contains agent then .next s
    else
      let k' : Shoot := { k with todo := k.todo.filter (· != agent), unacked := insertNat agent k.unacked }
      let s := { s with shoots := aput s.shoots id k' }
      .next (if agent = xdieAgent then s else s.updCore agent (fun c => { c with tlb := c.tlb.filter (fun e => !k.names e) }))

/-- TINV_ACK (steps 3 and 4): a core acknowledges once no access that used a matching entry is outstanding; the last
acknowledgement completes the TINV, or answers the host. Of the two ways that step 3 allows, to complete a request already translated or
to discard it and translate it again, the model always takes the first (log entry 82). -/
def execTinvAck (id agent : Nat) (s : State) : Out :=
  match alook s.shoots id with
  | none => .next s
  | some k =>
    if !k.unacked.contains agent || usesNamed s k agent then .next s
    else
      let k' : Shoot := { k with unacked := k.unacked.filter (· != agent) }
      if k'.todo.isEmpty && k'.unacked.isEmpty then
        let s := { s with shoots := adel s.shoots id }
        .next (match s.group? k.team k.group with
          | some y => if y.status = .waiting (.tinvAcks id) then finishWait s k.team k.group else s
          | none => s)
      else .next { s with shoots := aput s.shoots id k' }

/-- ATS_INVALIDATION (R175, R218): the host invalidates a range of its 64 KiB pages for a partition, whose PASID the message carries
(R335). A shoot-down of every translation derived from them is answered to the host by its last acknowledgement. `refuse`: the
host has no page there any more for that partition, and refuses those pages until a PRI answer grants them. -/
def execAtsInvalidation (msg : AtsMessage) (page pages : Nat) (s : State) : Out :=
  let k : Shoot :=
    { team := feTeam, group := 64, part := msg.part, vpage := page, pages := pages, all := false,
      todo := shootAgents s (· == msg.part), unacked := [] }
  let gone := (span page pages).map (fun p => (msg.part, p))
  .next { s.bumpId with
    shoots := aput s.shoots s.newId k
    hostRefused := if msg.refuse then gone.filter (fun p => !s.hostRefused.contains p) ++ s.hostRefused else s.hostRefused }

/-! ### Grid end and launch completion (R48, R288, R290) -/

/-- The home of a word that a front-end release will write. -/
def ownHome (s : State) (part va : Nat) : List Nat :=
  match translate s feCore part va [.wr] with
  | .ok key => (homeOf s key).elim [] (fun k => [k])
  | .cause _ _ => []

/-- The counter has returned to zero: the front end begins the completion release (R288). -/
def launchDone (s : State) (l : Nat) : State :=
  match alook s.launches l with
  | none => s
  | some x =>
    if x.count = 0 ∧ x.ended = false then
      let s := s.updLaunch l (fun y => { y with ended := true })
      let own := if x.sigaddr = 0 then [] else ownHome s x.part x.sigaddr.toNat
      holdThread s (.launchEnd l) feTeam .vector 0 0 x.scope x.vt (unionNat own x.homes) [] feCore x.part
    else s

/-- The add of R290: ATOM ADD with REL at the counter's home. -/
def addCounter (s : State) (h : Held) (key : Nat) : State :=
  let s := (homeWrite s (lineOf key) h.part none (fun s => s.write32 key (s.read32 key + 1))).stamp (homeAgent s key)
  { s with marks := s.marks ++ [h.mark (key / 4)] }

/-- The grid has ended: its launch takes its times, and its spawn-tree counter is lowered by 1: a SPAWN that
waited for it takes its entry. -/
def gridDone (s : State) (gd : Nat) (g : Grid) : State :=
  let s := s.updGrid gd (fun g => { g with fate := .completed, outcome := s.tick })
  let s := s.updLaunch g.launch (fun l => { l with
    count := l.count - 1, vt := max l.vt g.vt, homes := unionNat g.homes l.homes })
  let s := s.updPart g.part (fun p => { p with
    queues := p.queues.map (fun q => if q.2.seed = some gd then (q.1, { q.2 with seed := none }) else q) })
  launchDone (grantSpawns s g.launch) g.launch

/-- A grid-end release completes. -/
def gridEndAct (s : State) (h : Held) (gd : Nat) : State :=
  match alook s.grids gd with
  | none => s
  | some g =>
    let va := rCnt g.record
    if va = 0 then gridDone s gd g
    else
      match feAccess s feCore g.part va 4 4 [.rd, .wr, .at] true with
      | .ok key => gridDone (addCounter s h key) gd g
      | .bad code _ => endLaunch s g.launch code 0

/-- A launch-completion release completes: the signal, then the packet's record. -/
def launchEndAct (s : State) (h : Held) (l : Nat) : State :=
  match alook s.launches l with
  | none => s
  | some x =>
    let close := fun (s : State) =>
      addReport { s with launches := adel s.launches l, grids := s.grids.filter (fun e => decide (e.2.launch ≠ l)) }
        (launchReport s x false 0 0)
    if x.sigaddr = 0 then close s
    else
      match feAccess s feCore x.part x.sigaddr.toNat 8 8 [.wr] true with
      | .ok key =>
        let s := s.homeStore x.part key (bytesOf 8 x.sigval.toNat)
        close { s with marks := s.marks ++ [h.mark (key / 4), h.mark (key / 4 + 1)] }
      | .bad code _ => endLaunch s l code 0

/-- The write index of a report ring is stored at its host-visible address, by a release at SYSTEM scope (R318). -/
def reportIndexAct (s : State) (h : Held) (part wr : Nat) : State :=
  match (s.part part).report with
  | none => s
  | some ring =>
    match translate s feCore part ring.wrAddr [.wr] with
    | .ok key =>
      let s := s.homeStore part key (bytesOf 8 wr)
      { s with marks := s.marks ++ [h.mark (key / 4), h.mark (key / 4 + 1)] }
    | .cause _ _ => s

/-! ### RELEASE_COMPLETE -/

/-- The trap return behind a completed fence; the lanes of an EXIT leave first (R45). What the fence let become visible may refuse
it still. -/
def popReturn (s : State) (id : Nat) (h : Held) : State :=
  match siteOf s h.team h.group with
  | none => s
  | some x =>
    let leaves := x.gr.status == .waiting (.poprExit id)
    match if leaves then stackLess (wholeStack s x.tm x.g x.gr) x.gr.active else x.gr.stack with
    | [] => s
    | e :: _ =>
      match returnRefusal s x.tm x.g x.gr e with
      | some code => refuseReturn (wakeHere s h.team h.group) x code
      | none => trapReturn (if leaves then exitLanes s h.team h.group else s) h.team h.group

/-- The effect of a completed release. -/
def completeRelease (s : State) (id : Nat) (h : Held) : State :=
  let s' := dropHeld s id h
  match h.kind with
  | .strel q | .atom q => performRelease s' h q
  | .ringput r st => settleGone (arriveAt s' h r st h.group [] (fun v => { v with rv := v.rv - 1 })) h
  | .post r st =>
    arriveAt (s'.updTeam h.team (fun x => { x with posts := x.posts - 1 })) h r st h.lane
      [(0x080, 1, r), (0x081, 1, st), (0x088, 8, h.pt.pc.toNat)] (fun v => v)
  | .bararv n => arriveBar s' h n
  | .spawn e =>
    match s'.team? h.team with
    | none => s'
    | some tm =>
      (s'.updLaunch tm.launch (fun l => { l with count := l.count + 1 })).updTeam h.team (fun x =>
        { x with pendq := x.pendq.filter (·.accepted) ++ (x.pendq.filter (fun p => decide (p.id = e))).map (fun p => { p with accepted := true })
            ++ x.pendq.filter (fun p => !p.accepted && decide (p.id ≠ e)) })
  | .fence => finishWait s' h.team h.group
  | .fencesc => s'.updGroup h.team h.group (fun y => { y with status := .waiting .fencescTick })
  | .tinv v n all => tinvStart s' h v n all
  | .popr => popReturn s' id h
  | .pgmapFence pool q d e => pgmapAct s id h pool q d e
  | .pgmapFill a leaf d e => if logFree (s.core h.core) = 0 then s else pgmapStore s' h a leaf d e true
  | .pgmapLeaf a leaf d e _ => pgmapWrite s' h a leaf d e
  | .csload a sel e => csloadAct s' h a sel e
  | .gridEnd gd => gridEndAct s' h gd
  | .launchEnd l => launchEndAct s' h l
  | .reportIndex p wr _ => reportIndexAct s' h p wr

/-- What the write of a release waits for first (R230). -/
def awaitRelease (s : State) (h : Held) : Option State :=
  match h.kind with
  | .strel q | .atom q =>
    match s.team? h.team, findOp s h.team h.group q with
    | some tm, some (_, o) => o.lines.findSome? (fun l => awaitOp s tm o l (o.todo l))
    | _, _ => none
  | _ => none

/-- RELEASE_COMPLETE: a held release completes when R233 and R235 let it, its home can still stamp its writes in this tick, and the data
that it writes to need no check. -/
def execReleaseComplete (id : Nat) (s : State) : Out :=
  match alook s.held id with
  | none => .next s
  | some h =>
    if clearable s id h && s.room 1024 then .next ((awaitRelease s h).getD (completeRelease s id h)) else .next s

/-! ### TICK -/

def tickEnd : Nat := 2 ^ 48

/-- Clear-through values as the cores see them in the next tick (`State.clearedBelow`): a home is cleared below the earliest
close whose record is missing; every other home is one tick behind (R232). -/
def publish (s : State) : List (Nat × Nat) :=
  s.expects.foldl (fun m e =>
    aput m e.home (match alook m e.home with | some t => min t e.close | none => e.close)) []

/-- Step 3 of R208: the FENCESCs that wait for a tick boundary complete, all of them at one boundary, each core counting its own (log
entry 84). -/
def finishFencesc (s : State) : State :=
  s.teams.foldl (fun s e => e.2.groups.foldl (fun s g =>
    if g.2.status = GStatus.waiting .fencescTick then
      (finishWait s e.1 g.1).updCore e.2.core (fun c =>
        if c.fencescTick = s.tick then { c with fencesc := c.fencesc + 1 } else { c with fencesc := 1, fencescTick := s.tick })
    else s) s) s

/-- Every open interval is force-closed and reopened with the same holders (R241, R242). -/
def forceClose (s : State) (l : Nat) : State := let ls := s.line l; reopen s l true ls.holders ls.author

/-- With healthy links a record reaches its home within one tick of its close (R229). -/
def recordsDue (s : State) : State := { s with expects := s.expects.filter (fun e => e.lost || decide (s.tick ≤ e.close)) }

/-- Every probe that was sent is answered (R183). -/
def answerProbes (s : State) : State :=
  s.probes.foldl (fun s p => match execProbe p.1 p.2.1 p.2.2 s with | .next s' => s' | _ => s) s

/-- A counter in host memory or in an HDM-H range is read again at least once every 64 ticks (R294). -/
def rereadUnseen (s : State) : State :=
  if s.tick % 64 = 0 ∧ (waitKeys s).isEmpty = false then makeDue s (unseen s) else s

/-- The sweeper closes an interval that has been open for 2^18 - 1 ticks (R241). -/
def sweepOld (s : State) : State :=
  s.lines.foldl (fun s e => if (s.line e.1).start + (2 ^ 18 - 1) ≤ s.tick then forceClose s e.1 else s) s

/-- The tick boundary, given the new tick. A quarantine that has begun has taken effect by then. -/
def newTick (s : State) (n : Nat) : State :=
  let s := answerProbes (recordsDue (settleRecalls s))
  let s := { s.cyclesTo 128 with homes := publish s }
  rereadUnseen (sweepOld (finishFencesc { s with tick := n, cycle := 0 }))

/-- Four ticks before the wrap every new release is held and every interval is force-closed (R242). -/
def beginWrap (s : State) : State :=
  if s.wrapHold ∨ s.tick < tickEnd - 4 then s
  else s.lines.foldl (fun s e => forceClose s e.1) { s with wrapHold := true }

/-- The writes before every release that issued before the wrap's hold are performed, so that none of their times lies in the last tick. -/
def wrapWrites (s : State) : Bool :=
  s.held.all (fun e => e.2.split == wrapSplit || (!writesPending s e.2 && drained s e.2))

/-- TICK (R4). The last tick before the wrap begins when no release has writes to wait for (R242; log entry 38), and ends only with
TICK_WRAP. -/
def execTick (s : State) : Out :=
  if s.tick + 1 = tickEnd ∨ (s.tick + 2 = tickEnd ∧ wrapWrites s = false) then .next s else .next (beginWrap (newTick s (s.tick + 1)))

/-- Releases that were held before the wrap's hold began must have completed. -/
def wrapReady (s : State) : Bool := s.held.all (fun e => e.2.split == wrapSplit)

/-- TICK_WRAP (R242): the counter wraps, and no stamp from before it is compared with one after it. -/
def execTickWrap (s : State) : Out :=
  if s.tick + 1 ≠ tickEnd ∨ wrapReady s = false ∨ s.expects.any (·.lost) = true then .next s
  else
    let health := (span 0 5).map (fun c => if healthy s c then s.fw.health.getD c 0 else 0)
    let s := newTick s 0
    let zeroTime : EvTime := ⟨0, none, false⟩
    let zeroOp : DoneOp → DoneOp := fun o => { o with vt := 0 }
    let zeroGroup := fun (y : Group) => { y with lastVT := 0, done := y.done.map zeroOp }
    .next { s with
      wrapHold := false
      stamps := []
      homes := []
      expects := []
      marks := s.marks.map (fun m => { m with ts := 0 })
      held := s.held.map (fun e => (e.1, { e.2 with ts := 0, split := 0 }))
      lines := s.lines.map (fun e => (e.1, { e.2 with start := 0 }))
      dirs := s.dirs.map (fun d => (d.1, d.2.map (fun e => (e.1, { e.2 with last := 0 }))))
      sleepTick := 0
      teams := s.teams.map (fun e => (e.1, { e.2 with
        vt := 0
        placedTick := 0
        woken := e.2.woken.map (fun _ => 0)
        groups := e.2.groups.map (fun g => (g.1, zeroGroup g.2))
        rings := e.2.rings.map (fun r => (r.1, { r.2 with stages := r.2.stages.map (fun v => { v with ts := 0, nts := 0 }) }))
        barriers := e.2.barriers.map (fun b => (b.1, { b.2 with ts := 0, nts := 0 })) }))
      grids := s.grids.map (fun e => (e.1, { e.2 with vt := 0, ready := 0, again := e.2.again.map (fun a => (a.1, a.2.1, 0)), outcome := 0 }))
      fronts := s.fronts.map (fun f => { f with pauseSince := 0 })
      fw := { s.fw with
        health := health
        watchdog := s.fw.watchdog - tickEnd
        rungs := s.fw.rungs.map (fun r => { r with deadline := r.deadline.map (· - tickEnd) }) }
      launches := s.launches.map (fun e => (e.1, { e.2 with vt := 0 }))
      cores := s.cores.map (fun c => (c.1, { c.2 with
        log := c.2.log.map (fun e => { e with time := e.time.map (fun _ => zeroTime), asEarlier := e.asEarlier.map (fun _ => zeroTime) })
        fencescTick := 0
        copies := c.2.copies.map (fun k => (k.1, { k.2 with vt := 0 })) })) }

end Sys2Proof.Machine
end

