-- ==== Sys2Proof/Machine/Checkers.lean ====
section
/-! DEFINITION. The checkers' steps: PICCOLO_REPLAY (R224 to R227), BASSOON_RECORD (R229, R230, Table 10-4), LOST_TIMEOUT,
SWEEPER_FORCE_CLOSE (R241), retention sleep (R242). -/
namespace Sys2Proof.Machine

/-! ### Piccolo -/

/-- Entries of teams that have gone are dropped, and those that nothing is to be compared with any more. -/
def tidyLog (s : State) (core : Nat) : State :=
  s.updCore core (fun c => { c with log := keptLog (c.log.filter (fun e => (s.team? e.team).isSome)) })

/-- The time of an entry has to be known for its replay, and the times of the entries that it may not pass. -/
def replayable (log : List LogEntry) (y : LogEntry) : Bool :=
  noTime y || (y.time.isSome && (blockers log y).all (fun x => (earlierTime log x y).isSome))

/-- The earlier entry that a replayed entry passes though it may not (R227). An entry that has no time yet, of a release that is
held, passes none. -/
def passed (log : List LogEntry) (y : LogEntry) : Option LogEntry :=
  match y.time with
  | some ty => (blockers log y).find? (fun x => match earlierTime log x y with
      | some tx => passes ty tx
      | none => false)
  | none => none

/-- A release or fence at SYSTEM scope flushes the earlier writes of its group to host memory: the time of each is then, for what it
orders, the bind time of the read that flushes it (R208, R214, R226). -/
def flushHost (s : State) (core : Nat) (y : LogEntry) : State :=
  if y.scope != .system || !(y.kind == .fence || y.kind == .strel || y.kind == .other true
      || (match y.kind with | .atom _ rel => rel | _ => false)) then s
  else
    logMap s core (fun e => e.team == y.team && e.group == y.group && decide (e.seq < y.seq) && e.asEarlier.isNone
        && (match e.line with | some l => targetOf (128 * l) == .host | none => false)
        && (match e.time with | some t => t.write | none => false))
      (fun e => { e with asEarlier := some ⟨s.now 2690, some 2690, false⟩ })

/-- Room in the log of a core: a SPAWN that had to wait for it, with an entry free, takes its entry (R291). -/
def grantCore (s : State) (core : Nat) : State := (teamsOn s core).foldl (fun s e => grantSpawn s e.1) s

/-- PICCOLO_REPLAY: the first entry not yet replayed, in allocation order, is checked against the entries that it may not pass. -/
def execPiccoloReplay (core : Nat) (s : State) : Out :=
  let s := tidyLog (settleRecalls s) core
  let tidyLog := fun (s : State) (core : Nat) => grantCore (tidyLog s core) core
  let log := (s.core core).log
  match log.find? (fun e => !e.replayed) with
  | none => .next s
  | some y =>
    match overtaken log y with
    | some x => .next (tidyLog (orderViolation s core y x false) core)
    | none =>
      if !replayable log y then .next s
      else
        match passed log y with
        | some x => .next (tidyLog (orderViolation s core y x false) core)
        | none => .next (tidyLog (flushHost (logMap s core (fun e => e.idx == y.idx) (fun e => { e with replayed := true })) core y) core)

/-! ### Bassoon -/

/-- The HBM line of an index at a slice. -/
def lineOfIndex (home idx : Nat) : Nat :=
  let t := idx / 4
  let k := home % 160
  let q := k / 32 * 32 + ((k % 32) ^^^ fold5 8 t)
  (home / 160 * dieSpan + (t * 160 + q) * 512) / 128 + idx % 4

/-- The checks of Table 10-4 on a record against the close that its home took part in: 1 SWMR, 2 VALUE. Of what an HBM controller
sends, the hash counts. -/
def recordFault (r : BassoonRec) (e : Expect) : Option Nat :=
  if e.src ≠ .stack ∧ (r.endlo.toNat ≠ e.close % 256 ∨ r.hold.toNat ≠ e.hold ∨ r.writer ≠ e.writer ∨ e.close - e.start < r.dur.toNat) then
    some 1
  else if r.hstart ≠ e.hstart ∨ r.hend ≠ e.hend ∨ (r.writer = false ∧ r.hend ≠ r.hstart) then some 2
  else none

/-- UKIND, DIE and UNIT of a home (Table 10-7). -/
def homeUnit (home : Nat) : Nat × Nat × Nat := if home < 640 then (2, home / 160, home % 160) else (4, 4, home - 640)

/-- A violation that a home reports for an interval of a line; the interval's writer is the group that last wrote the line in it. -/
def homeViolation (s : State) (home kind line start fin : Nat) (author : Option (Nat × Nat)) : State :=
  let u := homeUnit home
  let v : Violation := { kind := kind, line := line, start := start, fin := fin, ukind := u.1, die := u.2.1, unit := u.2.2 }
  contain s v (affected s home start) author false

/-- The full tick of a record's close, as the home reconstructs it. -/
def closeTick (s : State) (endlo : Nat) : Nat := s.tick - (s.tick + 256 - endlo % 256) % 256

/-- The closes of an emitter that a home has no record of yet, oldest first: HOME records answer those of its own side. -/
def outstanding (s : State) (home agent : Nat) (own : Bool) : List Expect :=
  s.expects.filter (fun e => e.home == home && e.agent == agent && !e.lost && (e.src == .home) == own)

/-- The close that a record answers: one of its line that it satisfies, else one of its line and tick, else any of its line. -/
def matchExpect (mine : List Expect) (r : BassoonRec) : Option Expect :=
  let line := mine.filter (fun e => lineIndex e.line == r.line.toNat)
  (line.find? (fun e => (recordFault r e).isNone)) <|> (line.find? (fun e => r.endlo.toNat == e.close % 256)) <|> line.head?

/-- A record has arrived: its close is matched, and those of the same emitter before it, whose records the network would have
delivered first, will get none (R184). A home's own records do not travel (R231). -/
def takeRecord (s : State) (e : Expect) (mine : List Expect) : State :=
  let earlier := if e.src = .home then [] else mine.takeWhile (· != e)
  { s with expects := (s.expects.erase e).map (fun x => if earlier.contains x then { x with lost := true } else x) }

/-- BASSOON_RECORD: a home checks a record that an agent sent it: a requester's, an HBM controller's, or its own. A record for which
no close is outstanding lies in no interval of the home's, which is an SWMR violation. -/
def execBassoonRecord (path : RecordPath) (r : BassoonRec) (s : State) : Out :=
  let home := path.home
  let mine := outstanding s home path.agent r.home
  match matchExpect mine r with
  | some e =>
    let s := takeRecord s e mine
    match recordFault r e with
    | none => .next s
    | some k => .next (homeViolation s home k e.line e.start e.close e.author)
  | none =>
    let fin := closeTick s r.endlo.toNat
    let line := if home < 640 then lineOfIndex home r.line.toNat
      else ((s.lines.map (·.1)).find? (fun l => homeOf s (128 * l) == some home && lineIndex l == r.line.toNat)).getD 0
    .next (homeViolation s home 1 line (fin - r.dur.toNat) fin (s.line line).author)

/-- LOST_TIMEOUT: a record has not come within 4 ticks of its close. Before the counter wraps the home waits no longer. -/
def execLostTimeout (home line : Nat) (s : State) : Out :=
  match s.expects.find? (fun e => e.home == home && e.line == line && e.lost
      && (decide (e.close + 4 < s.tick) || decide (s.tick + 1 = tickEnd))) with
  | none => .next s
  | some e => .next (homeViolation { s with expects := s.expects.erase e } home 3 line e.start e.close e.author)

/-- A record that will not arrive. A home's own records do not travel. -/
def loseRecord (s : State) (n : Nat) : State :=
  match s.expects[n]? with
  | some e => if e.src = .home then s else { s with expects := s.expects.set n { e with lost := true } }
  | none => s

/-- The record that an emitter sends when nothing has gone wrong. -/
def Expect.record (e : Expect) : BassoonRec :=
  { hend := e.hend, hstart := e.hstart, line := BitVec.ofNat 23 (lineIndex e.line), hold := BitVec.ofNat 12 e.hold,
    dur := BitVec.ofNat 18 (e.close - e.start), endlo := BitVec.ofNat 8 e.close, home := e.src == .home, writer := e.writer,
    forced := e.forced }

/-- SWEEPER_FORCE_CLOSE: an interval that has been open for 2^18 - 1 ticks. -/
def execSweeperForceClose (line : Nat) (s : State) : Out :=
  let ls := s.line line
  if (alook s.lines line).isSome && decide (ls.start + (2 ^ 18 - 1) ≤ s.tick) then .next (forceClose s line)
  else .next s

/-! ### Retention sleep (R242) -/

/-- A line at the entry to sleep: dirty data is written back and its interval closed. -/
def sleepLine (s : State) (l : Nat) : State :=
  reopen (if (s.line l).dirty then s.expect (stackRecord s l true) else s) l true [] none

/-- RETENTION_SLEEP_ENTRY: every dirty line is written back and every interval closed. -/
def execRetentionSleepEntry (s : State) : Out :=
  if s.sleeping then .next s
  else .next { (s.lines.foldl (fun s e => sleepLine s e.1) s) with sleeping := true, sleepTick := s.tick }

/-- RETENTION_WAKE: once every home's clear-through has passed the entry tick, intervals open afresh with no stored hash. -/
def execRetentionWake (s : State) : Out :=
  if s.sleeping ∧ s.sleepTick < s.tick ∧ s.expects.all (fun e => decide (s.sleepTick < e.close)) = true then
    .next { s with sleeping := false, sleepTick := s.tick, lines := [], homes := [] }
  else .next s

end Sys2Proof.Machine
end

