-- ==== Sys2Proof/Machine/Copies.lean ====
section
/-! DEFINITION. What copies do (R142, R145 to R151, R155, R260): COPY_COMPLETE, COPY_FAULT, and REMOTE_ATOMIC, which also
performs the atomics of groups (R202). A copy works by units: one element, or 32 elements along dimension 0 when one side
holds blocks; `copyUnit` performs one ahead of the others, and `landByte` writes one byte of a unit to the buffer side (R134, R145). -/
namespace Sys2Proof.Machine

/-! ### Units and positions -/

def unitSize (r : CRec) : Nat := if (cSType r).isBlock || (cDType r).isBlock then 32 else 1
def unitCols (r : CRec) : Nat := cWin r 0 / unitSize r
def unitCount (r : CRec) : Nat := unitCols r * rowCount r
def unitRow (r : CRec) (k : Nat) : Nat := k / unitCols r
def unitW0 (r : CRec) (k : Nat) : Nat := k % unitCols r * unitSize r

/-- Window index of a row in dimension n. -/
def rowIdx (r : CRec) (row n : Nat) : Nat :=
  match n with
  | 1 => row % cWin r 1
  | 2 => row / cWin r 1 % cWin r 2
  | 3 => row / (cWin r 1 * cWin r 2) % cWin r 3
  | _ => row / (cWin r 1 * cWin r 2 * cWin r 3) % cWin r 4

/-- Tensor index in dimension n, with a gathered row's index in place of ORG1 + w1 (R146). -/
def tensorIdx (r : CRec) (gather : Option Nat) (row w0 n : Nat) : Int :=
  match n, gather with
  | 0, _ => cOrg r 0 + w0
  | 1, some g => g
  | _, _ => cOrg r n + rowIdx r row n

def insideAt (r : CRec) (gather : Option Nat) (row w0 : Nat) : Bool :=
  (span 0 (cRank r)).all (fun n => decide (0 ≤ tensorIdx r gather row w0 n ∧ tensorIdx r gather row w0 n < cDim r n))

def addrAt (r : CRec) (gather : Option Nat) (row w0 : Nat) : Nat :=
  tensorAddr r ((span 0 5).map (fun n => if n < cRank r then (tensorIdx r gather row w0 n).toNat else 0))

/-- Elements of a unit, by their place in it, that lie inside the tensor. -/
def insideOf (r : CRec) (gather : Option Nat) (k : Nat) : List Nat :=
  (span 0 (unitSize r)).filter (fun i => insideAt r gather (unitRow r k) (unitW0 r k + i))

/-- The tensor side's accesses of a unit: address and bytes. A block is accessed whole. -/
def unitAccesses (r : CRec) (gather : Option Nat) (k : Nat) : List (Nat × Nat) :=
  let ins := insideOf r gather k
  let n := tensorUnit r
  if (tensorType r).isBlock then (match ins with | [] => [] | i :: _ => [(addrAt r gather (unitRow r k) (unitW0 r k + i), n)])
  else ins.map (fun i => (addrAt r gather (unitRow r k) (unitW0 r k + i), n))

/-! ### Faults of a copy (R150, R151) -/

/-- What the tensor side in memory needs of its leaf. -/
def copyRights (c : Copy) : List Right := if c.op = 2 then [.at] else if tensorIsSrc c.record then [.rd] else [.wr]

/-- CPYRED on host memory adds integers only (R202, R342). -/
def redRefused (c : Copy) (key : Nat) : Bool :=
  c.op == 2 && targetOf key == .host && !((cDType c.record) == .plain .i32 || (cDType c.record) == .plain .n32)

/-- A byte of memory that the copy accesses: its key, or the fault that it meets. -/
def copyByte (s : State) (core part : Nat) (c : Copy) (va : Nat) : Nat ⊕ CopyHold :=
  if 2 ^ 55 ≤ va then .inr ⟨0x25, va, 0⟩
  else
    match translate s core part va (copyRights c) with
    | .cause 4 _ => .inr ⟨0x24, va, 1⟩
    | .cause 5 _ => .inr ⟨0x25, va, 0⟩
    | .cause _ _ => .inr ⟨0x26, va, 2⟩
    | .ok key =>
      if redRefused c key then .inr ⟨0x24, va, 1⟩
      else if accessBad s key false (c.op != 2 && !tensorIsSrc c.record) then .inr ⟨0x26, va, 2⟩
      else .inl key

def firstFault (l : List (Nat ⊕ CopyHold)) : Option CopyHold :=
  l.findSome? (fun r => match r with | .inr h => some h | .inl _ => none)

def keysOf (l : List (Nat ⊕ CopyHold)) : List Nat := l.filterMap (fun r => match r with | .inl k => some k | .inr _ => none)

/-- The region that a handle of the copy names, when it resolves and its quota holds the footprint. Of a handle that resolves only
after issue, to a region that is too small for the footprint, no rule speaks; the model takes it as unresolved (log entry 67). -/
def copyRegion (s : State) (c : Copy) (tm : Team) (h : Word) (fin : Nat) : Option (Nat × Region) :=
  match handleTeam s c.team tm h with
  | some u => (s.team? u).bind (fun x => if fin ≤ (x.region (hBuf h)).quota then some (u, x.region (hBuf h)) else none)
  | none => none

def denseRegion (s : State) (c : Copy) (tm : Team) : Option (Nat × Region) :=
  copyRegion s c tm (denseHandle c.record) (denseEnd c.record)
def tensorRegion (s : State) (c : Copy) (tm : Team) : Option (Nat × Region) :=
  copyRegion s c tm (tensorHandle c.record) ((tensorEnd c.record).getD 0)

/-- An unresolved side (R151). AUX byte 0x088, the faulting virtual address of a memory side, holds the handle's OFFSET; the rule
names no value for it (log entry 68). -/
def sideFault (s : State) (c : Copy) (tm : Team) : Option CopyHold :=
  if (denseRegion s c tm).isNone then some ⟨0x24, hOff (denseHandle c.record), 3⟩
  else if !tensorInMem c.record && (tensorRegion s c tm).isNone then some ⟨0x24, hOff (tensorHandle c.record), 3⟩
  else none

/-- The gathered index of a row: as gathered before, or as the index list holds it now; for the other copies none. -/
inductive GIdx where
  | plain
  | idx (i : Nat)
  | fault (h : CopyHold)
  deriving DecidableEq, Repr

def gatherOf (s : State) (core part : Nat) (c : Copy) (row : Nat) : GIdx :=
  if c.op ≠ 1 then .plain
  else
    let w1 := rowIdx c.record row 1
    match alook c.rows w1 with
    | some i => .idx i
    | none =>
      let bytes := (span (cIdx c.record + 4 * w1) 4).map (copyByte s core part c)
      match firstFault bytes with
      | some h => .fault h
      | none => .idx (ofBytes ((keysOf bytes).map s.byte))

/-- The index words that a row's gather reads now, as relaxed loads of the copy's thread through the core's L1 (R146, R241). -/
def indexReads (s : State) (core part : Nat) (c : Copy) (row : Nat) : List Nat :=
  let w1 := rowIdx c.record row 1
  if c.op ≠ 1 ∨ (alook c.rows w1).isSome then []
  else unionNat ((keysOf ((span (cIdx c.record + 4 * w1) 4).map (copyByte s core part c))).map lineOf) []

def GIdx.val : GIdx → Option Nat | .idx i => some i | _ => none

/-- The fault of a unit not yet done. -/
def unitFault (s : State) (core part : Nat) (c : Copy) (k : Nat) : Option CopyHold :=
  match gatherOf s core part c (unitRow c.record k) with
  | .fault h => some h
  | g =>
    if tensorInMem c.record then
      (unitAccesses c.record g.val k).findSome? (fun a => firstFault ((span a.1 a.2).map (copyByte s core part c)))
    else none

/-! ### Values -/

/-- A field of n bits at a bit offset of a byte string. -/
def bitField (bs : List Byte) (bit n : Nat) : Nat := bitsOf (ofBytes bs) (bit + n - 1) bit

def emaxElem : ElemType → Int | .e4m3 => 8 | .e5m2 => 15 | _ => 2

/-- Quantise 32 values into a block type: scale, and code and flags of each element. -/
def quantise (t : CType) (vs : List Val) (m : RMode) : Nat × List (Nat × Fl) :=
  match t with
  | .bx f => let q := quantiseBX (bxBits f) vs m; (q.1, q.2.map (fun e => (wrapTo e.1 (bxBits f), e.2)))
  | .mx e => quantiseMX e (emaxElem e) vs m
  | .plain _ => (0, [])

/-- The value of an element of a block. -/
def blockVal (t : CType) (scale code : Nat) : Val :=
  match t with
  | .bx f => bxVal (bxBits f) scale (signedOf code (bxBits f))
  | .mx e => mxVal e scale code
  | .plain e => decodeVal e code

/-- A source unit: per element its code, none where it lies outside (the fill); and the block's scale. -/
structure UnitIn where
  codes : List (Option Nat)
  scale : Nat
  deriving DecidableEq, Repr

/-- A destination unit: code and flags of each element, and the block's scale. -/
structure UnitOut where
  codes : List (Nat × Fl)
  scale : Nat
  deriving DecidableEq, Repr

def fillVal (r : CRec) : Val := match cSType r with | .plain t => decodeVal t (cN r 5) | _ => decodeVal .fp32 (cN r 5)

/-- The value of a source element. -/
def elemVal (r : CRec) (u : UnitIn) (c : Option Nat) : Val := match c with | some p => blockVal (cSType r) u.scale p | none => fillVal r

/-- Convert a unit (R127, R145): bits move unchanged between equal types; a fill block is quantised. -/
def convertUnit (r : CRec) (u : UnitIn) : UnitOut :=
  let st := cSType r
  let vals := u.codes.map (elemVal r u)
  match cDType r with
  | .plain t =>
    if st = .plain t then ⟨u.codes.map (fun c => ((c.getD (cN r 5)) % 2 ^ typeBits t, 0)), 0⟩
    else
      let int := match st with | .plain e => isIntType e | _ => false
      ⟨vals.map (fun v => convertVal t v int (cRMode r) (cSat r)), 0⟩
  | t =>
    if st = t ∧ u.codes.all (·.isSome) then ⟨u.codes.map (fun c => (c.getD 0, 0)), u.scale⟩
    else let q := quantise t vals (cRMode r); ⟨q.2, q.1⟩

/-! ### Reading and writing a unit -/

/-- The codes of a packed or dense run of elements of b bits, and its scale byte. -/
def codesIn (b n : Nat) (bs : List Byte) : List Nat := (span 0 n).map (fun i => bitsOf (ofBytes bs) (b * i + b - 1) (b * i))

/-- Elements packed into bytes (R118). -/
def packCodes (b : Nat) (cs : List Nat) : List Byte :=
  bytesOf (b * cs.length / 8) (sumNat ((span 0 cs.length).map (fun i => cs.getD i 0 * 2 ^ (b * i))))

/-- The half byte of a plain E2M1 element at tensor index p0. -/
def subBit (t : CType) (p0 : Nat) : Nat := if t = .plain .e2m1 ∧ p0 % 2 = 1 then 4 else 0

/-- Bytes of the tensor side. -/
def tensorBytes (s : State) (core part : Nat) (c : Copy) (src : Region) (a n : Nat) : List Byte :=
  if tensorInMem c.record then (keysOf ((span a n).map (copyByte s core part c))).map s.byte else src.read a n

/-- A unit from the tensor side. -/
def readTensor (s : State) (core part : Nat) (c : Copy) (src : Region) (g : Option Nat) (k : Nat) : UnitIn :=
  let r := c.record
  let t := tensorType r
  let row := unitRow r k
  let ins := insideOf r g k
  match t with
  | .plain e =>
    ⟨(span 0 (unitSize r)).map (fun i =>
      let w0 := unitW0 r k + i
      if ins.contains i then
        some (bitField (tensorBytes s core part c src (addrAt r g row w0) (tensorUnit r))
          (subBit t (tensorIdx r g row w0 0).toNat) (typeBits e))
      else none), 0⟩
  | _ =>
    match ins with
    | [] => ⟨(span 0 32).map (fun _ => none), 0⟩
    | i :: _ =>
      let bs := tensorBytes s core part c src (addrAt r g row (unitW0 r k + i)) t.blockBytes
      ⟨(codesIn t.bits 32 (bs.drop 1)).map some, (bs.getD 0 0).toNat⟩

/-- A unit from the dense side. -/
def readDense (c : Copy) (reg : Region) (k : Nat) : UnitIn :=
  let r := c.record
  let t := denseType r
  let row := unitRow r k
  let w0 := unitW0 r k
  match t with
  | .plain e =>
    ⟨(span 0 (unitSize r)).map (fun i =>
      let x := w0 + i
      some (bitField (reg.read (denseByte r row x) ((typeBits e + 7) / 8)) (x * typeBits e % 8) (typeBits e))), 0⟩
  | _ =>
    ⟨(codesIn t.bits 32 (reg.read (denseByte r row w0) (4 * t.bits))).map some,
      (reg.byte (denseScale r row (w0 / 32))).toNat⟩

/-- Write a field of n bits at a bit of a byte offset of a region; whole bytes are written as they are. -/
def Region.putField (r : Region) (o bit n v : Nat) : Region :=
  if bit = 0 ∧ n % 8 = 0 then r.putBytes o (bytesOf (n / 8) v)
  else
    let x := ofBytes (r.read o ((bit + n + 7) / 8))
    r.putBytes o (bytesOf ((bit + n + 7) / 8) (x - bitsOf x (bit + n - 1) bit * 2 ^ bit + v * 2 ^ bit))

/-- Write a unit to the dense side. -/
def writeDense (c : Copy) (reg : Region) (k : Nat) (u : UnitOut) : Region :=
  let r := c.record
  let t := denseType r
  let row := unitRow r k
  let w0 := unitW0 r k
  match t with
  | .plain e =>
    (span 0 u.codes.length).foldl (fun reg i =>
      let x := w0 + i
      reg.putField (denseByte r row x) (x * typeBits e % 8) (typeBits e) (u.codes.getD i (0, 0)).1) reg
  | _ =>
    (reg.putBytes (denseByte r row w0) (packCodes t.bits (u.codes.map (·.1)))).putByte (denseScale r row (w0 / 32))
      (BitVec.ofNat 8 u.scale)

/-- The bytes of the dense side that a unit writes. -/
def denseTouched (r : CRec) (k : Nat) : List Nat :=
  let t := denseType r
  let row := unitRow r k
  let w0 := unitW0 r k
  match t with
  | .plain e => unionNat ((span 0 (unitSize r)).flatMap (fun i => span (denseByte r row (w0 + i)) ((typeBits e + 7) / 8))) []
  | _ => span (denseByte r row w0) (4 * t.bits) ++ [denseScale r row (w0 / 32)]

/-- The region as it will be once the bytes that are on their way have landed. -/
def Region.landed (r : Region) (bytes : List (Nat × Byte)) : Region := bytes.foldl (fun r e => r.putByte e.1 e.2) r

/-- What is on its way to the dense side after a unit has been converted. -/
def landingAfter (c : Copy) (reg : Region) (k : Nat) (u : UnitOut) : List (Nat × Byte) :=
  let reg' := writeDense c (reg.landed c.landing) k u
  (denseTouched c.record k).foldl (fun m o => aput m o (reg'.byte o)) c.landing

/-- A write of an engine has become visible: its time, home and line go to the copy, its time and home to its team. -/
def noteCopyWrite (s : State) (core slot : Nat) (c : Copy) (line : Nat) (vt : VTime) (agent : Nat) : State :=
  let add := fun hs => match homeOf s (128 * line) with | some d => insertNat d hs | none => hs
  let s := s.updCore core (fun k => { k with copies := k.copies.map (fun e =>
    if e.1 = slot then (e.1, { e.2 with
      vt := max e.2.vt vt, agent := if e.2.vt ≤ vt then some agent else e.2.agent, homes := add e.2.homes,
      wrote := insertNat line e.2.wrote }) else e) })
  s.updTeam c.team (fun x => { x with vt := max x.vt vt, homes := add x.homes })

/-- Bytes of the copy written at memory keys through the core's L1, line by line. -/
def copyStore (s : State) (core slot : Nat) (c : Copy) (kb : List (Nat × Byte)) : State :=
  (unionNat (kb.map (fun e => lineOf e.1)) []).foldl (fun s l =>
    let s := writeLine s c.team c.group core l
    let agent := lineAgent s core l
    let vt := s.now agent
    let s := (kb.filter (fun e => lineOf e.1 == l)).foldl (fun (s : State) e =>
      { s.putByte e.1 e.2 with marks := clearMarks s.marks e.1 1 }) s
    noteCopyWrite (s.stamp agent) core slot c l vt agent) s

/-- Write the inside elements of a unit to memory. -/
def writeTensor (s : State) (core slot part : Nat) (c : Copy) (g : Option Nat) (k : Nat) (u : UnitOut) : State :=
  let r := c.record
  let t := tensorType r
  let row := unitRow r k
  let keys := fun (s : State) (a n : Nat) => keysOf ((span a n).map (copyByte s core part c))
  match t with
  | .plain e =>
    (insideOf r g k).foldl (fun s i =>
      let w0 := unitW0 r k + i
      let a := addrAt r g row w0
      let ks := keys s a (tensorUnit r)
      let v := (u.codes.getD i (0, 0)).1
      let bs :=
        if e = .e2m1 then
          let old := (s.byte (ks.getD 0 0)).toNat
          let bit := subBit t (tensorIdx r g row w0 0).toNat
          [BitVec.ofNat 8 (old - bitsOf old (bit + 3) bit * 2 ^ bit + v * 2 ^ bit)]
        else bytesOf (tensorUnit r) v
      copyStore s core slot c (ks.zip bs)) s
  | _ =>
    match insideOf r g k with
    | [] => s
    | i :: _ =>
      let ks := keys s (addrAt r g row (unitW0 r k + i)) t.blockBytes
      copyStore s core slot c (ks.zip (BitVec.ofNat 8 u.scale :: packCodes t.bits (u.codes.map (·.1))))

/-! ### CPYRED (R147) -/

/-- One add, at the home of its line, as a single instant. -/
def addElem (s : State) (core slot part : Nat) (c : Copy) (k i : Nat) (x : Nat) : State :=
  let r := c.record
  match cDType r, copyByte s core part c (addrAt r none (unitRow r k) (unitW0 r k + i)) with
  | .plain t, .inl key =>
    let n := typeBits t / 8
    let l := lineOf key
    let old := ofBytes (s.bytes key n)
    let (w, fl) := laneAdd ⟨t, cRMode r, cSat r⟩ false (BitVec.ofNat 32 old) (BitVec.ofNat 32 x)
    let s := homeWrite s l part (some (c.team, c.group)) (fun s => s.putBytes key (bytesOf n w.toNat))
    let agent := homeAgent s key
    let vt := s.now agent
    let s := noteCopyWrite ((s.stamp agent).raise c.team fl) core slot c l vt agent
    s.updCore core (fun q => { q with copies := q.copies.map (fun e =>
      if e.1 = slot then (e.1, { e.2 with adds := insertNat (k * unitSize r + i) e.2.adds }) else e) })
  | _, _ => s

/-! ### Performing units -/

def copyAt (s : State) (core slot : Nat) : Option Copy := alook (s.core core).copies slot

def setCopy (s : State) (core slot : Nat) (f : Copy → Copy) : State :=
  s.updCore core (fun q => { q with copies := q.copies.map (fun e => if e.1 = slot then (e.1, f e.2) else e) })

/-- The lines that a unit reads through the core's L1: those of a row's index words, and of its elements when the memory side is
the source. -/
def unitReads (s : State) (core part : Nat) (c : Copy) (g : Option Nat) (k : Nat) : List Nat :=
  unionNat (indexReads s core part c (unitRow c.record k))
    (if tensorInMem c.record && tensorIsSrc c.record then
      (unitAccesses c.record g k).flatMap (fun a => (keysOf ((span a.1 a.2).map (copyByte s core part c))).map lineOf)
    else [])

/-- Perform a unit that meets no fault. What it writes to the buffer side is then on its way there. -/
def doUnit (s : State) (core slot part : Nat) (k : Nat) : State :=
  match copyAt s core slot with
  | none => s
  | some c =>
    match s.team? c.team with
    | none => s
    | some tm =>
      match denseRegion s c tm with
      | none => s
      | some (_, dense) =>
        let r := c.record
        let g := (gatherOf s core part c (unitRow r k)).val
        let src : Region := ((tensorRegion s c tm).map (·.2)).getD ⟨0, 0, 0, [], []⟩
        let src := src.landed c.taken
        let s := (unitReads s core part c g k).foldl (fun s l => coreLine s c.team core l false) s
        let out := convertUnit r (if tensorIsSrc r then readTensor s core part c src g k else readDense c (dense.landed c.taken) k)
        let ins := (insideOf r g k).filter (fun i => !c.adds.contains (k * unitSize r + i))
        let fl := if tensorIsSrc r then out.codes.foldl (fun f e => f ||| e.2) 0
          else ins.foldl (fun f i => f ||| (out.codes.getD i (0, 0)).2) 0
        let s := s.raise c.team fl
        let s :=
          if tensorIsSrc r then setCopy s core slot (fun c => { c with landing := landingAfter c dense k out })
          else if c.op = 2 then ins.foldl (fun s i => addElem s core slot part c k i (out.codes.getD i (0, 0)).1) s
          else writeTensor s core slot part c none k out
        setCopy s core slot (fun c => { c with
          done := insertNat k c.done
          rows := match g with | some i => aput c.rows (rowIdx r (unitRow r k) 1) i | none => c.rows })

/-- Bytes on their way to the buffer side land. -/
def landBytes (s : State) (core slot : Nat) (which : Nat → Bool) : State :=
  match copyAt s core slot with
  | none => s
  | some c =>
    match (s.team? c.team).bind (denseRegion s c) with
    | none => s
    | some (u, _) =>
      let b := hBuf (denseHandle c.record)
      let now : List (Nat × Byte) := c.landing.filter (fun e => which e.1)
      setCopy (s.updTeam u (fun x => x.putRegion b ((x.region b).landed now))) core slot (fun c =>
        { c with landing := c.landing.filter (fun e => !which e.1) })

/-- One byte lands ahead of the others: each byte of a race is decided separately (R134). -/
def landByte (s : State) (core slot off : Nat) : State := landBytes s core slot (· == off)

/-- Units not yet done, in the order in which elements that meet on a byte land (R145; log entry 4). -/
def unitsLeft (s : State) (c : Copy) : List Nat :=
  let l := (span 0 (unitCount c.record)).filter (fun k => !c.done.contains k)
  if Config.laterElementWins s.fresh then l else l.reverse

/-- The fork edge (R210): the group's operations before the copy are performed. -/
def forkDone (s : State) (t g seq : Nat) : Bool :=
  match s.group? t g with
  | some y => y.ops.all (fun o => decide (seq ≤ o.seq))
  | none => true

/-- An engine operation ends: the group's counter is lowered by `f`, its completion can be joined, and its post is held.
The post carries the operation's own times and homes (Table 9-3; log entry 85). -/
def endOperation (s : State) (core t g : Nat) (o : DoneOp) (post : Nat) (pc : DWord) (f : Group → Group) : State :=
  match s.team? t with
  | none => s
  | some tm =>
    let role := match tm.group? g with | some y => y.role | none => .copy
    let s := s.updGroup t g (fun y => f { y with done := y.done ++ [o] })
    if postE post then
      let s := s.updTeam t (fun x => { x with posts := x.posts + 1 })
      holdThread s (.post (postRing post) (postStage post)) t role g pc .team o.vt o.homes o.wrote core tm.part
    else s

/-- A copy may act: it is not held, its fork is done, its team is resident. -/
def copyMay (s : State) (c : Copy) : Option Team :=
  match s.team? c.team with
  | some tm => if c.held.isNone && forkDone s c.team c.group c.seq && tm.status == .resident && !s.sleeping then some tm else none
  | none => none

/-- A byte of a buffer that is the source of a copy is read ahead of the others of its element (R134). -/
def copyRead (s : State) (core slot off : Nat) : State :=
  match copyAt s core slot with
  | none => s
  | some c =>
    match copyMay s c with
    | none => s
    | some tm =>
      match if tensorIsSrc c.record then tensorRegion s c tm else denseRegion s c tm with
      | some (_, reg) =>
        if cSrcBuf c.record ∧ (alook c.taken off).isNone then setCopy s core slot (fun c => { c with taken := aput c.taken off (reg.byte off) })
        else s
      | none => s

/-- What a unit's accesses to memory wait for first (R230). -/
def awaitUnit (s : State) (core part : Nat) (c : Copy) (k : Nat) : Option State :=
  let r := c.record
  let lines := unionNat ((unitAccesses r (gatherOf s core part c (unitRow r k)).val k).flatMap (fun a =>
    (keysOf ((span a.1 a.2).map (copyByte s core part c))).map lineOf)) []
  ((indexReads s core part c (unitRow r k)).findSome? (fun l => awaitData s core part l false))
    <|> (if !tensorInMem r then none else lines.findSome? (fun l =>
      if c.op = 2 then awaitHome s part l else awaitData s core part l (!tensorIsSrc r)))

/-- The first fault that a copy meets. -/
def copyFaultOf (s : State) (core : Nat) (tm : Team) (c : Copy) : Option CopyHold :=
  (sideFault s c tm) <|> (unitsLeft s c).findSome? (fun k => unitFault s core tm.part c k)

/-- The stamps that some units of a copy may take: an element may lie on two lines. -/
def stampsFor (c : Copy) (units : Nat) : Nat := if tensorIsSrc c.record then 0 else 2 * units * unitSize c.record

/-- A unit of a copy is performed before the others (R145: in no defined order). -/
def copyUnit (s : State) (core slot k : Nat) : State :=
  match copyAt s core slot with
  | none => s
  | some c =>
    match copyMay s c with
    | none => s
    | some tm =>
      if (sideFault s c tm).isSome || !(unitsLeft s c).contains k || (unitFault s core tm.part c k).isSome || !s.room (stampsFor c 1) then s
      else (awaitUnit s core tm.part c k).getD (doUnit s core slot tm.part k)

/-- COPY_COMPLETE: a copy that meets no fault moves what is left of it, frees its slot, and is observed (R148). -/
def execCopyComplete (core slot : Nat) (s : State) : Out :=
  match copyAt s core slot with
  | none => .next s
  | some c =>
    match copyMay s c with
    | none => .next s
    | some tm =>
      if (copyFaultOf s core tm c).isSome || !s.room (stampsFor c (unitsLeft s c).length) then .next s
      else match (unitsLeft s c).findSome? (awaitUnit s core tm.part c) with
      | some s' => .next s'
      | none =>
        let s := (unitsLeft s c).foldl (fun s k => doUnit s core slot tm.part k) { s with fresh := s.fresh + 1 }
        let s := landBytes s core slot (fun _ => true)
        let c := (copyAt s core slot).getD c
        let o : DoneOp :=
          { id := c.id, vt := c.vt, agent := c.agent, homes := c.homes, wrote := c.wrote, paths := copyPaths c.record, stat := none,
            covered := false }
        let s := (s.updCore core (fun q => { q with copies := adel q.copies slot })).count c.team 6 1
        .next (endOperation s core c.team c.group o c.post c.pc (fun y => { y with cp := y.cp - 1 }))

/-- COPY_FAULT: some elements have been done, in no defined order (log entry 4); the copy is held, and its fault is an
imprecise trap for the group that issued it (R150, R151, R260). -/
def execCopyFault (core slot : Nat) (s : State) : Out :=
  match copyAt s core slot with
  | none => .next s
  | some c =>
    match copyMay s c with
    | none => .next s
    | some tm =>
      match copyFaultOf s core tm c with
      | none => .next s
      | some h =>
        let good := if (sideFault s c tm).isSome || !s.room (stampsFor c (unitsLeft s c).length) then []
          else (unitsLeft s c).filter (fun k => (unitFault s core tm.part c k).isNone && (awaitUnit s core tm.part c k).isNone && Config.copyDone s.fresh k)
        let s := good.foldl (fun s k => doUnit s core slot tm.part k) { s with fresh := s.fresh + 1 }
        let s := setCopy (landBytes s core slot (fun _ => true)) core slot (fun c => { c with held := some h })
        let s := if h.code < 0x24 ∨ h.kind = 3 then s else logWalk s core tm.part h.va
        match liveTarget tm c.group with
        | some g => .next (pendTrap s c.team g ⟨h.code, some slot, [(0x080, 1, slot), (0x088, 8, h.va), (0x090, 1, h.kind)], none, []⟩)
        | none => .next (failTeam s c.team h.code)

/-- REMOTE_ATOMIC: the home of a line performs a group's atomic on it, or one add of a CPYRED. -/
def execRemoteAtomic (src : AtomSrc) (s : State) : Out :=
  match src with
  | .groupOp t g seq line => .next (groupAtomic s t g seq line)
  | .copyElem core slot pos =>
    match copyAt s core slot with
    | none => .next s
    | some c =>
      match copyMay s c with
      | none => .next s
      | some tm =>
        let u := unitSize c.record
        let k := pos / u
        let i := pos % u
        match denseRegion s c tm with
        | none => .next s
        | some (_, dense) =>
          if c.op ≠ 2 ∨ c.done.contains k ∨ c.adds.contains pos ∨ unitCount c.record ≤ k ∨ (insideOf c.record none k).contains i = false
              ∨ (unitFault s core tm.part c k).isSome ∨ s.room 1 = false then .next s
          else match awaitUnit s core tm.part c k with
          | some s' => .next s'
          | none =>
            let out := (convertUnit c.record (readDense c (dense.landed c.taken) k)).codes.getD i (0, 0)
            .next (addElem (s.raise c.team out.2) core slot tm.part c k i out.1)

end Sys2Proof.Machine
end

