-- ==== Sys2Proof/Machine/Place.lean ====
section
/-! DEFINITION. A group and a team as placement makes them (R32, R63), and the team in which State.withFetchWord runs one
instruction. -/
namespace Sys2Proof.Machine

/-- A group at placement (R63): S0:2 holds the argument pointer, everything else zero, the mask every lane of the width. -/
def Group.fresh (role : Role) (slot : Nat) (pc : DWord) (width : Nat) (arg : DWord) : Group :=
  { role := role, slot := slot, pc := pc, active := fullMask width, live := fullMask width, gmr := 0,
    s := sput 0 (sput 0 [] 0 (loWord arg)) 1 (hiWord arg), v := [], k := [], stack := [], spilled := 0, frames := [],
    tcause := 0, tlanes := [], xfault := 0, xcount := 0, status := .ready, runPos := 0, rep := none, replay := none,
    xop := none, redo := [], redoEnd := .at 0, ops := [], nextSeq := 0, cp := 0, tm := 0, lastVT := 0, homes := [],
    wrote := [], done := [], q := QPort.idle, traps := [], passes := 0, starving := none, skid := 0,
    arrived := [], phase0 := [], bad := [], deps := [], midway := false }

/-- The role of group g: COPY groups first, then MATRIX, then VECTOR (R32). -/
def roleOf (nCopy nMatrix g : Nat) : Role := if g < nCopy then .copy else if g < nCopy + nMatrix then .matrix else .vector

/-! ### One instruction alone -/

/-- The role that may issue an instruction (Table 2-3). -/
def soloRole (i : Instr) : Role :=
  if roleAllows i .vector then .vector else if roleAllows i .matrix then .matrix else .copy

/-- The address at which State.withFetchWord stores its word, as virtual and as physical address. -/
def soloAddr : Nat := 0x10000

/-- A leaf with every right that maps the solo page to itself (Table 8-5). -/
def soloLeaf : DWord := BitVec.ofNat 64 (2 ^ 54 + 2 ^ 55 + 2 ^ 56 + 2 ^ 57 + soloAddr + 3)

def soloTeam (role : Role) : Team :=
  { grid := 0, teamIdx := 0, part := 0, core := 0, die := 0, launch := 0, queue := 0, width := 16,
    nCopy := if role = .copy then 1 else 0, nMatrix := if role = .matrix then 1 else 0,
    nVector := if role = .vector then 1 else 0, budgets := [16, 16, 16], quotas := [0, 0, 0], cslots := 1, nrings := 0,
    prio := 0, placed := 0, placedTick := 0, saveVA := 0, savePA := 0x400000, status := .resident, saving := none, stopped := false, tries := 0,
    groups := [(0, Group.fresh role 0 (BitVec.ofNat 64 soloAddr) 16 0)], flags := 0, perf := [], rings := [], barriers := [],
    pendq := [], bind := [], regions := [⟨0, 0, 0, [], []⟩, ⟨0, 0, 0, [], []⟩, ⟨0, 0, 0, [], []⟩], handler := none,
    woken := none, pri := false, vt := 0, homes := [], posts := 0 }

/-- A state in which a one-group team on core 0 has won its port and stands at the solo page, which holds the word. -/
def State.solo (s : State) (i : Instr) (w : Word) : State :=
  let t := s.newId
  let role := soloRole i
  let p := homePort role 0
  let s := (s.bumpId.putTeam t (soloTeam role)).write32 soloAddr w
  let s := s.updCore 0 (fun k => { k with
    ports := setAt k.ports p ⟨some (t, 0), 0⟩, tlb := ⟨0, soloAddr / 65536, soloLeaf, 3⟩ :: k.tlb })
  { s with agenda := [.issue 0 p] }

end Sys2Proof.Machine
end

