-- ==== Sys2Proof/Machine/Policy.lean ====
section
/-! DEFINITION. The Shawm policy engine: policy words (R304, R305), loops (R306), the verifier and its static bound (R309,
R310), the built-in rule (R301) and the control register PPOL (Table 14-9). -/
namespace Sys2Proof.Machine

/-! ### Words (Table 14-6) -/

def pOp (w : Word) : Nat := fieldOf w 31 26
def pD (w : Word) : Nat := fieldOf w 25 23
def pA (w : Word) : Nat := fieldOf w 22 20
def pB (w : Word) : Nat := fieldOf w 19 17
def pC (w : Word) : Nat := fieldOf w 16 14
def pF (w : Word) : Nat := fieldOf w 4 0
def pOff (w : Word) : Nat := fieldOf w 8 0

/-- Operations by shape: which fields each uses. -/
inductive PShape where
  | none | ldi | ldq | ldc | ldd | mov | bin | addi | cmp | sel | jmp | jcond | forq | forc | next | best | decide | halt
  deriving DecidableEq, Repr

/-- Table 14-7; no shape for a code that it does not list. -/
def pShape (op : Nat) : Option PShape :=
  match op with
  | 0x01 => some .none
  | 0x02 => some .ldi
  | 0x03 => some .ldq
  | 0x04 => some .ldc
  | 0x05 => some .ldd
  | 0x06 => some .mov
  | 0x08 | 0x09 | 0x0A | 0x0B | 0x0C | 0x0D | 0x0E | 0x0F | 0x10 | 0x11 => some .bin
  | 0x12 => some .addi
  | 0x13 => some .cmp
  | 0x14 => some .sel
  | 0x18 => some .jmp
  | 0x19 | 0x1A => some .jcond
  | 0x1C => some .forq
  | 0x1D => some .forc
  | 0x1E => some .next
  | 0x1F => some .best
  | 0x20 => some .decide
  | 0x21 => some .halt
  | _ => none

def wordShape (w : Word) : Option PShape := pShape (pOp w)

/-- The bits below OP that an operation leaves unused are zero, and its code, condition and offset are allowed. -/
def pWordOk (w : Word) : Bool :=
  let d0 := pD w == 0
  let a0 := pA w == 0
  let b0 := pB w == 0
  let c0 := pC w == 0
  let i0 := fieldOf w 13 0 == 0
  let f := fieldOf w 13 5 == 0
  let off := fieldOf w 13 9 == 0 && pOff w != 0
  match wordShape w with
  | none => false
  | some .none | some .forq | some .forc | some .next | some .halt => d0 && a0 && b0 && c0 && i0
  | some .ldi => true
  | some .ldq => b0 && c0 && f && decide (pF w ≤ 11)
  | some .ldc => b0 && c0 && f && decide (pF w ≤ 15)
  | some .ldd => a0 && b0 && c0 && f && decide (pF w ≤ 8)
  | some .mov => b0 && c0 && i0
  | some .bin => c0 && i0
  | some .addi => b0 && c0
  | some .cmp => c0 && fieldOf w 13 3 == 0 && decide (fieldOf w 2 0 ≤ 5)
  | some .sel => i0
  | some .jmp => d0 && a0 && b0 && c0 && off
  | some .jcond => d0 && b0 && c0 && off
  | some .best => d0 && b0 && c0 && i0
  | some .decide => d0 && c0 && i0

def pCycles (w : Word) : Nat := if pOp w = 0x0A then 2 else 1

/-- The word writes X[d]. -/
def pWrites (w : Word) : Bool :=
  match wordShape w with
  | some .ldi | some .ldq | some .ldc | some .ldd | some .mov | some .bin | some .addi | some .cmp | some .sel => true
  | _ => false

def isLoop (w : Word) : Bool := wordShape w == some .forq || wordShape w == some .forc
def isEnd (w : Word) : Bool := wordShape w == some .decide || wordShape w == some .halt
def isJump (w : Word) : Bool := wordShape w == some .jmp || wordShape w == some .jcond

/-! ### Verification (Table 14-10) -/

/-- For each word: it lies in a loop's body or is the loop's PNEXT. -/
def inLoop : List Word → Bool → List Bool
  | [], _ => []
  | w :: ws, b => b :: inLoop ws (if wordShape w = some .next then false else if isLoop w then true else b)

/-- Reason 3. -/
def jumpsBad (ws : List Word) : Bool :=
  let b := inLoop ws false
  (span 0 ws.length).any (fun pc =>
    let w := ws.getD pc 0
    isJump w && (decide (ws.length ≤ pc + pOff w) || b.getD pc false || b.getD (pc + pOff w) false))

/-- Reason 4, from inside or outside a loop. -/
def loopsBad : List Word → Bool → Bool
  | [], inside => inside
  | w :: ws, inside =>
    if isLoop w then inside || loopsBad ws true
    else if wordShape w = some .next then !inside || loopsBad ws false
    else if inside then
      isEnd w || (pWrites w && (decide (pD w < 2) || decide (6 ≤ pD w))) || loopsBad ws true
    else decide (wordShape w = some .best) || loopsBad ws false

/-- The static bound (R310); the second argument is the loop's factor and its body's cycles so far. -/
def pBound : List Word → Option (Nat × Nat) → Nat
  | [], _ => 0
  | w :: ws, none => if isLoop w then pBound ws (some (if wordShape w = some .forq then 16 else 4, 0)) else pCycles w + pBound ws none
  | w :: ws, some (k, c) =>
    if wordShape w = some .next then 1 + k * (c + 1) + pBound ws none else pBound ws (some (k, c + pCycles w))

/-- The words of a slot's image that are read (R309): the header's count alone sets the length. -/
def program (image : List Word) : List Word := (span 1 (fieldOf (image.getD 0 0) 8 0 + 1)).map (fun i => image.getD i 0)

/-- REASON (0: accepted) and BOUND of an image. -/
def verifyImage (image : List Word) : Nat × Nat :=
  let ws := program image
  if fieldOf (image.getD 0 0) 31 9 ≠ 0 then (1, 0)
  else if !ws.all pWordOk then (2, 0)
  else if jumpsBad ws then (3, 0)
  else if loopsBad ws false then (4, 0)
  else if !(isEnd (ws.getLastD 0)) then (5, 0)
  else
    let b := pBound ws none
    (if b > Config.policyCycles then 6 else 0, min b 511)

/-! ### Running a program -/

/-- X0 to X7. -/
abbrev XRegs := List DWord

def xget (x : XRegs) (i : Nat) : DWord := x.getD i 0
def xset (x : XRegs) (i : Nat) (v : DWord) : XRegs := setAt x i v

/-- R304. -/
def xStart : XRegs := [0, 0, 0, 0, 0, 0, 0, BitVec.allOnes 64]

/-- PLDQ, PLDC and PLDD: an index that names nothing reads 0 (R302). -/
def pldq (v : PView) (q : DWord) (f : Nat) : DWord :=
  match alook v.queues q.toNat with
  | some row => BitVec.ofNat 64 (row.getD f 0)
  | none => 0
def pldc (v : PView) (c : DWord) (f : Nat) : DWord := BitVec.ofNat 64 ((v.cands.getD c.toNat []).getD f 0)
def pldd (v : PView) (f : Nat) : DWord := BitVec.ofNat 64 (v.dec.getD f 0)

/-- The two-source operations of Table 14-7. -/
def pBin (op : Nat) (a b : DWord) : DWord :=
  match op with
  | 0x08 => a + b
  | 0x09 => a - b
  | 0x0A => a * b
  | 0x0B => a &&& b
  | 0x0C => a ||| b
  | 0x0D => a ^^^ b
  | 0x0E => a <<< (b.toNat % 64)
  | 0x0F => a >>> (b.toNat % 64)
  | 0x10 => if a.toNat ≤ b.toNat then a else b
  | _ => if a.toNat ≤ b.toNat then b else a

def pCond (c : Nat) (a b : DWord) : Bool :=
  match c with
  | 0 => a == b
  | 1 => a != b
  | 2 => decide (a.toNat < b.toNat)
  | 3 => decide (a.toNat ≤ b.toNat)
  | 4 => decide (a.toInt < b.toInt)
  | _ => decide (a.toInt ≤ b.toInt)

/-- The value that a word writes to X[d]; `x` is what it reads. -/
def pValue (v : PView) (x : XRegs) (w : Word) : DWord :=
  let a := xget x (pA w)
  let b := xget x (pB w)
  match wordShape w with
  | some .ldi => BitVec.signExtend 64 (BitVec.ofNat 23 w.toNat)
  | some .ldq => pldq v a (pF w)
  | some .ldc => pldc v a (pF w)
  | some .ldd => pldd v (pF w)
  | some .mov => a
  | some .bin => pBin (pOp w) a b
  | some .addi => a + BitVec.signExtend 64 (BitVec.ofNat 14 w.toNat)
  | some .cmp => if pCond (fieldOf w 2 0) a b then 1 else 0
  | _ => if xget x (pC w) != 0 then a else b

/-- PBEST: a key beats what X6 holds. -/
def pBest (key idx : DWord) (x : XRegs) : XRegs :=
  if key != 0 && (xget x 7 == BitVec.allOnes 64 || decide ((xget x 6).toNat < key.toNat)) then xset (xset x 6 key) 7 idx else x

/-- One body word at an index: `x` holds the index's registers with the X6 and X7 of the pass's start, `best` the running
X6 and X7. -/
def bodyWord (v : PView) (i : DWord) (r : XRegs × XRegs) (w : Word) : XRegs × XRegs :=
  if wordShape w = some .best then (r.1, pBest (xget r.1 (pA w)) i r.2)
  else if pWrites w then (xset r.1 (pD w) (pValue v r.1 w), r.2)
  else r

/-- The body at one index. -/
def bodyAt (v : PView) (x0 : XRegs) (body : List Word) (pass : XRegs) (best : XRegs) (i : Nat) : XRegs :=
  let idx := BitVec.ofNat 64 i
  let x := xset (xset (xset x0 0 idx) 6 (xget pass 6)) 7 (xget pass 7)
  (body.foldl (bodyWord v idx) (x, best)).2

/-- A whole loop of 4 * passes indices (R306). -/
def loopAll (v : PView) (x0 : XRegs) (body : List Word) (passes : Nat) : XRegs :=
  let start := xset (xset x0 6 0) 7 (BitVec.allOnes 64)
  let best := (span 0 passes).foldl (fun (b : XRegs) p => (span (4 * p) 4).foldl (fun (r : XRegs) i => bodyAt v x0 body b r i) b) start
  xset best 0 (BitVec.ofNat 64 (4 * passes))

/-- How a program ends: PDECIDE, PHALT, or not at all. -/
inductive PEnd where
  | decide (a b : DWord)
  | halt
  | stuck
  deriving DecidableEq, Repr

/-- Words from PFOR to its PNEXT. -/
def bodyOf (ws : List Word) : List Word := ws.takeWhile (fun w => decide (wordShape w ≠ some .next))

/-- Run the words from a place: every move is forward (R305), so the words left bound the run. -/
def pRun (v : PView) (ws : List Word) : Nat → Nat → XRegs → PEnd
  | 0, _, _ => .stuck
  | fuel + 1, pc, x =>
    match ws[pc]? with
    | none => .stuck
    | some w =>
      match wordShape w with
      | none => .stuck
      | some .jmp => pRun v ws fuel (pc + pOff w) x
      | some .jcond =>
        let z := xget x (pA w) == 0
        pRun v ws fuel (if z == (pOp w == 0x19) then pc + pOff w else pc + 1) x
      | some .decide => .decide (xget x (pA w)) (xget x (pB w))
      | some .halt => .halt
      | some .forq | some .forc =>
        let body := bodyOf (ws.drop (pc + 1))
        pRun v ws fuel (pc + 2 + body.length) (loopAll v x body (if wordShape w = some .forq then 16 else 4))
      | _ => pRun v ws fuel (pc + 1) (if pWrites w then xset x (pD w) (pValue v x w) else x)

/-! ### The built-in rule (Table 14-2) -/

/-- Queue rows better first: PRIO, then AGE, then the lower index. -/
def bestQueue : List (Nat × List Nat) → Option (Nat × List Nat)
  | [] => none
  | e :: es =>
    let rest := bestQueue es
    if e.2.getD 3 0 = 0 then rest
    else match rest with
      | none => some e
      | some f =>
        if e.2.getD 1 0 < f.2.getD 1 0 ∨ (e.2.getD 1 0 = f.2.getD 1 0 ∧ e.2.getD 2 0 < f.2.getD 2 0) then some f else some e

def builtinRule (kind : Nat) (v : PView) : PEnd :=
  match kind with
  | 0 =>
    match bestQueue v.queues with
    | none => .halt
    | some q =>
      match (span 0 v.cands.length).find? (fun c => ((v.cands.getD c []).getD 11 0).testBit q.1) with
      | some c => .decide (BitVec.ofNat 64 q.1) (BitVec.ofNat 64 c)
      | none => .halt
  | 1 => if v.cands.isEmpty then .halt else .decide 0 (BitVec.ofNat 64 (2 ^ 20))
  | _ => .decide 0 2

/-- A decision's result by the program it reads, or by the built-in rule. -/
def decideBy (prog : Option (List Word)) (kind : Nat) (v : PView) : PEnd :=
  match prog with
  | some ws => pRun v ws (ws.length + 1) 0 xStart
  | none => builtinRule kind v

/-! ### PPOL (Table 14-9) -/

/-- A doubleword with bits hi to lo replaced. -/
def putField (v : DWord) (hi lo n : Nat) : DWord :=
  let m : DWord := BitVec.ofNat 64 ((2 ^ (hi - lo + 1) - 1) * 2 ^ lo)
  (v &&& ~~~m) ||| (BitVec.ofNat 64 (n % 2 ^ (hi - lo + 1) * 2 ^ lo))

def Partition.gen (p : Partition) : Nat := field64 p.ppol 63 48
def Partition.active (p : Partition) : Bool := p.ppol.getLsbD 28
def Partition.activeImage (p : Partition) : List Word := if p.active then p.policyB else p.policyA
def Partition.shadowImage (p : Partition) : List Word := if p.active then p.policyA else p.policyB
def Partition.putShadow (p : Partition) (ws : List Word) : Partition :=
  if p.active then { p with policyA := ws } else { p with policyB := ws }

/-- The program that a decision reads (R301, R311): none without an active verified one that is enabled. -/
def Partition.prog (p : Partition) : Option (List Word) :=
  if p.ppol.getLsbD 27 && !p.ppol.getLsbD 29 then some (program p.activeImage) else none

/-- A write to the shadow slot: the slot then holds no verified image. -/
def Partition.writeShadow (p : Partition) (i : Nat) (w : Word) : Partition :=
  let old := p.shadowImage
  let padded := old ++ List.replicate (i + 1 - old.length) 0
  { p.putShadow (setAt padded i w) with ppol := putField p.ppol 32 32 0 }

/-- LOAD (R309). -/
def Partition.load (p : Partition) : Partition :=
  { p with ppol := putField (putField (putField p.ppol 34 34 0) 33 33 1) 32 32 0 }

/-- Verification ends (R309, R310). -/
def Partition.verified (p : Partition) : Partition :=
  let (r, b) := verifyImage p.shadowImage
  let v := putField (putField p.ppol 33 33 0) 47 39 b
  { p with ppol := if r = 0 then putField v 32 32 1 else putField (putField v 34 34 1) 38 35 r }

/-- SWAP with SVALID = 1 (R311). -/
def Partition.swap (p : Partition) : Partition :=
  let a := p.ppol.getLsbD 27
  let v := putField p.ppol 63 48 (p.gen + 1)
  let v := putField (putField v 31 30 0) 29 29 0
  let v := putField v 28 28 (!p.active).toNat
  { p with ppol := putField (putField v 27 27 1) 32 32 a.toNat }

/-- A decision has ended in time: OVR is 0 (R312). -/
def Partition.inTime (p : Partition) : Partition := { p with ppol := putField p.ppol 31 30 0 }

/-- An overrun under a generation: counted when it is the current one; the third disables the program (R312). -/
def Partition.overrun (p : Partition) (gen : Nat) : Partition :=
  if gen ≠ p.gen then p
  else
    let n := min 3 (field64 p.ppol 31 30 + 1)
    let v := putField p.ppol 31 30 n
    { p with ppol := if n = 3 then putField v 29 29 1 else v }

end Sys2Proof.Machine
end

