-- ==== Sys2Proof/Machine/Scalar.lean ====
section
/-! DEFINITION. The scalar instructions (R381 to R383) and the message ports that SMOV reaches (R186 to R188). -/
namespace Sys2Proof.Machine

/-- A scalar instruction: once for the group, whatever GMR and the masks hold (R361). -/
def scalar3 (s : State) (i : Instr) (o : SOp) (e : Bool) (d a b : RegNo) : Out :=
  issue s i (fun x => doneWith s x e (fun y => y.setS d.toNat (scalarOp o (y.getS a.toNat) (y.getS b.toNat))))

/-- The forms with an immediate: S[d] is both operand and result. -/
def scalarI (s : State) (i : Instr) (e : Bool) (d : RegNo) (f : Word → Word) : Out :=
  issue s i (fun x => doneWith s x e (fun y => y.setS d.toNat (f (y.getS d.toNat))))

def execSadd (e : Bool) (d a b : RegNo) (s : State) : Out := scalar3 s (.sadd e d a b) .add e d a b
def execSsub (e : Bool) (d a b : RegNo) (s : State) : Out := scalar3 s (.ssub e d a b) .sub e d a b
def execSmul (e : Bool) (d a b : RegNo) (s : State) : Out := scalar3 s (.smul e d a b) .mul e d a b
def execSmulh (e : Bool) (d a b : RegNo) (s : State) : Out := scalar3 s (.smulh e d a b) .mulh e d a b
def execSand (e : Bool) (d a b : RegNo) (s : State) : Out := scalar3 s (.sand e d a b) .and e d a b
def execSor (e : Bool) (d a b : RegNo) (s : State) : Out := scalar3 s (.sor e d a b) .or e d a b
def execSxor (e : Bool) (d a b : RegNo) (s : State) : Out := scalar3 s (.sxor e d a b) .xor e d a b
def execSshl (e : Bool) (d a b : RegNo) (s : State) : Out := scalar3 s (.sshl e d a b) .shl e d a b
def execSshr (e : Bool) (d a b : RegNo) (s : State) : Out := scalar3 s (.sshr e d a b) .shr e d a b
def execSsra (e : Bool) (d a b : RegNo) (s : State) : Out := scalar3 s (.ssra e d a b) .sra e d a b
def execSmin (e : Bool) (d a b : RegNo) (s : State) : Out := scalar3 s (.smin e d a b) .min e d a b
def execSmax (e : Bool) (d a b : RegNo) (s : State) : Out := scalar3 s (.smax e d a b) .max e d a b

/-- SCMP (R382): one bit for every lane below the width. -/
def execScmp (e : Bool) (c : SCond) (d : KNo) (a b : RegNo) (s : State) : Out :=
  issue s (.scmp e c d a b) (fun x => doneWith s x e (fun y =>
    y.setK x.tm.width d.toNat (if scalarCmp c (y.getS a.toNat) (y.getS b.toNat) then fullMask x.tm.width else 0)))

/-- SSEL: S[d] is the condition. -/
def execSsel (e : Bool) (d a b : RegNo) (s : State) : Out :=
  issue s (.ssel e d a b) (fun x => doneWith s x e (fun y =>
    y.setS d.toNat (if y.getS d.toNat ≠ 0 then y.getS a.toNat else y.getS b.toNat)))

def execSaddi (e : Bool) (d : RegNo) (i : BitVec 14) (s : State) : Out :=
  scalarI s (.saddi e d i) e d (fun v => v + i.signExtend 32)
def execSandi (e : Bool) (d : RegNo) (i : BitVec 14) (s : State) : Out :=
  scalarI s (.sandi e d i) e d (fun v => v &&& i.signExtend 32)
def execSori (e : Bool) (d : RegNo) (i : BitVec 14) (s : State) : Out :=
  scalarI s (.sori e d i) e d (fun v => v ||| i.signExtend 32)
def execSshli (e : Bool) (d : RegNo) (i : BitVec 5) (s : State) : Out :=
  scalarI s (.sshli e d i) e d (fun v => v <<< i.toNat)
def execSli (e : Bool) (d : RegNo) (i : BitVec 16) (s : State) : Out :=
  scalarI s (.sli e d i) e d (fun _ => i.setWidth 32)
def execSlih (e : Bool) (d : RegNo) (i : BitVec 16) (s : State) : Out :=
  scalarI s (.slih e d i) e d (fun v => i ++ v.setWidth 16)

/-! ### Message ports -/

/-- The destination in QDST: global core and group (Table 8-8). -/
def QPort.dcore (q : QPort) : Nat := fieldOf q.qdst 10 0
def QPort.dgroup (q : QPort) : Nat := fieldOf q.qdst 16 11
def QPort.lastBit (q : QPort) : Bool := q.qdst.getLsbD 17

/-- Allowances left toward a destination (R187). -/
def QPort.allow (q : QPort) (core group : Nat) : Nat := (alook q.alw (64 * core + group)).getD 8

def QPort.setAllow (q : QPort) (core group n : Nat) : QPort :=
  { q with alw := if n = 8 then adel q.alw (64 * core + group) else aput q.alw (64 * core + group) n }

/-- QSTAT (Table 8-9). -/
def QPort.stat (q : QPort) : Word :=
  BitVec.ofNat 32 (q.rcore + q.rgroup * 2 ^ 11 + q.rlast.toNat * 2 ^ 17 + q.prst.toNat * 2 ^ 18 + q.norcv.toNat * 2 ^ 19
    + q.allow q.dcore q.dgroup * 2 ^ 20 + q.isOpen.toNat * 2 ^ 24 + q.rq.length * 2 ^ 25)

/-- A value that QDST may take: Table 8-8, and the destination stays while a packet is open (R186). -/
def QPort.takes (q : QPort) (v : Word) : Bool :=
  fieldOf v 31 18 == 0 && decide (fieldOf v 10 0 < 1536)
    && (!q.isOpen || (fieldOf v 10 0 == q.dcore && fieldOf v 16 11 == q.dgroup))

/-- Remove the first flit of a sender. -/
def dropFlit : List Flit → Nat → List Flit
  | [], _ => []
  | f :: fs, p => if f.sender = p then fs else f :: dropFlit fs p

/-- An allowance returns to a flit's sender, when its team is still there. -/
def returnAllow (s : State) (f : Flit) : State :=
  s.updGroup f.srcTeam f.srcGroup (fun y =>
    { y with q := y.q.setAllow f.dstCore f.dstGroup (min 8 (y.q.allow f.dstCore f.dstGroup + 1)) })

/-- SMOV, with QDST and QSTAT as sources (Table 3-2, R383): every source is read first. -/
def execSmov (e : Bool) (w : WSize) (d a : RegNo) (s : State) : Out :=
  issue s (.smov e w d a) (fun x => doneWith s x e (fun y =>
    if a = 124 then y.setS d.toNat y.q.qdst
    else if a = 127 then y.setS d.toNat y.q.stat
    else y.setSn d.toNat (y.getSn a.toNat (wsizeN w))))

/-- SMOV into QDST (R186): NORCV and PRST clear; a value that breaks Table 8-8 takes the system-register trap. -/
def execSmovQdst (e : Bool) (a : RegNo) (s : State) : Out :=
  issue s (.smovQdst e a) (fun x =>
    let v := x.gr.getS a.toNat
    if x.gr.q.takes v then
      doneWith s x e (fun y => { y with q := { y.q with qdst := v, norcv := false, prst := false } })
    else .next (trapWhole s x 0x09))

/-- SMOV into QSEND (R187): one flit; without an allowance it waits and holds the port. -/
def execSmovQsend (e : Bool) (a : RegNo) (s : State) : Out :=
  issue s (.smovQsend e a) (fun x =>
    let q := x.gr.q
    if q.allow q.dcore q.dgroup = 0 then .next s
    else
      let last := q.lastBit || decide (q.sent + 1 = 8)
      let f : Flit := ⟨x.tm.core, x.g, x.t, x.tm.grid, q.dcore, q.dgroup, last, x.gr.getSn a.toNat 4⟩
      let q := q.setAllow q.dcore q.dgroup (q.allow q.dcore q.dgroup - 1)
      let q := { q with isOpen := !last, sent := if last then 0 else q.sent + 1,
                        qdst := if last then q.qdst &&& ~~~(0x20000#32) else q.qdst }
      doneWith { s with flits := s.flits ++ [f] } x e (fun y => { y with q := q }))

/-- SMOV from QRECV (R188, R190): the next flit; a packet that a reset cut short ends with a zero quad; an empty queue is a
blocking point (R42). -/
def execSmovQrecv (e : Bool) (d : RegNo) (s : State) : Out :=
  issue s (.smovQrecv e d) (fun x =>
    let q := x.gr.q
    if q.cut then
      doneWith s x e (fun y => { (y.setSn d.toNat [0, 0, 0, 0]) with
        q := { q with cut := false, cur := none, rlast := true, prst := true } })
    else
      match q.nextFlit with
      | some f =>
        doneWith (returnAllow s f) x e (fun y => { (y.setSn d.toNat f.data) with
          q := { y.q with rq := dropFlit q.rq f.sender, cur := if f.last then none else some f.sender, rlast := f.last,
                          rgroup := f.srcGroup, rcore := f.srcCore } })
      | none => .next (waitHere s x.t x.g .qrecv))

end Sys2Proof.Machine
end

