-- ==== Sys2Proof/Machine/Tiles.lean ====
section
/-! DEFINITION. What tile operations do (R128, R129, R152 to R154, R157, R158, R161 to R163, R165, R166): TILE_OP_COMPLETE, and
OPERAND_FETCH_FAULT (R167, steps 1 and 2). -/
namespace Sys2Proof.Machine

/-! ### The matrix sum (R128, R129) -/

/-- Products truncated toward zero to multiples of 2^(Emax - 55): their sum in those units, its exponent, and NX. -/
def truncSum (ps : List Num) : Int × Int × Bool :=
  match ps with
  | [] => (0, 0, false)
  | p :: rest =>
    let top := rest.foldl (fun (a : Int) x => max a ((Nat.log2 x.m : Int) + x.e)) ((Nat.log2 p.m : Int) + p.e)
    let u := top - 55
    let part := fun (x : Num) => if u ≤ x.e then (x.m <<< (x.e - u).toNat, false)
      else (x.m >>> (u - x.e).toNat, x.m % 2 ^ (u - x.e).toNat != 0)
    (ps.foldl (fun (a : Int) x => if x.neg then a - (part x).1 else a + (part x).1) 0, u, ps.any (fun x => (part x).2))

/-- Round(acc + S, ACC, RNE, sat = 0). -/
def accAdd (t : ElemType) (acc s : Val) : Val × Fl :=
  let (v, f) := sumVals [acc, s] .rne
  let (c, g) := resultFT t v .rne false
  (decodeVal t c, f ||| g)

/-- One k-group. The accumulator that comes in is never a signalling NaN. NV stands for a NaN that arises from Inf x 0 or Inf - Inf. -/
def kGroup (t : ElemType) (acc : Val) (xs ys : List Val) : Val × Fl :=
  let ps := xs.zipWith mulVals ys
  let ins := xs ++ ys
  if ins.any (fun v => isNaN v || isNaR v) || ps.any (·.2) then
    (.nan false, if ps.any (·.2) then flNV else 0)
  else if ps.any (fun p => match p.1 with | .inf _ => true | _ => false) then
    let (s, f) := sumVals ((ps.map (·.1)).filter (fun v => match v with | .inf _ => true | _ => false)) .rne
    let (v, g) := accAdd t acc s
    (v, f ||| g)
  else
    let fins := ps.filterMap (fun p => match p.1 with | .fin x => some x | _ => none)
    let (s, u, lost) := truncSum fins
    let nx := if lost then flNX else 0
    if s = 0 then (acc, nx)
    else
      let (v, f) := accAdd t acc (valOfInt s u false)
      (v, f ||| nx)

/-- The k-groups of one position in ascending k. -/
def kGroups (t : ElemType) : Nat → Val → List Val → List Val → Val × Fl
  | 0, acc, _, _ => (acc, 0)
  | n + 1, acc, xs, ys =>
    let (v, f) := kGroup t acc (xs.take 32) (ys.take 32)
    let (w, g) := kGroups t n v (xs.drop 32) (ys.drop 32)
    (w, f ||| g)

/-! ### Tiles in a region -/

def accSize (t : ElemType) : Nat := typeBits t / 8

/-- Accumulator (i, j) at an offset (R153). -/
def accRead (reg : Region) (off : Nat) (t : ElemType) (i j : Nat) : Nat := ofBytes (reg.read (off + (64 * i + j) * accSize t) (accSize t))

/-- Row r of an input tile as values: the row of A for position i, or of B for position j (R154). -/
def tileRow (reg : Region) (off : Nat) (t : CType) (k : Nat) (trans : Bool) (r : Nat) : List Val :=
  match t with
  | .plain e =>
    let n := typeBits e / 8
    if trans then (span 0 k).map (fun c => decodeVal e (ofBytes (reg.read (off + c * 64 * n + r * n) n)))
    else (span 0 k).map (fun c => decodeVal e (ofBytes (reg.read (off + r * tilePitch t k + c * n) n)))
  | _ =>
    (span 0 (k / 32)).flatMap (fun q =>
      let sc := (reg.byte (off + 64 * tilePitch t k + r * (k / 32) + q)).toNat
      (codesIn t.bits 32 (reg.read (off + r * tilePitch t k + q * 4 * t.bits) (4 * t.bits))).map (blockVal t sc))

/-- The flags of a position (R129): a NaN that arises raises NV when no input of the position is a NaN or NaR; a signalling input
raises it (log entry 54). -/
def positionFlags (ins : List Val) (f : Fl) : Fl :=
  (if ins.any (fun v => isNaN v || isNaR v) then f &&& ~~~flNV else f) ||| nvIfSignalling ins

/-- MatrixSum over the 4,096 positions: the new accumulators in order, and the flags. -/
def matrixSum (acc : ElemType) (z : Bool) (cb : Region) (coff : Nat) (as bs : List (List Val)) (groups : Nat) : List Nat × Fl :=
  let cells := (span 0 64).flatMap (fun i => (span 0 64).map (fun j =>
    let old := if z then .zero false else decodeVal acc (accRead cb coff acc i j)
    let start := match old with | .nan _ => .nan false | v => v
    let (v, f) := kGroups acc groups start (as.getD i []) (bs.getD j [])
    ((resultFT acc v .rne false).1, positionFlags (old :: (as.getD i [] ++ bs.getD j [])) f)))
  (cells.map (·.1), cells.foldl (fun f c => f ||| c.2) 0)

/-! ### Operand regions (R160, R162, R167) -/

/-- The region an operand is read from: that of the team resolved at issue while it is there, or, when none was resolved at
issue, of the team that resolves now and whose quota holds the footprint. -/
def operandRegion (s : State) (o : TileOp) (tm : Team) (h : Word) (at' : Option Nat) (len : Nat) : Option Region :=
  let pick := fun (u : Nat) (check : Bool) => (s.team? u).bind (fun x =>
    if x.status == .resident && (!check || decide (hOff h + len ≤ (x.region (hBuf h)).quota)) then some (x.region (hBuf h)) else none)
  match at' with
  | some u => pick u false
  | none => (handleTeam s o.team tm h).bind (fun u => pick u true)

def tmmaOperands (s : State) (o : TileOp) (tm : Team) (fw : Word) : Option (Region × Region) :=
  let a := (fwA fw).getD (.plain .bf16)
  let b := (fwB fw).getD (.plain .bf16)
  match operandRegion s o tm o.ah o.ra (tileBytes a (fwK fw) (fwTA fw)), operandRegion s o tm o.bh o.rb (tileBytes b (fwK fw) (fwTB fw)) with
  | some x, some y => some (x, y)
  | _, _ => none

/-- The operation's operands cannot be fetched. -/
def fetchFails (s : State) (o : TileOp) (tm : Team) : Bool :=
  match o.kind with
  | .tmma fw => (tmmaOperands s o tm fw).isNone
  | _ => false

/-! ### Effects: the bytes that an operation writes to its destination tile, by offset, and its flags -/

/-- A handle of an operation by operand: in CB (0), A (1), B (2). TCVT and TQUANT read CB at their second handle. -/
def TileOp.operand (o : TileOp) (r : Nat) : Word :=
  match r, o.kind with
  | 0, .tcvt _ | 0, .tquant _ => o.ah
  | 0, _ => o.dh
  | 1, _ => o.ah
  | _, _ => o.bh

/-- A region as an operand of the operation: the bytes that it has read ahead stand (R134). -/
def TileOp.seen (o : TileOp) (r : Nat) (reg : Region) : Region :=
  reg.landed ((o.taken.filter (fun e => decide (e.1 / 2 ^ 20 = r))).map (fun e => (e.1 % 2 ^ 20, e.2)))

/-- The bytes of a result. -/
abbrev TileBytes := List (Nat × Byte) × Fl

/-- Consecutive bytes from an offset. -/
def bytesAt (o : Nat) (bs : List Byte) : List (Nat × Byte) := (span o bs.length).zip bs

def tmmaBytes (s : State) (o : TileOp) (tm : Team) (fw : Word) : TileBytes :=
  match tmmaOperands s o tm fw with
  | none => ([], 0)
  | some (ra, rb) =>
    let a := (fwA fw).getD (.plain .bf16)
    let b := (fwB fw).getD (.plain .bf16)
    let acc := (fwAcc fw).getD .fp32
    let as := (span 0 64).map (tileRow (o.seen 1 ra) (hOff o.ah) a (fwK fw) (fwTA fw))
    let bs := (span 0 64).map (tileRow (o.seen 2 rb) (hOff o.bh) b (fwK fw) (fwTB fw))
    let (cs, fl) := matrixSum acc (fwZ fw) (o.seen 0 (tm.region 2)) (hOff o.dh) as bs (fwK fw / 32)
    (bytesAt (hOff o.dh) (cs.flatMap (bytesOf (accSize acc))), fl)

def tzeroBytes (o : TileOp) : TileBytes := (bytesAt (hOff o.dh) ((span 0 16384).map (fun _ => 0)), 0)

/-- The statistics of one row (R165): maximum, sum, sum of squares, minimum, as FP32, and the flags. -/
def rowStats (t : ElemType) (cs : List Nat) : Nat × Nat × Nat × Nat × Fl :=
  let vs := cs.map (decodeVal t)
  let best := fun (big : Bool) => convertType t .fp32 (cs.tail.foldl (fun m c => (minMax t big m c).1) (cs.headD 0)) .rne false
  let (s1, f1) := sumVals vs .rne
  let (c1, g1) := resultFT .fp32 s1 .rne false
  let (s2, f2) := sumVals (vs.map (fun v => (mulVals v v).1)) .rne
  let (c2, g2) := resultFT .fp32 s2 .rne false
  ((best true).1, c1, c2, (best false).1, f1 ||| g1 ||| f2 ||| g2 ||| nvIfSignalling vs)

def doTstat (s : State) (o : TileOp) (tm : Team) (t : ElemType) (mask : Lanes) (d : Nat) : State :=
  let cb := o.seen 0 (tm.region 2)
  let rows := (lanesOf mask).map (fun l => (l, rowStats t ((span 0 64).map (fun j => accRead cb (hOff o.dh) t l j))))
  let w := fun (n : Nat) => BitVec.ofNat 32 n
  (s.updGroup o.team o.group (fun y => rows.foldl (fun y r =>
    (((y.setV d r.1 (w r.2.1)).setV (d + 1) r.1 (w r.2.2.1)).setV (d + 2) r.1 (w r.2.2.2.1)).setV (d + 3) r.1 (w r.2.2.2.2.1)) y)).raise
      o.team (rows.foldl (fun f r => f ||| r.2.2.2.2.2) 0)

/-- TCVT: row i of the new tile holds accumulator row i. -/
def tcvtBytes (o : TileOp) (tm : Team) (c : Word) (e : ElemType) : TileBytes :=
  let src := (cvSrc c).getD .fp32
  let n := typeBits e / 8
  let cb := o.seen 0 (tm.region 2)
  let cells := (span 0 64).flatMap (fun i => (span 0 64).map (fun j =>
    (i, j, convertVal e (decodeVal src (accRead cb (hOff o.ah) src i j)) false (cvR c) (cvSat c))))
  let at' := fun (i j : Nat) => hOff o.dh + (if cvT c then j * 64 * n + i * n else i * 64 * n + j * n)
  (cells.flatMap (fun c => bytesAt (at' c.1 c.2.1) (bytesOf n c.2.2.1)), cells.foldl (fun f c => f ||| c.2.2.2) 0)

/-- TQUANT: columns 0 to 31 and 32 to 63 of each row are one block each. -/
def tquantBytes (o : TileOp) (tm : Team) (c : Word) (t : CType) : TileBytes :=
  let src := (cvSrc c).getD .fp32
  let cb := o.seen 0 (tm.region 2)
  let blocks := (span 0 64).flatMap (fun i => (span 0 2).map (fun q =>
    (i, q, quantise t ((span (32 * q) 32).map (fun j => decodeVal src (accRead cb (hOff o.ah) src i j))) (cvR c))))
  let p := tilePitch t 64
  (blocks.flatMap (fun b =>
    bytesAt (hOff o.dh + b.1 * p + b.2.1 * 4 * t.bits) (packCodes t.bits (b.2.2.2.map (·.1)))
      ++ [(hOff o.dh + 64 * p + b.1 * 2 + b.2.1, BitVec.ofNat 8 b.2.2.1)]),
    blocks.foldl (fun f b => b.2.2.2.foldl (fun f e => f ||| e.2) f) 0)

/-- The destination buffer of an operation. -/
def TileKind.destBuf : TileKind → Nat
  | .tcvt _ | .tquant _ => 1
  | _ => 2

def tileBytesOf (s : State) (o : TileOp) (tm : Team) : TileBytes :=
  match o.kind with
  | .tmma fw => tmmaBytes s o tm fw
  | .tzero => tzeroBytes o
  | .tstat _ _ _ => ([], 0)
  | .tcvt c => match cvFmt c with | some (.plain e) => tcvtBytes o tm c e | _ => ([], 0)
  | .tquant c => match cvFmt c with | some t => tquantBytes o tm c t | none => ([], 0)

/-- Bytes land in a team's region. -/
def landTile (s : State) (t b : Nat) (bs : List (Nat × Byte)) : State :=
  s.updTeam t (fun x => x.putRegion b ((x.region b).landed bs))

/-- What completes an operation: TSTAT's results; of the others what has not landed yet, computed now if it has not been. -/
def tileEffect (s : State) (o : TileOp) (tm : Team) : State :=
  match o.kind with
  | .tstat t m d => doTstat s o tm t m d
  | k =>
    let s := match o.landing with
      | some bs => landTile s o.team k.destBuf bs
      | none => let r := tileBytesOf s o tm; (landTile s o.team k.destBuf r.1).raise o.team r.2
    match k with
    | .tmma _ => s.count o.team 5 1
    | _ => s

/-! ### Events -/

/-- The tile operation that the core takes next, when it may act (R158). -/
def tileHead (s : State) (core : Nat) : Option (TileOp × Team) :=
  match (s.core core).tiles with
  | [] => none
  | o :: _ =>
    match s.team? o.team with
    | some tm => if forkDone s o.team o.group o.seq && tm.status == .resident then some (o, tm) else none
    | none => none

/-- R158 gives TSTAT no order towards the other tile operations of its core: two neighbours in the queue, one of them a TSTAT, change
places. -/
def tileSwap (s : State) (core k : Nat) : State :=
  match (s.core core).tiles.drop k with
  | a :: b :: rest =>
    let stat := fun (o : TileOp) => match o.kind with | .tstat _ _ _ => true | _ => false
    if stat a || stat b then s.updCore core (fun c => { c with tiles := c.tiles.take k ++ b :: a :: rest }) else s
  | _ => s

/-- The oldest operation computes its result, which is then on its way to its destination (R134). -/
def tileStart (s : State) (core : Nat) : State :=
  match tileHead s core with
  | none => s
  | some (o, tm) =>
    if o.landing.isSome || fetchFails s o tm || (match o.kind with | .tstat _ _ _ => true | _ => false) then s
    else
      let r := tileBytesOf s o tm
      (s.updCore core (fun c => { c with tiles := { o with landing := some r.1 } :: c.tiles.tail })).raise o.team r.2

/-- A byte of an operand is read ahead of the others (R134, R162: each byte once). -/
def tileRead (s : State) (core r off : Nat) : State :=
  match tileHead s core with
  | none => s
  | some (o, tm) =>
    let reg : Option Region := match r, o.kind with
      | 0, _ => some (tm.region 2)
      | 1, .tmma fw => (tmmaOperands s o tm fw).map (fun p => p.1)
      | 2, .tmma fw => (tmmaOperands s o tm fw).map (fun p => p.2)
      | _, _ => none
    match reg with
    | some reg =>
      if o.landing.isSome ∨ 2 ^ 20 ≤ off ∨ (alook o.taken (2 ^ 20 * r + off)).isSome then s
      else s.updCore core (fun c => { c with tiles := { o with taken := aput o.taken (2 ^ 20 * r + off) (reg.byte off) } :: c.tiles.tail })
    | none => s

/-- A TMMA with Z = 1 starts from +0: until a byte of its result lands, that of +0 may (R161, R134). -/
def tileZero (s : State) (core off : Nat) : State :=
  match tileHead s core with
  | none => s
  | some (o, tm) =>
    match o.kind with
    | .tmma fw =>
      let inside := decide (hOff o.dh ≤ off ∧ off < hOff o.dh + accBytes ((fwAcc fw).getD .fp32))
      let unwritten : Bool := match o.landing with | some bs => bs.any (fun b => b.1 == off) | none => !fetchFails s o tm
      if fwZ fw && inside && unwritten then landTile s o.team 2 [(off, 0)] else s
    | _ => s

/-- One byte of a result lands ahead of the others (R134). -/
def tileLand (s : State) (core off : Nat) : State :=
  match tileHead s core with
  | none => s
  | some (o, _) =>
    match o.landing with
    | none => s
    | some bs =>
      (landTile s o.team o.kind.destBuf (bs.filter (fun e => e.1 == off))).updCore core (fun c =>
        { c with tiles := { o with landing := some (bs.filter (fun e => e.1 != off)) } :: c.tiles.tail })

/-- TILE_OP_COMPLETE: tile operations take effect one at a time, in the order of their issue on the core. -/
def execTileOpComplete (core : Nat) (s : State) : Out :=
  match tileHead s core with
  | none => .next s
  | some (o, tm) =>
    if o.landing.isNone && fetchFails s o tm then .next s
    else
      let s := (tileEffect s o tm).updCore core (fun c => { c with tiles := c.tiles.tail })
      let d : DoneOp :=
        { id := o.id, vt := 0, agent := none, homes := [], wrote := [], paths := [],
          stat := (match o.kind with | .tstat _ _ d => some d | _ => none), covered := false }
      .next (endOperation s core o.team o.group d o.post o.pc (fun y => { y with tm := y.tm - 1 }))

/-- A team that a handle had resolved to at issue has gone (Table 14-5, CAUSE 2). -/
def sourceGone (s : State) (o : TileOp) : Bool :=
  let gone := fun (r : Option Nat) => match r with
    | some u => (match s.team? u with | some x => x.status != TStatus.resident | none => true)
    | none => false
  gone o.ra || gone o.rb

/-- OPERAND_FETCH_FAULT: an operand cannot be fetched, or its bytes are uncorrectable. The team is killed, its CB scrubbed
and its resources freed; it awaits the FAULT decision (R167). -/
def execOperandFetchFault (core : Nat) (uncorrectable : Bool) (s : State) : Out :=
  match tileHead s core with
  | none => .next s
  | some (o, tm) =>
    if o.landing.isSome || (!uncorrectable && !fetchFails s o tm) then .next s
    else
      let cause := if fetchFails s o tm then (if sourceGone s o then 2 else 1) else 3
      let s := (killTeam s o.team).logEvent 3 0x101 core [o.team, o.id, cause]
      let s := s.updQueue tm.part tm.queue (fun q => { q with faults := q.faults + 1 })
      .next { s with faults := s.faults ++ [⟨o.team, tm.grid, tm.launch, tm.part, tm.queue, tm.prio, tm.teamIdx, tm.tries, cause⟩] }

end Sys2Proof.Machine
end

