-- ==== Sys2Proof/Machine/Teams.lean ====
section
/-! DEFINITION. Messages in flight and cluster resets (R186 to R190), imprecise traps (R246, R419), team deadlock (R52), the
yield of a load stall (R42), and the retirement of teams and grids (R47, R48). -/
namespace Sys2Proof.Machine

/-! ### Messages -/

/-- The team that a flit's destination names at delivery (R136, R186): the sender's own when the core is its own. -/
def flitTeam (s : State) (f : Flit) : Option Nat :=
  let own : Bool := match s.team? f.srcTeam with
    | some x => decide (x.core = f.dstCore) && (x.status == TStatus.resident)
    | none => false
  if own then some f.srcTeam
  else
    let first : Option (Nat × Nat) :=
      ((teamsOn s f.dstCore).filter (fun (e : Nat × Team) => decide (e.2.grid = f.grid))).foldl
        (fun (b : Option (Nat × Nat)) (e : Nat × Team) =>
          match b with
          | some (_, i) => if e.2.teamIdx < i then some (e.1, e.2.teamIdx) else b
          | none => some (e.1, e.2.teamIdx)) none
    first.map (·.1)

/-- The group a flit is for, when it resolves: a group that has not retired. -/
def flitGroup (s : State) (f : Flit) : Option (Nat × Group) :=
  match flitTeam s f with
  | some t => match s.group? t f.dstGroup with
    | some y => if y.isRetired then none else some (t, y)
    | none => none
  | none => none

def removeFlit : List Flit → Flit → List Flit
  | [], _ => []
  | f :: fs, x => if f = x then fs else f :: removeFlit fs x

/-- The packet that a flit belongs to has been cut short (R189, R190). -/
def Flit.cut (f : Flit) : Nat × Nat × Nat := (f.sender, f.dstCore, f.dstGroup)

/-- A sender's flit that can be delivered or dropped now: those of one core to one core arrive in the order they were sent (R184), and one
for which the receive queue has no room waits in the channel, with those behind it. -/
def deliverable (s : State) (sender : Nat) : Option Flit :=
  s.flits.find? (fun f => decide (f.sender = sender) &&
    s.flits.find? (fun e => decide (e.srcCore = f.srcCore ∧ e.dstCore = f.dstCore)) == some f &&
    (s.cutPackets.contains f.cut || (match flitGroup s f with | some (_, y) => decide (y.q.rq.length < 16) | none => true)))

/-- A sender's NORCV is set, and its allowance returns. -/
def dropped (s : State) (f : Flit) : State :=
  (returnAllow s f).updGroup f.srcTeam f.srcGroup (fun y => { y with q := { y.q with norcv := true } })

/-- The end of a cut packet has been dropped: its sender's next packet is a new one. -/
def endDropping (s : State) (f : Flit) : State :=
  if f.last then { s with cutPackets := s.cutPackets.filter (· != f.cut) } else s

/-- FLIT_DELIVERY: a flit of the group named reaches its destination's receive queue, or is dropped (R188, R189). -/
def execFlitDelivery (team group : Nat) (s : State) : Out :=
  match deliverable s (64 * team + group) with
  | none => .next s
  | some f =>
    let s := { s with flits := removeFlit s.flits f }
    match if s.cutPackets.contains f.cut then none else flitGroup s f with
    | some (t, _) => .next (s.updGroup t f.dstGroup (fun y => { y with q := { y.q with rq := y.q.rq ++ [f] } }))
    | none => .next (endDropping (dropped s f) f)

/-- Cores of a cluster: clusters 0 and 1 of each C-die (R11). -/
def inCluster (die cluster core : Nat) : Bool := core / 192 == 2 * die + cluster

/-- A receive queue without the flits of senders whose packet has no last flit in it; from the end, `open'` lists the senders
that a last flit has been met of. -/
def dropPartial (bad : Flit → Bool) : List Flit → List Flit × List Nat × List Flit
  | [] => ([], [], [])
  | f :: fs =>
    let (keep, done, gone) := dropPartial bad fs
    if bad f && !f.last && !done.contains f.sender then (keep, done, f :: gone)
    else (f :: keep, if f.last then f.sender :: done else done, gone)

/-- A port after the reset of a cluster: partial packets from it go and PRST is set; a packet already partly returned ends with a
zero quad (R190). RCORE names the sender's core of the packet begun. Answers the discarded flits, and the senders whose packets are cut,
what is still to come of which is dropped. -/
def QPort.reset (q : QPort) (die cluster : Nat) : QPort × List Flit × List Nat :=
  let (keep, _, gone) := dropPartial (fun f => inCluster die cluster f.srcCore) q.rq
  let cut := match q.cur with
    | some p => inCluster die cluster q.rcore && !(keep.any (fun f => f.sender == p))
    | none => false
  let senders := gone.map Flit.sender ++ (match q.cur with | some p => if cut then [p] else [] | none => [])
  ({ q with rq := keep, cut := q.cut || cut, prst := q.prst || cut || !gone.isEmpty }, gone, senders)

/-- The receivers outside a cluster. -/
def outsideCluster (die cluster : Nat) (x : Team) : Bool := x.status != .resident || !inCluster die cluster x.core

/-- Packets cut short at a team's ports: what is still to come of them is dropped (R189, R190). -/
def cutAt (x : Team) (senders : Group → List Nat) : List (Nat × Nat × Nat) :=
  x.groups.flatMap (fun g => (senders g.2).map (fun p => (p, x.core, g.1)))

/-- CLUSTER_RESET_NOTICE (R190): a cluster has been reset. Flits in flight to and from it are discarded (those from it to a receiver
outside are of packets that the receiver discards; that they go as well is a DESIGN CHOICE, log entry 53), and their allowances and those
of the discarded packets return to the senders that remain. -/
def execClusterResetNotice (die cluster : Nat) (s : State) : Out :=
  let meets := fun (f : Flit) => inCluster die cluster f.srcCore || inCluster die cluster f.dstCore
  let lost := s.flits.filter meets
  let cuts := (s.teams.filter (fun e => outsideCluster die cluster e.2)).flatMap (fun e => e.2.groups.flatMap (fun g => (g.2.q.reset die cluster).2.1))
  let s := { s with
    flits := s.flits.filter (fun f => !meets f)
    cutPackets := s.cutPackets ++ (s.teams.filter (fun e => outsideCluster die cluster e.2)).flatMap (fun e => cutAt e.2 (fun y => (y.q.reset die cluster).2.2))
    teams := s.teams.map (fun e => if outsideCluster die cluster e.2 then
      (e.1, e.2.mapGroups (fun _ y => { y with q := (y.q.reset die cluster).1 })) else e) }
  .next ((lost ++ cuts).foldl returnAllow s)

/-! ### Imprecise traps -/

/-- The group can take a trap between runs: it is not in the middle of one, nor in a handler (R246). A wait that has freed the port
has ended its run; one that holds it (of a lane's cause, a micro-op's access, PGMAP or CSLOAD) has not. -/
def betweenRuns (s : State) (tm : Team) (t g : Nat) (y : Group) : Bool :=
  !y.super && !y.isRetired && tm.status == .resident &&
    (match y.status with
     | .pendingHandler => false
     | .retired => false
     | _ => !holdsPort s tm.core t g)

/-- The trap that a pending one becomes: its stack entry's PC is the group's place, and POPR resumes there; one for discarded releases
stands at the earliest of them (R437). -/
def impreciseTrap (s : State) (tm : Team) (y : Group) (p : PendTrap) : Trap :=
  let resume := if y.redo.isEmpty then y.place else y.redoEnd
  let pc := match p.copy, p.cont with
    | some n, _ => match alook (s.core tm.core).copies n with | some c => c.pc | none => y.point.word
    | none, some c => c.pc
    | none, none => y.point.word
  let todo := match y.redo with | [] => [] | _ :: rest => y.place :: rest
  match p.redo with
  | h :: _ =>
    { code := p.code, emask := y.active, aux := p.aux, cont := p.cont, pt := h, trapPC := h.word, redo := p.redo ++ todo, resume := resume }
  | [] =>
    { code := p.code, prec := false, emask := y.active, aux := p.aux, cont := p.cont, pt := y.point, trapPC := pc, redo := todo,
      resume := resume, copy := p.copy }

/-- IMPRECISE_TRAP_DELIVERY: the pending trap of lowest CODE; a wait of the group is abandoned (R419). -/
def execImpreciseTrapDelivery (team group : Nat) (s : State) : Out :=
  match s.team? team, s.group? team group with
  | some tm, some y =>
    match y.traps with
    | [] => .next s
    | p :: rest =>
      if betweenRuns s tm team group y then
        let s := abandonWait (s.updGroup team group (fun y => { y with traps := rest })) team group
        match s.group? team group with
        | some y => .next (takeTrap s team group (impreciseTrap s tm y p))
        | none => .next s
      else .next s
  | _, _ => .next s

/-! ### Deadlock -/

/-- What a waiting group waits for, as AUX holds it (Table 11-4, CODE 0x39). -/
def waitAux : Wait → Option Nat
  | .bar n => some (2 ^ 15 + n)
  | .ring r st => some (2 ^ 15 + 2 ^ 14 + r * 16 + st)
  | _ => none

def waitsFor (s : State) (x : Site) : Option Nat :=
  match x.gr.status with
  | .waiting w => if waitOver s x w then none else waitAux w
  | _ => none

/-- R52. -/
def deadlocked (s : State) (t : Nat) (tm : Team) : Bool :=
  let c := s.core tm.core
  tm.status == .resident && !tm.live.isEmpty && tm.live.all (fun e => (waitsFor s ⟨t, e.1, tm, e.2, 0⟩).isSome)
    && !c.copies.any (fun e => e.2.team == t && postE e.2.post) && !c.tiles.any (fun o => o.team == t && postE o.post)
    && tm.posts == 0
    && !s.held.any (fun h => h.2.team == t && (match h.2.kind with | .ringput _ _ => true | .bararv _ => true | _ => false))

/-- TEAM_DEADLOCK_TRAP: the lowest-numbered waiting group takes it at its waiting instruction. -/
def execTeamDeadlockTrap (team : Nat) (s : State) : Out :=
  match s.team? team with
  | none => .next s
  | some tm =>
    if deadlocked s team tm then
      match tm.live with
      | [] => .next s
      | (g, y) :: _ =>
        let aux := tm.live.filterMap (fun e => (waitsFor s ⟨team, e.1, tm, e.2, 0⟩).map (fun v => (0x080 + 2 * e.1, 2, v)))
        .next (takeTrap (wakeHere s team g) team g { trapAt ⟨team, g, tm, y, 0⟩ 0x39 with aux := aux })
    else .next s

/-! ### Yield -/

/-- A load from the pool or from another die, its HBM or the scratch of its slices, that has been pending for more than 4,096 cycles,
which is 32 ticks. -/
def farLoad (s : State) (tm : Team) (o : PendOp) : Bool :=
  o.kind == .load && decide (o.since + 33 ≤ s.tick) && o.accs.any (fun a => !a.done && a.loc.space == 0 &&
    (match targetOf a.loc.addr with
     | .pool => true
     | .hbm => a.loc.addr / dieSpan != tm.die
     | .scratch => scratchSlice a.loc.addr / 160 != tm.die
     | _ => false))

/-- LOAD_STALL_YIELD (R42): the group, whose instruction reads what such a load brings or follows one that is an acquire (R360), gives
up its port; the stalled instruction starts a new run. -/
def execLoadStallYield (team group : Nat) (s : State) : Out :=
  match siteOf s team group with
  | none => .next s
  | some x =>
    let i := instrAt s x
    if x.gr.status == .ready && x.gr.xop.isNone && holdsPort s x.tm.core team group && stalled s x (usesOf i) (makesEvents i)
        && x.gr.ops.any (fun o => farLoad s x.tm o && ((usesOf i).any o.writes || (makesEvents i && o.acq))) then
      .next (waitHere s team group .loadStall)
    else .next s

/-! ### Retirement -/

/-- R47's four conditions, with every release of its groups completed (R346, R379). -/
def teamDone (s : State) (t : Nat) (tm : Team) : Bool :=
  let c := s.core tm.core
  tm.status == .resident && tm.groups.all (fun e => e.2.isRetired && e.2.ops.all (fun o => o.kind == .load))
    && !c.copies.any (fun e => e.2.team == t) && !c.tiles.any (fun o => o.team == t) && tm.posts == 0 && tm.pendq.isEmpty
    && !s.held.any (fun h => h.2.team == t && !h.2.kind.frontEnd)

/-- The grid's last team has retired: every team was placed and none is to be placed again. -/
def gridOver (g : Grid) : Bool := g.next == rTeams g.record && g.alive == 0 && g.again.isEmpty && g.fate == .running

/-- The front end begins the grid-end release (R48). -/
def beginGridEnd (s : State) (gd : Nat) : State :=
  match alook s.grids gd with
  | none => s
  | some g =>
    if gridOver g then
      let s := s.updGrid gd (fun g => { g with fate := .releasing })
      let own := if rCnt g.record = 0 then [] else ownHome s g.part (rCnt g.record)
      holdThread s (.gridEnd gd) feTeam .vector 0 0 (rScope g.record) g.vt (unionNat own g.homes) [] feCore g.part
    else s

/-- TEAM_RETIRE: the team's resources are freed in one step, and its times go to its grid. -/
def execTeamRetire (team : Nat) (s : State) : Out :=
  match s.team? team with
  | none => .next s
  | some tm =>
    if teamDone s team tm then
      let s := removeTeam s team
      let s := s.updGrid tm.grid (fun g => { g with alive := g.alive - 1, vt := max g.vt tm.vt, homes := unionNat tm.homes g.homes })
      .next (beginGridEnd s tm.grid)
    else .next s

end Sys2Proof.Machine
end

