-- ==== Sys2Proof/Machine/Fit.lean ====
section
/-! DEFINITION. What a core has free and which teams fit it (R14, R132, R269, R295, R296), the placement of a team (R32, R63,
R132, R250, R269, R292), and the restoring of a saved one (R251, R266). -/
namespace Sys2Proof.Machine

/-! ### Front ends -/

def State.front (s : State) (d : Nat) : FrontEnd := s.fronts.getD d FrontEnd.idle
def State.updFront (s : State) (d : Nat) (f : FrontEnd → FrontEnd) : State := { s with fronts := setAt s.fronts d (f (s.front d)) }

/-- C-die of a core (R15). -/
def dieOf (core : Nat) : Nat := core / 384

/-! ### What is free -/

def coreUsed (ts : List (Nat × Team)) : Demand := ts.foldl (fun d e => d.add e.2.demand) Demand.zero

/-- Blocks of 2 KiB of a buffer that resident teams of the core hold (R132). -/
def blocksUsed (ts : List (Nat × Team)) (b : Nat) : List Nat :=
  ts.flatMap (fun e => let r := e.2.region b; span (r.base / 2048) (ceilDiv r.quota 2048))

/-- The lowest run of n free blocks among the 64 of a buffer. -/
def freeRun (used : List Nat) (n : Nat) : Option Nat :=
  if n = 0 then some 0 else (span 0 (65 - n)).find? (fun i => (span i n).all (fun k => !used.contains k))

/-- Free group slots of a core, rising. -/
def freeSlots (ts : List (Nat × Team)) : List Nat :=
  let used := ts.flatMap (fun e => e.2.groups.map (fun g => g.2.slot))
  (span 0 Config.groupSlots).filter (fun n => !used.contains n)

/-- The bank that a partition has or would be assigned (R269): the lowest whose partition has no resident team. -/
def bankFor (s : State) (core part : Nat) : Option Nat :=
  let bs := (s.core core).banks
  match (span 0 bs.length).find? (fun n => (bs.getD n Bank.free).part == some part) with
  | some n => some n
  | none => (span 0 bs.length).find? (fun n => match (bs.getD n Bank.free).part with
    | none => true
    | some p => !(teamsOn s core).any (fun e => e.2.part == p))

/-- Which teams may be placed on a core: its buffers' quotas in bytes are needed for the runs of blocks. -/
structure Need where
  demand : Demand
  quotas : List Nat
  rings : Nat
  deriving DecidableEq, Repr

def recNeed (r : Rec) : Need := ⟨recDemand r, rQuotas r, rRings r⟩
def Team.need (x : Team) : Need := ⟨x.demand, x.quotas, x.nrings⟩

/-- R296. A halted core (R263) and a core of a die in reset take no team. -/
def fits (s : State) (core part : Nat) (n : Need) : Bool :=
  let ts := teamsOn s core
  let lim := (alook (s.part part).plim core).getD 0
  let mine := coreUsed (ts.filter (fun e => e.2.part == part))
  !(s.core core).debugHalt && !(s.front (dieOf core)).inReset
    && (mine.add n.demand).le (plimDemand lim) && ((coreUsed ts).add n.demand).le coreDemand
    && decide (n.rings ≤ plimRings lim)
    && (span 0 3).all (fun b => (freeRun (blocksUsed ts b) (ceilDiv (n.quotas.getD b 0) 2048)).isSome)
    && (bankFor s core part).isSome

/-! ### Resources of a team about to be placed -/

/-- A region for each buffer at the lowest run of blocks; blocks that another partition last held are scrubbed (R132), and those that
a kill scrubbed hold zeros (R167). -/
def giveRegion (s : State) (core part b quota epoch : Nat) : Region :=
  let base := (freeRun (blocksUsed (teamsOn s core) b) (ceilDiv quota 2048)).getD 0
  let mine := span base (ceilDiv quota 2048)
  { base := 2048 * base, quota := quota, epoch := epoch, bytes := [],
    scrubbed := mine.filter (fun k => match alook (s.core core).blocks (64 * b + k) with
      | some p => decide (p ≠ part + 1) || (s.core core).zeroed.contains (64 * b + k)
      | none => false) }

/-- The blocks of a team's regions. -/
def regionKeys (rs : List Region) : List Nat := (span 0 3).flatMap (fun b => (rs.getD b ⟨0, 0, 0, [], []⟩).blockKeys b)

/-- The blocks of a team's regions belong to its partition. -/
def claimBlocks (s : State) (core part : Nat) (rs : List Region) : State :=
  s.updCore core (fun c => { c with
    blocks := (regionKeys rs).foldl (fun m k => aput m k (part + 1)) c.blocks
    zeroed := c.zeroed.filter (fun k => !(regionKeys rs).contains k) })

/-- The partition's bank on the core, scrubbed and filled from the master copy when it is newly assigned (R269). -/
def assignBank (s : State) (core part : Nat) : State :=
  match bankFor s core part with
  | none => s
  | some n => s.updCore core (fun c =>
    if (c.banks.getD n Bank.free).part = some part then c
    else { c with banks := setAt c.banks n ⟨some part, (s.part part).master.filter (fun e => !e.2.isEmpty)⟩ })

/-! ### A new team (R63) -/

def stagesOf (d : Word) : List Stage := List.replicate (fieldOf d 3 0 + 1) Stage.idle

/-- The rings and barriers that a header declares (R54, R59). -/
def ringsOf (h : List Word) : List (Nat × Ring) :=
  (span 0 8).filterMap (fun n => let d := h.getD n 0; if d.getLsbD 20 then some (n, ⟨d, stagesOf d⟩) else none)
def barriersOf (h : List Word) (counts : List Nat) : List (Nat × Barrier) :=
  (span 0 16).filterMap (fun n =>
    let d := h.getD (8 + n) 0
    if d.getLsbD 3 then
      some (n, ⟨d, false, 0, sumNat ((span 0 3).map (fun r => if d.getLsbD r then counts.getD r 0 else 0)), 0, 0, [], []⟩)
    else none)

/-- The groups in the order of their roles, at the core's lowest free group slots. -/
def groupsOf (r : Rec) (slots : List Nat) : List (Nat × Group) :=
  (span 0 (rGroups r)).map (fun g =>
    (g, Group.fresh (roleOf ((rCounts r).getD 0 0) ((rCounts r).getD 1 0) g) (slots.getD g 0)
      (BitVec.ofNat 64 (rCode r + 0x80)) (rWidth r) (rArg r)))

/-- A team of a grid at placement on a core with a save area. -/
def newTeam (s : State) (core gd : Nat) (g : Grid) (l : Launch) (idx tries : Nat) (area : Nat × Nat) : Team :=
  let r := g.record
  let c := rCounts r
  { grid := gd, teamIdx := idx, part := g.part, core := core, die := dieOf core, launch := g.launch, queue := l.queue,
    width := rWidth r, nCopy := c.getD 0 0, nMatrix := c.getD 1 0, nVector := c.getD 2 0, budgets := rBudgets r,
    quotas := rQuotas r, cslots := rSlots r, nrings := rRings r, prio := g.prio, placed := s.newId, placedTick := s.tick,
    saveVA := area.1, savePA := area.2, status := .resident, saving := none, stopped := false, tries := tries,
    groups := groupsOf r (freeSlots (teamsOn s core)), flags := 0, perf := [], rings := ringsOf g.header,
    barriers := barriersOf g.header c, pendq := [], bind := [],
    regions := (span 0 3).map (fun b => giveRegion s core g.part b ((rQuotas r).getD b 0) (4 * s.newId + b)),
    handler := none, woken := none, pri := false, vt := 0, homes := [], posts := 0 }

/-- Place a team of a grid on a core that fits it. None when no save area is free (R250). -/
def placeNew (s : State) (core gd idx tries : Nat) : Option State :=
  match alook s.grids gd with
  | none => none
  | some g =>
    match alook s.launches g.launch, (s.part g.part).savePool with
    | some l, area :: rest =>
      if fits s core g.part (recNeed g.record) then
        let x := newTeam s core gd g l idx tries area
        let s := assignBank (claimBlocks s core g.part x.regions) core g.part
        let s := s.updPart g.part (fun p => { p with savePool := rest })
        some ((s.putTeam s.newId x).bumpId)
      else none
    | _, _ => none

/-! ### The save area (Tables 11-2 and 11-10) -/

/-- A range of memory holds only zeros. -/
def memZero (s : State) (a n : Nat) : Bool := s.mem.all (fun e => decide (e.1 < a ∨ a + n ≤ e.1))

/-- A range of memory holds no uncorrectable data. -/
def linesGood (s : State) (a n : Nat) : Bool := s.badLines.all (fun l => decide (128 * l + 128 ≤ a ∨ a + n ≤ 128 * l))

/-- The reserved fields of a frame in use (Table 11-3; R73 for its GMR). -/
def frameZeroOk (s : State) (a : Nat) : Bool :=
  fieldOf (s.read32 (a + 0x004)) 31 2 == 0 && fieldOf (s.read32 (a + 0x030)) 31 16 == 0 && memZero s (a + 0x034) 12 && memZero s (a + 0x400) 0x400

/-- Places that the layout leaves zero: those of absent groups, unused stack entries, the reserved end, and the reserved fields
of frames in use. -/
def saveZeroOk (s : State) (x : Team) : Bool :=
  let a := x.savePA
  (span 0 64).all (fun g => match x.group? g with
    | none => memZero s (a + 0x2A0000 + 0x200 * g) 0x200 && memZero s (a + 0x2A8000 + 0x200 * g) 0x200
        && memZero s (a + 0x2B0000 + 0x40 * g) 0x40
    | some y => memZero s (a + 0x2A8000 + 0x200 * g + 16 * y.stack.length) (16 * (32 - y.stack.length))
        && y.frames.all (fun f => frameZeroOk s (frameAddr x g f.1)))
    && memZero s (a + 0x2E0000) 0x120000

/-- The V registers of a group in the save area: groups in order, registers in order, lanes in order (log entry 40). -/
def vOffset (x : Team) (g : Nat) : Nat :=
  sumNat ((x.groups.filter (fun e => decide (e.1 < g))).map (fun e => 4 * x.width * (8 * x.budgets.getD (roleCode e.2.role) 0)))

/-- Write what Table 11-2 saves: V, the listed bytes of the regions, S, stacks and K; everything else reads as zero. -/
def writeSave (s : State) (x : Team) : State :=
  let a := x.savePA
  hardWrite s x.part (a + 0x200000) 0x200000 (fun s =>
  let s := { s with mem := sclear (sclear s.mem (a + 0x200000) 0x40000) (a + 0x2A0000) 0x160000 }
  let s := x.groups.foldl (fun s e =>
    let y := e.2
    let s := y.v.foldl (fun (s : State) v =>
      s.putBytes (a + 0x200000 + vOffset x e.1 + 4 * (x.width * (v.1 / 64) + v.1 % 64)) (bytesOf 4 v.2.toNat)) s
    let s := y.s.foldl (fun (s : State) r => s.putBytes (a + 0x2A0000 + 0x200 * e.1 + 4 * r.1) (bytesOf 4 r.2.toNat)) s
    let s := y.k.foldl (fun (s : State) r => s.putBytes (a + 0x2B0000 + 0x40 * e.1 + 8 * r.1) (bytesOf 8 r.2.toNat)) s
    s.putBytes (a + 0x2A8000 + 0x200 * e.1) (y.stack.reverse.flatMap entryBytes)) s
  (span 0 3).foldl (fun s b => (x.region b).bytes.foldl (fun (s : State) e => s.putByte (a + 0x240000 + 0x20000 * b + e.1) e.2) s) s)

/-- A group's registers and on-chip stack as the save area holds them. -/
def readSaved (s : State) (x : Team) (g : Nat) (y : Group) : Group :=
  let a := x.savePA
  let n := y.stack.length
  let budget := 8 * x.budgets.getD (roleCode y.role) 0
  { y with
    s := (span 0 128).foldl (fun m r => sput 0 m r (s.read32 (a + 0x2A0000 + 0x200 * g + 4 * r))) []
    k := (span 0 8).foldl (fun m r => sput 0 m r (s.read64 (a + 0x2B0000 + 0x40 * g + 8 * r))) []
    v := (span 0 budget).foldl (fun m r => (span 0 x.width).foldl (fun m l =>
      sput 0 m (64 * r + l) (s.read32 (a + 0x200000 + vOffset x g + 4 * (x.width * r + l)))) m) []
    stack := (span 0 n).map (fun i =>
      let b := a + 0x2A8000 + 0x200 * g + 16 * (n - 1 - i)
      entryOf (s.read64 b) (s.read64 (b + 8))) }

/-! ### Resuming (R266) -/

/-- A saved region at a new base: what was written, and what was scrubbed, keep their offsets. -/
def Region.rebase (r : Region) (base : Nat) (read : Nat → Byte) : Region :=
  { r with base := base, bytes := r.bytes.map (fun e => (e.1, read e.1)),
           scrubbed := r.scrubbed.map (fun k => k - r.base / 2048 + base / 2048) }

/-- A load abandoned by a save: no lane of it is performed (Table 11-7). -/
def PendOp.abandoned (o : PendOp) : PendOp :=
  if o.settled then o else { o with accs := o.accs.map (fun a => { a with done := false }), late := [] }

/-- An abandoned load is issued again: its accesses are translated afresh; a lane that now meets a condition records it. -/
def reissue (s : State) (core part : Nat) (super : Bool) (o : PendOp) : PendOp :=
  let fresh := fun (a : Acc) =>
    if a.done || a.loc.space != 0 then Sum.inl a
    else match translate s core part a.va [.rd] with
      | .ok key => if dataBad s key super then Sum.inr ⟨a.lane, 6, a.va, false⟩ else Sum.inl { a with loc := { a.loc with addr := key }, level := leafLevel s core part a.va }
      | .cause c ats => Sum.inr ⟨a.lane, c, a.va, ats⟩
  let rs := o.accs.map (fun a => (a, fresh a))
  { o with accs := rs.map (fun r => match r.2 with | .inl a => a | .inr _ => { r.1 with done := true }),
           late := o.late ++ rs.filterMap (fun r => match r.2 with | .inl _ => none | .inr (b : BadLane) => some b), since := s.tick }

/-- Piccolo logs the loads of a resumed group again. -/
def relog (s : State) (t g : Nat) : State :=
  match s.team? t, s.group? t g with
  | some x, some y =>
    y.ops.foldl (fun s o =>
      (linesOf ((o.accs.filter (fun a => !a.done && a.loc.space == 0)).map (·.loc))).foldl (fun s l =>
        logAdd s x.core { entryAt ⟨t, g, x, y, 0⟩ (if o.acq then .ldacq else .ld) o.scope (some l) with seq := o.seq, pc := o.pt.word }) s) s
  | _, _ => s

/-- The instruction at which a group was blocked is executed again when its team has resumed (Table 11-7). -/
def resumed (x : Team) (g : Nat) (st : GStatus) : GStatus :=
  match st with
  | .waiting (.escalated _) => st
  | .waiting w => if w.blocking then wakeStatus x g else st
  | _ => st

/-- Restore a saved team on a core that fits it; a save area that breaks its layout or holds uncorrectable data kills it
(R250). -/
def resumeTeam (s : State) (core t : Nat) : Option State :=
  match s.team? t with
  | none => none
  | some x =>
    if x.status = .resident ∨ fits s core x.part x.need = false then none
    else if !(saveZeroOk s x && linesGood s x.savePA 0x400000) then some (failTeam s t 0x108)
    else
      let s := if x.perf.any (fun p => countsCycles p.2) then s.someCycles else s
      let slots := freeSlots (teamsOn s core)
      let base := fun b => 2048 * (freeRun (blocksUsed (teamsOn s core) b) (ceilDiv (x.quotas.getD b 0) 2048)).getD 0
      let regions := (span 0 3).map (fun b =>
        (x.region b).rebase (base b) (fun o => s.byte (x.savePA + 0x240000 + 0x20000 * b + o)))
      let groups := x.groups.map (fun e =>
        let y := readSaved s x e.1 e.2
        (e.1, { y with
          slot := slots.getD e.1 0, runPos := 0, passes := 0, starving := none, status := resumed x e.1 y.status
          ops := y.ops.map (reissue s core x.part y.super) }))
      let x' : Team := { x with
        core := core, die := dieOf core, status := .resident, placed := s.newId, placedTick := s.tick, saving := none, stopped := false,
        woken := none, pri := false, regions := regions, groups := groups }
      let s := assignBank (claimBlocks s core x.part regions) core x.part
      let s := (s.putTeam t x').bumpId
      let s := groups.foldl (fun s e => relog s t e.1) s
      some (groups.foldl (fun s e => (e.2.ops.filter (fun o => o.accs.all (·.done))).foldl (fun s o => settleOp s t e.1 o) s) s)

end Sys2Proof.Machine
end

