-- ==== Sys2Proof/Machine/Save.lean ====
section
/-! DEFINITION. Pre-emption saves (R51, R206, R255, R265), wake conditions (R264), the release of escalated teams (R258, R264)
and the re-reading of awaited counters (R294). -/
namespace Sys2Proof.Machine

/-! ### The save -/

/-- Step 2 of R265: engine operations complete, posts and releases done, every store and atomic visible; of loads only those
of a load stall are abandoned. A held copy (R150) has not completed: a save waits until its handler has settled it, so that one
which the handler itself asks for by RACT 10 waits for good. R150 does not say how a held copy stands here (log entry 69). -/
def teamQuiet (s : State) (t : Nat) (tm : Team) : Bool :=
  let c := s.core tm.core
  !c.copies.any (fun e => e.2.team == t) && !c.tiles.any (fun o => o.team == t) && tm.posts == 0
    && !s.held.any (fun h => h.2.team == t && !h.2.kind.frontEnd) && !s.shoots.any (fun k => k.2.team == t)
    && tm.groups.all (fun e => e.2.ops.all (fun o => o.settled || (o.kind == .load && e.2.status == .waiting .loadStall)))

/-- A partly received inbound packet is discarded and its later flits will be dropped (R189); PRST says that it was cut short
(Table 8-9). Answers the discarded flits and the senders of the packets cut short. -/
def QPort.saved (q : QPort) : QPort × List Flit × List Nat :=
  let (keep, _, gone) := dropPartial (fun _ => true) q.rq
  let cut := match q.cur with
    | some p => !(keep.any (fun f => f.sender == p))
    | none => false
  let senders := gone.map Flit.sender ++ (match q.cur with | some p => if cut then [p] else [] | none => [])
  ({ q with rq := keep, cut := q.cut || cut, prst := q.prst || cut || !gone.isEmpty }, gone, senders)

/-- Whether the wake condition of some saved group holds (Table 11-7). A counter that cannot be read lets CWAIT run again once the
front end is to read it (R294). -/
def wakeHolds (s : State) (t : Nat) (tm : Team) : Bool :=
  tm.groups.any (fun e => match e.2.status with
    | .waiting .qrecv => true
    | .waiting .loadStall => true
    | .waiting (.spawn _ _ _) => decide (tm.pendq.length < Config.pendingEntries) && counterFree s tm.launch
    | .waiting (.cwait va target _) =>
      (match cwaitRead s ⟨t, e.1, { tm with core := feCore }, e.2, 0⟩ va.toNat target with
       | .short _ => false
       | .reached _ => true
       | .bad _ _ => mayReread s (.group t e.1))
    | _ => false)

def frameHmask (s : State) (tm : Team) (g slot : Nat) : Lanes := s.read64 (frameAddr tm g slot + 0x28)

/-- A saved team whose wake condition holds is ready (R264). -/
def wakeTeam (s : State) (t : Nat) : State :=
  match s.team? t with
  | some tm =>
    if tm.status = .saved ∧ tm.woken = none ∧ wakeHolds s t tm = true then
      (s.updTeam t (fun x => { x with woken := some s.tick })).stir
    else s
  | none => s

/-- Steps 3 to 5 of R265. The page request of an escalated team is refused BUSY as its escalation may be (R325). -/
def saveTeam (s : State) (t : Nat) (tm : Team) : State :=
  let gone := tm.groups.flatMap (fun e => e.2.q.saved.2.1)
  let s := { gone.foldl returnAllow s with cutPackets := s.cutPackets ++ cutAt tm (fun y => y.q.saved.2.2) }
  let s := tm.groups.foldl (fun s e => e.2.ops.foldl (fun s o => closeEntries s t e.1 o.seq) s) s
  let s := writeSave s tm
  let esc := escalatedAt tm
  let page := match esc with | some (g, slot) => frameHmask s tm g slot != 0 | none => false
  let s := if page && requestsFull s then s.logEvent 4 1 t [] else s
  let s := s.updTeam t (fun x => { x with
    status := match esc with | some (g, slot) => .escalated g slot | none => .saved
    saving := none
    stopped := false
    woken := none
    pri := page && !requestsFull s
    groups := x.groups.map (fun e => (e.1, { e.2 with
      q := e.2.q.saved.1, ops := e.2.ops.map PendOp.abandoned, runPos := 0, passes := 0, starving := none })) })
  let s := s.updPart tm.part (fun p => { p with preempting := p.preempting.filter (· != t) })
  let s := flushIfLast (s.updCore tm.core (fun c => freeCore c t)) tm.core tm.part
  wakeTeam s.stir t

/-- Step 1 of R265: the team's issue may stop now. A core that the debug path has halted takes no save (R263). -/
def mayStop (s : State) (t : Nat) (tm : Team) : Bool :=
  tm.saving.isSome && tm.status == .resident && !(s.core tm.core).debugHalt && (tm.stopped || teamBlocked s t tm)

/-- PREEMPT_SAVE: once R51 holds the team's issue stops, for good unless a group traps (Table 11-8); the save then follows as soon
as step 2 is done. -/
def execPreemptSave (team : Nat) (s : State) : Out :=
  match s.team? team with
  | none => .next s
  | some tm =>
    if mayStop s team tm then
      if teamQuiet s team tm then .next (saveTeam s team tm) else .next (s.updTeam team (fun x => { x with stopped := true }))
    else .next s

/-- PREEMPT_DEADLINE_EXPIRY: the deadline passes before issue stops; the save is withdrawn and rung 1 starts on the queue to
which the team is attributed. A deadline is a cycle; the tick's last cycle is 128 * tick + 127. -/
def execPreemptDeadlineExpiry (team : Nat) (s : State) : Out :=
  match s.team? team with
  | none => .next s
  | some tm =>
    match tm.saving with
    | none => .next s
    | some d =>
      if tm.status != .resident || decide (128 * s.tick + 127 < d) || tm.stopped || mayStop s team tm then .next s
      else
        let s := s.updTeam team (fun x => { x with saving := none })
        let s := s.updPart tm.part (fun p => { p with preempting := p.preempting.filter (· != team) })
        .next (startRung s 1 (queueTarget tm.part tm.queue) (some tm.launch))

/-- WAKE_CONDITION. -/
def execWakeCondition (team : Nat) (s : State) : Out := .next (wakeTeam s team)

/-! ### Escalated teams -/

/-- FIRMWARE_RELEASE: firmware sets RACT in the frame and releases the team, whose POPR runs again when it resumes. It waits
for the answer to an outstanding page request (R258). -/
def execFirmwareRelease (team : Nat) (act : BitVec 2) (s : State) : Out :=
  match s.team? team with
  | none => .next s
  | some tm =>
    match tm.status with
    | .escalated g slot =>
      if tm.pri then .next s
      else match gateRequest s with
        | .busy => .next (s.logEvent 4 1 team [])
        | .refused => .next s
        | .held => .next (holdRequest s (.firmwareRelease team act))
        | .go =>
          let s := s.write32 (frameAddr tm g slot + 4) (act.setWidth 32)
          .next (s.updTeam team (fun x =>
            ({ x with status := .saved, woken := some s.tick }).updGroup g (fun y => { y with status := .ready }))).stir
    | _ => .next s

/-- The host page behind a virtual address, when a leaf maps it there. -/
def hostPages (s : State) (part va : Nat) : List Nat :=
  match findLeaf s feCore part va with
  | .leaf e level => if targetOf (leafKey e level va) = .host then [hostPage (leafKey e level va)] else []
  | _ => []

/-- Host pages behind the faulted accesses of the lanes of HMASK. -/
def hmaskPages (s : State) (tm : Team) (g slot : Nat) : List Nat :=
  (lanesOf (frameHmask s tm g slot)).flatMap (fun l =>
    hostPages s tm.part (s.read64 (frameAddr tm g slot + 0x200 + 8 * l)).toNat)

/-- PRI_RESPONSE: the host's answer to the page request of an escalated team; RACT becomes 00, and the pages are granted, or
11. -/
def execPriResponse (team : Nat) (success : Bool) (s : State) : Out :=
  match s.team? team with
  | none => .next s
  | some tm =>
    match tm.status with
    | .escalated g slot =>
      if !tm.pri then .next s
      else match gateRequest s with
        | .busy => .next (s.logEvent 4 1 team [])
        | .refused => .next s
        | .held => .next (holdRequest s (.priResponse team success))
        | .go =>
          let pages := hmaskPages s tm g slot
          let s := s.write32 (frameAddr tm g slot + 4) (if success then 0 else 3)
          let s := s.updTeam team (fun x => { x with pri := false })
          .next (if success then { s with hostRefused := s.hostRefused.filter (fun p => p.1 != tm.part || !pages.contains p.2) } else s)
    | _ => .next s

end Sys2Proof.Machine
end

