-- ==== Sys2Proof/Machine/Packets.lean ====
section
/-! DEFINITION. Command queues (R282 to R288): doorbells, the NOP, WAIT and LAUNCH packets, the seed grid, the grid table
(R292), and the re-reading of awaited values (R285, R294). -/
namespace Sys2Proof.Machine

/-! ### Taking a packet -/

/-- The report ring has no space, or earlier records still wait for it (R319). -/
def reportsBlocked (s : State) (part : Nat) : Bool :=
  match (s.part part).report with
  | some r => decide (r.rd + 2 ^ r.logSize ≤ r.wr)
  | none => false

/-- The front end may take the queue's next packet. -/
def mayTake (s : State) (part queue : Nat) : Bool :=
  let q := (s.part part).queue queue
  let f := s.front q.die
  q.en && !s.pausedOn q.die && !f.inReset && q.rd.toNat < q.wr.toNat && q.wait.isNone && q.seed.isNone && !reportsBlocked s part

/-- What stands at the read index: a lane code, or the packet's 16 words. -/
def packetAt (s : State) (part queue : Nat) : Nat ⊕ List Word :=
  let q := (s.part part).queue queue
  match feAccess s feCore part (q.base + 64 * (q.rd.toNat % 2 ^ q.size)) 64 64 [.rd] false with
  | .bad code _ => .inl code
  | .ok key => .inr (wordsOf s key 16)

def pkType (w : List Word) : Nat := fieldOf (w.getD 0 0) 7 0
def pkPrio (w : List Word) : Nat := fieldOf (w.getD 0 0) 13 8
def pkScope (w : List Word) : Nat := fieldOf (w.getD 0 0) 16 14
def pkBudget (w : List Word) : Nat := fieldOf (w.getD 0 0) 21 17
def pkTag (w : List Word) : Word := w.getD 1 0
def pkCode (w : List Word) : DWord := pairOf (w.getD 2 0) (w.getD 3 0)
def pkArg (w : List Word) : DWord := pairOf (w.getD 4 0) (w.getD 5 0)
def pkSig (w : List Word) : DWord := pairOf (w.getD 6 0) (w.getD 7 0)
def pkVal (w : List Word) : DWord := pairOf (w.getD 8 0) (w.getD 9 0)

/-- Tables 13-2 and 13-3. -/
def packetOk (q : Queue) (w : List Word) : Bool :=
  fieldOf (w.getD 0 0) 31 22 == 0 && (span 10 6).all (fun i => w.getD i 0 == 0) &&
    (match pkType w with
     | 0 => pkBudget w == 0 && pkPrio w == 0 && pkCode w == 0 && pkArg w == 0 && (pkScope w == 0 || pkScope w == 3 || pkScope w == 4)
     | 1 => decide (1 ≤ pkBudget w ∧ pkBudget w ≤ 16) && decide (pkPrio w ≤ 47 ∧ pkPrio w ≤ q.cap)
        && (pkScope w == 3 || pkScope w == 4) && (pkCode w).toNat % 128 == 0 && (pkSig w).toNat % 8 == 0
     | 2 => pkBudget w == 0 && pkPrio w == 0 && pkCode w == 0 && pkArg w == 0 && (pkScope w == 3 || pkScope w == 4)
        && (pkSig w).toNat % 8 == 0
     | _ => false)

/-- A packet that is consumed and reported failed. -/
def failPacket (s : State) (part queue : Nat) (tag : Word) (cause : Nat) : State :=
  advance (packetReport s part queue tag cause 0) part queue

/-- Take the next packet: `act` runs on a packet of this type that keeps its tables. A packet that breaks them, or cannot be
read, is reported by whichever of the three steps comes for it, a known type by its own (log entry 41). -/
def takePacket (s : State) (part queue type : Nat) (act : State → List Word → State) : State :=
  if !mayTake s part queue then s
  else
    match packetAt s part queue with
    | .inl code => failPacket s part queue 0 code
    | .inr w =>
      if pkType w ≤ 2 ∧ pkType w ≠ type then s
      else if packetOk ((s.part part).queue queue) w then act s w
      else failPacket s part queue (pkTag w) 0x100

/-- A write index more than 2^SIZE ahead of the read index disables an enabled queue; firmware, to which it is reported, answers with
rung 1 (log entry 42). -/
def checkIndex (s : State) (part queue : Nat) : State :=
  let q := (s.part part).queue queue
  if q.en ∧ q.rd.toNat + 2 ^ q.size < q.wr.toNat then
    startRung ((s.updQueue part queue (fun q => { q with en := false })).logEvent 5 0x283 queue [part]) 1 (queueTarget part queue) none
  else s

/-- DOORBELL_WRITE (R283): the register takes the index, whether or not the queue is enabled. The management function has no BAR0, where
doorbells stand (R331, R335). -/
def execDoorbellWrite (part queue : Nat) (index : DWord) (s : State) : Out :=
  if s.fw.mgmtOnly then .next s
  else .next (checkIndex (s.updQueue part queue (fun q => { q with wr := index })) part queue)

def execNopPacket (part queue : Nat) (s : State) : Out := .next (takePacket s part queue 0 (fun s _ => advance s part queue))

/-! ### WAIT -/

/-- Read the awaited value: the packet is finished when it has been reached or cannot be read. -/
def readWait (s : State) (part queue : Nat) (w : List Word) : State :=
  match feAccess s feCore part (pkSig w).toNat 8 8 [.rd] false with
  | .bad code _ => failPacket (logWalk s feCore part (pkSig w).toNat) part queue (pkTag w) code
  | .ok key =>
    if (pkVal w).toNat ≤ (s.read64 key).toNat then advance s part queue
    else s.updQueue part queue (fun q => { q with wait := some w, watch := key })

def execWaitPacket (part queue : Nat) (s : State) : Out := .next (takePacket s part queue 2 (fun s w => readWait s part queue w))

/-- The front end has read a waiting group's counter again. A resident group's CWAIT returns or traps; it stays due while Piccolo's
log is full or a write of its own to the line is pending. A saved team becomes ready (R264). -/
def rereadGroup (s : State) (t g : Nat) (tm : Team) (y : Group) (va : DWord) (target : Word) (old : Nat) : State :=
  let x : Site := ⟨t, g, tm, y, 0⟩
  let seen := { s with due := s.due.filter (· != .group t g) }
  let again := fun (key : Nat) =>
    if key = old then seen else seen.updGroup t g (fun z => { z with status := .waiting (.cwait va target key) })
  if tm.status = .resident then
    match cwaitRead s x va.toNat target with
    | .short key => again key
    | .bad c ats => trapScalar (logWalk seen tm.core tm.part va.toNat) x c va.toNat ats
    | .reached key =>
      if ownPending x key ∨ logFree (s.core tm.core) = 0 then s else finishWait (cwaitReturn seen x key) t g
  else
    match cwaitRead s { x with tm := { tm with core := feCore } } va.toNat target with
    | .short key => again key
    | _ => if tm.status = .saved ∧ tm.woken = none then (seen.updTeam t (fun z => { z with woken := some s.tick })).stir else seen

/-- WAIT_VALUE_REREAD, on the occasions that R294 names. The words of a WAIT packet in progress are those that it was taken with. -/
def execWaitValueReread (w : WaitAt) (s : State) : Out :=
  if !mayReread s w then .next s
  else match w with
    | .group t g =>
      (match s.team? t, s.group? t g with
       | some tm, some y =>
         (match y.status with
          | .waiting (.cwait va target key) => .next (rereadGroup s t g tm y va target key)
          | _ => .next s)
       | _, _ => .next s)
    | .queue p q =>
      let x := (s.part p).queue q
      match x.wait with
      | some words =>
        if x.en && !(s.front x.die).inReset && !s.pausedOn x.die then
          .next (readWait { s with due := s.due.filter (· != w) } p q words)
        else .next s
      | none => .next s

/-! ### LAUNCH and the grid table -/

/-- Entries of a partition's grid table in use (R292): grids that have begun and not ended. -/
def gridsOpen (s : State) (part : Nat) : Nat :=
  (s.grids.filter (fun e => e.2.part == part && e.2.fate != .completed)).length

/-- A grid begins: it takes the partition's next GRIDID, and its teams are ready items, since a tick. -/
def beginGrid (s : State) (launch part : Nat) (record header : List Word) (prio : Nat) (seed : Bool) (since : Nat) : State :=
  let g : Grid :=
    { launch := launch, part := part, gridid := (s.part part).gridCtr, record := record, header := header, prio := prio,
      seed := seed, next := 0, alive := 0, again := [], ready := since, fate := .running, outcome := 0, vt := 0, homes := [] }
  let s := s.updPart part (fun p => { p with gridCtr := p.gridCtr + 1 })
  ({ s.bumpId with grids := aput s.grids s.newId g }).stir

/-- The launch record of a seed grid (R287). -/
def seedRecord (w : List Word) : List Word :=
  [w.getD 2 0, w.getD 3 0, 1, 0x101, 0x10000, BitVec.ofNat 32 (pkBudget w * 2 ^ 16), 0, 0, 0, BitVec.ofNat 32 (pkScope w * 2 ^ 12),
   w.getD 4 0, w.getD 5 0, 0, 0, 0, 0]

/-- R285 to R287: the seed's header is read and checked, and the queue is held until the seed is placed. While the grid table has no
room the packet waits at the read index, and its seed is a ready item (Table 14-1, R426). -/
def launchAct (s : State) (part queue : Nat) (w : List Word) : State :=
  let lined := ((s.part part).queue queue).lined
  if Config.gridTable ≤ gridsOpen s part then
    if lined.isSome then s else (s.updQueue part queue (fun q => { q with lined := some (s.tick, w) })).stir
  else
    let since := match lined with | some e => e.1 | none => s.tick
    let s := s.updQueue part queue (fun q => { q with lined := none })
    let fail := fun (cause : Nat) =>
      failPacket (s.updPart part (fun p => { p with gridCtr := p.gridCtr + 1 })) part queue (pkTag w) cause
    match feAccess s feCore part (pkCode w).toNat 128 128 [.rd] false with
    | .bad code _ => logWalk (fail code) feCore part (pkCode w).toNat
    | .ok key =>
      let h := wordsOf s key 32
      if !headerOk h 0 [0, 0, 1] then fail 0x30
      else
        let q := (s.part part).queue queue
        let l : Launch :=
          { part := part, queue := queue, die := q.die, count := 1, tag := pkTag w, prio := pkPrio w,
            scope := (scopeOfCode (pkScope w)).getD .device, sigaddr := pkSig w, sigval := pkVal w, ended := false, vt := 0,
            homes := [] }
        let id := s.newId
        let s := { s.bumpId with launches := aput s.launches id l }
        let s := s.updQueue part queue (fun q => { q with seed := some s.newId })
        beginGrid s id part (seedRecord w) h (pkPrio w) true since

def execLaunchPacket (part queue : Nat) (s : State) : Out := .next (takePacket s part queue 1 (fun s w => launchAct s part queue w))

/-- PENDING_ENTRY_TAKE: the first accepted entry of a team's queue, while the grid table has room; a saved team's queue as
well (R292). The entry that it frees goes to the group that has waited longest in SPAWN (R291). -/
def execPendingEntryTake (team : Nat) (s : State) : Out :=
  match s.team? team with
  | none => .next s
  | some tm =>
    match tm.pendq with
    | [] => .next s
    | p :: rest =>
      let die := match alook s.launches tm.launch with | some l => l.die | none => tm.die
      if !p.accepted || decide (Config.gridTable ≤ gridsOpen s tm.part) || s.pausedOn die || (s.front die).inReset then .next s
      else
        let s := s.updTeam team (fun x => { x with pendq := rest })
        .next (grantSpawn (beginGrid s tm.launch tm.part p.record p.header p.prio false s.tick) team)

/-- REPORT_DOORBELL: the host has read records up to an index (R318, R319). -/
def execReportDoorbell (part : Nat) (index : DWord) (s : State) : Out :=
  match (s.part part).report with
  | none => .next s
  | some r =>
    if s.fw.mgmtOnly then .next s
    else .next (flushReports (s.updPart part (fun p => { p with report := some { r with rd := min index.toNat r.wr } })))

end Sys2Proof.Machine
end

