-- ==== Sys2Proof/Machine/Decide.lean ====
section
/-! DEFINITION. Decisions (R299 to R308, R312, R313): ready items, the snapshot, DISPATCH, PREEMPT and FAULT, their validity
and the built-in rule, whole placement of cooperative grids, and overruns. -/
namespace Sys2Proof.Machine

/-! ### Ready items (R299) -/

inductive ItemKind where
  | fresh (grid : Nat)
  | again (grid idx tries : Nat)
  | resume (team : Nat)
  | packet (record : List Word)
  deriving DecidableEq, Repr

/-- A ready item, a packet whose seed has no entry in the grid table yet among them: its queue, since when it is ready, its priority, its place among equals, and how many teams it counts as. -/
structure Item where
  queue : Nat
  since : Nat
  prio : Nat
  key : Nat
  count : Nat
  kind : ItemKind
  deriving DecidableEq, Repr

/-- Ready items of a grid: its next team, or the whole of a cooperative grid, and the teams to be placed again. -/
def gridItems (s : State) (id : Nat) (g : Grid) : List Item :=
  match alook s.launches g.launch with
  | none => []
  | some l =>
    if g.fate != .running then []
    else
      g.again.map (fun e => ⟨l.queue, e.2.2, g.prio, id, 1, .again id e.1 e.2.1⟩)
        ++ (if g.next < rTeams g.record then
              [⟨l.queue, g.ready, g.prio, id, if rCoop g.record then 1 else rTeams g.record - g.next, .fresh id⟩]
            else [])

/-- The ready items of a partition. -/
def items (s : State) (part : Nat) : List Item :=
  (s.grids.filter (fun e => e.2.part == part)).flatMap (fun e => gridItems s e.1 e.2)
    ++ s.teams.filterMap (fun e => match e.2.woken with
        | some since => if e.2.part = part ∧ e.2.status = .saved then some ⟨e.2.queue, since, e.2.prio, e.1, 1, .resume e.1⟩ else none
        | none => none)
    ++ (s.part part).queues.filterMap (fun q => q.2.lined.map (fun e => ⟨q.1, e.1, pkPrio e.2, s.nextId, 1, .packet (seedRecord e.2)⟩))

/-- Queues of the partition that the die's front end serves (R282, R299). -/
def servedQueues (s : State) (part die : Nat) : List (Nat × Queue) :=
  (s.part part).queues.filter (fun q => q.2.die == die && decide (q.1 < 64))

/-- The enabled queues of the partition, whichever die serves them: those that a view shows (R302). -/
def enabledQueues (s : State) (part : Nat) : List (Nat × Queue) := (s.part part).queues.filter (fun q => q.2.en && decide (q.1 < 64))

def itemsOf (its : List Item) (q : Nat) : List Item := its.filter (fun i => i.queue == q)

/-- The oldest item; among equally old ones, the one whose grid or team came first. -/
def oldestItem : List Item → Option Item
  | [] => none
  | i :: is => match oldestItem is with
    | none => some i
    | some j => if j.since < i.since ∨ (j.since = i.since ∧ j.key < i.key) then some j else some i

def nextItem (s : State) (part queue : Nat) : Option Item := oldestItem (itemsOf (items s part) queue)

/-- The highest-ranked item: by priority, then age, then lower queue. -/
def topItem : List Item → Option Item
  | [] => none
  | i :: is => match topItem is with
    | none => some i
    | some j =>
      if i.prio < j.prio ∨ (i.prio = j.prio ∧ (j.since < i.since ∨ (j.since = i.since ∧ j.queue < i.queue))) then some j else some i

/-! ### Fitting an item -/

def itemNeed (s : State) (i : Item) : Need :=
  match i.kind with
  | .fresh g | .again g _ _ => match alook s.grids g with | some x => recNeed x.record | none => ⟨Demand.zero, [], 0⟩
  | .resume t => match s.team? t with | some x => x.need | none => ⟨Demand.zero, [], 0⟩
  | .packet r => recNeed r

/-- Place the first of n teams that remain on the first core of an order that fits it, and so on (R308). -/
def placeEach (gd : Nat) (order : List Nat) : Nat → Nat → State → Option State
  | 0, _, s => some s
  | n + 1, idx, s =>
    match order.findSome? (fun c => placeNew s c gd idx 0) with
    | some s' => placeEach gd order n (idx + 1) s'
    | none => none

/-- Place a cooperative grid whole: team 0 on the named core, the others in the order of R308. -/
def placeWhole (s : State) (gd core : Nat) (cands : List Nat) : Option State :=
  match alook s.grids gd with
  | none => none
  | some g =>
    let rest := (usable s g.part).map (·.1)
    let order := core :: (cands.filter (· != core) ++ rest.filter (fun c => c != core && !cands.contains c))
    let n := rTeams g.record
    match placeNew s core gd 0 0 with
    | some s' => placeEach gd order (n - 1) 1 s'
    | none => none

/-- The item of a cooperative grid that is still to be placed. -/
def coopItem (s : State) (i : Item) : Option Nat :=
  match i.kind with
  | .fresh g => match alook s.grids g with | some x => if rCoop x.record then some g else none | none => none
  | _ => none

/-- R300 and R308: the core fits the item; a cooperative grid can be placed whole with team 0 on the core. -/
def itemFits (s : State) (part core : Nat) (cands : List Nat) (i : Item) : Bool :=
  fits s core part (itemNeed s i) &&
    (match coopItem s i with
     | some g => (placeWhole s g core cands).isSome
     | none => true)

/-! ### The snapshot (R302, R303) -/

/-- Keys rising; equal keys keep their order. -/
def insertBy {α : Type} (le : α → α → Bool) (x : α) : List α → List α
  | [] => [x]
  | y :: ys => if le x y then x :: y :: ys else y :: insertBy le x ys

def sortBy {α : Type} (le : α → α → Bool) (l : List α) : List α := l.foldr (insertBy le) []

def queueRow (s : State) (part : Nat) (its : List Item) (q : Nat) (x : Queue) : List Nat :=
  let mine := itemsOf its q
  let prio := mine.foldl (fun m i => max m i.prio) 0
  let age := match oldestItem mine with | some i => min (s.tick - i.since) (2 ^ 24 - 1) | none => 0
  let ready := sumNat (mine.map (·.count))
  [1, prio, age, ready,
   (s.teams.filter (fun e => e.2.part == part && e.2.queue == q && e.2.status == .resident)).length,
   x.quota, x.faults, x.deadline, x.weight, x.last, x.gen, if ready = 0 then 0 else (prio + 1) * 2 ^ 32 + age]

def partsOn (ts : List (Nat × Team)) : Nat := (unionNat (ts.map (fun e => e.2.part)) []).length

/-- A core's row (Table 14-4), fields 0 to 10, then the four or five that the kind of decision gives. -/
def coreRow (s : State) (part core : Nat) (rest : List Nat) : List Nat :=
  let ts := teamsOn s core
  let own := ts.filter (fun e => e.2.part == part)
  let used := coreUsed ts
  let mine := coreUsed own
  let lim := plimDemand ((alook (s.part part).plim core).getD 0)
  let freeBuf := fun b => min (lim.bufs.getD b 0 - mine.bufs.getD b 0) (128 - used.bufs.getD b 0)
  [1, core, dieOf core, 64 - used.slots, 512 - used.vreg, freeBuf 0, freeBuf 1, freeBuf 2, partsOn ts, own.length,
   ((s.core core).banks.any (fun b => b.part == some part)).toNat] ++ rest

/-- The candidates of a DISPATCH: cores with nonzero SLOTS that fit a ready item, by group slots in use, then by number; each
with its FITMASK. A disabled queue's items count as any (R299, R303). -/
def dispatchCands (s : State) (part : Nat) (its : List Item) : List (Nat × Nat × Nat) :=
  let heads := ((s.part part).queues.filter (fun q => decide (q.1 < 64))).filterMap (fun q => (oldestItem (itemsOf its q.1)).map (fun i => (q.1, i)))
  let rows := (usable s part).filterMap (fun e =>
    if its.any (fun i => fits s e.1 part (itemNeed s i)) then
      some ((coreUsed (teamsOn s e.1)).slots, e.1,
        heads.foldl (fun m h => if itemFits s part e.1 [] h.2 then m + 2 ^ h.1 else m) 0)
    else none)
  (sortBy (fun a b => decide (a.1 < b.1 ∨ (a.1 = b.1 ∧ a.2.1 ≤ b.2.1))) rows).take 16

/-- The candidates of a PREEMPT: resident teams of lower priority, lowest priority first, then youngest placement. -/
def preemptCands (s : State) (part prio : Nat) : List (Nat × Team) :=
  (sortBy (fun a b => decide (a.2.prio < b.2.prio ∨ (a.2.prio = b.2.prio ∧ b.2.placed ≤ a.2.placed)))
    (s.teams.filter (fun e => e.2.part == part && e.2.status == .resident && decide (e.2.prio < prio)))).take 16

/-- The view of a decision, taken now. For a FAULT, `f` is the record of the team. -/
def viewNow (s : State) (part kind : Nat) (f : Option FaultRec) : PView :=
  let qs := enabledQueues s part
  let all := items s part
  let rows := qs.map (fun q => (q.1, queueRow s part all q.1 q.2))
  let nq := ((s.part part).queues.filter (fun q => q.2.en)).length
  let gen := (s.part part).gen
  match kind with
  | 0 =>
    let cs := dispatchCands s part all
    ⟨rows, cs.map (fun c => coreRow s part c.2.1 [c.2.2, 0, 0, 0, 0]), cs.map (·.2.1),
     [0, s.tick, 0, 0, 0, 0, cs.length, gen, nq]⟩
  | 1 =>
    let top := topItem all
    let prio := match top with | some i => i.prio | none => 0
    let cs := preemptCands s part prio
    ⟨rows,
     cs.map (fun e => coreRow s part e.2.core [0, e.2.prio, s.tick - e.2.placedTick, (allBlocked s e.1 e.2).toNat, e.2.queue]),
     cs.map (·.1), [1, s.tick, match top with | some i => i.queue | none => 0, prio, 0, 0, cs.length, gen, nq]⟩
  | _ =>
    let q := match f with | some r => r.queue | none => 0
    let p := match f with | some r => r.prio | none => 0
    let n := match f with | some r => r.tries | none => 0
    let c := match f with | some r => r.cause | none => 0
    ⟨rows, [], [], [2, s.tick, q, p, n, c, 0, gen, nq]⟩

def faultOf (s : State) (team : Nat) : Option FaultRec := s.faults.find? (fun f => f.team == team)

/-- A decision as it starts now (R300, R311). -/
def newDecision (s : State) (part kind team : Nat) : Decision :=
  ⟨part, kind, team, viewNow s part kind (faultOf s team), (s.part part).prog, (s.part part).gen⟩

/-! ### When decisions run (Table 14-1) -/

/-- The engine may start a decision: no decision in flight, no pause, no reset. -/
def engineFree (s : State) (die : Nat) : Bool :=
  let f := s.front die
  f.deciding.isNone && !s.pausedOn die && !f.inReset && decide (die < 4)

def dispatchDue (s : State) (die part : Nat) : Bool :=
  !(s.part part).rested.contains die
    && (items s part).any (fun i => (servedQueues s part die).any (fun q => q.1 == i.queue))

def preemptDue (s : State) (die part : Nat) : Bool :=
  let p := s.part part
  p.starved.contains die && p.preempting.isEmpty &&
    (match topItem (items s part) with
     | some i => s.teams.any (fun e => e.2.part == part && e.2.status == .resident && decide (e.2.prio < i.prio))
     | none => false)

/-- The die whose engine decides about a faulted team. -/
def faultDie (s : State) (f : FaultRec) : Nat := ((s.part f.part).queue f.queue).die

def decisionDue (s : State) (die part kind team : Nat) : Bool :=
  match kind with
  | 0 => dispatchDue s die part
  | 1 => preemptDue s die part
  | _ => match faultOf s team with | some f => f.part == part && faultDie s f == die | none => false

/-- A DISPATCH has taken its snapshot: what happens from now on calls for another (R299). -/
def snapped (s : State) (die part kind : Nat) : State :=
  if kind = 0 then s.updPart part (fun p => { p with rested := insertNat die p.rested }) else s

/-- A decision takes its snapshot and goes on (see Move.freeze). -/
def freeze (s : State) (die part kind team : Nat) : State :=
  if engineFree s die && decisionDue s die part kind team then
    (snapped s die part kind).updFront die (fun f => { f with deciding := some (newDecision s part kind team) })
  else s

/-- The decision of this kind that a step ends: the one in flight, or one that starts now. -/
def decisionFor (s : State) (die part kind team : Nat) : Option Decision :=
  match (s.front die).deciding with
  | some d => if d.part = part ∧ d.kind = kind ∧ (kind < 2 ∨ d.team = team) then some d else none
  | none => if engineFree s die && decisionDue s die part kind team then some (newDecision s part kind team) else none

/-- A decision leaves its engine; one that also starts in this step takes its snapshot here. -/
def leaveEngine (s : State) (die : Nat) (d : Decision) : State :=
  let s := if (s.front die).deciding.isNone then snapped s die d.part d.kind else s
  s.updFront die (fun f => { f with deciding := none })

/-- A decision ends in time (R312). -/
def endDecision (s : State) (die : Nat) (d : Decision) : State :=
  let s := leaveEngine s die d
  if d.prog.isSome then s.updPart d.part Partition.inTime else s

/-! ### DISPATCH -/

/-- A placement is counted: LAST, GEN and QUOTA (R307), and every engine has something new to decide. -/
def notePlaced (s : State) (part queue gen : Nat) : State :=
  (s.updQueue part queue (fun q => { q with last := s.tick, gen := gen, quota := q.quota - 1 })).stir

/-- The queue's seed has been placed: the packet is finished (R285). -/
def seedPlaced (s : State) (part queue gd : Nat) : State :=
  if ((s.part part).queue queue).seed = some gd then
    (advance s part queue).updQueue part queue (fun q => { q with seed := none })
  else s

/-- Place an item on a core: none when it does not fit. -/
def placeItem (s : State) (part core : Nat) (cands : List Nat) (i : Item) : Option State :=
  match i.kind with
  | .resume t => resumeTeam s core t
  | .packet _ => none
  | .again gd idx tries =>
    (placeNew s core gd idx tries).map (fun s => s.updGrid gd (fun g => { g with again := g.again.filter (fun e => decide (e.1 ≠ idx)) }))
  | .fresh gd =>
    match alook s.grids gd with
    | none => none
    | some g =>
      if rCoop g.record then
        (placeWhole s gd core cands).map (fun s => s.updGrid gd (fun g => { g with next := rTeams g.record, alive := rTeams g.record }))
      else
        (placeNew s core gd g.next 0).map (fun s =>
          seedPlaced (s.updGrid gd (fun g => { g with next := g.next + 1, alive := g.alive + 1 })) part i.queue gd)

/-- The effect of a DISPATCH result; none when it is invalid (R300). Without a free save area (R250), or an entry of
the grid table for a packet's seed (R292), nothing is placed. -/
def dispatchEffect (s : State) (part : Nat) (v : PView) (gen : Nat) (r : PEnd) : Option State :=
  match r with
  | .halt => some s
  | .stuck => none
  | .decide q c =>
    match nextItem s part q.toNat, v.ids[c.toNat]? with
    | some i, some core =>
      if itemFits s part core v.ids i then
        some (match placeItem s part core v.ids i with
          | some s' => notePlaced s' part q.toNat gen
          | none => s)
      else none
    | _, _ => none
/-- Apply a DISPATCH result, or the built-in rule's on the current state when it is invalid. -/
def applyDispatch (s : State) (die : Nat) (d : Decision) (r : PEnd) : State :=
  let s := s.updPart d.part (fun p => { p with
    starved := if d.view.cands.isEmpty then insertNat die p.starved else p.starved.filter (· != die) })
  match dispatchEffect s d.part d.view d.gen r with
  | some s' => s'
  | none =>
    let s := s.logEvent 6 0 die [d.part]
    let v := viewNow s d.part 0 none
    (dispatchEffect s d.part v (s.part d.part).gen (builtinRule 0 v)).getD s

/-- DISPATCH. -/
def execDispatch (die part : Nat) (s : State) : Out :=
  match decisionFor s die part 0 0 with
  | none => .next s
  | some d => .next (applyDispatch (endDecision s die d) die d (decideBy d.prog 0 d.view))

/-! ### PREEMPT -/

/-- A request to save a team by a deadline, which counts cycles from now. -/
def askSave (s : State) (part team deadline : Nat) : State :=
  (s.updTeam team (fun x => { x with saving := some (128 * s.tick + deadline) })).updPart part (fun p => { p with preempting := insertNat team p.preempting })

/-- The effect of a PREEMPT result; none when it is invalid. Only bits 31:0 of a deadline count (R307). -/
def preemptEffect (s : State) (part : Nat) (v : PView) (r : PEnd) : Option State :=
  match r with
  | .halt => some s
  | .stuck => none
  | .decide c dl =>
    match v.ids[c.toNat]? with
    | none => none
    | some t =>
      match s.team? t with
      | none => none
      | some x => if x.status = .resident ∧ dl.toNat % 2 ^ 32 ≠ 0 then some (askSave s part t (dl.toNat % 2 ^ 32)) else none

def applyPreempt (s : State) (die : Nat) (d : Decision) (r : PEnd) : State :=
  let s := s.updPart d.part (fun p => { p with starved := p.starved.filter (· != die) })
  match preemptEffect s d.part d.view r with
  | some s' => s'
  | none =>
    let s := s.logEvent 6 1 die [d.part]
    let v := viewNow s d.part 1 none
    (preemptEffect s d.part v (builtinRule 1 v)).getD s

/-- PREEMPT. -/
def execPreempt (die part : Nat) (s : State) : Out :=
  match decisionFor s die part 1 0 with
  | none => .next s
  | some d => .next (applyPreempt (endDecision s die d) die d (decideBy d.prog 1 d.view))

/-! ### FAULT -/

/-- The team is placed again from its task record (R167). -/
def relaunch (s : State) (f : FaultRec) : State :=
  (s.updGrid f.grid (fun g => { g with again := g.again ++ [(f.teamIdx, f.tries + 1, s.tick)] })).stir

/-- The effect of a FAULT result (R307); none when its action is not 0, 1 or 2. -/
def faultEffect (s : State) (f : FaultRec) (r : PEnd) : Option State :=
  match r with
  | .halt => some (endLaunch s f.launch 0x10A 0)
  | .stuck => none
  | .decide a b =>
    match a.toNat with
    | 0 => some (if f.tries < b.toNat then relaunch s f else endLaunch s f.launch 0x101 0)
    | 1 => some (endLaunch s f.launch 0x10A 0)
    | 2 => some (if f.tries < (s.part f.part).retry then relaunch s f else endLaunch s f.launch 0x101 0)
    | _ => none

/-- Apply a FAULT result; it is discarded when the launch has ended already (R313). -/
def applyFault (s : State) (die : Nat) (d : Decision) (f : FaultRec) (r : PEnd) : State :=
  let s := { s with faults := s.faults.filter (fun x => decide (x.team ≠ f.team)) }
  if (alook s.launches f.launch).isNone then s
  else match faultEffect s f r with
    | some s' => s'
    | none => let s := s.logEvent 6 2 die [d.part]; (faultEffect s f (builtinRule 2 d.view)).getD s

/-- FAULT_DECISION. -/
def execFaultDecision (team : Nat) (s : State) : Out :=
  match faultOf s team with
  | none => .next s
  | some f =>
    let die := faultDie s f
    match decisionFor s die f.part 2 team with
    | none => .next s
    | some d => .next (applyFault (endDecision s die d) die d f (decideBy d.prog 2 d.view))

/-! ### Overrun (R312) -/

/-- The decision that overruns: the one in flight, or the one that the partition has due: a FAULT, a DISPATCH, a PREEMPT. -/
def overrunning (s : State) (die part : Nat) : Option Decision :=
  match (s.front die).deciding with
  | some d => if d.part = part then some d else none
  | none =>
    let f := (s.faults.find? (fun f => f.part == part && faultDie s f == die)).bind (fun f => decisionFor s die part 2 f.team)
    match f with
    | some d => some d
    | none => match decisionFor s die part 0 0 with
      | some d => some d
      | none => decisionFor s die part 1 0

/-- DECISION_OVERRUN: a program's decision is abandoned, counted and logged, and the built-in rule decides on its view. -/
def execDecisionOverrun (die part : Nat) (s : State) : Out :=
  match overrunning s die part with
  | none => .next s
  | some d =>
    if d.prog.isNone then .next s
    else
      let s := (leaveEngine s die d).logEvent 6 0x312 die [part, d.kind]
      let s := s.updPart part (fun p => p.overrun d.gen)
      let r := builtinRule d.kind d.view
      .next (match d.kind with
        | 0 => applyDispatch s die d r
        | 1 => applyPreempt s die d r
        | _ => match faultOf s d.team with | some f => applyFault s die d f r | none => s)

end Sys2Proof.Machine
end

