-- ==== Sys2Proof/Machine/Firmware.lean ====
section
/-! DEFINITION. Firmware: HEALTH and the lease (R314 to R317, R327), management writes (R315), PLIM (R295), way masks and
flushes (R180, R181), and the policy slots' LOAD and SWAP (R309 to R311). -/
namespace Sys2Proof.Machine

/-! ### HEALTH -/

def State.setFw (s : State) (f : Firmware → Firmware) : State := { s with fw := f s.fw }

/-- HEALTH_WRITE: a core that does not run writes nothing. -/
def execHealthWrite (core : Nat) (s : State) : Out :=
  if !runs s core then .next s
  else .next (s.setFw (fun f => { f with health := setAt f.health core (s.tick + 1), down := f.down.filter (· != core) }))

/-- HEALTH_LAPSE: a register unwritten for 2 ms; rung 2 of the core's die. -/
def execHealthLapse (core : Nat) (s : State) : Out :=
  if healthy s core ∨ s.fw.down.contains core ∨ 5 ≤ core ∨ s.tick ≤ 15625 then .next s
  else .next (startRung ((s.setFw (fun f => { f with down := insertNat core f.down })).logEvent 4 0x314 core []) 2 core none)

/-! ### The lease -/

/-- Held requests go to the holder, once each, in arrival order, before anything else happens (R317, R327). -/
def drainQueue (s : State) : State :=
  let todo := s.fw.queued.map (fun i => Move.event (restamp (leaseHolder s.fw.lease) (leaseEpoch s.fw.lease) i))
  { s with agenda := todo ++ s.agenda, fw := { s.fw with queued := [] } }

/-- A new leader runs the rungs of the lapsed one again, from the start (Table 15-5). -/
def rerunRungs (s : State) : State :=
  s.setFw (fun f => { f with rungs := f.rungs.map (fun r => if r.rung ≤ 4 then { r with deadline := some (s.tick + rungLimit r.rung) } else r) })

def refuseLease (s : State) (writer : Nat) : State := s.logEvent 4 0x316 writer []

/-- LEASE_RENEWAL (R316); a core that has been reset since it took the lease is a follower and does not renew it (R321). -/
def execLeaseRenewal (writer : Nat) (value : DWord) (s : State) : Out :=
  let v := s.fw.lease
  if leaseValid v ∧ s.tick < leaseEnd v ∧ writer = leaseHolder v ∧ leaseHolder value = writer ∧ leaseValid value
      ∧ leaseEpoch value = leaseEpoch v ∧ leaseEnd value ≤ s.tick + 78125
      ∧ s.fw.demoted = false ∧ runs s writer = true then
    .next (s.setFw (fun f => { f with lease := value }))
  else .next (refuseLease s writer)

/-- LEASE_TAKEOVER (R316); refused during a live update of FW (R325); one of BERET leaves the lease to R316 (R327). Requests that a
BERET update holds stay held until it closes. -/
def execLeaseTakeover (writer : Nat) (value : DWord) (s : State) : Out :=
  let v := s.fw.lease
  if (updating s = false ∨ s.fw.updCtrl = .beret) ∧ (leaseEnd v ≤ s.tick ∨ leaseValid v = false) ∧ lowestHealthy s = some writer ∧ leaseHolder value = writer
      ∧ leaseEpoch value = (leaseEpoch v + 1) % 4096 ∧ leaseValid value ∧ runs s writer = true then
    let s := rerunRungs (s.setFw (fun f => { f with lease := value, demoted := false }))
    .next (if updating s then s else drainQueue s)
  else .next (refuseLease s writer)

/-- LEASE_EXPIRY: the lease lapses at its EXPIRY; the rungs that its holder ran stop (Table 15-5). -/
def execLeaseExpiry (s : State) : Out :=
  if leaseValid s.fw.lease ∧ leaseEnd s.fw.lease ≤ s.tick then
    .next ((s.setFw (fun f => { f with rungs := f.rungs.map (fun r => if r.rung ≤ 4 then { r with deadline := none } else r) })).logEvent
      4 0x317 (leaseHolder s.fw.lease) [])
  else .next s

/-- LEASE_RESTORE (R327): the close of a live update of FW. -/
def execLeaseRestore (s : State) : Out :=
  let old := match s.fw.blob with | some b => b.lease | none => s.fw.lease
  let holder := if healthy s (leaseHolder old) then some (leaseHolder old) else lowestHealthy s
  let phase : Option UpdatePhase := match s.fw.update with | .committed => some .ready | .reinstalled => some .rolledBack | _ => none
  match phase, holder with
  | some ph, some h =>
    let s := s.setFw (fun f => { f with
      lease := leaseWord h ((leaseEpoch old + 1) % 4096) (s.tick + 78125), update := ph, blob := none, watchdog := 0, pausedHalf := 0, demoted := false })
    .next (drainQueue (rerunRungs s))
  | _, _ => .next s

/-! ### Management writes -/

/-- The fields of a queue-table entry (Table 13-1), when it keeps the table. -/
def queueFields (part : Nat) (w : List Word) : Option (Nat × Nat × Nat × Nat × Nat × Bool) :=
  let base := (pairOf (w.getD 0 0) (w.getD 1 0)).toNat
  let rda := (pairOf (w.getD 2 0) (w.getD 3 0)).toNat
  let c := w.getD 4 0
  let size := fieldOf c 8 4
  if base < 2 ^ 55 ∧ 4 ≤ size ∧ size ≤ 16 ∧ base % (64 * 2 ^ size) = 0 ∧ rda % 8 = 0 ∧ fieldOf c 3 0 = part ∧ fieldOf c 14 9 ≤ 47
      ∧ fieldOf c 17 15 ≤ 3 ∧ fieldOf c 31 19 = 0 ∧ w.getD 5 0 = 0 ∧ w.getD 6 0 = 0 ∧ w.getD 7 0 = 0 then
    some (base, rda, size, fieldOf c 14 9, fieldOf c 17 15, c.getLsbD 18)
  else none

/-- Queues of the part. -/
def queueCount (s : State) : Nat := sumNat (s.parts.map (fun p => p.2.queues.length))

/-- Clearing XFEN: every XFAULT of the partition reads as zero, and every armed injection is discarded (R85). -/
def dropInjections (s : State) (part : Nat) : State :=
  { s with teams := s.teams.map (fun e =>
      if e.2.part = part then (e.1, { e.2 with groups := e.2.groups.map (fun g => (g.1, { g.2 with xfault := 0, xcount := 0 })) }) else e) }

/-- A management write that its register takes; none when the value is not one that the register may hold. -/
def mgmtEffect (s : State) (w : MgmtWrite) : Option State :=
  match w with
  | .queueEntry part queue words =>
    match queueFields part words with
    | none => none
    | some (base, rda, size, cap, die, en) =>
      let new := (alook (s.part part).queues queue).isNone
      if queue < 64 ∧ (!new ∨ queueCount s < 1024) then
        some (checkIndex (s.updQueue part queue (fun q => { q with base := base, rdaddr := rda, size := size, cap := cap, die := die, en := en })) part queue)
      else none
  | .tvbase part v => if field64 v 63 55 = 0 ∧ field64 v 7 0 = 0 then some (s.updPart part (fun p => { p with tvbase := v })) else none
  | .ftpool part v => if field64 v 15 0 = 0 then some (s.updPart part (fun p => { p with ftpool := v })) else none
  | .chkmode part v =>
    if fieldOf v 31 4 = 0 ∧ fieldOf v 1 0 ≤ 1 then
      let s := s.updPart part (fun p => { p with chkmode := v })
      some (if v.getLsbD 3 then s else dropInjections s part)
    else none
  | .pageRoot part pa => if pa.toNat % 65536 = 0 ∧ pa.toNat < 2 ^ 52 then some (s.updPart part (fun p => { p with root := pa.toNat })) else none
  | .saveArea part va pa =>
    if va.toNat % 2 ^ 22 = 0 ∧ pa.toNat % 2 ^ 22 = 0 ∧ va.toNat < 2 ^ 55 ∧ targetOf pa.toNat = .hbm then
      some (s.updPart part (fun p => { p with savePool := p.savePool ++ [(va.toNat, pa.toNat)] }))
    else none
  | .reportRing part base size wa =>
    if 6 ≤ size ∧ size ≤ 16 then
      some (flushReports (s.updPart part (fun p => { p with report := some ⟨base.toNat, size, wa.toNat, 0, 0⟩ })))
    else none
  | .poolWindow base size coherent port =>
    if base % 2 ^ 29 = 0 ∧ size % 2 ^ 29 = 0 ∧ poolBase ≤ base ∧ base + size ≤ hostBase ∧ port.all (fun p => decide (p < 2)) then
      some { s with windows := if size = 0 then adel s.windows base else aput s.windows base ⟨size, coherent, port⟩ }
    else none
  | .clearQuarantine line => some (clearQuarantine s line)
  | .policyRejClear part => some (s.updPart part (fun p => { p with ppol := putField p.ppol 34 34 0 }))
  | .policyWord part i w =>
    if (s.part part).ppol.getLsbD 33 ∨ 512 < i then none else some (s.updPart part (fun p => p.writeShadow i w))
  | .retryLimit part n => if n ≤ 15 then some (s.updPart part (fun p => { p with retry := n })) else none
  | .owner part fn => if fn = 0 ∨ (fn ≤ 16 ∧ s.parts.all (fun p => p.1 == part || p.2.owner != fn)) then some (s.updPart part (fun p => { p with owner := fn })) else none

/-- A value that a register does not take leaves it unchanged and is logged. For TVBASE, FTPOOL and CHKMODE no rule says what a write
with a nonzero reserved bit does; this is the model's choice (log entry 79). -/
def orLog (s : State) (code : Nat) (r : Option State) : State := r.getD (s.logEvent 4 code 0 [])

/-- MANAGEMENT_WRITE. -/
def execManagementWrite (writer epoch : Nat) (w : MgmtWrite) (s : State) : Out :=
  .next (throughGate s (.managementWrite writer epoch w) writer epoch (fun s => orLog s 0x315 (mgmtEffect s w)))

/-- Table 13-5's ranges. -/
def plimOk (v : DWord) : Bool :=
  field64 v 63 51 == 0 && decide (field64 v 50 47 ≤ 8) && decide (field64 v 46 40 ≤ 64) && decide (field64 v 39 32 ≤ 128)
    && decide (field64 v 31 24 ≤ 128) && decide (field64 v 23 16 ≤ 128) && decide (field64 v 15 7 ≤ 512) && decide (field64 v 6 0 ≤ 64)

/-- PLIM_WRITE. -/
def execPlimWrite (writer epoch part core : Nat) (v : DWord) (s : State) : Out :=
  .next (throughGate s (.plimWrite writer epoch part core v) writer epoch (fun s =>
    orLog s 0x295 (if plimOk v ∧ core < Config.coreCount then some (s.updPart part (fun p => { p with plim := aput p.plim core v })) else none)))

/-! ### Way masks (Table 8-7) -/

/-- The scratch ways of a mask, rising. -/
def scratchWays (w : BitVec 16) : List Nat := (span 0 16).filter (fun n => !w.getLsbD n)

/-- The place of an element in a list. -/
def posOf : List Nat → Nat → Option Nat
  | [], _ => none
  | x :: xs, y => if x = y then some 0 else (posOf xs y).map (· + 1)

/-- First key of a slice's scratch. -/
def scratchKey (slice : Nat) : Nat := scratchBase + slice / 160 * 2 ^ 27 + slice % 160 * 2 ^ 19

/-- The bytes of a slice's scratch follow their ways: the k-th scratch way holds the k-th 32 KiB (R180). A way that turns to
cache loses its contents; one that turns to scratch holds what unlisted memory reads as (log entry 8). -/
def moveScratch (s : State) (slice : Nat) (old new : BitVec 16) : State :=
  let a := scratchKey slice
  let mine := s.mem.filter (fun e => decide (a ≤ e.1 ∧ e.1 < a + 2 ^ 19))
  let s := { s with mem := sclear s.mem a (2 ^ 19) }
  mine.foldl (fun s e =>
    let o := e.1 - a
    match ((scratchWays old)[o / 32768]?).bind (posOf (scratchWays new)) with
    | some k => s.putByte (a + 32768 * k + o % 32768) e.2
    | none => s) s

/-- The ways of a slice that hold lines. -/
def heldWays (s : State) (slice : Nat) : List Nat :=
  s.lines.filterMap (fun e => (alook e.2.holders (2048 + slice)).map (·.way))

/-- WAY_MASK_WRITE: WAYS, with REFUSED cleared by writing 1 to it. A way turns to scratch only when it has been flushed and holds no
line that came in since (R181). -/
def execWayMaskWrite (writer epoch slice : Nat) (v : Word) (s : State) : Out :=
  .next (throughGate s (.wayMaskWrite writer epoch slice v) writer epoch (fun s =>
    let x := s.slice slice
    let new : BitVec 16 := v.setWidth 16
    let x := if v.getLsbD 17 then { x with refused := false } else x
    if 640 ≤ slice ∨ fieldOf v 31 18 ≠ 0 then s.logEvent 4 0x180 slice []
    else if x.ways &&& ~~~new &&& ~~~x.flushed != 0 || (heldWays s slice).any (x.ways &&& ~~~new).getLsbD then s.putSlice slice { x with refused := true }
    else moveScratch (s.putSlice slice { x with ways := new, flushed := x.flushed &&& ~~~new }) slice x.ways new))

/-- WAY_FLUSH: a write to FLUSH. -/
def execWayFlush (writer epoch slice : Nat) (ways : BitVec 16) (s : State) : Out :=
  .next (throughGate s (.wayFlush writer epoch slice ways) writer epoch (fun s =>
    if 640 ≤ slice then s.logEvent 4 0x181 slice []
    else s.putSlice slice { s.slice slice with busy := true, flushing := (s.slice slice).flushing ||| ways }))

/-- WAY_FLUSH_COMPLETE: the lines in the ways of FLUSH are written back and invalidated. -/
def execWayFlushComplete (slice : Nat) (s : State) : Out :=
  let x := s.slice slice
  if !x.busy then .next s
  else .next ((flushAgent s (2048 + slice) (fun _ h => x.flushing.getLsbD h.way)).putSlice slice
    { x with busy := false, flushing := 0, flushed := x.flushed ||| (x.flushing &&& x.ways) })

/-! ### Policy slots -/

/-- POLICY_LOAD. -/
def execPolicyLoad (writer epoch part : Nat) (s : State) : Out :=
  .next (throughGate s (.policyLoad writer epoch part) writer epoch (fun s => s.updPart part Partition.load))

/-- POLICY_VERIFY_END. -/
def execPolicyVerifyEnd (part : Nat) (s : State) : Out :=
  if (s.part part).ppol.getLsbD 33 then .next (s.updPart part Partition.verified) else .next s

/-- A write of SWAP, refused and logged while LOADING or without a verified shadow. -/
def swapAct (s : State) (part : Nat) : State :=
  let p := (s.part part).ppol
  if p.getLsbD 33 || !p.getLsbD 32 then s.logEvent 4 0x311 part [] else s.updPart part Partition.swap

/-- POLICY_SWAP. -/
def execPolicySwap (writer epoch part : Nat) (s : State) : Out :=
  .next (throughGate s (.policySwap writer epoch part) writer epoch (fun s => swapAct s part))

end Sys2Proof.Machine
end

