-- ==== Sys2Proof/Machine/Rungs.lean ====
section
/-! DEFINITION. The reset ladder (R320 to R323), its triggers, and power (R21, R22, R320, R332). -/
namespace Sys2Proof.Machine

/-! ### Shared steps -/

/-- End every launch that satisfies a condition; `cause` may depend on the launch. -/
def endLaunches (s : State) (p : Nat → Launch → Bool) (cause : Nat → Nat) (rung : Nat) : State :=
  (s.launches.filter (fun e => p e.1 e.2)).foldl (fun s e => endLaunch s e.1 (cause e.1) rung) s

/-- A WAIT packet in progress ends, with its record (R318). -/
def endWait (s : State) (part queue rung : Nat) : State :=
  match ((s.part part).queue queue).wait with
  | some w => packetReport (s.updQueue part queue (fun q => { q with wait := none })) part queue (pkTag w) 0x104 rung
  | none => s

/-- A queue restarts with its read index at its write index; RDADDR is written. -/
def restartQueue (s : State) (part queue : Nat) : State :=
  let q := (s.part part).queue queue
  let s := s.updQueue part queue (fun q => { q with rd := q.wr, en := true, wait := none, seed := none, lined := none })
  match feAccess s feCore part q.rdaddr 8 8 [.wr] true with
  | .ok key => s.homeStore part key (bytesOf 8 q.wr.toNat)
  | .bad code _ => s.logEvent 5 code queue [part]

/-- A rung has been carried out: it and what it contains leave the table. -/
def rungDone (s : State) (rung target : Nat) : State :=
  (s.setFw (fun f => { f with rungs := f.rungs.filter (fun r => !scopeContains s rung target r.rung r.target) })).logEvent 4 (0x20 + rung) target []

/-- Rungs 1 to 4 are the leader's, and wait for the close of an update (R325, R326). -/
def ladderFree (s : State) : Bool := (leader s).isSome && !updating s

/-- Halted cores that a rung covers are released first, each with its log entry (R263). -/
def releaseHalts (s : State) (p : Nat → Bool) : State :=
  (s.cores.filter (fun c => p c.1 && c.2.debugHalt)).foldl (fun s c =>
    (s.updCore c.1 (fun k => { k with debugHalt := false })).logEvent 7 0x264 c.1 []) s

/-- A firmware core has been reset: it joins as a follower. The rungs that it ran as the leader stop until another has the lease. -/
def rejoin (s : State) (core : Nat) : State :=
  let s := s.setFw (fun f => { f with down := f.down.filter (· != core) })
  if leader s = some core then
    s.setFw (fun f => { f with demoted := true, rungs := f.rungs.map (fun r => if r.rung ≤ 4 then { r with deadline := none } else r) })
  else s

/-! ### Rungs 1 to 3 -/

/-- The launch whose team missed a pre-emption deadline, when that started the rung (R321). -/
def missedLaunch (s : State) (target : Nat) : Option Nat :=
  (s.fw.rungs.find? (fun r => r.rung == 1 && r.target == target)).bind (·.missed)

def rung1Act (s : State) (part queue : Nat) : State :=
  let missed := missedLaunch s (queueTarget part queue)
  let s := s.updQueue part queue (fun q => { q with en := false })
  let s := endWait s part queue 1
  let s := endLaunches s (fun _ l => l.part == part && l.queue == queue) (fun id => if missed = some id then 0x103 else 0x104) 1
  rungDone (restartQueue s part queue) 1 (queueTarget part queue)

/-- RUNG_1. -/
def execRung1 (part queue : Nat) (s : State) : Out :=
  if ladderFree s ∧ (alook (s.part part).queues queue).isSome then .next (rung1Act s part queue) else .next s

/-- The partitions with a launch on a die. -/
def partsOnDie (s : State) (die : Nat) : List Nat := unionNat ((s.launches.filter (fun e => e.2.die == die)).map (fun e => e.2.part)) []

/-- The engine and the firmware core of a die are reset; a decision in flight will run again. The launch and grid tables are checked:
an uncorrectable error brings rung 3 to every partition with a launch on the die. Die 4 is the X-die, which has a firmware core only. -/
def rung2Act (s : State) (die : Nat) : State :=
  let s := match (s.front die).deciding with
    | some d => s.updPart d.part (fun p => { p with
        rested := p.rested.filter (· != die), starved := if d.kind = 1 then insertNat die p.starved else p.starved })
    | none => s
  let bad := (s.front die).tableBad
  let s := s.updFront die (fun f => { f with deciding := none, paused := false, tableBad := false })
  let s := rejoin (rungDone s 2 die) die
  if bad then (partsOnDie s die).foldl (fun s p => startRung s 3 p none) s else s

/-- RUNG_2. -/
def execRung2 (die : Nat) (s : State) : Out := if ladderFree s then .next (rung2Act s die) else .next s

/-- Every core's L1 writes back and invalidates what it holds for the partition. -/
def rung3Act (s : State) (part : Nat) : State :=
  let s := releaseHalts s (fun c => (teamsOn s c).any (fun e => e.2.part == part))
  let qs := (s.part part).queues.map (·.1)
  let s := qs.foldl (fun s q => endWait s part q 3) s
  let s := endLaunches s (fun _ l => l.part == part) (fun _ => 0x104) 3
  let s := qs.foldl (fun s q => restartQueue s part q) s
  let s : State := { s with cores := s.cores.map (fun c =>
    (c.1, { c.2 with banks := c.2.banks.map (fun b => if b.part = some part then Bank.free else b) })) }
  let s := (s.cores.map (·.1)).foldl (fun s c => flushAgent s c (fun _ h => h.parts.contains part)) s
  rungDone s 3 part

/-- RUNG_3. -/
def execRung3 (part : Nat) (s : State) : Out := if ladderFree s then .next (rung3Act s part) else .next s

/-! ### Rung 4 -/

/-- The die of an agent that may hold lines: a core, or an L2 slice. -/
def agentDie (a : Nat) : Nat := if a < Config.coreCount then dieOf a else (a - 2048) / 160

/-- The die that homes a key; 4 for the pool's homes. -/
def homeDie (s : State) (key : Nat) : Option Nat := (homeOf s key).map (fun h => if h < 640 then h / 160 else 4)

/-- A line that the die's caches may have held dirty for a home elsewhere: its contents are lost and its home quarantines it. -/
def loseLine (s : State) (l : Nat) : State :=
  loseData (quarantineLine s l) l

/-- Cores that will not acknowledge a shoot-down hold no translations any more. -/
def dropShooters (s : State) (p : Nat → Bool) : State :=
  s.shoots.foldl (fun s e =>
    let k : Shoot := { e.2 with todo := e.2.todo.filter (fun a => !p a), unacked := e.2.unacked.filter (fun a => !p a) }
    if k.todo.isEmpty && k.unacked.isEmpty then
      let s := { s with shoots := adel s.shoots e.1 }
      match s.group? k.team k.group with
      | some y => if y.status = .waiting (.tinvAcks e.1) then finishWait s k.team k.group else s
      | none => s
    else { s with shoots := aput s.shoots e.1 k }) s

def rung4Act (s : State) (die : Nat) : State :=
  let onDie := fun (c : Nat) => decide (c < Config.coreCount) && dieOf c == die
  let s := releaseHalts s onDie
  let s := endLaunches s (fun id l => l.die == die || s.teams.any (fun e => e.2.launch == id && e.2.status == .resident && e.2.die == die))
    (fun _ => 0x104) 4
  let here := fun (l : Nat) => homeDie s (128 * l) == some die
  let lost := s.lines.filter (fun e => !here e.1 && e.2.holders.any (fun h => agentDie h.1 == die && (h.2.state == .m || h.2.state == .o)))
  let s := lost.foldl (fun s e => loseLine s e.1) s
  let s := (s.lines.filter (fun e => here e.1)).foldl (fun s e => recallLine s e.1) s
  let s := flushCores s die
  let s := dropShooters s onDie
  let s := { s with
    lines := s.lines.filter (fun e => !here e.1)
    dirs := s.dirs.filter (fun e => !(decide (e.1 < 640) && e.1 / 160 == die))
    probes := s.probes.filter (fun p => !onDie p.1)
    cleared := s.cleared.filter (fun l => !here l)
    expects := s.expects.filter (fun e => !(decide (e.home < 640) && e.home / 160 == die))
    quarantine := s.quarantine.filter (fun l => !here l)
    quarantinedHomes := s.quarantinedHomes.filter (fun h => !(decide (h < 640) && h / 160 == die))
    cores := s.cores.filter (fun c => !onDie c.1)
    slices := s.slices.filter (fun e => e.1 / 160 != die)
    mem := sclear s.mem (scratchBase + die * 2 ^ 27) (2 ^ 27)
    agenda := .event (.clusterResetNotice die 0) :: .event (.clusterResetNotice die 1) :: s.agenda }
  let s := s.updFront die (fun f => { f with deciding := none, paused := false, tableBad := false })
  rejoin (rungDone s 4 die) die
where
  /-- Every agent of the die gives up what it still holds elsewhere for reading. -/
  flushCores (s : State) (die : Nat) : State :=
    (s.lines.flatMap (fun e => e.2.readers.filter (fun a => agentDie a == die))).foldl (fun s a => flushAgent s a (fun _ _ => true)) s

/-- RUNG_4. -/
def execRung4 (die : Nat) (s : State) : Out := if ladderFree s ∧ die < 4 then .next (rung4Act s die) else .next s

/-! ### Rungs 5 and 6 -/

/-- What keeps its contents when the C-dies lose theirs: pool and host memory, by key. -/
def outside (key : Nat) : Bool := decide (poolBase ≤ key)

/-- Firmware as after a reset, over what package flash holds. -/
def flashOnly (f : Firmware) : Firmware :=
  { Firmware.idle with
    fwA := f.fwA, fwB := f.fwB, beretA := f.beretA, beretB := f.beretB, fwActive := f.fwActive, beretActive := f.beretActive,
    fwRun := f.fwRun, beretRun := f.beretRun, config := f.config, configOk := f.configOk, keyValid := f.keyValid }

/-- The root of trust checks the configuration record: its settings are made next; when it fails the C-dies stay in reset (R21,
R331). -/
def checkConfig (s : State) : State :=
  if s.fw.configOk then { s with agenda := .configure :: s.agenda }
  else { s with fw := { s.fw with mgmtOnly := true }, fronts := s.fronts.map (fun f => { f with inReset := true }) }

/-- The settings of the configuration record: the power and thermal limits, which only lower the device's own (R26), and the initial
settings of the partitioning controller (R21). -/
def configure (s : State) : State :=
  if !s.fw.configOk || s.fw.mgmtOnly then s
  else
    let r := s.fw.config
    let t := Config.recordThermal r
    let s := { s with beret := { s.beret with
      cfgLimit := min 2800 (Config.recordPower r), hotLimit := min 420 t.1, critLimit := min 480 t.2.1, coolLimit := min 380 t.2.2 } }
    (Config.recordSettings r).foldl (fun s w => orLog s 0x315 (mgmtEffect s w)) s

/-- Dirty pool lines: written back where the port can read them, else poisoned. -/
def poisoned (s : State) : List Nat :=
  (s.lines.filter (fun e => targetOf (128 * e.1) == .pool && e.2.holders.any (fun h => h.2.state == .m || h.2.state == .o)
    && !Config.portReads s.fresh e.1)).map (·.1)

/-- The hottest of a die's four junctions, in quarter degrees. -/
def hottest (r : Readings) (die : Nat) : Nat := ((r.junction.drop (4 * die)).take 4).foldl max 0

/-- A die held in reset for its temperature stays there until it has cooled, whatever else is reset (R334). -/
def stillHot (s : State) (die : Nat) : Bool := (s.front die).inReset && decide (s.beret.coolLimit ≤ hottest s.beret.readings die)

/-- The front ends as a reset of the C-dies leaves them. -/
def resetFronts (s : State) : List FrontEnd :=
  State.reset.fronts.zipIdx.map (fun e => { e.1 with inReset := stillHot s e.2 })

/-- Records that stand in a ring whose write index has not been published: no reader has seen them (R318). -/
def unseenReports (s : State) : List Report :=
  s.held.filterMap (fun e => match e.2.kind with | .reportIndex _ _ r => some r | _ => none)

/-- The report rings go away with the partitioning controller's registers: the records that are still unseen, and all later ones, are
held on the X-die until a ring is given again (R319). -/
def dropRings (s : State) : State :=
  { s with
    reports := unseenReports s ++ s.reports
    parts := s.parts.map (fun p => (p.1, { p.2 with report := none })) }

/-- Every WAIT packet in progress ends, with its record (R318). -/
def endWaits (s : State) (rung : Nat) : State :=
  s.parts.foldl (fun s p => p.2.queues.foldl (fun s q => endWait s p.1 q.1 rung) s) s

def rung5Act (s : State) : State :=
  let s := endLaunches (endWaits (dropRings (releaseHalts s (fun _ => true))) 5) (fun _ _ => true) (fun _ => 0x104) 5
  let bad := unionNat (poisoned s) (s.badLines.filter (fun l => outside (128 * l)))
  let t := { State.reset with
    tick := s.tick, mem := s.mem.filter (fun e => outside e.1), badLines := bad, hostRefused := s.hostRefused,
    parts := s.parts.filterMap (fun (p : Nat × Partition) => if p.2.lost = 0 then none else some (p.1, { Partition.idle with lost := p.2.lost }))
    reports := s.reports, fronts := resetFronts s, fw := flashOnly s.fw, beret := s.beret, agenda := s.agenda, fresh := s.fresh + 1, nextId := s.nextId }
  checkConfig (t.logEvent 4 0x25 0 [])

/-- Rungs 5 and 6 wait until the old image has installed the blob and served the queued requests of an update (R326). -/
def deviceFree (s : State) : Bool := !updating s

/-- RUNG_5, run by Beret. -/
def execRung5 (s : State) : Out := if deviceFree s then .next (rung5Act s) else .next s

/-- The identity key is derived at every power-up; a failure is logged (R22). -/
def deriveKey (s : State) : State :=
  let ok := Config.keyDerived s.fresh
  let s := { s with fresh := s.fresh + 1, fw := { s.fw with keyValid := ok } }
  if ok then s else s.logEvent 4 0x22 0 []

/-- Whether a slot holds a verified image of a controller (R324): one found to be so, or one whose signature, digest and security
version check now. -/
def verifies (s : State) (c : Nat) (x : Image) : Bool :=
  x.verified ||
    (let h := Config.headerFields x.body
     h.1 == c && Config.signatureOk x.body && h.2.2.2.2 == Config.sha3 (Config.imageBody x.body) && h.2.2.2.1 == (Config.imageBody x.body).length
       && decide (Config.recordMinimum s.fw.config c ≤ h.2.2.1))

/-- Which slot a controller runs from power-on: whether it is slot B, and whether there is one to run. -/
def bootSlot (s : State) (c : Nat) (active : Bool) (a b : Image) : Bool × Bool :=
  let ok := fun (slotB : Bool) => verifies s c (if slotB then b else a)
  if ok active then (active, true) else if ok !active then (!active, true) else (active, false)

/-- At power-on a controller whose active slot fails runs the other slot, and the failure is logged; only a verified image is run
(R324). -/
def bootSlots (s : State) : State :=
  let f := s.fw
  let x := bootSlot s 0 f.fwActive f.fwA f.fwB
  let y := bootSlot s 1 f.beretActive f.beretA f.beretB
  let s := if x.1 != f.fwActive || !x.2 then s.logEvent 4 0x324 0 [] else s
  let s := if y.1 != f.beretActive || !y.2 then s.logEvent 4 0x324 1 [] else s
  s.setFw (fun f => { f with fwActive := x.1, fwRun := x.2, beretActive := y.1, beretRun := y.2 })

/-- The configuration record has changed: no image is known to meet its minimum security version until it is checked again (R324). -/
def Firmware.unchecked (f : Firmware) : Firmware :=
  { f with fwA := { f.fwA with verified := false }, fwB := { f.fwB with verified := false },
           beretA := { f.beretA with verified := false }, beretB := { f.beretB with verified := false } }

/-- A byte of package flash turns bad: the slot that holds it is no longer known to check (R21, R324). -/
def flashError (s : State) (c : Controller) (slotB : Bool) (offset : Nat) (byte : Byte) : State :=
  let spoil := fun (x : Image) => (⟨aput x.body offset byte, false⟩ : Image)
  s.setFw (fun f => match c with
    | .fw => if slotB then { f with fwB := spoil f.fwB } else { f with fwA := spoil f.fwA }
    | .beret => if slotB then { f with beretB := spoil f.beretB } else { f with beretA := spoil f.beretA }
    | .config => { f.unchecked with config := aput f.config offset byte, configOk := Config.recordOk (aput f.config offset byte) })

/-- Entries of the log that reach flash: all that are 10 ms old, and a free choice of the younger ones. -/
def flushLog (s : State) : State :=
  let b := s.beret
  let young := (b.log.filter (fun e => decide (e.tick.toNat ≤ s.tick ∧ s.tick < e.tick.toNat + 78125))).length
  let least := max b.flash (b.logCount - young)
  { s with fresh := s.fresh + 1, beret := { b with flash := least + Config.choice s.fresh % (b.logCount - least + 1) } }

/-- Power goes: what the log holds in SRAM only is lost. Without a loss of power every entry reaches flash (R332). -/
def loseYoung (s : State) : State :=
  let s := flushLog s
  let b := s.beret
  { s with beret := { b with log := b.log.take (b.log.length - (b.logCount - b.flash)), logCount := b.flash } }

/-- The whole device restarts: only package flash, and what lies outside the device, keep their contents. -/
def wholeReset (s : State) : State :=
  let s := releaseHalts s (fun _ => true)
  let t := { State.reset with
    mem := s.mem.filter (fun e => outside e.1), badLines := s.badLines.filter (fun l => outside (128 * l)),
    hostRefused := s.hostRefused, fronts := resetFronts s, fw := flashOnly s.fw,
    beret := { Beret.idle with cfgLimit := s.beret.cfgLimit, log := s.beret.log, logCount := s.beret.logCount, flash := s.beret.logCount },
    agenda := s.agenda, fresh := s.fresh, nextId := s.nextId }
  checkConfig (deriveKey (bootSlots t))

/-- RUNG_6. -/
def execRung6 (s : State) : Out := if deviceFree s then .next ((wholeReset s).logEvent 4 0x26 0 []) else .next s

/-! ### Triggers -/

/-- The launch and grid tables of a die hold an uncorrectable error. -/
def tableError (s : State) (die : Nat) : State := s.updFront die (fun f => { f with tableBad := true })

/-- Repeated page-table faults on walks bring rung 3 to their partition; how soon after the second is firmware's affair (R320, log
entry 73). -/
def walkRung (s : State) (part : Nat) : State :=
  if (s.part part).walkFaults < 2 then s else startRung (s.updPart part (fun p => { p with walkFaults := 0 })) 3 part none

/-- Firmware refuses an escalated team: rung 3 of its partition (R320). -/
def refuseTeam (s : State) (team : Nat) : State :=
  match s.team? team with
  | some tm => (match tm.status with
    | .escalated _ _ => if gateRequest s = .go then startRung (s.logEvent 3 0x320 tm.core [team, tm.part]) 3 tm.part none else s
    | _ => s)
  | none => s

/-- The rung that follows one that does not complete within its limit (R320). -/
def nextRung (r : RungRun) : Nat × Nat :=
  match r.rung with
  | 1 => (3, r.target / 64)
  | 2 => if r.target < 4 then (4, r.target) else (5, 0)
  | 3 | 4 => (5, 0)
  | _ => (6, 0)

/-- RUNG_TIMEOUT: a rung that is past its limit and is not deferred by an update. -/
def execRungTimeout (s : State) : Out :=
  let late := fun (r : RungRun) => (match r.deadline with | some d => decide (d < s.tick) | none => false)
    && (!updating s || decide (4 ≤ r.rung))
  match s.fw.rungs.find? late with
  | none => .next s
  | some r => let n := nextRung r; .next (startRung s n.1 n.2 none)

/-- POWER_ON: the device starts, and rung 6 with it. -/
def execPowerOn (s : State) : Out := .next (startRung (wholeReset s) 6 0 none)

/-- PERST. -/
def execPerst (s : State) : Out := .next (startRung s 6 0 none)

/-- PF_FLR. -/
def execPfFlr (s : State) : Out := .next (startRung s 5 0 none)

/-- VF_FLR: rung 3 of the partition that the virtual function owns. The management function has no virtual functions (R331). -/
def execVfFlr (vf : Nat) (s : State) : Out :=
  if vf = 0 ∨ s.fw.mgmtOnly = true then .next s
  else .next ((s.parts.filter (fun p => p.2.owner == vf)).foldl (fun s p => startRung s 3 p.1 none) s)

/-- LINK_DOWN: a link of a die to another. -/
def execLinkDown (die other : Nat) (s : State) : Out :=
  if die < 4 ∧ other ≠ die then .next (startRung (s.logEvent 4 0x18 die [other]) 4 die none) else .next s

/-- FIRMWARE_CORE_WATCHDOG. -/
def execFirmwareCoreWatchdog (core : Nat) (s : State) : Out := if core < 5 then .next (startRung s 2 core none) else .next s

/-- FRONT_END_HARDWARE_ERROR. -/
def execFrontEndHardwareError (die : Nat) (s : State) : Out := if die < 4 then .next (startRung s 2 die none) else .next s

/-- DIE_STRUCTURE_UNCORRECTABLE_ERROR. -/
def execDieStructureUncorrectableError (die : Nat) (s : State) : Out := if die < 4 then .next (startRung s 4 die none) else .next s

/-- BERET_FAULT. -/
def execBeretFault (s : State) : Out := .next (startRung s 6 0 none)

/-- POWER_LOSS: the device stops; entries that have not reached flash are lost. -/
def execPowerLoss (s : State) : Out := .next { wholeReset (loseYoung s) with powered := false }

end Sys2Proof.Machine
end

