-- ==== Sys2Proof/Machine/Mailbox.lean ====
section
/-! DEFINITION. Beret: the mailbox (R330, R331), attestation (R333), the live update (R324 to R329), sensors and power (R26,
R332, R334), and the firmware debug path (R263). -/
namespace Sys2Proof.Machine

/-! ### Who reaches a command, and how -/

/-- The mailbox answers, while Beret runs (R324). -/
def State.reply (s : State) (r : Reply) : State := if !s.fw.beretRun then s else { s with beret := { s.beret with replies := s.beret.replies ++ [r] } }

/-- The function reaches the command: 0 is the physical function, 1 to 16 are virtual functions, which reach the commands
marked VF; the management function is the physical function alone (Table 15-7, R331). -/
def reaches (s : State) (fn : Nat) (vf mgmt : Bool) : Bool :=
  s.fw.beretRun && (if s.fw.mgmtOnly then fn == 0 && mgmt else fn == 0 || (vf && decide (fn ≤ 16)))

/-- A virtual function reaches its own partition only. -/
def ownsPart (s : State) (fn part : Nat) : Bool := fn == 0 || ((alook s.parts part).map (·.owner)) == some fn

/-- A command that changes state goes through the leader and is logged (R330); the management function has no leader. -/
def viaLeader (s : State) (i : Instr) (code : Nat) (act : State → State × Reply) : State :=
  let run := fun (s : State) => let r := act s; (r.1.logEvent 7 code 0 []).reply r.2
  if s.fw.mgmtOnly then run s
  else match gateRequest s with
    | .go => run s
    | .held => holdRequest s i
    | .busy => s.reply .busy
    | .refused => s.reply .refused

/-! ### STATUS, SENSORS, READLOG -/

/-- The highest rung in progress, 0 when there is none. -/
def rungNow (s : State) : Nat := s.fw.rungs.foldl (fun m r => max m r.rung) 0

/-- STATUS. -/
def execStatus (fn : Nat) (s : State) : Out :=
  .next (s.reply (if reaches s fn true true then
    .status s.fw.update s.fw.fwActive s.fw.beretActive (rungNow s) (leaseHolder s.fw.lease) else .unknown))

/-- SENSORS. -/
def execSensors (fn : Nat) (s : State) : Out :=
  .next (s.reply (if reaches s fn true false then .sensors s.beret.readings (s.fronts.map (·.throttle)) else .unknown))

/-- Log entries from a sequence number on; `logCount` is the number that the next entry takes. -/
def logFrom (b : Beret) (start : Nat) : List LogRec := b.log.drop (start - (b.logCount - b.log.length))

/-- READLOG. -/
def execReadlog (fn start : Nat) (s : State) : Out :=
  .next (s.reply (if reaches s fn false true then .log (logFrom s.beret start) else .unknown))

/-! ### Image slots (R324) -/

def Firmware.inactive (f : Firmware) (c : Controller) : Image :=
  match c with
  | .fw => if f.fwActive then f.fwA else f.fwB
  | .beret => if f.beretActive then f.beretA else f.beretB
  | .config => ⟨f.config, f.configOk⟩

def Firmware.active (f : Firmware) (c : Controller) : Image :=
  match c with
  | .fw => if f.fwActive then f.fwB else f.fwA
  | .beret => if f.beretActive then f.beretB else f.beretA
  | .config => ⟨f.config, f.configOk⟩

def Firmware.putInactive (f : Firmware) (c : Controller) (x : Image) : Firmware :=
  match c with
  | .fw => if f.fwActive then { f with fwA := x } else { f with fwB := x }
  | .beret => if f.beretActive then { f with beretA := x } else { f with beretB := x }
  | .config => { f.unchecked with config := x.body, configOk := x.verified }

/-- The inactive slot becomes active. -/
def Firmware.flip (f : Firmware) (c : Controller) : Firmware :=
  match c with
  | .fw => { f with fwActive := !f.fwActive }
  | .beret => { f with beretActive := !f.beretActive }
  | .config => f

def controllerNo (c : Controller) : Nat := match c with | .fw => 0 | .beret => 1 | .config => 2

/-- The controllers whose images a command may name: the configuration record's slot is written by the management function
only (R331), and has no second slot to verify or activate. -/
def imageSlot (s : State) (c : Controller) (writing : Bool) : Bool := c != .config || (writing && s.fw.mgmtOnly)

def putChunk (body : List (Nat × Byte)) : Nat → List Byte → List (Nat × Byte)
  | _, [] => body
  | o, b :: bs => putChunk (aput body o b) (o + 1) bs

def writeImage (c : Controller) (offset : Nat) (chunk : List Byte) (s : State) : State × Reply :=
  if !imageSlot s c true then (s, .refused)
  else
    let body := putChunk (s.fw.inactive c).body offset chunk
    let ok := c == .config && Config.recordOk body
    (s.setFw (fun f => f.putInactive c ⟨body, ok⟩), .ok)

/-- WRITEIMG: a slot that is written holds no verified image. The configuration record is checked by rung 6. -/
def execWriteimg (fn : Nat) (c : Controller) (offset : Nat) (chunk : List Byte) (s : State) : Out :=
  .next (if reaches s fn false true then viaLeader s (.writeimg fn c offset chunk) 0x02 (writeImage c offset chunk) else s.reply .unknown)

def verifySlot (c : Controller) (s : State) : State × Reply :=
  if !imageSlot s c false then (s, .refused)
  else
    let x := s.fw.inactive c
    let ok := verifies s (controllerNo c) x
    (s.setFw (fun f => f.putInactive c { x with verified := ok }), if ok then .ok else .refused)

/-- VERIFY. -/
def execVerify (fn : Nat) (c : Controller) (s : State) : Out :=
  .next (if reaches s fn false true then viaLeader s (.verify fn c) 0x03 (verifySlot c) else s.reply .unknown)

/-! ### The live update (R325 to R329) -/

/-- Pause dispatch on every die from now. -/
def pauseAll (s : State) : State := { s with fronts := s.fronts.map (fun f => { f with paused := true, pauseSince := s.tick }) }

/-- Every pause ends; its length counts against the budget (R326). -/
def endPause (s : State) : State :=
  match s.fronts.find? (·.paused) with
  | none => s
  | some f =>
    { s with
      fronts := s.fronts.map (fun f => { f with paused := false })
      fw := { s.fw with pausedHalf := s.fw.pausedHalf + min pauseHalf (2 * (s.tick - f.pauseSince)) } }

/-- The hand-over blob's tables (Table 15-6). -/
def capture (s : State) : Blob :=
  { lease := s.fw.lease, health := s.fw.health, parts := s.parts, launches := s.launches, grids := s.grids,
    slices := s.slices, windows := s.windows, records := s.reports, pending := s.fw.queued,
    escalated := s.teams.filterMap (fun e => match e.2.status with
      | .escalated g slot => some (e.1, frameVA e.2 g slot, e.2.pri)
      | _ => none) }

/-- The contents of each section of Table 15-6: its captured tables, in bytes. -/
def sectionContents (b : Blob) (id : Nat) : List Byte :=
  match id with
  | 0x1 => Config.sectionBytes id (b.lease, b.health)
  | 0x2 => Config.sectionBytes id (b.parts.map (fun p => (p.1, p.2.queues)))
  | 0x3 => Config.sectionBytes id (b.parts.map (fun p => (p.1, p.2.policyA, p.2.policyB, p.2.ppol)))
  | 0x4 => Config.sectionBytes id b.launches
  | 0x5 => Config.sectionBytes id b.grids
  | 0x6 => Config.sectionBytes id (b.parts.map (fun p =>
      (p.1, p.2.plim, p.2.root, p.2.tvbase, p.2.ftpool, p.2.chkmode, p.2.savePool, p.2.report, p.2.owner)))
  | 0x7 => Config.sectionBytes id (b.windows, Config.portSettings, Config.snoopSettings)
  | 0x8 => Config.sectionBytes id b.slices
  | 0x9 => Config.sectionBytes id (b.pending, b.escalated)
  | _ => Config.sectionBytes id (b.records, b.parts.map (fun p => (p.1, p.2.lost)))

/-- A section of the blob (R328): ID, flags with MANDATORY, version 0, length, contents. -/
def blobSection (b : Blob) (id : Nat) : List Byte :=
  let body := sectionContents b id
  bytesOf 2 id ++ bytesOf 2 (if id = 0xA then 0 else 1) ++ bytesOf 4 0 ++ bytesOf 8 body.length ++ body

/-- The blob's bytes: the header of R328 with the digest of everything after it, and the sections of Table 15-6. -/
def blobBytes (b : Blob) : List Byte :=
  let rest := (span 1 10).flatMap (blobSection b)
  bytesOf 4 0x48425848 ++ bytesOf 4 Config.blobVersion.toNat ++ bytesOf 4 (128 + rest.length) ++ bytesOf 4 10
    ++ bytesOf 64 (Config.sha3 rest).toNat ++ List.replicate 48 0 ++ rest

/-- ACTIVATE: steps 1 and 2 of R325; under the management function the slot becomes active and rung 6 is taken (R331). -/
def activate (c : Controller) (s : State) : State × Reply :=
  if !imageSlot s c false || !(s.fw.inactive c).verified then (s, .refused)
  else if s.fw.mgmtOnly then (startRung (s.setFw (fun f => f.flip c)) 6 0 none, .ok)
  else
    (pauseAll (s.setFw (fun f => { f with
      update := .captured, updCtrl := c, pausedHalf := 0, watchdog := 0, blob := if c = .fw then some (capture s) else none,
      sram := if c = .fw then blobBytes (capture s) else f.sram })), .ok)

/-- ACTIVATE. -/
def execActivate (fn : Nat) (c : Controller) (s : State) : Out :=
  .next (if reaches s fn false true then viaLeader s (.activate fn c) 0x04 (activate c) else s.reply .unknown)

/-- Steps 3 and 4: dispatch resumes, the cores restart into the new image, the watchdog starts. -/
def updateRestart (s : State) : State :=
  match s.fw.update with
  | .captured => (endPause s).setFw (fun f => { f with update := .installing, watchdog := s.tick + 3906250 })
  | _ => s

/-- A pause to install: taken when the budget has room for all that its timer allows. -/
def installPause (s : State) : State :=
  match s.fw.update with
  | .installing | .rollingBack =>
    if !s.fronts.any (·.paused) ∧ s.fw.pausedHalf + pauseHalf ≤ pauseBudget then pauseAll s else s
  | _ => s

/-- Step 5's pause, as a move of its own. -/
def updatePause (s : State) : State := installPause s

/-! ### What the new image checks (R329) -/

/-- A little-endian number of n bytes at an offset. -/
def numAt (l : List Byte) (o n : Nat) : Nat := ((l.drop o).take n).foldr (fun b m => b.toNat + 256 * m) 0

/-- The sections that stand one after the other: each its ID, whether it is MANDATORY, and its contents; none when they end early. -/
def sectionsOf : Nat → List Byte → Option (List (Nat × Bool × List Byte))
  | 0, _ => some []
  | n + 1, l =>
    let len := numAt l 8 8
    if l.length < 16 + len then none
    else (sectionsOf n (l.drop (16 + len))).map (fun rest => (numAt l 0 2, decide (numAt l 2 2 % 2 = 1), (l.drop 16).take len) :: rest)

/-- The captured registers keep their field maps: Tables 13-1, 13-5 and 15-1, and R250, R252, R257, R318 and R328 for the others. -/
def queueKept (part : Nat) (q : Nat × Queue) : Bool :=
  let x := q.2
  decide (q.1 < 64 ∧ part < 16 ∧ x.base < 2 ^ 55 ∧ 4 ≤ x.size ∧ x.size ≤ 16 ∧ x.base % (64 * 2 ^ x.size) = 0 ∧ x.rdaddr % 8 = 0 ∧ x.cap ≤ 47 ∧ x.die ≤ 3)
def partKept (p : Partition) : Bool :=
  p.plim.all (fun e => plimOk e.2) && field64 p.tvbase 63 55 == 0 && field64 p.tvbase 7 0 == 0 && field64 p.ftpool 15 0 == 0
    && fieldOf p.chkmode 31 4 == 0 && decide (p.root % 65536 = 0) && decide (p.owner ≤ 16)
    && (match p.report with | some r => decide (6 ≤ r.logSize ∧ r.logSize ≤ 16) | none => true)
def sectionKept (b : Blob) (id : Nat) : Bool :=
  match id with
  | 0x1 => decide (leaseHolder b.lease < 5)
  | 0x2 => b.parts.all (fun p => p.2.queues.all (queueKept p.1))
  | 0x3 => b.parts.all (fun p => decide (p.2.policyA.length ≤ 513 ∧ p.2.policyB.length ≤ 513))
  | 0x4 => b.launches.all (fun l => decide (l.2.prio ≤ 47 ∧ l.2.part < 16))
  | 0x5 => b.grids.all (fun g => decide (g.2.record.length = 16 ∧ g.2.part < 16))
  | 0x6 => b.parts.all (fun p => partKept p.2)
  | 0x7 => b.windows.all (fun w => decide (w.1 % 2 ^ 29 = 0))
  | _ => true

/-- The image accepts the blob's bytes: MAGIC, digest and major version; every MANDATORY section known; every section of Table 15-6 but
0x000A there; and the contents of each that it knows are those of captured tables that keep their field maps. An optional section that
it does not know is skipped. -/
def blobReads (s : State) (b : Blob) : Bool :=
  let l := s.fw.sram
  numAt l 0 4 == 0x48425848 && bytesOf 64 (Config.sha3 (l.drop 128)).toNat == (l.drop 16).take 64
    && Config.supports (s.fw.inactive .fw).body (numAt l 4 2)
    && (match sectionsOf (numAt l 12 4) (l.drop 128) with
        | none => false
        | some xs =>
          xs.all (fun x => if 1 ≤ x.1 ∧ x.1 ≤ 10 then x.2.2 == sectionContents b x.1 && sectionKept b x.1 else !x.2.1)
            && (span 1 9).all (fun id => xs.any (fun x => x.1 == id)))

/-- The blob and the live tables name the same queues; every live launch and grid stands in the blob. One that the blob names and that
has left the live tables has had its report record, or its launch's packet has, which accounts for the difference: `launchEndAct` and
`endLaunch`, by which alone a launch leaves, produce it (R318). -/
def blobFits (s : State) (b : Blob) : Bool :=
  s.launches.all (fun e => (alook b.launches e.1).isSome) && s.grids.all (fun e => (alook b.grids e.1).isSome)
    && s.parts.all (fun p => p.2.queues.all (fun q => ((alook b.parts p.1).bind (fun x => alook x.queues q.1)).isSome))
    && b.parts.all (fun p => p.2.queues.all (fun q => ((alook s.parts p.1).bind (fun x => alook x.queues q.1)).isSome))

/-- R329 as a whole; an update of BERET has its own state in place of the blob (R326). -/
def blobAccepted (s : State) : Bool :=
  match s.fw.blob with
  | none => s.fw.updCtrl == .beret
  | some b => blobReads s b && blobFits s b

/-- An update of BERET closes without a restore of the lease; requests go to the leader when there is one. -/
def closeUpdate (s : State) (p : UpdatePhase) : State :=
  let s := s.setFw (fun f => { f with update := p, watchdog := 0, pausedHalf := 0 })
  if (leader s).isSome then drainQueue s else s

/-- The staged copy is committed: the live values of everything that has moved stand, so the tables stay (R329). -/
def commitBlob (s : State) : State :=
  let s := endPause s
  match s.fw.update, s.fw.updCtrl with
  | .installing, .beret => closeUpdate (s.setFw (fun f => f.flip .beret)) .ready
  | .installing, c => s.setFw (fun f => { f.flip c with update := .committed })
  | .rollingBack, .beret => closeUpdate s .rolledBack
  | .rollingBack, _ => s.setFw (fun f => { f with update := .reinstalled })
  | _, _ => s

/-- BLOB_INSTALL: the image checks the blob and commits it under a pause; one that R329 has it refuse, or that the image gives up by
itself (`ok` is false; R326), makes it set FAIL. The old image installs the same blob. Without a pause in effect nothing is committed
(R325). -/
def execBlobInstall (ok : Bool) (s : State) : Out :=
  let p := installPause s
  let quiet := (span 0 4).all p.pausedOn
  match s.fw.update with
  | .installing => if !ok || !blobAccepted s then .next (rollBack (s.logEvent 7 0x329 0 [])) else if quiet then .next (commitBlob p) else .next s
  | .rollingBack => if quiet then .next (commitBlob p) else .next s
  | _ => .next s

/-- PAUSE_TIMER_EXPIRY. -/
def execPauseTimerExpiry (die : Nat) (s : State) : Out :=
  let f := s.front die
  if f.paused ∧ f.pauseSince + pauseLimit ≤ s.tick ∧ die < 4 then
    let t := s.updFront die (fun f => { f with paused := false })
    .next (if t.fronts.any (·.paused) then t else t.setFw (fun w => { w with pausedHalf := w.pausedHalf + pauseHalf }))
  else .next s

/-- UPDATE_WATCHDOG_EXPIRY. -/
def execUpdateWatchdogExpiry (s : State) : Out :=
  match s.fw.update with
  | .installing => if s.fw.watchdog ≤ s.tick then .next (rollBack (s.logEvent 7 0x326 0 [])) else .next s
  | _ => .next s

/-! ### RESET -/

/-- The rung's target as `startRung` numbers it; none when there is no such target. -/
def rungTarget (s : State) (rung target sub : Nat) : Option Nat :=
  match rung with
  | 1 => if (alook (s.part target).queues sub).isSome then some (queueTarget target sub) else none
  | 2 => if target ≤ 4 then some target else none
  | 3 => if (alook s.parts target).isSome then some target else none
  | 4 => if target < 4 then some target else none
  | 5 | 6 => some 0
  | _ => none

/-- A function may request the rung (Table 15-7, R331). -/
def mayReset (s : State) (fn rung target : Nat) : Bool :=
  if s.fw.mgmtOnly then rung == 6 else fn == 0 || ((rung == 1 || rung == 3) && ownsPart s fn target)

def requestRung (rung target : Nat) (s : State) : State × Reply := (startRung s rung target none, .ok)

/-- RESET: rungs 1 to 3 wait for the leader and for the end of an update, the others do not (R320, R325, R326). -/
def execReset (fn rung target sub : Nat) (s : State) : Out :=
  if !reaches s fn true true then .next (s.reply .unknown)
  else if !mayReset s fn rung target then .next (s.reply .refused)
  else match rungTarget s rung target sub with
    | none => .next (s.reply .refused)
    | some u =>
      if rung ≤ 3 then .next (viaLeader s (.reset fn rung target sub) 0x05 (requestRung rung u))
      else let r := requestRung rung u s; .next ((r.1.logEvent 7 0x05 0 [rung]).reply r.2)

/-! ### ATTEST (R333) -/

def bodyBytes (x : Image) : List Byte := x.body.map (·.2)

/-- The partition of the requesting function: the lowest that it owns. -/
def attested (s : State) (fn : Nat) : Option (Nat × Partition) := s.parts.find? (fun p => p.2.owner == fn)

/-- The report, in the order in which R333 lists it. -/
def attestReport (s : State) (fn : Nat) (nonce : List Byte) : List Byte :=
  let digest := fun (c : Controller) => bytesOf 64 (Config.sha3 (bodyBytes (s.fw.active c))).toNat
  let p := attested s fn
  nonce ++ bytesOf 8 s.tick ++ digest .fw ++ digest .beret ++ digest .config ++ bytesOf 4 Config.blobVersion.toNat
    ++ bytesOf 4 (match p with | some e => e.1 | none => 0) ++ bytesOf 4 (match p with | some e => e.2.chkmode.toNat | none => 0)

/-- ATTEST. -/
def execAttest (fn : Nat) (nonce : List Byte) (s : State) : Out :=
  .next (s.reply (
    if !reaches s fn true true then .unknown
    else if !s.fw.keyValid then .noKey
    else if nonce.length ≠ 32 then .refused
    else let r := attestReport s fn nonce; .attest r (Config.attestSignature r) Config.identityPublic))

/-! ### POWERLIM, QPARAM, POLICY, DEBUG -/

def setPowerLim (watts : Nat) (s : State) : State × Reply :=
  if s.beret.cfgLimit < watts then (s, .refused) else ({ s with beret := { s.beret with powerLim := watts } }, .ok)

/-- POWERLIM. -/
def execPowerlim (fn watts : Nat) (s : State) : Out :=
  .next (if reaches s fn false false then viaLeader s (.powerlim fn watts) 0x09 (setPowerLim watts) else s.reply .unknown)

def setQueueParams (part queue quota deadline weight : Nat) (s : State) : State × Reply :=
  if (alook (s.part part).queues queue).isNone ∨ 255 < weight then (s, .refused)
  else (s.updQueue part queue (fun q => { q with quota := quota, deadline := deadline, weight := weight }), .ok)

/-- QPARAM. -/
def execQparam (fn part queue quota deadline weight : Nat) (s : State) : Out :=
  .next (
    if !reaches s fn true false then s.reply .unknown
    else if !ownsPart s fn part then s.reply .refused
    else viaLeader s (.qparam fn part queue quota deadline weight) 0x0A (setQueueParams part queue quota deadline weight))

/-- Write the image into the shadow slot, then LOAD or SWAP; refused while LOADING (R309). -/
def setPolicy (part : Nat) (image : List Word) (swap : Bool) (s : State) : State × Reply :=
  let p := (s.part part).ppol
  if (alook s.parts part).isNone || decide (513 < image.length) || p.getLsbD 33 then (s, .refused)
  else
    let s := s.updPart part (fun p => (span 0 image.length).foldl (fun p i => p.writeShadow i (image.getD i 0)) p)
    if swap then (swapAct s part, if (s.part part).ppol.getLsbD 32 then .ok else .refused)
    else (s.updPart part Partition.load, .ok)

/-- POLICY. -/
def execPolicy (fn part : Nat) (image : List Word) (swap : Bool) (s : State) : Out :=
  .next (
    if !reaches s fn true false then s.reply .unknown
    else if !ownsPart s fn part then s.reply .refused
    else viaLeader s (.policy fn part image swap) 0x0B (setPolicy part image swap))

/-- Groups that a halt keeps from issuing are not ready: their passes count afresh (R297). -/
def resetPasses (s : State) (core : Nat) : State :=
  { s with teams := s.teams.map (fun e => if e.2.core = core then
      (e.1, e.2.mapGroups (fun _ y => { y with passes := 0, starving := none })) else e) }

def setHalt (core : Nat) (halt : Bool) (s : State) : State × Reply :=
  if Config.coreCount ≤ core then (s, .refused)
  else (((if halt then resetPasses s core else s).updCore core (fun c => { c with debugHalt := halt })).logEvent 7 (if halt then 0x263 else 0x264) core [], .ok)

/-- DEBUG: a halted core ends the runs in progress, then issues nothing (R263). -/
def execDebug (fn core : Nat) (halt : Bool) (s : State) : Out :=
  .next (if reaches s fn false false then viaLeader s (.debug fn core halt) 0x0C (setHalt core halt) else s.reply .unknown)

/-- UNKNOWN_COMMAND. -/
def execUnknownCommand (_fn _code : Nat) (s : State) : Out := .next (s.reply .unknown)

/-! ### Sensors and power (R332, R334) -/

/-- The power limit: the lowest of 2,800 W, the configuration record's limit and the last POWERLIM. -/
def powerLimit (b : Beret) : Nat := min 2800 (min b.cfgLimit b.powerLim)

/-- Milliseconds, up to 10, that power has stayed 5 % below the limit. -/
def belowNow (b : Beret) (power : Nat) : Nat := if 100 * power ≤ 95 * powerLimit b then min 10 (b.below + 1) else 0

/-- A die's throttle level after a sample. -/
def throttleNext (b : Beret) (power level hottest : Nat) : Nat :=
  let n := if powerLimit b < power then min 15 (level + 1) else if belowNow b power = 10 then level - 1 else level
  if b.hotLimit ≤ hottest then max 8 n else n

/-- Critical temperature: rung 4, and reset until the die has cooled (R334). -/
def dieHeat (r : Readings) (s : State) (die : Nat) : State :=
  let h := hottest r die
  let f := s.front die
  if s.beret.critLimit ≤ h ∧ !f.inReset then startRung (s.updFront die (fun f => { f with inReset := true })) 4 die none
  else if h < s.beret.coolLimit ∧ !s.fw.mgmtOnly then s.updFront die (fun f => { f with inReset := false })
  else s

/-- SENSOR_SAMPLE. -/
def execSensorSample (r : Readings) (s : State) : Out :=
  let b := s.beret
  if !s.fw.beretRun then .next s
  else
  let s := { s with
    fronts := s.fronts.zipIdx.map (fun e => { e.1 with throttle := throttleNext b r.power e.1.throttle (hottest r e.2) })
    beret := { b with readings := r, below := belowNow b r.power } }
  .next (flushLog ((span 0 4).foldl (dieHeat r) s))

end Sys2Proof.Machine
end

