-- ==== Sys2Proof/Machine/Mask.lean ====
section
/-! DEFINITION. The mask instructions (R356, R357) and the mode instructions (R362): once for the group, whatever the guard
and the active mask. -/
namespace Sys2Proof.Machine

/-- A mask instruction with a K destination: every bit below the width is computed. -/
def kOp (s : State) (i : Instr) (e : Bool) (d : KNo) (f : Group → Lanes) : Out :=
  issue s i (fun x => doneWith s x e (fun y => y.setK x.tm.width d.toNat (f y)))

def execKand (e : Bool) (d a b : KNo) (s : State) : Out :=
  kOp s (.kand e d a b) e d (fun y => y.getK a.toNat &&& y.getK b.toNat)
def execKor (e : Bool) (d a b : KNo) (s : State) : Out :=
  kOp s (.kor e d a b) e d (fun y => y.getK a.toNat ||| y.getK b.toNat)
def execKxor (e : Bool) (d a b : KNo) (s : State) : Out :=
  kOp s (.kxor e d a b) e d (fun y => y.getK a.toNat ^^^ y.getK b.toNat)
def execKnot (e : Bool) (d a : KNo) (s : State) : Out := kOp s (.knot e d a) e d (fun y => ~~~(y.getK a.toNat))
def execKmovK (e : Bool) (d a : KNo) (s : State) : Out := kOp s (.kmovK e d a) e d (fun y => y.getK a.toNat)
def execKmovFromS (e : Bool) (d : KNo) (a : RegNo) (s : State) : Out :=
  kOp s (.kmovFromS e d a) e d (fun y => y.getPair a.toNat)
def execKmovToS (e : Bool) (d : RegNo) (a : KNo) (s : State) : Out :=
  issue s (.kmovToS e d a) (fun x => doneWith s x e (fun y => y.setPair d.toNat (y.getK a.toNat &&& fullMask x.tm.width)))

/-- MODE (R73): the immediate is a legal GMR value, or the word is refused by check 2 of R92. -/
def execMode (e : Bool) (i : BitVec 16) (s : State) : Out :=
  issue s (.mode e i) (fun x => doneWith s x e (fun y => { y with gmr := i.setWidth 32 }))

/-- MODES (R362): a value that breaks Table 3-3 takes the illegal-encoding trap and GMR keeps its value. -/
def execModes (e : Bool) (a : RegNo) (s : State) : Out :=
  issue s (.modes e a) (fun x =>
    let v := x.gr.getS a.toNat
    if gmrOk v then doneWith s x e (fun y => { y with gmr := v }) else .next (trapWhole s x 0x02))

end Sys2Proof.Machine
end

