-- ==== Sys2Proof/Machine/Dispatch.lean ====
section
/-! DEFINITION. The one dispatch: an arm for every constructor of Instr. -/
namespace Sys2Proof.Machine

def exec (i : Instr) (s : State) : Host.Outcome State Fault Refusal :=
  match i with
  | .sadd e d a b => Sys2Proof.Machine.execSadd e d a b s
  | .ssub e d a b => Sys2Proof.Machine.execSsub e d a b s
  | .smul e d a b => Sys2Proof.Machine.execSmul e d a b s
  | .smulh e d a b => Sys2Proof.Machine.execSmulh e d a b s
  | .sand e d a b => Sys2Proof.Machine.execSand e d a b s
  | .sor e d a b => Sys2Proof.Machine.execSor e d a b s
  | .sxor e d a b => Sys2Proof.Machine.execSxor e d a b s
  | .sshl e d a b => Sys2Proof.Machine.execSshl e d a b s
  | .sshr e d a b => Sys2Proof.Machine.execSshr e d a b s
  | .ssra e d a b => Sys2Proof.Machine.execSsra e d a b s
  | .smin e d a b => Sys2Proof.Machine.execSmin e d a b s
  | .smax e d a b => Sys2Proof.Machine.execSmax e d a b s
  | .scmp e c d a b => Sys2Proof.Machine.execScmp e c d a b s
  | .ssel e d a b => Sys2Proof.Machine.execSsel e d a b s
  | .smov e w d a => Sys2Proof.Machine.execSmov e w d a s
  | .smovQdst e a => Sys2Proof.Machine.execSmovQdst e a s
  | .smovQsend e a => Sys2Proof.Machine.execSmovQsend e a s
  | .smovQrecv e d => Sys2Proof.Machine.execSmovQrecv e d s
  | .saddi e d im => Sys2Proof.Machine.execSaddi e d im s
  | .sandi e d im => Sys2Proof.Machine.execSandi e d im s
  | .sori e d im => Sys2Proof.Machine.execSori e d im s
  | .sshli e d im => Sys2Proof.Machine.execSshli e d im s
  | .sli e d im => Sys2Proof.Machine.execSli e d im s
  | .slih e d im => Sys2Proof.Machine.execSlih e d im s
  | .vadd e d a b => Sys2Proof.Machine.execVadd e d a b s
  | .vsub e d a b => Sys2Proof.Machine.execVsub e d a b s
  | .vmul e d a b => Sys2Proof.Machine.execVmul e d a b s
  | .vfma e d a b => Sys2Proof.Machine.execVfma e d a b s
  | .vmin e d a b => Sys2Proof.Machine.execVmin e d a b s
  | .vmax e d a b => Sys2Proof.Machine.execVmax e d a b s
  | .vabs e d a => Sys2Proof.Machine.execVabs e d a s
  | .vneg e d a => Sys2Proof.Machine.execVneg e d a s
  | .vand e d a b => Sys2Proof.Machine.execVand e d a b s
  | .vor e d a b => Sys2Proof.Machine.execVor e d a b s
  | .vxor e d a b => Sys2Proof.Machine.execVxor e d a b s
  | .vshl e d a b => Sys2Proof.Machine.execVshl e d a b s
  | .vshr e d a b => Sys2Proof.Machine.execVshr e d a b s
  | .vsra e d a b => Sys2Proof.Machine.execVsra e d a b s
  | .vmulh e d a b => Sys2Proof.Machine.execVmulh e d a b s
  | .vclz e d a => Sys2Proof.Machine.execVclz e d a s
  | .vpopc e d a => Sys2Proof.Machine.execVpopc e d a s
  | .vcmp e c d a b => Sys2Proof.Machine.execVcmp e c d a b s
  | .vsel e d a b => Sys2Proof.Machine.execVsel e d a b s
  | .vmov e w d a => Sys2Proof.Machine.execVmov e w d a s
  | .vbcast e d a => Sys2Proof.Machine.execVbcast e d a s
  | .vcvt e d a t => Sys2Proof.Machine.execVcvt e d a t s
  | .vrcp e d a => Sys2Proof.Machine.execVrcp e d a s
  | .vrsq e d a => Sys2Proof.Machine.execVrsq e d a s
  | .vsqrt e d a => Sys2Proof.Machine.execVsqrt e d a s
  | .vexp2 e d a => Sys2Proof.Machine.execVexp2 e d a s
  | .vlog2 e d a => Sys2Proof.Machine.execVlog2 e d a s
  | .vtanh e d a => Sys2Proof.Machine.execVtanh e d a s
  | .vshfl e d a b => Sys2Proof.Machine.execVshfl e d a b s
  | .vbfly e d a b => Sys2Proof.Machine.execVbfly e d a b s
  | .vred e o d a => Sys2Proof.Machine.execVred e o d a s
  | .vscan e o d a => Sys2Proof.Machine.execVscan e o d a s
  | .vvote e d a => Sys2Proof.Machine.execVvote e d a s
  | .velect e d => Sys2Proof.Machine.execVelect e d s
  | .vquant e d a x => Sys2Proof.Machine.execVquant e d a x s
  | .vdeq e d a t => Sys2Proof.Machine.execVdeq e d a t s
  | .vclass e d a => Sys2Proof.Machine.execVclass e d a s
  | .kand e d a b => Sys2Proof.Machine.execKand e d a b s
  | .kor e d a b => Sys2Proof.Machine.execKor e d a b s
  | .kxor e d a b => Sys2Proof.Machine.execKxor e d a b s
  | .knot e d a => Sys2Proof.Machine.execKnot e d a s
  | .kmovK e d a => Sys2Proof.Machine.execKmovK e d a s
  | .kmovFromS e d a => Sys2Proof.Machine.execKmovFromS e d a s
  | .kmovToS e d a => Sys2Proof.Machine.execKmovToS e d a s
  | .mode e im => Sys2Proof.Machine.execMode e im s
  | .modes e a => Sys2Proof.Machine.execModes e a s
  | .ld e w d a b => Sys2Proof.Machine.execLd e w d a b s
  | .ldacq e w d a b => Sys2Proof.Machine.execLdacq e w d a b s
  | .st e w d a b => Sys2Proof.Machine.execSt e w d a b s
  | .strel e w d a b => Sys2Proof.Machine.execStrel e w d a b s
  | .lds e w d a b => Sys2Proof.Machine.execLds e w d a b s
  | .sts e w d a b => Sys2Proof.Machine.execSts e w d a b s
  | .ldb e w d a b => Sys2Proof.Machine.execLdb e w d a b s
  | .stb e w d a b => Sys2Proof.Machine.execStb e w d a b s
  | .atomAdd e c d a b => Sys2Proof.Machine.execAtomAdd e c d a b s
  | .atomMin e c d a b => Sys2Proof.Machine.execAtomMin e c d a b s
  | .atomMax e c d a b => Sys2Proof.Machine.execAtomMax e c d a b s
  | .atomAnd e c d a b => Sys2Proof.Machine.execAtomAnd e c d a b s
  | .atomOr e c d a b => Sys2Proof.Machine.execAtomOr e c d a b s
  | .atomXor e c d a b => Sys2Proof.Machine.execAtomXor e c d a b s
  | .atomXchg e c d a b => Sys2Proof.Machine.execAtomXchg e c d a b s
  | .atomCas e c d a b => Sys2Proof.Machine.execAtomCas e c d a b s
  | .atomsAdd e c d a b => Sys2Proof.Machine.execAtomsAdd e c d a b s
  | .atomsMin e c d a b => Sys2Proof.Machine.execAtomsMin e c d a b s
  | .atomsMax e c d a b => Sys2Proof.Machine.execAtomsMax e c d a b s
  | .atomsAnd e c d a b => Sys2Proof.Machine.execAtomsAnd e c d a b s
  | .atomsOr e c d a b => Sys2Proof.Machine.execAtomsOr e c d a b s
  | .atomsXor e c d a b => Sys2Proof.Machine.execAtomsXor e c d a b s
  | .atomsXchg e c d a b => Sys2Proof.Machine.execAtomsXchg e c d a b s
  | .atomsCas e c d a b => Sys2Proof.Machine.execAtomsCas e c d a b s
  | .pref e a b => Sys2Proof.Machine.execPref e a b s
  | .cpy e d p => Sys2Proof.Machine.execCpy e d p s
  | .cpyg e d p => Sys2Proof.Machine.execCpyg e d p s
  | .cpyred e d p => Sys2Proof.Machine.execCpyred e d p s
  | .tmmaPair e d a b => Sys2Proof.Machine.execTmmaPair e d a b s
  | .tmmaQuad e d a b => Sys2Proof.Machine.execTmmaQuad e d a b s
  | .tzero e d => Sys2Proof.Machine.execTzero e d s
  | .tstat e d a => Sys2Proof.Machine.execTstat e d a s
  | .trd e w d a b => Sys2Proof.Machine.execTrd e w d a b s
  | .twr e w d a b => Sys2Proof.Machine.execTwr e w d a b s
  | .tcvt e d a b => Sys2Proof.Machine.execTcvt e d a b s
  | .tquant e d a b => Sys2Proof.Machine.execTquant e d a b s
  | .bru o => Sys2Proof.Machine.execBru o s
  | .brk neg k o => Sys2Proof.Machine.execBrk neg k o s
  | .pushr e o => Sys2Proof.Machine.execPushr e o s
  | .popr => Sys2Proof.Machine.execPopr s
  | .call d o => Sys2Proof.Machine.execCall d o s
  | .ret a => Sys2Proof.Machine.execRet a s
  | .exit => Sys2Proof.Machine.execExit s
  | .rep stepB stepA stepD n => Sys2Proof.Machine.execRep stepB stepA stepD n s
  | .bararv e n => Sys2Proof.Machine.execBararv e n s
  | .barwait n => Sys2Proof.Machine.execBarwait n s
  | .ringput e g r => Sys2Proof.Machine.execRingput e g r s
  | .ringget g r => Sys2Proof.Machine.execRingget g r s
  | .wait ld st cp tm => Sys2Proof.Machine.execWait ld st cp tm s
  | .drain p => Sys2Proof.Machine.execDrain p s
  | .fence e c => Sys2Proof.Machine.execFence e c s
  | .fencesc => Sys2Proof.Machine.execFencesc s
  | .nop e => Sys2Proof.Machine.execNop e s
  | .trap c => Sys2Proof.Machine.execTrap c s
  | .bkpt c => Sys2Proof.Machine.execBkpt c s
  | .spawn a => Sys2Proof.Machine.execSpawn a s
  | .cwait a b => Sys2Proof.Machine.execCwait a b s
  | .rdsys e w d n => Sys2Proof.Machine.execRdsys e w d n s
  | .wrsys e w d n => Sys2Proof.Machine.execWrsys e w d n s
  | .pgmapPool e d a => Sys2Proof.Machine.execPgmapPool e d a s
  | .pgmapMap e d a => Sys2Proof.Machine.execPgmapMap e d a s
  | .tinv e a => Sys2Proof.Machine.execTinv e a s
  | .csload e a b => Sys2Proof.Machine.execCsload e a b s
  | .csbind e q n => Sys2Proof.Machine.execCsbind e q n s
  | .xop e n w d a b => Sys2Proof.Machine.execXop e n w d a b s
  | .tick => Sys2Proof.Machine.execTick s
  | .tickWrap => Sys2Proof.Machine.execTickWrap s
  | .releaseComplete id => Sys2Proof.Machine.execReleaseComplete id s
  | .piccoloReplay core => Sys2Proof.Machine.execPiccoloReplay core s
  | .coherenceRequest who line write => Sys2Proof.Machine.execCoherenceRequest who line write s
  | .regionMerge region => Sys2Proof.Machine.execRegionMerge region s
  | .probe core part line => Sys2Proof.Machine.execProbe core part line s
  | .backInvalidationSnoop line invalidate => Sys2Proof.Machine.execBackInvalidationSnoop line invalidate s
  | .writeVisible team group seq line => Sys2Proof.Machine.execWriteVisible team group seq line s
  | .loadComplete team group seq line => Sys2Proof.Machine.execLoadComplete team group seq line s
  | .remoteAtomic src => Sys2Proof.Machine.execRemoteAtomic src s
  | .xfaultFire team group seq => Sys2Proof.Machine.execXfaultFire team group seq s
  | .bassoonRecord path r => Sys2Proof.Machine.execBassoonRecord path r s
  | .lostTimeout home line => Sys2Proof.Machine.execLostTimeout home line s
  | .sweeperForceClose line => Sys2Proof.Machine.execSweeperForceClose line s
  | .retentionSleepEntry => Sys2Proof.Machine.execRetentionSleepEntry s
  | .retentionWake => Sys2Proof.Machine.execRetentionWake s
  | .copyComplete core slot => Sys2Proof.Machine.execCopyComplete core slot s
  | .copyFault core slot => Sys2Proof.Machine.execCopyFault core slot s
  | .tileOpComplete core => Sys2Proof.Machine.execTileOpComplete core s
  | .operandFetchFault core uncorrectable => Sys2Proof.Machine.execOperandFetchFault core uncorrectable s
  | .flitDelivery team group => Sys2Proof.Machine.execFlitDelivery team group s
  | .clusterResetNotice die cluster => Sys2Proof.Machine.execClusterResetNotice die cluster s
  | .impreciseTrapDelivery team group => Sys2Proof.Machine.execImpreciseTrapDelivery team group s
  | .teamDeadlockTrap team => Sys2Proof.Machine.execTeamDeadlockTrap team s
  | .loadStallYield team group => Sys2Proof.Machine.execLoadStallYield team group s
  | .teamRetire team => Sys2Proof.Machine.execTeamRetire team s
  | .doorbellWrite part queue index => Sys2Proof.Machine.execDoorbellWrite part queue index s
  | .nopPacket part queue => Sys2Proof.Machine.execNopPacket part queue s
  | .waitPacket part queue => Sys2Proof.Machine.execWaitPacket part queue s
  | .launchPacket part queue => Sys2Proof.Machine.execLaunchPacket part queue s
  | .waitValueReread w => Sys2Proof.Machine.execWaitValueReread w s
  | .pendingEntryTake team => Sys2Proof.Machine.execPendingEntryTake team s
  | .dispatch die part => Sys2Proof.Machine.execDispatch die part s
  | .preempt die part => Sys2Proof.Machine.execPreempt die part s
  | .faultDecision team => Sys2Proof.Machine.execFaultDecision team s
  | .decisionOverrun die part => Sys2Proof.Machine.execDecisionOverrun die part s
  | .preemptSave team => Sys2Proof.Machine.execPreemptSave team s
  | .preemptDeadlineExpiry team => Sys2Proof.Machine.execPreemptDeadlineExpiry team s
  | .wakeCondition team => Sys2Proof.Machine.execWakeCondition team s
  | .firmwareRelease team act => Sys2Proof.Machine.execFirmwareRelease team act s
  | .shootdown id agent => Sys2Proof.Machine.execShootdown id agent s
  | .tinvAck id agent => Sys2Proof.Machine.execTinvAck id agent s
  | .atsInvalidation msg page pages => Sys2Proof.Machine.execAtsInvalidation msg page pages s
  | .priResponse team success => Sys2Proof.Machine.execPriResponse team success s
  | .reportDoorbell part index => Sys2Proof.Machine.execReportDoorbell part index s
  | .healthWrite core => Sys2Proof.Machine.execHealthWrite core s
  | .healthLapse core => Sys2Proof.Machine.execHealthLapse core s
  | .leaseRenewal writer value => Sys2Proof.Machine.execLeaseRenewal writer value s
  | .leaseTakeover writer value => Sys2Proof.Machine.execLeaseTakeover writer value s
  | .leaseExpiry => Sys2Proof.Machine.execLeaseExpiry s
  | .leaseRestore => Sys2Proof.Machine.execLeaseRestore s
  | .managementWrite writer epoch w => Sys2Proof.Machine.execManagementWrite writer epoch w s
  | .plimWrite writer epoch part core v => Sys2Proof.Machine.execPlimWrite writer epoch part core v s
  | .wayMaskWrite writer epoch slice v => Sys2Proof.Machine.execWayMaskWrite writer epoch slice v s
  | .wayFlush writer epoch slice ways => Sys2Proof.Machine.execWayFlush writer epoch slice ways s
  | .wayFlushComplete slice => Sys2Proof.Machine.execWayFlushComplete slice s
  | .policyLoad writer epoch part => Sys2Proof.Machine.execPolicyLoad writer epoch part s
  | .policyVerifyEnd part => Sys2Proof.Machine.execPolicyVerifyEnd part s
  | .policySwap writer epoch part => Sys2Proof.Machine.execPolicySwap writer epoch part s
  | .rung1 part queue => Sys2Proof.Machine.execRung1 part queue s
  | .rung2 die => Sys2Proof.Machine.execRung2 die s
  | .rung3 part => Sys2Proof.Machine.execRung3 part s
  | .rung4 die => Sys2Proof.Machine.execRung4 die s
  | .rung5 => Sys2Proof.Machine.execRung5 s
  | .rung6 => Sys2Proof.Machine.execRung6 s
  | .rungTimeout => Sys2Proof.Machine.execRungTimeout s
  | .powerOn => Sys2Proof.Machine.execPowerOn s
  | .perst => Sys2Proof.Machine.execPerst s
  | .pfFlr => Sys2Proof.Machine.execPfFlr s
  | .vfFlr vf => Sys2Proof.Machine.execVfFlr vf s
  | .linkDown die other => Sys2Proof.Machine.execLinkDown die other s
  | .status fn => Sys2Proof.Machine.execStatus fn s
  | .writeimg fn c offset chunk => Sys2Proof.Machine.execWriteimg fn c offset chunk s
  | .verify fn c => Sys2Proof.Machine.execVerify fn c s
  | .activate fn c => Sys2Proof.Machine.execActivate fn c s
  | .reset fn rung target sub => Sys2Proof.Machine.execReset fn rung target sub s
  | .sensors fn => Sys2Proof.Machine.execSensors fn s
  | .readlog fn start => Sys2Proof.Machine.execReadlog fn start s
  | .attest fn nonce => Sys2Proof.Machine.execAttest fn nonce s
  | .powerlim fn watts => Sys2Proof.Machine.execPowerlim fn watts s
  | .qparam fn part queue quota deadline weight => Sys2Proof.Machine.execQparam fn part queue quota deadline weight s
  | .policy fn part image swap => Sys2Proof.Machine.execPolicy fn part image swap s
  | .debug fn core halt => Sys2Proof.Machine.execDebug fn core halt s
  | .unknownCommand fn code => Sys2Proof.Machine.execUnknownCommand fn code s
  | .blobInstall ok => Sys2Proof.Machine.execBlobInstall ok s
  | .pauseTimerExpiry die => Sys2Proof.Machine.execPauseTimerExpiry die s
  | .updateWatchdogExpiry => Sys2Proof.Machine.execUpdateWatchdogExpiry s
  | .sensorSample r => Sys2Proof.Machine.execSensorSample r s
  | .illegalInstruction w => Sys2Proof.Machine.execIllegalInstruction w s
  | .illegalEncoding w => Sys2Proof.Machine.execIllegalEncoding w s
  | .fetchFault => Sys2Proof.Machine.execFetchFault s
  | .firmwareCoreWatchdog core => Sys2Proof.Machine.execFirmwareCoreWatchdog core s
  | .frontEndHardwareError die => Sys2Proof.Machine.execFrontEndHardwareError die s
  | .dieStructureUncorrectableError die => Sys2Proof.Machine.execDieStructureUncorrectableError die s
  | .beretFault => Sys2Proof.Machine.execBeretFault s
  | .powerLoss => Sys2Proof.Machine.execPowerLoss s

end Sys2Proof.Machine
end

