-- ==== Sys2Proof/Machine/Moves.lean ====
section
/-! DEFINITION. The moves that the device itself offers in a state, among which `Config.choice` takes one when the agenda is
empty (R436: durations are not architectural; log entry 2), and what every move leaves behind it. What the outside world does comes
only through the agenda. -/
namespace Sys2Proof.Machine

/-- A device that has lost its power makes no move but POWER_ON. -/
def unpowered (s : State) (m : Move) : Bool := !s.powered && m != .event .powerOn

/-- An uncorrectable error in a register: the bits are added to those in error, and the event log takes it (R261). -/
def registerError (s : State) (team group key : Nat) (bits : Word) : State :=
  match s.group? team group with
  | none => s
  | some y =>
    if bits = 0 then s
    else (s.updGroup team group (fun y => { y with bad := aput y.bad key ((alook y.bad key).getD 0 ||| bits) })).logEvent 2 0x261
      (match s.team? team with | some tm => tm.core | none => 0) [team, group, key, y.pc.toNat]

/-- The data of a line of memory becomes uncorrectable. -/
def lineError (s : State) (line : Nat) : State := { s with badLines := insertNat line s.badLines }

/-- A core's translation cache keeps only some of its entries. -/
def dropLeaves (s : State) (core : Nat) (keep : TlbEntry → Bool) : State :=
  if (s.core core).tlb.all keep then s else s.updCore core (fun c => { c with tlb := c.tlb.filter keep })

/-- The cache gives up its entry of a page: how long it keeps one is its own affair (R174, log entry 37). -/
def forgetLeaf (s : State) (core part vpage : Nat) : State :=
  dropLeaves s core (fun e => !(e.part == part && e.vpage == vpage))

/-- A core that hosts no team is power-gated: "gating discards every translation" (Table 11-6). -/
def gateCore (s : State) (core : Nat) : State :=
  if (teamsOn s core).isEmpty then dropLeaves s core (fun _ => false) else s

/-! ### The moves of each agent -/

/-- The lines on which an operation still has an access to make. -/
def PendOp.openLines (o : PendOp) : List Nat := unionNat ((o.accs.filter (fun a => !a.done)).map (fun a => a.loc.line)) []

def opMoves (t g : Nat) (o : PendOp) : List Instr :=
  if o.early then [.xfaultFire t g o.seq]
  else (if o.settled then [0] else o.openLines).map (fun l => match o.kind with
    | .load => .loadComplete t g o.seq l
    | .store => .writeVisible t g o.seq l
    | .atom _ => .remoteAtomic (.groupOp t g o.seq l))

def groupMoves (t g : Nat) (y : Group) : List Instr :=
  List.flatten [
    y.ops.flatMap (opMoves t g),
    (if y.traps.isEmpty then [] else [.impreciseTrapDelivery t g]),
    (match y.status with
        | .ready => if y.ops.isEmpty then [] else [.loadStallYield t g]
        | _ => [])]

def teamMoves (s : State) (t : Nat) (x : Team) : List Instr :=
  List.flatten [
    x.groups.flatMap (fun e => groupMoves t e.1 e.2),
    (if x.pendq.isEmpty then [] else [.pendingEntryTake t]),
    (if x.saving.isSome then [.preemptSave t, .preemptDeadlineExpiry t] else []),
    (match x.status with
        | .saved => [.wakeCondition t]
        | _ => []),
    (if deadlocked s t x then [.teamDeadlockTrap t] else []),
    (if teamDone s t x then [.teamRetire t] else [])]

def coreMoves (c : Nat) (k : Core) : List Instr :=
  List.flatten [
    k.copies.flatMap (fun e => [.copyComplete c e.1, .copyFault c e.1]),
    (if k.tiles.isEmpty then [] else [.tileOpComplete c, .operandFetchFault c false]),
    (if k.log.isEmpty then [] else [.piccoloReplay c])]

/-- Ports of the cores that host teams. -/
def portMoves (s : State) : List Move :=
  (unionNat ((s.teams.filter (fun e => e.2.status == .resident)).map (fun e => e.2.core)) []).flatMap
    (fun c => (span 0 4).map (Move.issue c))

def memoryMoves (s : State) : List Instr :=
  List.flatten [
    s.held.map (fun e => .releaseComplete e.1),
    s.shoots.flatMap (fun e => e.2.todo.map (.shootdown e.1) ++ e.2.unacked.map (.tinvAck e.1)),
    (s.expects.filter (·.lost)).map (fun e => .lostTimeout e.home e.line),
    (s.expects.filter (fun e => (outstanding s e.home e.agent (e.src == .home)).head? == some e)).map (fun e =>
      .bassoonRecord ⟨e.home, e.agent⟩ e.record),
    s.probes.map (fun p => .probe p.1 p.2.1 p.2.2),
    s.lines.map (fun e => .sweeperForceClose e.1),
    s.dirs.flatMap (fun d => d.2.map (fun e => .regionMerge ⟨d.1, e.1⟩)),
    ((waitKeys s).filter (fun w => s.due.contains w.1 || unseen s w.2)).map (fun w => .waitValueReread w.1),
    s.slices.filterMap (fun e => if e.2.busy then some (.wayFlushComplete e.1) else none),
    (unionNat (s.flits.map (fun f => f.sender)) []).map (fun p => .flitDelivery (p / 64) (p % 64)),
    (if s.sleeping then [.retentionWake] else [.retentionSleepEntry])]

/-- A partition's queues and decisions. -/
def partMoves (p : Nat) (x : Partition) : List Instr :=
  List.flatten [
    x.queues.flatMap (fun q => if q.2.rd != q.2.wr then [.nopPacket p q.1, .waitPacket p q.1, .launchPacket p q.1] else []),
    (span 0 4).flatMap (fun d => [.dispatch d p, .preempt d p, .decisionOverrun d p]),
    (if x.ppol.getLsbD 33 then [.policyVerifyEnd p] else [])]

/-- Decisions that may take their snapshot now and end later. -/
def freezeMoves (s : State) : List Move :=
  s.parts.flatMap (fun p => (span 0 4).flatMap (fun d => [.freeze d p.1 0 0, .freeze d p.1 1 0]))
    ++ s.faults.map (fun f => .freeze (faultDie s f) f.part 2 f.team)

/-- A rung that has been started acts. -/
def rungMove (r : RungRun) : Instr :=
  match r.rung with
  | 1 => .rung1 (r.target / 64) (r.target % 64)
  | 2 => .rung2 r.target
  | 3 => .rung3 r.target
  | 4 => .rung4 r.target
  | 5 => .rung5
  | _ => .rung6

/-- Firmware keeps its health and its lease as R314 and R316 have it. -/
def firmwareMoves (s : State) : List Instr :=
  let v := s.fw.lease
  s.fw.rungs.map rungMove ++ (if s.fw.rungs.isEmpty then [] else [.rungTimeout])
    ++ (span 0 5).flatMap (fun c => [.healthWrite c, .healthLapse c])
    ++ [.leaseExpiry, .leaseRestore, .leaseRenewal (leaseHolder v) (leaseWord (leaseHolder v) (leaseEpoch v) (s.tick + 78125))]
    ++ (match lowestHealthy s with
        | some c => [.leaseTakeover c (leaseWord c (leaseEpoch v + 1) (s.tick + 78125))]
        | none => [])

def updateMoves (s : State) : List Move :=
  if updating s then
    [.updateRestart, .updatePause, .event (.blobInstall true), .event (.blobInstall false), .event .updateWatchdogExpiry]
      ++ (span 0 4).map (fun d => .event (.pauseTimerExpiry d))
  else []

def eventMoves (s : State) : List Instr :=
  let a : List Instr := s.teams.flatMap (fun (e : Nat × Team) => teamMoves s e.1 e.2)
  let b : List Instr := s.cores.flatMap (fun (e : Nat × Core) => coreMoves e.1 e.2)
  let c : List Instr := s.parts.flatMap (fun (e : Nat × Partition) => partMoves e.1 e.2)
  let d : List Instr := s.faults.map (fun (f : FaultRec) => Instr.faultDecision f.team)
  [.tick, .tickWrap] ++ a ++ b ++ memoryMoves s ++ c ++ d ++ firmwareMoves s

/-- A translation that a core's cache may give up, and a core that may be gated. -/
def cacheMoves (s : State) : List Move :=
  s.cores.flatMap (fun e => .gate e.1 :: e.2.tlb.map (fun l => .forget e.1 l.part l.vpage))

/-- A line of a directory that is full may have to make room (R182). -/
def dirMoves (s : State) : List Move := s.dirs.flatMap (fun d => d.2.map (fun e => .dirEvict d.1 e.1))

/-- Parts of a copy, of a tile operation and of a typed-buffer store that may be done ahead of the rest (R134). -/
def pieceMoves (s : State) : List Move :=
  s.cores.flatMap (fun e =>
    e.2.copies.flatMap (fun k => (unitsLeft s k.2).map (Move.copyUnit e.1 k.1) ++ k.2.landing.map (fun b => .copyByte e.1 k.1 b.1)
        ++ (if cSrcBuf k.2.record then (span (hOff (cw k.2.record 0)) 131072).map (Move.copyRead e.1 k.1) else [])
        ++ (if k.2.op = 2 then (unitsLeft s k.2).flatMap (fun u => (span 0 (unitSize k.2.record)).map (fun i =>
              .event (.remoteAtomic (.copyElem e.1 k.1 (u * unitSize k.2.record + i))))) else []))
      ++ (match e.2.tiles with
          | [] => []
          | o :: rest => .tileStart e.1 :: (o.landing.getD []).map (fun b => .tileByte e.1 b.1)
              ++ (span 0 3).flatMap (fun r => (span 0 32768).map (fun i => .tileRead e.1 r (hOff (o.operand r) + i)))
              ++ (span 0 16384).map (fun i => .tileZero e.1 (hOff o.dh + i))
              ++ (span 0 rest.length).map (Move.tileSwap e.1)))
    ++ s.teams.flatMap (fun e => e.2.groups.flatMap (fun g => g.2.ops.flatMap (fun o =>
      (o.accs.filter (fun a => !a.done && a.loc.space != 0)).flatMap (fun a => (span 0 o.size).map (Move.accessByte e.1 g.1 o.seq a.lane a.m)))))

/-- Firmware's answer to repeated walk faults (R320). -/
def walkMoves (s : State) : List Move := (s.parts.filter (fun e => decide (2 ≤ e.2.walkFaults))).map (fun e => .walkRung e.1)

/-- Every move that the device may make by itself; one that is not enabled changes nothing. -/
def movesOf (s : State) : List Move :=
  portMoves s ++ (eventMoves s).map Move.event ++ freezeMoves s ++ updateMoves s ++ cacheMoves s ++ dirMoves s ++ pieceMoves s ++ walkMoves s

def chooseMove (s : State) : State × Move :=
  let ms := movesOf s
  ({ s with fresh := s.fresh + 1 }, ms.getD (Config.choice s.fresh % ms.length) (.event .tick))

/-! ### After a move -/

/-- Change the next state of an outcome. -/
def mapNext (f : State → State) : Out → Out
  | .next s => .next (f s)
  | .fault r => .fault r
  | .refused r => .refused r

/-- What any move leaves behind it: the awaited counters that it wrote are read again. -/
def afterMove (before : State) (o : Out) : Out := mapNext (noteWritten before) o

/-- What an instruction's issue leaves behind it as well. -/
def afterIssue (before : State) (i : Instr) (o : Out) : Out := mapNext (fun s => noteWritten before (noteDeps before i s)) o

end Sys2Proof.Machine
end

