-- ==== Sys2Proof/Machine/Step.lean ====
section
/-! DEFINITION. One step of the device: one move, taken from the agenda or, when it is empty, by a free choice among the
moves that the device offers. -/
namespace Sys2Proof.Machine

/-- What a move of an agent other than a port does to the state; an event runs by its own meaning. -/
def runAgent (s : State) : Move → Out
  | .event i => exec i { s with cur := none }
  | .issue _ _ => .next s
  | .freeze die part kind team => .next (freeze s die part kind team)
  | .regError team group key bits => .next (registerError s team group key bits)
  | .lineError line => .next (lineError s line)
  | .updateRestart => .next (updateRestart s)
  | .updatePause => .next (updatePause s)
  | .forget core part vpage => .next (forgetLeaf s core part vpage)
  | .gate core => .next (gateCore s core)
  | .copyUnit core slot k => .next (copyUnit s core slot k)
  | .copyByte core slot off => .next (landByte s core slot off)
  | .tileStart core => .next (tileStart s core)
  | .tileByte core off => .next (tileLand s core off)
  | .tileSwap core k => .next (tileSwap s core k)
  | .accessByte team group seq lane m byte => .next (accessByte s team group seq lane m byte)
  | .copyRead core slot off => .next (copyRead s core slot off)
  | .tileRead core operand off => .next (tileRead s core operand off)
  | .tileZero core off => .next (tileZero s core off)
  | .dirEvict home base => .next (evictRegion s home base)
  | .loseRecord n => .next (loseRecord s n)
  | .configure => .next (configure s)
  | .flashError c slotB offset byte => .next (flashError s c slotB offset byte)
  | .tableError die => .next (tableError s die)
  | .walkRung part => .next (walkRung s part)
  | .refuse team => .next (refuseTeam s team)

/-- Perform a move, after the cycles that have passed. A port with nothing to issue changes nothing else; a device without power takes
its power-on only. -/
def runMove (s : State) (m : Move) : Host.Outcome State Fault Refusal :=
  if unpowered s m then .next s
  else
    let s := passCycles s
    match m with
    | .issue c p =>
      match portIssue s c p with
      | none => .next s
      | some (s', i) => afterIssue s' i (exec i s')
    | m => afterMove s (runAgent s m)

def step (s : State) : Host.Outcome State Fault Refusal :=
  match s.agenda with
  | m :: rest => runMove { s with agenda := rest } m
  | [] => let (s', m) := chooseMove s; runMove s' m

/-- The state in which the next step fetches and runs the given word (see `State.solo`): every instruction of the H7 is
one word of 32 bits. -/
def State.withFetchWord (s : State) (nbits w : Nat) : State :=
  let v : Word := wordOfBytes (bytesOf 4 (w % 2 ^ nbits))
  s.solo (instrOf v) v

end Sys2Proof.Machine
end

