-- ==== Sys2Proof/Safety.lean ====
section
/-! DEFINITION. What counts as a safe run, and the words in which the statements of Certificates/ are written: when an
instruction runs, what it leaves unchanged, and what its group holds afterwards. -/
namespace Sys2Proof
open Sys2Proof.Machine

/-- k steps from a state end in a state: no step stops. -/
def runsOn : Nat → Machine.State → Prop
  | 0, _ => True
  | k + 1, s => ∃ s', Machine.step s = .next s' ∧ runsOn k s'

/-- The instruction i of group x is executed now: x is the issuing group, the word passes checks 3 to 5 of R92, no operation
in flight keeps it waiting, and no register that it reads is in error (R261). -/
structure Runs (s : State) (x : Site) (i : Instr) : Prop where
  site : s.site? = some x
  checks : precheck x i = none
  ready : stalled s x (usesOf i) (makesEvents i) = false
  clean : x.gr.bad = [] ∨ (sError x i = false ∧ ∀ l, laneOf (x.gr.emask x.tm.width) l = true → vError x i l = false)

/-- Outside the issuing group nothing has changed but the ports of the cores, the team's count of issued instructions in
PERF, and FLAGS, which has gained `fl`. Memory, every other team and every other group are as before. -/
structure Outside (s t : State) (x : Site) (fl : Fl) : Prop where
  rest : t = { s with teams := t.teams, cores := t.cores }
  cores : ∀ c, t.core c = { s.core c with ports := (t.core c).ports }
  others : ∀ u, u ≠ x.t → t.team? u = s.team? u
  mates : ∀ h, h ≠ x.g → t.group? x.t h = s.group? x.t h
  team : ∃ m, t.team? x.t = some m ∧ m = { x.tm with
    groups := m.groups, flags := x.tm.flags ||| fl, perf := x.tm.perf.map (fun e => (e.1, perfBump e.2 2 1)) }

/-- What the issuing group holds afterwards: registers S, V and K as given, and otherwise b but for its place and the
bookkeeping of its run; TCAUSE changes only by the halt of R245. -/
structure After (x : Site) (b z : Group) (S : Nat → Word) (V : Nat → Nat → Word) (K : Nat → Lanes) : Prop where
  sRegs : ∀ r, z.getS r = S r
  vRegs : ∀ r l, l < 64 → z.getV r l = V r l
  kRegs : ∀ r, z.getK r = K r
  rest : z = { b with
    s := z.s, v := z.v, k := z.k, bad := z.bad, pc := z.pc, rep := z.rep, replay := z.replay, xop := z.xop, redo := z.redo,
    runPos := z.runPos, passes := z.passes, starving := z.starving, status := z.status, skid := z.skid, midway := z.midway, tcause := z.tcause }
  bad : ∀ e ∈ z.bad, e ∈ b.bad
  status : z.status = b.status.resumed ∨ z.status = GStatus.halted
  tcause : z.tcause = b.tcause ∨ (x.tm.handler ≠ none ∧ x.tm.handler ≠ some x.g)

/-- The group stands at its next instruction: the next word, or under REP the next repetition and at last the word after REP's
pair (R375). A group that re-executes discarded releases goes on to the next of them (R437). -/
def nextPlace (b z : Group) : Prop :=
  b.redo = [] → z.redo = [] ∧ z.replay = none ∧ z.xop = none ∧
    match b.rep with
    | none => z.pc = b.pc + 4 ∧ z.rep = none
    | some r => if r.idx + 1 < r.count then z.pc = b.pc ∧ z.rep = some { r with idx := r.idx + 1 }
                else z.pc = r.addr + 8 ∧ z.rep = none

/-- The group stands at the word at an address. -/
def atPlace (pc : DWord) (z : Group) : Prop := z.pc = pc ∧ z.rep = none ∧ z.redo = [] ∧ z.replay = none ∧ z.xop = none

/-- The instruction is done in this step: the state is s0 (s itself, or s with what the instruction does outside its group),
with these effects on its group and none elsewhere, and the group's place is as P says. -/
def CompletesVia (i : Instr) (s s0 : State) (x : Site) (fl : Fl) (b : Group) (P : Group → Prop) (S : Nat → Word)
    (V : Nat → Nat → Word) (K : Nat → Lanes) : Prop :=
  ∃ t z, exec i s = .next t ∧ Outside s0 t x fl ∧ t.group? x.t x.g = some z ∧ After x b z S V K ∧ P z

/-- The instruction is done in this step, with these effects on its group and none elsewhere, and the group goes on. -/
def Completes (i : Instr) (s : State) (x : Site) (fl : Fl) (b : Group) (S : Nat → Word) (V : Nat → Nat → Word)
    (K : Nat → Lanes) : Prop := CompletesVia i s s x fl b (nextPlace b) S V K

/-- A register file with one value replaced. -/
def upd {α : Type} (f : Nat → α) (k : Nat) (v : α) : Nat → α := fun j => if j = k then v else f j

/-- The instruction writes one S register and nothing else. -/
def WritesS (i : Instr) (s : State) (x : Site) (d : RegNo) (v : Word) : Prop :=
  Completes i s x 0 x.gr (upd x.gr.getS d.toNat v) x.gr.getV x.gr.getK

/-- The instruction writes one K register and nothing else. -/
def WritesK (i : Instr) (s : State) (x : Site) (d : KNo) (v : Lanes) : Prop :=
  Completes i s x 0 x.gr x.gr.getS x.gr.getV (upd x.gr.getK d.toNat v)

/-- Lane l is in the effective mask (R28). -/
def inMask (x : Site) (l : Nat) : Prop := laneOf (x.gr.emask x.tm.width) l = true

/-- The instruction writes V[d] in the lanes of the effective mask, each lane its own value with the flags that it raises,
and nothing else. -/
def WritesV (i : Instr) (s : State) (x : Site) (d : RegNo) (f : Nat → Word × Fl) : Prop :=
  Completes i s x (orFlags (x.lanes.map (fun l => (f l).2))) x.gr x.gr.getS
    (fun r l => if r = d.toNat ∧ laneOf (x.gr.emask x.tm.width) l = true then (f l).1 else x.gr.getV r l) x.gr.getK

/-- The least and the greatest value of an integer type of n bits (R108). -/
def intLo (signed : Bool) (n : Nat) : Int := if signed then -2 ^ (n - 1) else 0
def intHi (signed : Bool) (n : Nat) : Int := if signed then 2 ^ (n - 1) - 1 else 2 ^ n - 1

/-- An exact integer as a V register holds it in an integer type, with its flag: as it is when it fits, else the nearest value
and SAT when saturating, else what is congruent to it modulo 2^n (R62, R71, R108). -/
def intWrite (signed : Bool) (n : Nat) (sat : Bool) (r : Int) : Word × Fl :=
  if intLo signed n ≤ r ∧ r ≤ intHi signed n then (BitVec.ofInt 32 r, 0)
  else if sat then (BitVec.ofInt 32 (if r < intLo signed n then intLo signed n else intHi signed n), flSAT)
  else (BitVec.ofInt 32 (if signed then r.bmod (2 ^ n) else r % 2 ^ n), 0)

/-- The integer in the low n bits of a V register (R62, R108). -/
def intRead (signed : Bool) (n : Nat) (w : Word) : Int :=
  if signed then (w.toNat : Int).bmod (2 ^ n) else (w.toNat : Int) % 2 ^ n

/-- What TCAUSE holds once a group's run has ended: of a sibling of a group with a handler the halt's code and its skid (R44, R245). -/
def haltedCause (x : Site) (b : Group) : Word :=
  if x.tm.handler ≠ none ∧ x.tm.handler ≠ some x.g then BitVec.ofNat 32 (0x41 + b.skid * 2 ^ 16) else b.tcause

/-- The group waits in this instruction and gives its port up (R51): the state is s0 (s itself, or s with what the instruction
has begun), the group b keeps its place and its registers, and nothing else has changed. -/
def WaitsVia (i : Instr) (s s0 : State) (x : Site) (b : Group) (w : Wait) : Prop :=
  ∃ t z, exec i s = .next t ∧ t = { s0 with teams := t.teams, cores := t.cores } ∧
    (∀ u, u ≠ x.t → t.team? u = s0.team? u) ∧ (∀ h, h ≠ x.g → t.group? x.t h = s0.group? x.t h) ∧
    (∃ m, t.team? x.t = some m ∧ m = { x.tm with groups := m.groups }) ∧
    (∀ c, t.core c = { s0.core c with ports := (t.core c).ports }) ∧
    (∀ p, p ∈ (t.core x.tm.core).ports → p.holder ≠ some (x.t, x.g)) ∧
    t.group? x.t x.g = some z ∧
    z = { b with status := GStatus.waiting w, runPos := 0, passes := 0, starving := none, tcause := haltedCause x b }

/-- The group waits in this instruction and nothing else has changed. -/
def Waits (i : Instr) (s : State) (x : Site) (w : Wait) : Prop := WaitsVia i s s x x.gr w

/-- The group waits in this instruction and keeps its port. -/
def WaitsHolding (i : Instr) (s s0 : State) (x : Site) (b : Group) (w : Wait) : Prop :=
  ∃ t z, exec i s = .next t ∧ t = { s0 with teams := t.teams } ∧
    (∀ u, u ≠ x.t → t.team? u = s0.team? u) ∧ (∀ h, h ≠ x.g → t.group? x.t h = s0.group? x.t h) ∧
    (∃ m, t.team? x.t = some m ∧ m = { x.tm with groups := m.groups }) ∧
    t.group? x.t x.g = some z ∧ z = { b with status := GStatus.waiting w }

/-- The instructions of Table 18-3 that refuse some element types, with the types that they accept (Table 18-1). -/
def acceptedTypes : Instr → Option (ElemType → Bool)
  | .vadd .. | .vsub .. | .vmul .. | .vfma .. | .vmin .. | .vmax .. | .vabs .. | .vneg .. | .vcmp .. =>
    some (fun t => decide (t ∉ [.e4m3, .e5m2, .e2m1]))
  | .vshl .. | .vshr .. | .vsra .. | .vmulh .. | .vclz .. | .vpopc .. =>
    some (fun t => decide (t ∈ [.i8, .i16, .i32, .n8, .n16, .n32]))
  | .vrcp .. | .vrsq .. | .vsqrt .. | .vexp2 .. | .vlog2 .. | .vtanh .. | .vquant .. =>
    some (fun t => decide (t ∈ [.fp32, .fp16, .bf16, .tf32, .tf16, .tf8]))
  | .vclass .. => some (fun t => decide (t ∉ [.i8, .i16, .i32, .n8, .n16, .n32]))
  | .vdeq .. => some (fun t => decide (t ∈ [.i8, .i16, .i32]))
  | .vred _ o .. | .vscan _ o .. => if o = .or then none else some (fun t => decide (t ∉ [.e4m3, .e5m2, .e2m1]))
  | _ => none

/-- An instruction that a group issues: one with a word. The other rows are events of the device's other agents. -/
def issued (i : Instr) : Bool := (encode i).isSome

/-- The lowest free frame slot of a group (R250), 1 to 4. -/
def lowestSlot (y : Group) (n : Nat) : Prop :=
  1 ≤ n ∧ n ≤ 4 ∧ alook y.frames n = none ∧ ∀ k, 1 ≤ k → k < n → alook y.frames k ≠ none

/-- The sequence in the middle of which a group that re-executes discarded releases will go on (R437, R65). -/
def stopped (x : Site) : Option XopResume := if x.gr.redo = [] then none else x.gr.redoEnd.xop

/-- A precise trap of the issuing group without lane causes is taken (R244, R247, R252): t is the state after it, `code` its
cause, `tc` the value of TCAUSE, `at'` TRAPPC, `saved` the address that the stack entry holds, `aux` the first doubleword of
AUX. `s1` is the state in which the entry has been pushed (R248, R249). T0 to T7 are in the frame when the group will go on in the middle
of a sequence (`stopped`). -/
structure TrapTaken (s1 t : State) (x : Site) (n code : Nat) (tc : Word) (at' saved : DWord) (aux : Nat) : Prop where
  group : ∃ y z, s1.group? x.t x.g = some y ∧ t.group? x.t x.g = some z ∧
    z.pc = BitVec.ofNat 64 (field64 (s1.part x.tm.part).tvbase 54 8 * 256 + 16 * code) ∧
    z.tcause = tc ∧ z.tlanes = [] ∧ z.gmr = 0 ∧ z.active = x.gr.active ∧ z.rep = none ∧ z.super = true ∧
    z.stack = y.stack ∧ z.spilled = y.spilled ∧ (alook z.frames n).isSome = true ∧
    (∀ r, z.getS r = if r = 0 then BitVec.ofNat 32 (frameVA x.tm x.g n)
      else if r = 1 then BitVec.ofNat 32 (frameVA x.tm x.g n / 2 ^ 32) else x.gr.getS r) ∧
    z.v = x.gr.v ∧ z.k = x.gr.k ∧ z.live = x.gr.live ∧
    (x.tm.handler = none ∨ x.tm.handler = some x.g → z.status = GStatus.ready) ∧
    (x.tm.handler ≠ none → x.tm.handler ≠ some x.g → z.status = GStatus.pendingHandler)
  frame : let b := frameAddr x.tm x.g n
    t.read32 b = tc ∧ t.read32 (b + 4) = 0 ∧ t.read64 (b + 0x08) = at' ∧ t.read64 (b + 0x10) = saved ∧
    t.read64 (b + 0x18) = x.gr.emask x.tm.width ||| x.errs ∧ t.read64 (b + 0x20) = 0 ∧ t.read64 (b + 0x28) = 0 ∧
    t.read32 (b + 0x30) = x.gr.gmr ∧ (∀ r, r < 8 → t.read32 (b + 0x40 + 4 * r) = x.gr.getS r) ∧
    t.read64 (b + 0x80) = BitVec.ofNat 64 aux ∧
    ∀ o, (0x34 ≤ o ∧ o < 0x40) ∨ (0x60 ≤ o ∧ o < 0x80) ∨ (0x88 ≤ o ∧ o < 0x800) ∨ (0x800 ≤ o ∧ o < 0x1000 ∧ stopped x = none) →
      t.byte (b + o) = 0
  memory : ∀ a, a < frameAddr x.tm x.g n ∨ frameAddr x.tm x.g n + 0x1000 ≤ a → t.byte a = s1.byte a
  others : ∀ u, u ≠ x.t → t.team? u = s1.team? u
  handler : ∃ m, t.team? x.t = some m ∧ m.flags = x.tm.flags ∧
    m.handler = if x.tm.handler = none then some x.g else x.tm.handler
  halts : x.tm.handler = none ∨ x.tm.handler = some x.g → ∀ h w, h ≠ x.g → s1.group? x.t h = some w → w.status = GStatus.ready →
    holdsPort s1 x.tm.core x.t h = false →
    t.group? x.t h = some { w with
      status := GStatus.halted, tcause := 0x41, skid := 0, midway := false, passes := 0, starving := none }
  waits : x.tm.handler = none ∨ x.tm.handler = some x.g → ∀ h w v, h ≠ x.g → s1.group? x.t h = some w → w.status = .waiting v →
    (∀ q e, v ≠ .flagsDone q e) → holdsPort s1 x.tm.core x.t h = false →
    t.group? x.t h = some { w with tcause := 0x41, skid := 0, midway := true, passes := 0, starving := none }

/-- What the trap does when the group has a frame slot and room for the entry, and otherwise: the team is killed (R249,
R257). -/
def Traps (o : Out) (s' : State) (x : Site) (code : Nat) (tc : Word) (at' saved : DWord) (aux : Nat) : Prop :=
  (x.gr.frames.length < 4 → ∃ n, lowestSlot x.gr n ∧
    ∀ s1, pushEntry s' x.t x.g ⟨x.gr.active, saved, if (stopped x).isSome then .trapXop else .trap, ((stopped x).map (·.mpc)).getD 0, n⟩ = some s1 →
      ∃ t, o = .next t ∧ TrapTaken s1 t x n code tc at' saved aux) ∧
  (4 ≤ x.gr.frames.length → o = .next (failTeam s' x.t 0x106))

/-- RACT in the frame of a trap entry, as the group reads it, lets POPR and EXIT return by the entry (R255, R368): the frame can be read,
the reserved bits of RACT are zero, and a GMR that RACT 00 and 01 would restore is one that Table 3-3 allows. -/
structure ReturnsBy (s : State) (x : Site) (en : StackEntry) : Prop where
  readable : ∀ l ∈ frameLines x.tm x.g en true, l ∉ s.badLines
  ract : fieldOf (groupWord s x.gr (frameAddr x.tm x.g en.gidx + 4)) 31 2 = 0
  gmr : fieldOf (groupWord s x.gr (frameAddr x.tm x.g en.gidx + 4)) 1 0 < 2 →
    gmrOk (groupWord s x.gr (frameAddr x.tm x.g en.gidx + 0x30)) = true

/-- A group stands at a place. -/
def standsAt (z : Group) (p : ResumePt) : Prop := z.pc = p.pc ∧ z.rep = p.rep ∧ z.xop = p.xop ∧ z.replay = p.replay

/-- POPR or EXIT has returned by a trap entry e with RACT 00 or, with `skip`, 01 (R255, R256, Tables 11-3 and 11-5): S0 to S7, GMR and the
mask are back, the entry and the frame slot are gone, and the group stands where the action says: at the trapped instruction, with the lanes
to be replayed and the sequence in progress; behind it; or at the discarded releases that it executes again (R437). 00 acts as 01 when
every lane of the replay mask has exited (R45). -/
structure Returned (s t : State) (team group : Nat) (tm : Team) (y : Group) (live : Lanes) (e : StackEntry) (rest : List StackEntry)
    (h : FrameHidden) (skip : Bool) : Prop where
  group : ∃ z, t.group? team group = some z ∧
    let base := frameAddr tm group e.gidx
    let lanes : Lanes := s.read64 (base + 0x20) &&& h.emask
    let temps := if e.kind = .trapXop then frameTemps s tm group e.gidx tm.width else []
    let skips : Prop := skip = true ∨ (h.lv = true ∧ lanes ≠ 0 ∧ lanes &&& live = 0)
    z.status = GStatus.ready ∧ z.stack = rest ∧ z.spilled = 0 ∧ alook z.frames e.gidx = none ∧ z.active = e.mask ∧ z.live = live ∧
    z.gmr = s.read32 (base + 0x30) ∧ (∀ r, z.getS r = if r < 8 then s.read32 (base + 0x40 + 4 * r) else y.getS r) ∧ z.v = y.v ∧ z.k = y.k ∧
    (h.prec = true → skips → z.redo = [] ∧ standsAt z (if h.redo = [] then
      .at (match h.rep with | some r => r.addr + 8 | none => e.pc + 4) else h.back e temps)) ∧
    (h.prec = true → ¬ skips → h.redo = [] → z.redo = [] ∧ z.pc = e.pc ∧ z.rep = h.rep ∧
      z.replay = (if h.lv then some (lanes &&& e.mask) else none) ∧ z.xop = h.xop.map (fun r => { r with mpc := e.mpc, t := temps })) ∧
    (h.prec = false → h.redo = [] → z.redo = [] ∧ standsAt z (h.back e temps)) ∧
    (∀ p ps, h.prec = false ∨ ¬ skips → h.redo = p :: ps →
      z.redo = h.redo ∧ z.redoEnd = h.back e temps ∧ z.pc = p.pc ∧ z.rep = p.rep)
  memory : t.mem = s.mem
  others : ∀ u, u ≠ team → t.team? u = s.team? u

/-! ### Memory instructions -/

/-- The record that an operand S[a] to S[a + 7] holds (Table 8-1). -/
def bufferAt (x : Site) (a : RegNo) : BufRec := recordAt x.gr a.toNat

/-- What each load and store asks for (R358, R359, R385, R386, R339): W registers of 4 bytes from d, lane l at offset register
b; the scalar forms once, as lane 0, with S registers. -/
def accessOf (x : Site) : Instr → Option MemReq
  | .ld _ w d a b => some
    { kind := .load, words := wsizeN w, dst := ⟨true, d.toNat, wsizeN w⟩, record := bufferAt x a,
      off := fun l => (x.gr.getV b.toNat l).toNat, data := fun _ => [] }
  | .ldacq _ w d a b => some
    { kind := .load, acq := true, words := wsizeN w, dst := ⟨true, d.toNat, wsizeN w⟩, record := bufferAt x a,
      off := fun l => (x.gr.getV b.toNat l).toNat, data := fun _ => [] }
  | .ldb _ w d a b => some
    { kind := .load, typed := true, words := wsizeN w, dst := ⟨true, d.toNat, wsizeN w⟩, record := bufferAt x a,
      off := fun l => (x.gr.getV b.toNat l).toNat, data := fun _ => [] }
  | .lds _ w d a b => some
    { kind := .load, scalar := true, words := wsizeN w, dst := ⟨false, d.toNat, wsizeN w⟩, record := bufferAt x a,
      off := fun _ => (x.gr.getS b.toNat).toNat, data := fun _ => [] }
  | .st _ w d a b => some
    { kind := .store, counted := true, words := wsizeN w, record := bufferAt x a, off := fun l => (x.gr.getV b.toNat l).toNat,
      data := fun l => (span 0 (wsizeN w)).map (fun m => x.gr.getV (d.toNat + m) l) }
  | .strel _ w d a b => some
    { kind := .store, rel := true, counted := true, words := wsizeN w, record := bufferAt x a,
      off := fun l => (x.gr.getV b.toNat l).toNat, data := fun l => (span 0 (wsizeN w)).map (fun m => x.gr.getV (d.toNat + m) l) }
  | .stb _ w d a b => some
    { kind := .store, typed := true, words := wsizeN w, record := bufferAt x a, off := fun l => (x.gr.getV b.toNat l).toNat,
      data := fun l => (span 0 (wsizeN w)).map (fun m => x.gr.getV (d.toNat + m) l) }
  | .sts _ w d a b => some
    { kind := .store, scalar := true, counted := true, words := wsizeN w, dst := ⟨false, 0, 0⟩, record := bufferAt x a,
      off := fun _ => (x.gr.getS b.toNat).toNat, data := fun _ => x.gr.getSn d.toNat (wsizeN w) }
  | _ => none

/-- What an atomic asks for: operation `op` of R340 on one word, the new value of CAS in the register after d. -/
def atomRequest (x : Site) (op : Nat) (c : AtomOrd) (scalar : Bool) (d a b : RegNo) : MemReq :=
  { kind := .atom op, acq := decide (c = .acq ∨ c = .acqrel), rel := decide (c = .rel ∨ c = .acqrel), scalar := scalar,
    counted := true, words := 1, typ := gmrType x.gr.gmr, dst := ⟨!scalar, d.toNat, 1⟩, record := bufferAt x a,
    off := fun l => if scalar then (x.gr.getS b.toNat).toNat else (x.gr.getV b.toNat l).toNat,
    data := fun l => (span 0 (if op = 7 then 2 else 1)).map
      (fun m => if scalar then x.gr.getS (d.toNat + m) else x.gr.getV (d.toNat + m) l) }

/-- The atomic instructions (Table 16-1). -/
def atomicOf (x : Site) : Instr → Option MemReq
  | .atomAdd _ c d a b => some (atomRequest x 0 c false d a b)
  | .atomMin _ c d a b => some (atomRequest x 1 c false d a b)
  | .atomMax _ c d a b => some (atomRequest x 2 c false d a b)
  | .atomAnd _ c d a b => some (atomRequest x 3 c false d a b)
  | .atomOr _ c d a b => some (atomRequest x 4 c false d a b)
  | .atomXor _ c d a b => some (atomRequest x 5 c false d a b)
  | .atomXchg _ c d a b => some (atomRequest x 6 c false d a b)
  | .atomCas _ c d a b => some (atomRequest x 7 c false d a b)
  | .atomsAdd _ c d a b => some (atomRequest x 0 c true d a b)
  | .atomsMin _ c d a b => some (atomRequest x 1 c true d a b)
  | .atomsMax _ c d a b => some (atomRequest x 2 c true d a b)
  | .atomsAnd _ c d a b => some (atomRequest x 3 c true d a b)
  | .atomsOr _ c d a b => some (atomRequest x 4 c true d a b)
  | .atomsXor _ c d a b => some (atomRequest x 5 c true d a b)
  | .atomsXchg _ c d a b => some (atomRequest x 6 c true d a b)
  | .atomsCas _ c d a b => some (atomRequest x 7 c true d a b)
  | _ => none

/-- The request of a load, a store, or an atomic whose operation accepts GMR.TYPE. -/
def requestOf (x : Site) (i : Instr) : Option MemReq :=
  match accessOf x i with
  | some q => some q
  | none => (atomicOf x i).filter (fun q => match q.kind with | .atom op => atomTypeOk op q.typ | _ => true)

/-- The access of a lane: virtual address and place, as R170 and Table 8-3 give them. -/
def lanePlace (s : State) (x : Site) (q : MemReq) (l : Nat) : Option (Nat × Loc) :=
  match q.check s x l with
  | .good _ va loc => some (va, loc)
  | .bad _ => none

/-- Every lane of the access has a place. -/
def allPlaced (s : State) (x : Site) (q : MemReq) : Prop := ∀ l ∈ q.lanes x, (lanePlace s x q l).isSome = true

/-- The accesses of an instruction's lanes at their places, none of them performed, with the page-table level of the leaf that
translated each. -/
def placedAccs (s : State) (x : Site) (q : MemReq) : List Acc :=
  (q.lanes x).map (fun l =>
    let p := (lanePlace s x q l).getD (0, ⟨0, 0, 0⟩)
    ⟨l, 0, p.1, p.2, q.data l, false, if p.2.space = 0 then leafLevel s x.tm.core x.tm.part p.1 else 3, []⟩)

/-- The access can issue: it has a lane, its counter is below its largest value, no hazard is found on typed buffers, and
Piccolo's log has room for its lines (R337, R139, R223). -/
structure CanIssue (s : State) (x : Site) (q : MemReq) : Prop where
  lanes : q.lanes x ≠ []
  placed : allPlaced s x q
  counter : atLimit x.gr q.isLoad = false
  hazard : q.typed = true → hazard s x.tm (laneSpans s (goodOf ((q.lanes x).map (q.check s x))) (4 * q.words) (!q.isLoad)) = false
  room : q.typed = false → (requests (placedAccs s x q)).length ≤ logFree (s.core x.tm.core)

/-- The instruction has put an operation in flight (R200, R337): the group's newest, of this kind and with these accesses, none of
them performed; a store or atomic that releases is held (R233). The group goes on; no register, no byte of memory and no other
group has changed. -/
def GoesInFlight (i : Instr) (s : State) (x : Site) (kind : OpKind) (acq rel : Bool) (dst : RegDst) (size : Nat) (typ : ElemType)
    (accs : List Acc) : Prop :=
  ∃ t z o, exec i s = .next t ∧ t.mem = s.mem ∧ t.group? x.t x.g = some z ∧ z.ops = x.gr.ops ++ [o] ∧
    o.kind = kind ∧ o.seq = x.gr.nextSeq ∧ z.nextSeq = x.gr.nextSeq + 1 ∧ o.acq = acq ∧ o.rel = rel ∧
    o.scope = gmrScope x.gr.gmr ∧ o.dst = dst ∧ o.size = size ∧ o.typ = typ ∧ o.accs = accs ∧
    (rel = true → o.early = false → o.rid = some s.nextId ∧ ∃ h, alook t.held s.nextId = some h ∧
      h.scope = gmrScope x.gr.gmr ∧ h.ts = x.gr.lastVT ∧ h.team = x.t ∧ h.group = x.g) ∧
    (∀ r, z.getS r = x.gr.getS r) ∧ (∀ r l, l < 64 → z.getV r l = x.gr.getV r l) ∧ (∀ r, z.getK r = x.gr.getK r) ∧
    z.gmr = x.gr.gmr ∧ z.active = x.gr.active ∧ z.stack = x.gr.stack ∧ nextPlace x.gr z ∧
    (∀ u, u ≠ x.t → t.team? u = s.team? u) ∧ (∀ h, h ≠ x.g → t.group? x.t h = s.group? x.t h) ∧
    ∃ m, t.team? x.t = some m ∧ m.flags = x.tm.flags ∧ m.rings = x.tm.rings ∧ m.barriers = x.tm.barriers ∧ m.regions = x.tm.regions

/-- A load, store or atomic is in flight with one access for each of its lanes at its place. -/
def InFlight (i : Instr) (s : State) (x : Site) (q : MemReq) : Prop :=
  GoesInFlight i s x q.kind q.acq q.rel q.dst (4 * q.words) q.typ (placedAccs s x q)

/-! ### System registers -/

/-- Table 3-5: the registers that RDSYS reads, with whether reading takes SUPER, and the words of the value (R77 to R87). LANEID
(0) is read lane by lane. -/
def systemRegister (s : State) (x : Site) (n : Nat) : Option (Bool × List Word) :=
  let p := s.part x.tm.part
  let one := fun (v : Nat) => [BitVec.ofNat 32 v]
  let two := fun (v : DWord) => [loWord v, hiWord v]
  match n with
  | 0x001 => some (false, one x.g)
  | 0x002 => some (false, one x.tm.teamIdx)
  | 0x003 => some (false, [gridIdOf s x.tm])
  | 0x004 => some (false, one (x.tm.core + x.tm.core / 384 * 2 ^ 11 + x.tm.core / 192 % 2 * 2 ^ 13 + x.tm.core % 192 * 2 ^ 14
      + x.tm.part * 2 ^ 22))
  | 0x005 => some (false, two (BitVec.ofNat 64 (s.tick % 2 ^ 48)))
  | 0x006 => some (false, one x.tm.flags.toNat)
  | 0x007 => some (false, [x.gr.gmr])
  | 0x010 => some (true, [x.gr.tcause])
  | 0x011 => some (true, (span 0 8).map (fun i => BitVec.ofNat 32 (tlanesNat x.gr.tlanes / 2 ^ (32 * i))))
  | 0x012 => some (true, two p.tvbase)
  | 0x013 => some (true, two p.ftpool)
  | 0x014 => some (false, [if p.xfen then x.gr.xfault else 0])
  | 0x015 => some (false, [p.chkmode])
  | _ => if 0x020 ≤ n ∧ n ≤ 0x027 then some (false, two ((alook x.tm.perf (n - 0x020)).getD 0)) else none

/-! ### Sequences -/

/-- A sequence of computing micro-ops from its first to UEND, in a group whose lanes take part as `mask` says (R272 to R274);
none when it meets a memory micro-op, a skip or a type that its counterpart refuses, or has no UEND. -/
def sequenceResult (x : Site) (h : DWord) (w : XWord) (mask : Lanes) : List DWord → XRun → Option XRun
  | [], _ => none
  | u :: us, r =>
    if uOp u = 0x3F then some r
    else if uOp u = 0x20 ∨ uOp u = 0x21 ∨ uOp u = 0x30 ∨ uTypeOk (uOp u) (uMode r.y.gmr u).t = false then none
    else
      let m := if uOp u = 0x11 then mask else maskOf x.tm.width (predOf r.t u) &&& mask
      let rs := (lanesOf m).map (fun l =>
        (l, uLane (uMode r.y.gmr u) u (readSel h w r.y r.t u) x.gr.live x.tm.width (predOf r.t u l) l))
      let o := writeSel w r.y r.t u (rs.map (fun p => (p.1, p.2.1)))
      sequenceResult x h w mask us ⟨o.1, o.2, rs.foldl (fun (f : Fl) p => f ||| p.2.2) r.fl⟩

/-! ### Events -/

/-- Memory after the accesses `as`, n bytes each, have been written in their order (R343); every other byte is as before. -/
def Stored (s t : State) (n : Nat) (as : List Acc) : Prop :=
  (∀ b, (∀ a ∈ as, b < a.loc.addr ∨ a.loc.addr + n ≤ b) → t.byte b = s.byte b) ∧
  ∀ pre a post, as = pre ++ a :: post → ∀ i, i < n →
    (∀ c ∈ post, a.loc.addr + i < c.loc.addr ∨ c.loc.addr + n ≤ a.loc.addr + i) →
    t.byte (a.loc.addr + i) = (a.data.flatMap (fun w => bytesOf 4 w.toNat)).getD i 0

/-- Operation `o` of a group has accesses left on a line, whose data need not be waited for (R230), and Piccolo's log holds no other
operation of the group; the tick has room for the times of its writes. -/
structure OpMoves (s : State) (team group seq line : Nat) (tm : Team) (y : Group) (o : PendOp) : Prop where
  teamAt : s.team? team = some tm
  groupAt : s.group? team group = some y
  resident : tm.status = .resident
  op : y.ops.find? (fun p => decide (p.seq = seq)) = some o
  awake : s.sleeping = false
  todo : o.todo line ≠ []
  quiet : ∀ e ∈ (s.core tm.core).log, e.team = team → e.group = group → e.seq = seq
  stamps : s.room 1 = true
  data : awaitOp s tm o line (o.todo line) = none

/-- The same of an operation all of whose lanes have passed their checks. -/
structure OpWaits (s : State) (team group seq line : Nat) (tm : Team) (y : Group) (o : PendOp) : Prop
    extends OpMoves s team group seq line tm y o where
  clean : o.late = []

/-- The same of a line of memory that is neither quarantined nor in error. -/
structure Performs (s : State) (team group seq line : Nat) (tm : Team) (y : Group) (o : PendOp) : Prop
    extends OpWaits s team group seq line tm y o where
  good : ∀ a ∈ o.todo line, a.loc.space = 0 ∧ quarantined s a.loc.addr = false ∧ s.badLines.contains (lineOf a.loc.addr) = false

/-- The same of words of the team's CB region (TRD, TWR), none of them twice and none of their bytes landed yet, with no earlier
operation of the group on that region's line. -/
structure PerformsWords (s : State) (team group seq line : Nat) (tm : Team) (y : Group) (o : PendOp) : Prop
    extends OpWaits s team group seq line tm y o where
  words : o.size = 4
  place : ∀ a ∈ o.todo line, a.loc = ⟨3, team, a.loc.addr⟩
  landed : ∀ a ∈ o.accs, a.landed = []
  once : (o.todo line).Pairwise (fun a b => (a.lane ≠ b.lane ∨ a.m ≠ b.m) ∧
    (a.loc.addr + 4 ≤ b.loc.addr ∨ b.loc.addr + 4 ≤ a.loc.addr))
  first : ∀ p ∈ y.ops, p.seq < seq → ∀ b ∈ p.accs, b.done = true ∨ b.loc.space ≠ 3 ∨ b.loc.line ≠ line

/-- No earlier operation of the group has an access left on the line (Table 9-1). -/
def firstOn (y : Group) (seq line : Nat) : Prop :=
  ∀ p ∈ y.ops, p.seq < seq → ∀ b ∈ p.accs, b.done = true ∨ b.loc.space ≠ 0 ∨ b.loc.line ≠ line

/-- What performing an operation on a line leaves of its group: everything but the operation's own progress, its times, the
end of a wait for it, and the registers it writes. Every other group and team is as before. -/
structure Performed (s t : State) (team group seq line : Nat) (tm : Team) (y : Group) (o : PendOp) (z : Group) : Prop where
  found : t.group? team group = some z
  kept : z = { y with s := z.s, v := z.v, k := y.k, bad := z.bad, ops := z.ops, lastVT := z.lastVT, homes := z.homes, wrote := z.wrote,
                       status := z.status }
  ready : z.status = y.status ∨ (y.status = .waiting (.opDone seq) ∧ z.status = GStatus.ready)
  done : ∀ p ∈ z.ops, p.seq = seq → ∀ a ∈ p.accs, a.loc.line = line → a.done = true
  gone : (∀ a ∈ o.accs, a.done = true ∨ a.loc.line = line) → ∀ p ∈ z.ops, p.seq ≠ seq
  bad : ∀ e ∈ z.bad, e ∈ y.bad
  mates : ∀ k, k ≠ group → t.group? team k = s.group? team k
  teams : ∀ u, u ≠ team → t.team? u = s.team? u
  rings : ∃ m, t.team? team = some m ∧ m.rings = tm.rings ∧ m.barriers = tm.barriers ∧ m.regions = tm.regions

/-- A held release may complete (R205, R222, R233, R235): the group's earlier operations and releases are done, and those that a FENCESC
drains (R208), Piccolo has replayed its entries, the tick is beyond its timestamp, no containment trap of its team holds it when it is a post (R237), no report
index before it is held (R318), the wrap of the tick does not hold it (R242), and in ENFORCE mode every involved home is cleared;
the tick has room for the times of its writes, whose data need not be waited for (R230). -/
structure MayComplete (s : State) (id : Nat) (h : Held) : Prop where
  held : alook s.held id = some h
  ops : h.group = 64 ∨ ((∀ y, s.group? h.team h.group = some y → ∀ o ∈ y.ops, h.seq ≤ o.seq) ∧
    ∀ e ∈ s.held, e.1 ≠ id → e.2.team = h.team → e.2.group = h.group → h.seq ≤ e.2.seq)
  drain : ∀ d ∈ h.drain, ∀ y, s.group? d.1 d.2.1 = some y → ∀ o ∈ y.ops, d.2.2 ≤ o.seq
  replayed : ∀ e ∈ (s.core h.core).log, e.rid = some id → e.replayed = true
  tick : h.ts / 65536 < s.tick
  calm : postHeld s h = false
  turn : indexTurn s h = true
  wrap : h.split < wrapSplit
  stamps : s.room 1024 = true
  data : awaitRelease s h = none
  homes : h.enforce = true → ∀ d ∈ h.homes, max (h.ts / 65536) h.split < s.clearedBelow d

/-- A record agrees with the close that its home took part in (Table 10-4); of what an HBM controller sends the hash counts. -/
def recordAgrees (r : BassoonRec) (e : Expect) : Prop :=
  (e.src ≠ .stack → r.endlo.toNat = e.close % 256 ∧ r.hold.toNat = e.hold ∧ r.writer = e.writer ∧ r.dur.toNat ≤ e.close - e.start) ∧
    r.hstart = e.hstart ∧ r.hend = e.hend ∧ (r.writer = false → r.hend = r.hstart)

/-- The interval that is open on a line and its record when `src` closes it now as agent `agent` (R228, R229): HOLD is over the writer, or
over every cache that held the line during the reader interval. `back`: it goes with data that are written back. -/
def closedNow (s : State) (l home : Nat) (forced : Bool) (src : RecSrc) (agent : Nat) (back : Bool := false) : Expect :=
  let ls := s.line l
  { src := src, home := home, line := l, close := s.tick, start := ls.start, agent := agent, hend := s.lineHash l, hstart := ls.hstart,
    hold := holdOf (match ls.writer with | some w => [w] | none => ls.shared), writer := ls.writer.isSome, forced := forced,
    author := ls.author, lost := false, back := back }

/-- Nothing but the tick itself happens at the boundary: no quarantine has begun that it lets take effect, no interval has been open for
2^18 - 1 ticks, no probe is on its way, and no FENCESC and no counter that is due for its 64-tick reading waits for it (R208, R238, R241,
R243, R294). -/
structure QuietTick (s : State) (next : Nat) : Prop where
  recalls : s.recalls = []
  young : ∀ e ∈ s.lines, next < (s.line e.1).start + (2 ^ 18 - 1)
  probes : s.probes = []
  fences : ∀ e ∈ s.teams, ∀ g ∈ e.2.groups, g.2.status ≠ .waiting .fencescTick
  reads : waitKeys s = [] ∨ next % 64 ≠ 0

/-- An agent's copy of a line. -/
def holds (s : State) (agent l : Nat) : Prop := (alook (s.line l).holders agent).isSome = true

/-- A copy may act: its team is resident, the operations before it are performed, and it is not held (R150, R210). -/
structure CopyActs (s : State) (core slot : Nat) (c : Copy) (tm : Team) : Prop where
  copy : alook (s.core core).copies slot = some c
  teamAt : s.team? c.team = some tm
  resident : tm.status = .resident
  forked : ∀ y, s.group? c.team c.group = some y → ∀ o ∈ y.ops, c.seq ≤ o.seq
  free : c.held = none
  awake : s.sleeping = false

/-- A core's oldest tile operation may act (R158). -/
structure TileActs (s : State) (core : Nat) (o : TileOp) (rest : List TileOp) (tm : Team) : Prop where
  first : (s.core core).tiles = o :: rest
  teamAt : s.team? o.team = some tm
  resident : tm.status = .resident
  forked : ∀ y, s.group? o.team o.group = some y → ∀ p ∈ y.ops, o.seq ≤ p.seq

/-- A rung has been requested (R320): nothing else changes but what the request itself records, and a device with no rung in
progress now has this one. A rung 4 or above also rolls an update back (R326). -/
def RungAsked (e : Instr) (s : State) (rung target : Nat) : Prop :=
  ∃ t, exec e s = .next t ∧ t = { s with fw := t.fw, fronts := t.fronts, beret := t.beret } ∧ t.fw.lease = s.fw.lease ∧
    t.fw.queued = s.fw.queued ∧ (s.fw.rungs = [] → ∃ r ∈ t.fw.rungs, r.rung = rung ∧ r.target = target)

/-- The mailbox answers and nothing else changes (R330). -/
def Answers (e : Instr) (s : State) (r : Reply) : Prop :=
  exec e s = .next { s with beret := { s.beret with replies := s.beret.replies ++ [r] } }

/-- A command that changes state reaches the leader of a device whose Beret runs, and is executed at once (R330): the answer is r, memory
is as before, and what it changes is as P says. -/
def Commands (e : Instr) (s : State) (r : Reply) (P : State → Prop) : Prop :=
  s.fw.beretRun = true → s.fw.mgmtOnly = false → gateRequest s = .go →
    ∃ t, exec e s = .next t ∧ t.beret.replies = s.beret.replies ++ [r] ∧ t.mem = s.mem ∧ P t

/-- A management write of the leader under its epoch, outside an update (R315). -/
def LeaderWrites (s : State) (writer epoch : Nat) : Prop :=
  leader s = some writer ∧ leaseEpoch s.fw.lease = epoch ∧ updating s = false

end Sys2Proof
end

