-- ==== Sys2Proof/Certificates/Slice0/Obligations.lean ====
section
/-! DEFINITION. The statements for the provers, one `def Obligations.<Name> : Prop` each, in the words of Safety.lean. -/
open Sys2Proof Sys2Proof.Machine

/-! ### Scalar, mask and mode instructions -/

/-- Table 17-5, rows with two S sources: each writes S[d] with the value of its row and changes nothing else. -/
def Obligations.ScalarResults : Prop :=
  ∀ (s : State) (x : Site) (e : Bool) (d a b : RegNo),
    let p := x.gr.getS a.toNat
    let q := x.gr.getS b.toNat
    (Runs s x (.sadd e d a b) → WritesS (.sadd e d a b) s x d (p + q)) ∧
    (Runs s x (.ssub e d a b) → WritesS (.ssub e d a b) s x d (p - q)) ∧
    (Runs s x (.smul e d a b) → WritesS (.smul e d a b) s x d (BitVec.ofInt 32 (p.toInt * q.toInt))) ∧
    (Runs s x (.smulh e d a b) → WritesS (.smulh e d a b) s x d (BitVec.ofInt 32 (p.toInt * q.toInt / 2 ^ 32))) ∧
    (Runs s x (.sand e d a b) → WritesS (.sand e d a b) s x d (p &&& q)) ∧
    (Runs s x (.sor e d a b) → WritesS (.sor e d a b) s x d (p ||| q)) ∧
    (Runs s x (.sxor e d a b) → WritesS (.sxor e d a b) s x d (p ^^^ q)) ∧
    (Runs s x (.sshl e d a b) → WritesS (.sshl e d a b) s x d (BitVec.ofNat 32 (p.toNat * 2 ^ (q.toNat % 32)))) ∧
    (Runs s x (.sshr e d a b) → WritesS (.sshr e d a b) s x d (BitVec.ofNat 32 (p.toNat / 2 ^ (q.toNat % 32)))) ∧
    (Runs s x (.ssra e d a b) → WritesS (.ssra e d a b) s x d (BitVec.ofInt 32 (p.toInt / 2 ^ (q.toNat % 32)))) ∧
    (Runs s x (.smin e d a b) → WritesS (.smin e d a b) s x d (BitVec.ofInt 32 (min p.toInt q.toInt))) ∧
    (Runs s x (.smax e d a b) → WritesS (.smax e d a b) s x d (BitVec.ofInt 32 (max p.toInt q.toInt))) ∧
    (Runs s x (.ssel e d a b) → WritesS (.ssel e d a b) s x d (if x.gr.getS d.toNat = 0 then q else p))

/-- Table 17-5, rows with an immediate.
R382: SCMP writes the condition's truth to every bit of K[d] below the width and zero above it.
R383, Table 3-2: SMOV copies a register group as a whole, or reads QDST or QSTAT. -/
def Obligations.ScalarForms : Prop :=
  (∀ (s : State) (x : Site) (e : Bool) (d : RegNo),
     let v := x.gr.getS d.toNat
     (∀ i : BitVec 14,
       (Runs s x (.saddi e d i) → WritesS (.saddi e d i) s x d (BitVec.ofInt 32 (v.toInt + i.toInt))) ∧
       (Runs s x (.sandi e d i) → WritesS (.sandi e d i) s x d (v &&& BitVec.ofInt 32 i.toInt)) ∧
       (Runs s x (.sori e d i) → WritesS (.sori e d i) s x d (v ||| BitVec.ofInt 32 i.toInt))) ∧
     (∀ i : BitVec 5, Runs s x (.sshli e d i) → WritesS (.sshli e d i) s x d (BitVec.ofNat 32 (v.toNat * 2 ^ i.toNat))) ∧
     (∀ i : BitVec 16,
       (Runs s x (.sli e d i) → WritesS (.sli e d i) s x d (BitVec.ofNat 32 i.toNat)) ∧
       (Runs s x (.slih e d i) → WritesS (.slih e d i) s x d (BitVec.ofNat 32 (i.toNat * 65536 + v.toNat % 65536))))) ∧
  (∀ (s : State) (x : Site) (e : Bool) (c : SCond) (d : KNo) (a b : RegNo),
     let p := x.gr.getS a.toNat
     let q := x.gr.getS b.toNat
     let holds : Prop := match c with
       | .eq => p = q | .ne => p ≠ q | .lt => p.toInt < q.toInt | .ltu => p.toNat < q.toNat
     Runs s x (.scmp e c d a b) →
       ∃ v : Lanes, WritesK (.scmp e c d a b) s x d v ∧ ∀ l, l < 64 → (v.getLsbD l = true ↔ l < x.tm.width ∧ holds)) ∧
  (∀ (s : State) (x : Site) (e : Bool) (w : WSize) (d a : RegNo), Runs s x (.smov e w d a) →
     (a.toNat + wsizeN w ≤ 124 →
       Completes (.smov e w d a) s x 0 x.gr
         (fun r => if d.toNat ≤ r ∧ r < d.toNat + wsizeN w then x.gr.getS (a.toNat + (r - d.toNat)) else x.gr.getS r)
         x.gr.getV x.gr.getK) ∧
     (a = 124 → WritesS (.smov e w d a) s x d x.gr.q.qdst) ∧
     (a = 127 → WritesS (.smov e w d a) s x d x.gr.q.stat))

/-- R186: SMOV into QDST takes a value that Table 8-8 allows, which clears NORCV and PRST; any other value takes the
system-register trap.
R187: SMOV into QSEND sends one flit of four registers and uses one allowance; LAST or the eighth flit closes the packet
and clears LAST; without an allowance it waits and holds the port.
R188, R190: SMOV from QRECV takes the next flit and returns an allowance to its sender; a packet that a reset cut short
ends with a zero quad and PRST; with nothing to take the group waits at its blocking point (R42). -/
def Obligations.MessagePorts : Prop :=
  (∀ (s : State) (x : Site) (e : Bool) (a : RegNo), Runs s x (.smovQdst e a) →
     let v := x.gr.getS a.toNat
     let legal := fieldOf v 31 18 = 0 ∧ fieldOf v 10 0 < 1536 ∧
       (x.gr.q.isOpen = true → fieldOf v 10 0 = fieldOf x.gr.q.qdst 10 0 ∧ fieldOf v 16 11 = fieldOf x.gr.q.qdst 16 11)
     (legal → Completes (.smovQdst e a) s x 0
       { x.gr with q := { x.gr.q with qdst := v, norcv := false, prst := false } } x.gr.getS x.gr.getV x.gr.getK) ∧
     (¬ legal → exec (.smovQdst e a) s = .next (trapWhole s x 0x09))) ∧
  (∀ (s : State) (x : Site) (e : Bool) (a : RegNo), Runs s x (.smovQsend e a) →
     let q := x.gr.q
     let last := q.lastBit || decide (q.sent + 1 = 8)
     let n := q.allow q.dcore q.dgroup
     let f : Flit := ⟨x.tm.core, x.g, x.t, x.tm.grid, q.dcore, q.dgroup, last, x.gr.getSn a.toNat 4⟩
     (n ≠ 0 → ∃ p : QPort,
       CompletesVia (.smovQsend e a) s { s with flits := s.flits ++ [f] } x 0 { x.gr with q := p }
         (nextPlace x.gr) x.gr.getS x.gr.getV x.gr.getK ∧
       p = { q with alw := p.alw, isOpen := !last, sent := if last then 0 else q.sent + 1,
                    qdst := if last then q.qdst &&& 0xFFFDFFFF else q.qdst } ∧
       p.allow q.dcore q.dgroup = n - 1 ∧
       ∀ c g, 64 * c + g ≠ 64 * q.dcore + q.dgroup → p.allow c g = q.allow c g) ∧
     (n = 0 → exec (.smovQsend e a) s = .next s)) ∧
  (∀ (s : State) (x : Site) (e : Bool) (d : RegNo), Runs s x (.smovQrecv e d) →
     let q := x.gr.q
     let regs : List Word → Nat → Word := fun data r =>
       if d.toNat ≤ r ∧ r < d.toNat + data.length then data.getD (r - d.toNat) 0 else x.gr.getS r
     (q.cut = true → Completes (.smovQrecv e d) s x 0
       { x.gr with q := { q with cut := false, cur := none, rlast := true, prst := true } }
       (regs [0, 0, 0, 0]) x.gr.getV x.gr.getK) ∧
     (q.cut = false → ∀ f, q.nextFlit = some f →
       ∃ p : QPort, CompletesVia (.smovQrecv e d) s (returnAllow s f) x 0 { x.gr with q := p } (nextPlace x.gr)
           (regs f.data) x.gr.getV x.gr.getK ∧
         p = { q with alw := p.alw, rq := dropFlit q.rq f.sender, cur := if f.last then none else some f.sender,
                      rlast := f.last, rgroup := f.srcGroup, rcore := f.srcCore }) ∧
     (q.cut = false → q.nextFlit = none → Waits (.smovQrecv e d) s x .qrecv))

/-- R357, Table 16-5: the mask instructions compute every bit below the width, whatever the guard and the active mask.
R73, R362: MODE and MODES write GMR and nothing else; MODES with a value that breaks Table 3-3 takes the illegal-encoding
trap. -/
def Obligations.MasksAndMode : Prop :=
  (∀ (s : State) (x : Site) (e : Bool) (d a b : KNo) (r : RegNo),
     let full := fullMask x.tm.width
     let p := x.gr.getK a.toNat
     let q := x.gr.getK b.toNat
     (Runs s x (.kand e d a b) → WritesK (.kand e d a b) s x d (p &&& q &&& full)) ∧
     (Runs s x (.kor e d a b) → WritesK (.kor e d a b) s x d ((p ||| q) &&& full)) ∧
     (Runs s x (.kxor e d a b) → WritesK (.kxor e d a b) s x d ((p ^^^ q) &&& full)) ∧
     (Runs s x (.knot e d a) → WritesK (.knot e d a) s x d (~~~p &&& full)) ∧
     (Runs s x (.kmovK e d a) → WritesK (.kmovK e d a) s x d (p &&& full)) ∧
     (Runs s x (.kmovFromS e d r) → WritesK (.kmovFromS e d r) s x d (x.gr.getPair r.toNat &&& full)) ∧
     (Runs s x (.kmovToS e r a) → Completes (.kmovToS e r a) s x 0 x.gr
       (upd (upd x.gr.getS r.toNat (loWord (p &&& full))) (r.toNat + 1) (hiWord (p &&& full))) x.gr.getV x.gr.getK)) ∧
  (∀ (s : State) (x : Site) (e : Bool) (i : BitVec 16) (a : RegNo),
     (Runs s x (.mode e i) →
       Completes (.mode e i) s x 0 { x.gr with gmr := BitVec.ofNat 32 i.toNat } x.gr.getS x.gr.getV x.gr.getK) ∧
     (Runs s x (.modes e a) → gmrOk (x.gr.getS a.toNat) = true →
       Completes (.modes e a) s x 0 { x.gr with gmr := x.gr.getS a.toNat } x.gr.getS x.gr.getV x.gr.getK) ∧
     (Runs s x (.modes e a) → gmrOk (x.gr.getS a.toNat) = false → exec (.modes e a) s = .next (trapWhole s x 0x02)))

/-! ### Vector instructions -/

/-- R400, R401, R405 to R408, Table 18-3: the lane-by-lane instructions, over the types that each accepts, write each lane of the
effective mask with the result of its own elements and raise the flags of those lanes. -/
def Obligations.VectorLanes : Prop :=
  ∀ (s : State) (x : Site) (e : Bool) (d a b : RegNo) (t : ElemType),
    let m := x.mode
    let u := fun l => x.gr.getV a.toNat l
    let v := fun l => x.gr.getV b.toNat l
    (setArith m.t = true →
      (Runs s x (.vadd e d a b) → WritesV (.vadd e d a b) s x d (fun l => laneAdd m false (u l) (v l))) ∧
      (Runs s x (.vsub e d a b) → WritesV (.vsub e d a b) s x d (fun l => laneAdd m true (u l) (v l))) ∧
      (Runs s x (.vmul e d a b) → WritesV (.vmul e d a b) s x d (fun l => laneMul m (u l) (v l))) ∧
      (Runs s x (.vfma e d a b) → WritesV (.vfma e d a b) s x d (fun l => laneFma m (u l) (v l) (x.gr.getV d.toNat l))) ∧
      (Runs s x (.vmin e d a b) → WritesV (.vmin e d a b) s x d (fun l => laneMinMax m false (u l) (v l))) ∧
      (Runs s x (.vmax e d a b) → WritesV (.vmax e d a b) s x d (fun l => laneMinMax m true (u l) (v l))) ∧
      (Runs s x (.vabs e d a) → WritesV (.vabs e d a) s x d (fun l => laneAbsNeg m false (u l))) ∧
      (Runs s x (.vneg e d a) → WritesV (.vneg e d a) s x d (fun l => laneAbsNeg m true (u l)))) ∧
    (setFltTap m.t = true →
      (Runs s x (.vrcp e d a) → WritesV (.vrcp e d a) s x d (fun l => laneSpecial m .rcp (u l))) ∧
      (Runs s x (.vrsq e d a) → WritesV (.vrsq e d a) s x d (fun l => laneSpecial m .rsq (u l))) ∧
      (Runs s x (.vsqrt e d a) → WritesV (.vsqrt e d a) s x d (fun l => laneSpecial m .sqrt (u l))) ∧
      (Runs s x (.vexp2 e d a) → WritesV (.vexp2 e d a) s x d (fun l => laneSpecial m .exp2 (u l))) ∧
      (Runs s x (.vlog2 e d a) → WritesV (.vlog2 e d a) s x d (fun l => laneSpecial m .log2 (u l))) ∧
      (Runs s x (.vtanh e d a) → WritesV (.vtanh e d a) s x d (fun l => laneSpecial m .tanh (u l)))) ∧
    (setClass m.t = true → Runs s x (.vclass e d a) → WritesV (.vclass e d a) s x d (fun l => (classWord m.t (u l).toNat, 0))) ∧
    (Runs s x (.vcvt e d a t) → WritesV (.vcvt e d a t) s x d (fun l => laneCvt m t (u l)))

/-- R400, R401, R108: over an integer type the arithmetic instructions compute the exact integer and write it as it fits,
saturated with SAT or modulo 2^n.
R402: the bit operations on the n-bit patterns of an integer type. -/
def Obligations.VectorIntegers : Prop :=
  (∀ (s : State) (x : Site) (e : Bool) (d a b : RegNo) (sg : Bool) (n : Nat), kindOf (gmrType x.gr.gmr) = .int sg n →
     let u := fun l => intRead sg n (x.gr.getV a.toNat l)
     let v := fun l => intRead sg n (x.gr.getV b.toNat l)
     let w := fun (r : Nat → Int) (l : Nat) => intWrite sg n (x.gr.gmr.getLsbD 12) (r l)
     (Runs s x (.vadd e d a b) → WritesV (.vadd e d a b) s x d (w (fun l => u l + v l))) ∧
     (Runs s x (.vsub e d a b) → WritesV (.vsub e d a b) s x d (w (fun l => u l - v l))) ∧
     (Runs s x (.vmul e d a b) → WritesV (.vmul e d a b) s x d (w (fun l => u l * v l))) ∧
     (Runs s x (.vfma e d a b) →
       WritesV (.vfma e d a b) s x d (w (fun l => intRead sg n (x.gr.getV d.toNat l) + u l * v l))) ∧
     (Runs s x (.vmin e d a b) → WritesV (.vmin e d a b) s x d (w (fun l => min (u l) (v l)))) ∧
     (Runs s x (.vmax e d a b) → WritesV (.vmax e d a b) s x d (w (fun l => max (u l) (v l)))) ∧
     (Runs s x (.vabs e d a) → WritesV (.vabs e d a) s x d (w (fun l => |u l|))) ∧
     (Runs s x (.vneg e d a) → WritesV (.vneg e d a) s x d (w (fun l => - u l)))) ∧
  (∀ (s : State) (x : Site) (e : Bool) (d a b : RegNo) (sg : Bool) (n : Nat), kindOf (gmrType x.gr.gmr) = .int sg n →
     let u := fun l => (x.gr.getV a.toNat l).toNat % 2 ^ n
     let c := fun l => (x.gr.getV b.toNat l).toNat % n
     let w := fun (r : Nat → Int) (l : Nat) => ((intWrite sg n false (r l)).1, (0 : Fl))
     (Runs s x (.vshl e d a b) → WritesV (.vshl e d a b) s x d (w (fun l => (u l * 2 ^ c l : Nat)))) ∧
     (Runs s x (.vshr e d a b) → WritesV (.vshr e d a b) s x d (w (fun l => (u l / 2 ^ c l : Nat)))) ∧
     (Runs s x (.vsra e d a b) → WritesV (.vsra e d a b) s x d (w (fun l => (u l : Int).bmod (2 ^ n) / 2 ^ c l))) ∧
     (Runs s x (.vmulh e d a b) → WritesV (.vmulh e d a b) s x d
       (w (fun l => intRead sg n (x.gr.getV a.toNat l) * intRead sg n (x.gr.getV b.toNat l) / 2 ^ n))) ∧
     (Runs s x (.vclz e d a) → WritesV (.vclz e d a) s x d
       (w (fun l => (n - (if u l = 0 then 0 else Nat.log2 (u l) + 1) : Nat)))) ∧
     (Runs s x (.vpopc e d a) → WritesV (.vpopc e d a) s x d
       (w (fun l => ((List.range n).filter (fun j => (u l).testBit j)).length))))

/-- R403: the bitwise instructions, moves and selection take every type and raise no flag.
R411, R412: VSHFL, VBFLY and VSCAN read other lanes of the group; a lane that has exited supplies zero to VSHFL and VBFLY. -/
def Obligations.VectorMoves : Prop :=
  (∀ (s : State) (x : Site) (e : Bool) (w : WSize) (d a b : RegNo),
     let u := fun l => x.gr.getV a.toNat l
     let v := fun l => x.gr.getV b.toNat l
     (Runs s x (.vand e d a b) → WritesV (.vand e d a b) s x d (fun l => (u l &&& v l, 0))) ∧
     (Runs s x (.vor e d a b) → WritesV (.vor e d a b) s x d (fun l => (u l ||| v l, 0))) ∧
     (Runs s x (.vxor e d a b) → WritesV (.vxor e d a b) s x d (fun l => (u l ^^^ v l, 0))) ∧
     (Runs s x (.vbcast e d a) → WritesV (.vbcast e d a) s x d (fun _ => (x.gr.getS a.toNat, 0))) ∧
     (Runs s x (.vsel e d a b) → WritesV (.vsel e d a b) s x d (fun l => (if x.gr.getV d.toNat l = 0 then v l else u l, 0))) ∧
     (Runs s x (.vmov e w d a) → Completes (.vmov e w d a) s x 0 x.gr x.gr.getS
       (fun r l => if d.toNat ≤ r ∧ r < d.toNat + wsizeN w ∧ laneOf (x.gr.emask x.tm.width) l = true
         then x.gr.getV (a.toNat + (r - d.toNat)) l else x.gr.getV r l) x.gr.getK)) ∧
  (∀ (s : State) (x : Site) (e : Bool) (o : RedOp) (d a b : RegNo),
     let from' := fun j => if laneOf x.gr.live j = true then x.gr.getV a.toNat j else 0
     (Runs s x (.vshfl e d a b) → WritesV (.vshfl e d a b) s x d
       (fun l => (from' ((x.gr.getV b.toNat l).toNat % x.tm.width), 0))) ∧
     (Runs s x (.vbfly e d a b) → WritesV (.vbfly e d a b) s x d
       (fun l => (from' (l ^^^ (x.gr.getS b.toNat).toNat % x.tm.width), 0))) ∧
     (Runs s x (.vscan e o d a) → setRed o (gmrType x.gr.gmr) = true → WritesV (.vscan e o d a) s x d
       (fun l => reduceLanes x.mode o ((x.lanes.filter (fun j => decide (j ≤ l))).map (x.gr.getV a.toNat)))))

/-- R404, R412, R413, R391: VCMP and VVOTE write every bit of K[d], a lane outside the effective mask giving 0; VRED and VELECT
write S[d] once for the group. -/
def Obligations.VectorToGroup : Prop :=
  ∀ (s : State) (x : Site) (e : Bool) (c : VCond) (o : RedOp) (k : KNo) (d a b : RegNo),
    (Runs s x (.vcmp e c k a b) → setArith (gmrType x.gr.gmr) = true → ∃ v : Lanes,
      Completes (.vcmp e c k a b) s x
        (orFlags (x.lanes.map (fun l => (laneCmp x.mode c (x.gr.getV a.toNat l) (x.gr.getV b.toNat l)).2)))
        x.gr x.gr.getS x.gr.getV (upd x.gr.getK k.toNat v) ∧
      ∀ l, l < 64 → (v.getLsbD l = true ↔ l < x.tm.width ∧ inMask x l ∧
        (laneCmp x.mode c (x.gr.getV a.toNat l) (x.gr.getV b.toNat l)).1 = true)) ∧
    (Runs s x (.vvote e k a) → ∃ v : Lanes, WritesK (.vvote e k a) s x k v ∧
      ∀ l, l < 64 → (v.getLsbD l = true ↔ l < x.tm.width ∧ inMask x l ∧ x.gr.getV a.toNat l ≠ 0)) ∧
    (Runs s x (.vred e o d a) → setRed o (gmrType x.gr.gmr) = true →
      Completes (.vred e o d a) s x (reduceLanes x.mode o (x.lanes.map (x.gr.getV a.toNat))).2 x.gr
        (upd x.gr.getS d.toNat (reduceLanes x.mode o (x.lanes.map (x.gr.getV a.toNat))).1) x.gr.getV x.gr.getK) ∧
    (Runs s x (.velect e d) → ∃ v : Word, WritesS (.velect e d) s x d v ∧
      ((∀ l, l < 64 → ¬ inMask x l) → v = 0xFFFFFFFF) ∧
      ∀ l, l < 64 → inMask x l → v.toNat ≤ l ∧ inMask x v.toNat)

/-- R409, R410: VQUANT writes mantissas and scale words block by block; VDEQ is its inverse. -/
def Obligations.VectorBlocks : Prop :=
  ∀ (s : State) (x : Site) (e : Bool) (f : BxFmt) (t : ElemType) (d a : RegNo),
    let T := gmrType x.gr.gmr
    let block := fun lo => quantiseBX (bxBits f)
      ((span lo 32).map (fun l => if laneOf (x.gr.emask x.tm.width) l then decodeVal T (x.gr.getV a.toNat l).toNat else .zero false))
      x.mode.r
    let elem := fun l => ((block (l / 32 * 32)).2.getD (l % 32) (0, 0))
    (Runs s x (.vquant e d a f) → setFltTap T = true → x.tm.width = 16 →
      exec (.vquant e d a f) s = .next (trapWhole s x 0x36)) ∧
    (Runs s x (.vquant e d a f) → setFltTap T = true → x.tm.width = 32 ∨ x.tm.width = 64 →
      Completes (.vquant e d a f) s x (orFlags (x.lanes.map (fun l => (elem l).2))) x.gr x.gr.getS
        (fun r l => if laneOf (x.gr.emask x.tm.width) l = true then
            if r = d.toNat + 1 then BitVec.ofNat 32 ((block (l / 32 * 32)).1 + 256 * bxCode f)
            else if r = d.toNat then BitVec.ofInt 32 (elem l).1 else x.gr.getV r l
          else x.gr.getV r l) x.gr.getK) ∧
    (Runs s x (.vdeq e d a t) → setDeq T = true →
      (∀ l, l < 64 → inMask x l → (x.gr.getV (a.toNat + 1) l).toNat < 1024) →
      WritesV (.vdeq e d a t) s x d (fun l =>
        let sc := (x.gr.getV (a.toNat + 1) l).toNat
        let bits := [8, 6, 4, 2].getD (sc / 256) 0
        inForm t (convertVal t (bxVal bits (sc % 256) (intOf T (x.gr.getV a.toNat l))) false x.mode.r x.mode.sat)))

/-- R390: a vector-class instruction whose accepted types do not include GMR.TYPE takes the type trap and has no effect. -/
def Obligations.TypeTrap : Prop :=
  ∀ (s : State) (x : Site) (i : Instr) (ok : ElemType → Bool), acceptedTypes i = some ok → Runs s x i →
    ok (gmrType x.gr.gmr) = false → exec i s = .next (trapWhole s x 0x08)

/-! ### Issue and traps -/

/-- R92, Table 3-15, checks 3 to 5, and Table 17-3: the first check that fails gives the trap of every instruction.
R337, R343, R157: an instruction that names a register which an operation in flight will write waits and changes
nothing. -/
def Obligations.IssueChecks : Prop :=
  (∀ (s : State) (x : Site) (i : Instr), issued i = true → s.site? = some x →
     let long := 24 ≤ x.gr.runPos + 1 ∧ boundary i = false ∧ x.gr.alone = false
     let broke := ∃ u ∈ usesOf i, u.1 = true ∧ 8 * x.tm.budgets.getD (roleCode x.gr.role) 0 < u.2.1 + u.2.2
     (long → exec i s = .next (trapWhole s x 0x03)) ∧
     (¬ long → roleAllows i x.gr.role = false → exec i s = .next (trapWhole s x 0x04)) ∧
     (¬ long → roleAllows i x.gr.role = true → broke → exec i s = .next (trapWhole s x 0x05)) ∧
     (¬ long → roleAllows i x.gr.role = true → ¬ broke → x.gr.rep.isSome = true → repAllowed i = false →
       exec i s = .next (trapWhole s x 0x02))) ∧
  (∀ (s : State) (x : Site) (i : Instr), issued i = true → s.site? = some x → precheck x i = none →
     stalled s x (usesOf i) (makesEvents i) = true → exec i s = .next s)

/-- R244, R247, R252, R245: a precise trap without lane causes; the team's other groups halt, those that wait among them. Under REP (R374,
R376) the frame's TRAPPC is the address of the prefixed word and the stack entry's PC that of REP, which is the model's reading (log entry
21). -/
def Obligations.TrapEntry : Prop :=
  ∀ (s : State) (x : Site) (code : Nat), s.team? x.t = some x.tm → x.tm.group? x.g = some x.gr →
    Traps (.next (trapWhole s x code)) s x code
      (BitVec.ofNat 32 (code + 2 ^ 8 + (match x.gr.rep with | some r => r.idx * 2 ^ 10 | none => 0)))
      (match x.gr.rep with | some r => r.addr + 4 | none => x.gr.pc) (match x.gr.rep with | some r => r.addr | none => x.gr.pc) 0

/-- R347, R398: TRAP and BKPT take their trap at the next word's address, with the immediate in AUX.
Checks 1 and 2 of R92, and R93, R247: a word that is not executed traps; a handler's fetch fault kills its team. -/
def Obligations.SoftwareTraps : Prop :=
  (∀ (s : State) (x : Site) (c : BitVec 14),
     (Runs s x (.trap c) → Traps (exec (.trap c) s) (noteIssue s x.t x.g) x 0x42 0x142 x.gr.pc (x.gr.pc + 4) c.toNat) ∧
     (Runs s x (.bkpt c) → Traps (exec (.bkpt c) s) (noteIssue s x.t x.g) x 0x43 0x143 x.gr.pc (x.gr.pc + 4) c.toNat)) ∧
  (∀ (s : State) (x : Site) (w : Word), s.site? = some x →
     exec (.illegalInstruction w) s = .next (trapWhole s x 0x01) ∧
     exec (.illegalEncoding w) s = .next (trapWhole s x 0x02) ∧
     (∀ c ats, fetchAt s x = .bad c ats →
       (x.gr.super = true → exec .fetchFault s = .next (failTeam s x.t 0x107)) ∧
       (x.gr.super = false →
         let lanes := match x.gr.replay with | some r => x.gr.active &&& r | none => x.gr.active
         exec .fetchFault s = .next (takeTrap s x.t x.g
           { trapAt x (0x20 + c) with
             emask := lanes, causes := (lanesOf lanes).map (fun l => (l, c)),
             faddr := (lanesOf lanes).map (fun l => (l, x.gr.point.word.toNat)), hmask := if ats then lanes else 0 }))))

/-! ### Control -/

/-- R248, R249: a push keeps 32 entries on chip, spills the oldest beyond them, and fails when both are full; a pop takes the
newest entry back and refills the stack. -/
def Obligations.ReconvergenceStack : Prop :=
  ∀ (s : State) (t g : Nat) (tm : Team) (y : Group) (e : StackEntry), s.team? t = some tm → tm.group? g = some y →
    (y.stack.length < 32 → pushEntry s t g e = some (s.updGroup t g (fun y => { y with stack := e :: y.stack }))) ∧
    (32 ≤ y.stack.length → y.spilled < 1024 → ∃ s', pushEntry s t g e = some s' ∧
      s'.group? t g = some { y with stack := e :: y.stack.dropLast, spilled := y.spilled + 1 } ∧
      (∀ a, a < spillAddr tm g y.spilled ∨ spillAddr tm g y.spilled + 16 ≤ a → s'.byte a = s.byte a) ∧
      ∀ o, y.stack.getLast? = some o → s'.read64 (spillAddr tm g y.spilled + 8) = o.mask) ∧
    (32 ≤ y.stack.length → 1024 ≤ y.spilled → pushEntry s t g e = none) ∧
    (y.spilled = 0 → popEntry s t g = s.updGroup t g (fun y => { y with stack := y.stack.tail })) ∧
    (∀ s', 32 ≤ y.stack.length → pushEntry s t g e = some s' →
      (∀ o ∈ y.stack, o.pc.toNat < 2 ^ 55 ∧ o.pc.toNat % 4 = 0 ∧ o.mpc < 32 ∧ o.gidx < 16) →
      (popEntry s' t g).group? t g = some y)

/-- R90, R348, R350, R377: BRU, CALL and RET set the place; RET refuses an address that no word can have.
R363, R373: NOP changes nothing but the place; REP prepares the repetitions of the word after it.
R374, R375: a repetition stands for the prefixed word with each stepped field raised, a single register by 1, a group by its size, a record
by 8; a field past its end, in S124 to S127 or misaligned, and a step bit on a field that is no register, are refused as illegal
encodings. -/
def Obligations.Branches : Prop :=
  (∀ (s : State) (x : Site) (o : BitVec 16) (d a : RegNo),
     let target := x.gr.pc + 4 * BitVec.ofInt 64 o.toInt
     let v := x.gr.getPair a.toNat
     (Runs s x (.bru o) → CompletesVia (.bru o) s s x 0 x.gr (atPlace target) x.gr.getS x.gr.getV x.gr.getK) ∧
     (Runs s x (.call d o) → CompletesVia (.call d o) s s x 0 x.gr (atPlace target)
       (upd (upd x.gr.getS d.toNat (loWord (x.gr.pc + 4))) (d.toNat + 1) (hiWord (x.gr.pc + 4))) x.gr.getV x.gr.getK) ∧
     (Runs s x (.ret a) → v.toNat % 4 = 0 → v.toNat < 2 ^ 55 →
       CompletesVia (.ret a) s s x 0 x.gr (atPlace v) x.gr.getS x.gr.getV x.gr.getK) ∧
     (Runs s x (.ret a) → v.toNat % 4 ≠ 0 → exec (.ret a) s = .next (trapWhole s x 0x23)) ∧
     (Runs s x (.ret a) → v.toNat % 4 = 0 → 2 ^ 55 ≤ v.toNat → exec (.ret a) s = .next (trapWhole s x 0x22))) ∧
  (∀ (s : State) (x : Site) (e sb sa sd : Bool) (n : BitVec 6),
     (Runs s x (.nop e) → Completes (.nop e) s x 0 x.gr x.gr.getS x.gr.getV x.gr.getK) ∧
     (Runs s x (.rep sb sa sd n) → x.gr.status = GStatus.ready →
       CompletesVia (.rep sb sa sd n) s s x 0 x.gr
         (fun z => z.pc = x.gr.pc ∧ z.rep = some ⟨x.gr.pc, n.toNat + 1, sd, sa, sb, 0⟩) x.gr.getS x.gr.getV x.gr.getK)) ∧
  (∀ (s : State) (x : Site) (r : RepPos) (key : Nat) (w : Word) (e : Bool) (ws : WSize) (d a b : RegNo) (imm : BitVec 14),
     x.gr.rep = some r → x.gr.xop = none → fetchAt s x = .word key w →
     let up (on : Bool) (step : Nat) (f : RegNo) : Nat := f.toNat + if on then r.idx * step else 0
     let refused : Prop := ∃ v, instrAt s x = .illegalEncoding v
     (decode w = .instr (.vadd e d a b) →
       (up r.sd 1 d ≤ 127 → up r.sa 1 a ≤ 127 → up r.sb 1 b ≤ 127 →
         instrAt s x = .vadd e (BitVec.ofNat 7 (up r.sd 1 d)) (BitVec.ofNat 7 (up r.sa 1 a)) (BitVec.ofNat 7 (up r.sb 1 b))) ∧
       (127 < up r.sd 1 d ∨ 127 < up r.sa 1 a ∨ 127 < up r.sb 1 b → refused)) ∧
     (decode w = .instr (.saddi e d imm) →
       let j : Instr := .saddi e (BitVec.ofNat 7 (up r.sd 1 d)) imm
       (r.sa = false → r.sb = false → up r.sd 1 d < 124 → instrAt s x = j) ∧ (124 ≤ up r.sd 1 d → refused) ∧
       (r.sa = true ∨ r.sb = true → precheck x j = none → refused)) ∧
     (decode w = .instr (.ld e ws d a b) → up r.sd (wsizeN ws) d ≤ 127 → up r.sa 8 a ≤ 127 → up r.sb 1 b ≤ 127 →
       let j : Instr := .ld e ws (BitVec.ofNat 7 (up r.sd (wsizeN ws) d)) (BitVec.ofNat 7 (up r.sa 8 a)) (BitVec.ofNat 7 (up r.sb 1 b))
       (j.wf = true → instrAt s x = j) ∧ (j.wf = false → refused)) ∧
     (decode w = .instr (.smov e ws d a) → d.toNat < 124 → a.toNat < 124 →
       124 ≤ up r.sd (wsizeN ws) d ∨ 124 ≤ up r.sa (wsizeN ws) a → refused))

/-- R349: BRK branches when every active lane takes it, falls through when none does, and otherwise pushes the taken lanes with
the target and goes on with the rest. -/
def Obligations.DivergentBranch : Prop :=
  ∀ (s : State) (x : Site) (neg : Bool) (k : KNo) (o : BitVec 19), Runs s x (.brk neg k o) →
    let cond := (if neg then ~~~(x.gr.getK k.toNat) else x.gr.getK k.toNat) &&& fullMask x.tm.width
    let taken := x.gr.active &&& cond
    let rest := x.gr.active &&& ~~~cond
    let target := x.gr.pc + 4 * BitVec.ofInt 64 o.toInt
    (rest = 0 → CompletesVia (.brk neg k o) s s x 0 x.gr (atPlace target) x.gr.getS x.gr.getV x.gr.getK) ∧
    (rest ≠ 0 → taken = 0 →
      CompletesVia (.brk neg k o) s s x 0 x.gr (atPlace (x.gr.pc + 4)) x.gr.getS x.gr.getV x.gr.getK) ∧
    (rest ≠ 0 → taken ≠ 0 → ∀ s0 y, pushEntry s x.t x.g ⟨taken, target, .reconv, 0, 0⟩ = some s0 → s0.group? x.t x.g = some y →
      CompletesVia (.brk neg k o) s s0 x 0 { y with active := rest } (atPlace (x.gr.pc + 4)) x.gr.getS x.gr.getV x.gr.getK) ∧
    (rest ≠ 0 → taken ≠ 0 → pushEntry s x.t x.g ⟨taken, target, .reconv, 0, 0⟩ = none →
      exec (.brk neg k o) s = .next (failTeam s x.t 0x105))

/-- R370: PUSHR pushes the active mask with the target, spilling the oldest entry of a full stack (R248); with the spill region full as
well the team is killed with CAUSE 0x0105 (R249).
R368: POPR on an empty stack takes the illegal-convergence trap; on an entry of KIND 00 it takes the entry's mask and place.
R255: on a trap entry whose frame cannot be read POPR kills the team with CAUSE 0x0109; a nonzero reserved bit of RACT raises 0x09
precisely with the entry left on the stack; otherwise POPR opens FENCE DEVICE and waits for it. That a GMR of the frame which Table 3-3
does not allow is refused like RACT's bits is the model's choice (log entry 63), which the premise of the last clause leaves out. -/
def Obligations.PushAndPop : Prop :=
  ∀ (s : State) (x : Site) (e : Bool) (o : BitVec 19),
    let entry : StackEntry := ⟨x.gr.active, x.gr.pc + 4 * BitVec.ofInt 64 o.toInt, .reconv, 0, 0⟩
    (Runs s x (.pushr e o) → x.gr.stack.length < 32 →
      CompletesVia (.pushr e o) s (s.updGroup x.t x.g (fun y => { y with stack := entry :: y.stack })) x 0
        { x.gr with stack := entry :: x.gr.stack } (nextPlace x.gr) x.gr.getS x.gr.getV x.gr.getK) ∧
    (Runs s x (.pushr e o) → 32 ≤ x.gr.stack.length → x.gr.spilled < 1024 →
      ∃ s0, pushEntry s x.t x.g entry = some s0 ∧
        CompletesVia (.pushr e o) s s0 x 0 { x.gr with stack := entry :: x.gr.stack.dropLast, spilled := x.gr.spilled + 1 }
          (nextPlace x.gr) x.gr.getS x.gr.getV x.gr.getK) ∧
    (Runs s x (.pushr e o) → 32 ≤ x.gr.stack.length → 1024 ≤ x.gr.spilled →
      exec (.pushr e o) s = .next (failTeam s x.t 0x105)) ∧
    (Runs s x .popr → x.gr.stack = [] → exec .popr s = .next (trapWhole s x 0x36)) ∧
    (∀ en rest, Runs s x .popr → x.gr.stack = en :: rest → en.kind = .reconv →
      ∃ y, (popEntry s x.t x.g).group? x.t x.g = some y ∧ y = { x.gr with stack := y.stack, spilled := y.spilled } ∧
        (x.gr.spilled = 0 → y.stack = rest ∧ y.spilled = 0) ∧
        (x.gr.spilled ≠ 0 → y.stack = rest ++ [spilledEntry s x.tm x.g (x.gr.spilled - 1)] ∧ y.spilled = x.gr.spilled - 1) ∧
        CompletesVia .popr s (popEntry s x.t x.g) x 0 { y with active := en.mask } (atPlace en.pc) x.gr.getS x.gr.getV x.gr.getK) ∧
    (∀ en rest, Runs s x .popr → x.gr.stack = en :: rest → en.kind ≠ .reconv →
      ((∃ l ∈ frameLines x.tm x.g en false, l ∈ s.badLines) → exec .popr s = .next (failTeam s x.t 0x109)) ∧
      ((∀ l ∈ frameLines x.tm x.g en true, l ∉ s.badLines) →
        fieldOf (groupWord s x.gr (frameAddr x.tm x.g en.gidx + 4)) 31 2 ≠ 0 → exec .popr s = .next (trapWhole s x 0x09)) ∧
      (ReturnsBy s x en → logFree (s.core x.tm.core) ≠ 0 →
        WaitsVia .popr s (holdRelease s x .popr .device [] (some (.fence, []))) x { x.gr with nextSeq := x.gr.nextSeq + 1 }
          (.popr s.nextId)))

/-- R45, R46, R354: EXIT removes the active lanes from the group and from its stack. With no entry left the group retires and
keeps its registers; else the group goes on at the newest entry, or returns from the trap that the entry stands for: a nonzero reserved
bit of RACT raises 0x09, otherwise FENCE DEVICE is opened and the group waits for it (R255). -/
def Obligations.ExitLanes : Prop :=
  ∀ (s : State) (x : Site), Runs s x .exit →
    let es := stackLess (wholeStack s x.tm x.g x.gr) x.gr.active
    (es = [] → ∃ t z, exec .exit s = .next t ∧ t.mem = s.mem ∧ (∀ u, u ≠ x.t → t.team? u = s.team? u) ∧
      (x.tm.handler ≠ some x.g → ∀ h, h ≠ x.g → t.group? x.t h = s.group? x.t h) ∧ t.group? x.t x.g = some z ∧
      z.status = GStatus.retired ∧ z.active = 0 ∧ z.live = x.gr.live &&& ~~~x.gr.active ∧ z.stack = [] ∧ z.spilled = 0 ∧
      z.s = x.gr.s ∧ z.v = x.gr.v ∧ z.k = x.gr.k ∧ z.gmr = x.gr.gmr) ∧
    (∀ en rest, es = en :: rest → en.kind = .reconv → es.length ≤ 32 → ∃ t z, exec .exit s = .next t ∧ t.mem = s.mem ∧
      (∀ u, u ≠ x.t → t.team? u = s.team? u) ∧ t.group? x.t x.g = some z ∧ atPlace en.pc z ∧ z.active = en.mask ∧
      z.live = x.gr.live &&& ~~~x.gr.active ∧ z.stack = rest ∧ z.spilled = 0 ∧
      z.s = x.gr.s ∧ z.v = x.gr.v ∧ z.k = x.gr.k ∧ z.gmr = x.gr.gmr) ∧
    (∀ en rest, es = en :: rest → en.kind ≠ .reconv →
      ((∀ l ∈ frameLines x.tm x.g en true, l ∉ s.badLines) →
        fieldOf (groupWord s x.gr (frameAddr x.tm x.g en.gidx + 4)) 31 2 ≠ 0 → exec .exit s = .next (trapWhole s x 0x09)) ∧
      (ReturnsBy s x en → logFree (s.core x.tm.core) ≠ 0 →
        WaitsVia .exit s (holdRelease s x .popr .device [] (some (.fence, []))) x { x.gr with nextSeq := x.gr.nextSeq + 1 }
          (.poprExit s.nextId)))

/-! ### Memory, copies and tiles -/

/-- R170, Table 8-3: the place of a lane's access to memory, and the causes in their order.
R169: a record that breaks Table 8-1 or 8-2 gives every lane the illegal-encoding cause.
R170, R136: of an access to a typed buffer, which only LDB and STB make and only to WB and AB, the place is an offset in the region of
the team that the record's core field names, swizzled. -/
def Obligations.AccessChecks : Prop :=
  (∀ (s : State) (x : Site) (r : BufRec) (k : AccKind) (size lane off : Nat), r.ok = true → r.space = 0 →
     let o := off * r.stride
     let va := r.base.toNat + o
     let res := checkLane s x r k false size lane off
     let inside := o + size ≤ r.extent ∧ va + size ≤ 2 ^ 55
     (¬ inside → ∃ b, res = .bad b ∧ b.lane = lane ∧ b.cause = 2) ∧
     (inside → va % size ≠ 0 → res = .bad ⟨lane, 3, va % 2 ^ 64, false⟩) ∧
     (inside → va % size = 0 → recordRight r k = false → res = .bad ⟨lane, 4, va % 2 ^ 64, false⟩) ∧
     (inside → va % size = 0 → recordRight r k = true → ∀ c ats, translate s x.tm.core x.tm.part va (leafRights k) = .cause c ats →
       res = .bad ⟨lane, c, va % 2 ^ 64, ats⟩) ∧
     (inside → va % size = 0 → recordRight r k = true → ∀ key, translate s x.tm.core x.tm.part va (leafRights k) = .ok key →
       (accessBad s key x.gr.super (k == .store) = true → res = .bad ⟨lane, 6, va % 2 ^ 64, false⟩) ∧
       (accessBad s key x.gr.super (k == .store) = false → res = .good lane va ⟨0, 0, key⟩))) ∧
  (∀ (s : State) (x : Site) (r : BufRec) (k : AccKind) (typed : Bool) (size lane off : Nat), r.ok = false →
     ∃ b, checkLane s x r k typed size lane off = .bad b ∧ b.lane = lane ∧ b.cause = 1) ∧
  (∀ (s : State) (x : Site) (r : BufRec) (k : AccKind) (typed : Bool) (size lane off u : Nat) (ty : Team), r.ok = true → r.space ≠ 0 →
     resolveCore s x.t x.tm (fieldOf r.ctrl 31 24) = some u → s.team? u = some ty →
     let o := off * r.stride
     let at' := field64 r.base 16 0 + o
     let y := if fieldOf r.ctrl 9 8 = 0 then at'
       else at' / 2048 * 2048 + ((at' / 16 % 128) ^^^ (at' / 2048 % 2 ^ (fieldOf r.ctrl 9 8 + 1))) * 16 + at' % 16
     let res := checkLane s x r k typed size lane off
     let inside := o + size ≤ r.extent ∧ y + size ≤ (ty.region (r.space - 1)).quota
     let may := typed = true ∧ recordRight r k = true ∧ r.space ≠ 3
     (¬ inside → res = .bad ⟨lane, 2, y, false⟩) ∧
     (inside → y % size ≠ 0 → res = .bad ⟨lane, 3, y, false⟩) ∧
     (inside → y % size = 0 → ¬ may → res = .bad ⟨lane, 4, y, false⟩) ∧
     (inside → y % size = 0 → may → res = .good lane y ⟨r.space, u, y⟩)) ∧
  (∀ (s : State) (x : Site) (r : BufRec) (k : AccKind) (size lane off : Nat), r.ok = true → r.space = 0 →
     ∃ b, checkLane s x r k true size lane off = .bad b ∧ b.lane = lane ∧ b.cause ∈ [2, 3, 4])

/-- R358, R359, R385, R386, R339: a load or store whose lanes all pass their checks goes in flight and the group goes on. -/
def Obligations.LoadsAndStores : Prop :=
  ∀ (s : State) (x : Site) (i : Instr) (q : MemReq), accessOf x i = some q → Runs s x i → CanIssue s x q → InFlight i s x q

/-- R340, R341: an atomic of a type that it accepts goes in flight likewise; any other type takes the type trap.
R343: FP32 ADD, MIN and MAX hold their group's next issue, and the port, until every lane has completed. -/
def Obligations.Atomics : Prop :=
  ∀ (s : State) (x : Site) (i : Instr) (q : MemReq) (op : Nat), atomicOf x i = some q → q.kind = .atom op → Runs s x i →
    (atomTypeOk op (gmrType x.gr.gmr) = true → CanIssue s x q → InFlight i s x q) ∧
    (atomTypeOk op (gmrType x.gr.gmr) = true → CanIssue s x q → op < 3 → gmrType x.gr.gmr = .fp32 →
      ∃ t z b, exec i s = .next t ∧ t.group? x.t x.g = some z ∧ z.status = .waiting (.flagsDone x.gr.nextSeq b) ∧
        ∀ p, (t.core x.tm.core).ports.getD p Port.idle = (s.core x.tm.core).ports.getD p Port.idle) ∧
    (atomTypeOk op (gmrType x.gr.gmr) = false → exec i s = .next (trapWhole s x 0x08))

/-- R337: a memory instruction whose effective mask is empty makes no access and goes on; at its counter's limit it waits and
holds its port.
R338: a memory instruction none of whose lanes passes its checks traps, with each lane's cause and address; a scalar form
reports its one access without lane causes. With lanes that pass and lanes that do not, the accesses of those that pass go in flight, and
the group waits, with its port, until they are performed, before the others report.
R369: PREF changes no register, no counter and no byte of memory; it may bring lines into the core's L1. -/
def Obligations.AccessesNotMade : Prop :=
  (∀ (s : State) (x : Site) (i : Instr) (q : MemReq), requestOf x i = some q → Runs s x i →
     (q.lanes x = [] → Completes i s x 0 x.gr x.gr.getS x.gr.getV x.gr.getK) ∧
     (q.lanes x ≠ [] → atLimit x.gr q.isLoad = true → exec i s = .next s)) ∧
  (∀ (s : State) (x : Site) (i : Instr) (q : MemReq), requestOf x i = some q → Runs s x i → q.lanes x ≠ [] →
     atLimit x.gr q.isLoad = false → (∀ l ∈ q.lanes x, lanePlace s x q l = none) →
     ∃ s' bs, bs = badOf ((q.lanes x).map (q.check s x)) ∧ s'.mem = s.mem ∧ s'.teams = s.teams ∧
       exec i s = .next (if q.scalar then (match bs with | b :: _ => trapScalar s' x b.cause b.va b.ats | [] => s')
         else trapLanes s' x (bs.map (fun b => (b.lane, b.cause))) (bs.map (fun b => (b.lane, b.va)))
           (maskOfLanes ((bs.filter (·.ats)).map (·.lane))))) ∧
  (∀ (s : State) (x : Site) (i : Instr) (q : MemReq), requestOf x i = some q → Runs s x i → q.typed = false →
     atLimit x.gr q.isLoad = false →
     let rs := (q.lanes x).map (q.check s x)
     let accs := goodAccesses s x q (goodOf rs)
     accs ≠ [] → badOf rs ≠ [] → (requests accs).length ≤ logFree (s.core x.tm.core) →
     ∃ t z o, exec i s = .next t ∧ t.mem = s.mem ∧ t.group? x.t x.g = some z ∧ z.ops = x.gr.ops ++ [o] ∧ o.seq = x.gr.nextSeq ∧
       o.kind = q.kind ∧ o.accs = accs ∧ o.late = badOf rs ∧ z.status = .waiting (.opDone x.gr.nextSeq) ∧
       (∀ p, (t.core x.tm.core).ports.getD p Port.idle = (s.core x.tm.core).ports.getD p Port.idle) ∧
       z.pc = x.gr.pc ∧ z.rep = x.gr.rep ∧ z.gmr = x.gr.gmr ∧ z.active = x.gr.active ∧ z.stack = x.gr.stack ∧
       (∀ r, z.getS r = x.gr.getS r) ∧ (∀ r l, l < 64 → z.getV r l = x.gr.getV r l) ∧ (∀ r, z.getK r = x.gr.getK r) ∧
       (∀ u, u ≠ x.t → t.team? u = s.team? u) ∧ ∀ h, h ≠ x.g → t.group? x.t h = s.group? x.t h) ∧
  (∀ (s : State) (x : Site) (e : Bool) (a b : RegNo), Runs s x (.pref e a b) →
     ∃ s0, s0.mem = s.mem ∧ s0.teams = s.teams ∧ s0.parts = s.parts ∧ s0.held = s.held ∧
       CompletesVia (.pref e a b) s s0 x 0 x.gr (nextPlace x.gr) x.gr.getS x.gr.getV x.gr.getK)

/-- R143 to R147, R351: a copy that passes Table 6-6, with a free slot, takes the lowest one with its record as read, raises cp
and makes the fork of R210; one that fails a check traps; one without room waits and holds its port. -/
def Obligations.CopyIssue : Prop :=
  ∀ (s : State) (x : Site) (e : Bool) (d : RegNo) (p : BitVec 8) (op : Nat) (i : Instr),
    (op, i) ∈ [(0, Instr.cpy e d p), (1, .cpyg e d p), (2, .cpyred e d p)] → Runs s x i →
    let r := x.gr.getSn d.toNat 24
    let c := s.core x.tm.core
    let k := Copy.mk s.nextId x.t x.g x.gr.nextSeq op r p.toNat x.gr.point.word [] [] [] none 0 none [] [] [] []
    (∀ code, copyRefusal s x op r p.toNat = some code → exec i s = .next (trapWhole s x code)) ∧
    (copyRefusal s x op r p.toNat = none → freeCopySlot c = none → exec i s = .next s) ∧
    (∀ slot, copyRefusal s x op r p.toNat = none → freeCopySlot c = some slot →
      teamCopies c x.t < x.tm.cslots → x.gr.cp < 63 → logFree c ≠ 0 →
      CompletesVia i s
        ((fork { s with nextId := s.nextId + 1 } x).updCore x.tm.core (fun c => { c with copies := aput c.copies slot k })) x 0
        { x.gr with nextSeq := x.gr.nextSeq + 1, cp := x.gr.cp + 1 } (nextPlace x.gr) x.gr.getS x.gr.getV x.gr.getK)

/-- R157, R160, R163, R165, R166: the tile operations that pass their checks enter the core's queue behind those issued before
them, with their handles as read, and raise tm.
R160, R394: TMMA with a partial mask takes the illegal-convergence trap; the checks that fail give the trap of the first of
them. -/
def Obligations.TileIssue : Prop :=
  (∀ (s : State) (x : Site) (e : Bool) (d a b : RegNo),
     let S := x.gr.getS
     let fw := x.gr.getV b.toNat 0
     let full := x.gr.emask x.tm.width = fullMask x.tm.width
     let op := fun (k : TileKind) (dh ah bh : Word) (post : Nat) =>
       TileOp.mk s.nextId x.t x.g x.gr.nextSeq k dh ah bh (handleTeam s x.t x.tm ah) (handleTeam s x.t x.tm bh) post
         x.gr.point.word none []
     let queued := fun (i : Instr) (k : TileKind) (dh ah bh : Word) (post : Nat) =>
       hazard s x.tm (tileSpans s x.t k dh ah bh (handleTeam s x.t x.tm ah) (handleTeam s x.t x.tm bh)) = false → x.gr.tm < 15 → logFree (s.core x.tm.core) ≠ 0 →
       CompletesVia i s
         ((fork { s with nextId := s.nextId + 1 } x).updCore x.tm.core (fun c => { c with tiles := c.tiles ++ [op k dh ah bh post] })) x 0
         { x.gr with nextSeq := x.gr.nextSeq + 1, tm := x.gr.tm + 1 } (nextPlace x.gr) x.gr.getS x.gr.getV x.gr.getK
     (Runs s x (.tmmaPair e d a b) → full → (∀ l, l < x.tm.width → x.gr.getV b.toNat l = fw) →
       tmmaRefusal s x fw (S d.toNat) (S a.toNat) (S (a.toNat + 1)) 0 0 = none →
       queued (.tmmaPair e d a b) (.tmma fw) (S d.toNat) (S a.toNat) (S (a.toNat + 1)) 0) ∧
     (Runs s x (.tmmaQuad e d a b) → full → (∀ l, l < x.tm.width → x.gr.getV b.toNat l = fw) →
       tmmaRefusal s x fw (S d.toNat) (S a.toNat) (S (a.toNat + 1)) (S (a.toNat + 2)) (S (a.toNat + 3)) = none →
       queued (.tmmaQuad e d a b) (.tmma fw) (S d.toNat) (S a.toNat) (S (a.toNat + 1)) (S (a.toNat + 2)).toNat) ∧
     (Runs s x (.tzero e d) → ownHandle x.tm (S d.toNat) 2 = true →
       pastQuota s x.t x.tm (S d.toNat) (hOff (S d.toNat) + 16384) = false → queued (.tzero e d) .tzero (S d.toNat) 0 0 0) ∧
     (Runs s x (.tstat e d a) → x.tm.width = 64 → isFlt (gmrType x.gr.gmr) = true → ownHandle x.tm (S a.toNat) 2 = true →
       pastQuota s x.t x.tm (S a.toNat) (hOff (S a.toNat) + accBytes (gmrType x.gr.gmr)) = false → x.gr.emask 64 ≠ 0 →
       queued (.tstat e d a) (.tstat (gmrType x.gr.gmr) (x.gr.emask 64) d.toNat) (S a.toNat) 0 0 0) ∧
     (Runs s x (.tcvt e d a b) → cvtRefusal s x (S d.toNat) (S a.toNat) (S b.toNat) false = none →
       queued (.tcvt e d a b) (.tcvt (S b.toNat)) (S d.toNat) (S a.toNat) 0 (cvPost (S b.toNat))) ∧
     (Runs s x (.tquant e d a b) → cvtRefusal s x (S d.toNat) (S a.toNat) (S b.toNat) true = none →
       queued (.tquant e d a b) (.tquant (S b.toNat)) (S d.toNat) (S a.toNat) 0 (cvPost (S b.toNat)))) ∧
  (∀ (s : State) (x : Site) (e : Bool) (d a b : RegNo) (code : Nat),
     let S := x.gr.getS
     let fw := x.gr.getV b.toNat 0
     (Runs s x (.tmmaPair e d a b) → x.gr.emask x.tm.width ≠ fullMask x.tm.width →
       exec (.tmmaPair e d a b) s = .next (trapWhole s x 0x36)) ∧
     (Runs s x (.tzero e d) → ownHandle x.tm (S d.toNat) 2 = false → exec (.tzero e d) s = .next (trapWhole s x 0x33)) ∧
     (Runs s x (.tstat e d a) → x.tm.width ≠ 64 → exec (.tstat e d a) s = .next (trapWhole s x 0x36)) ∧
     (Runs s x (.tcvt e d a b) → cvtRefusal s x (S d.toNat) (S a.toNat) (S b.toNat) false = some code →
       exec (.tcvt e d a b) s = .next (trapWhole s x code)) ∧
     (Runs s x (.tmmaQuad e d a b) → x.gr.emask x.tm.width = fullMask x.tm.width →
       (∀ l, l < x.tm.width → x.gr.getV b.toNat l = fw) →
       tmmaRefusal s x fw (S d.toNat) (S a.toNat) (S (a.toNat + 1)) (S (a.toNat + 2)) (S (a.toNat + 3)) = some code →
       exec (.tmmaQuad e d a b) s = .next (trapWhole s x code)))

/-- R164, R157: TRD and TWR go in flight as a load and as a store of one word of the team's CB region per lane and register, at
OFFSET + S[b] + 4 (m width + l); with no lane they make no access.
LOAD_COMPLETE gives each V register its word, and WRITE_VISIBLE each word its value; nothing else changes. -/
def Obligations.TileWords : Prop :=
  (∀ (s : State) (x : Site) (e : Bool) (w : WSize) (d a b : RegNo),
    let h := x.gr.getS a.toNat
    let at' := fun m l => hOff h + (x.gr.getS b.toNat).toNat + 4 * (m * x.tm.width + l)
    let fits := handleOk h = true ∧ hBuf h = 2 ∧ isRemote x.tm h = false ∧ (x.gr.getS b.toNat).toNat % 4 = 0 ∧
      (∀ l, l < 64 → inMask x l → at' (wsizeN w - 1) l + 4 ≤ (x.tm.region 2).quota) ∧ (s.part x.tm.part).hzd = false
    let accs := fun (data : Nat → Nat → List Word) => x.lanes.flatMap (fun l => (span 0 (wsizeN w)).map (fun m =>
      Acc.mk l m (at' m l) ⟨3, x.t, at' m l⟩ (data l m) false 3 []))
    (Runs s x (.trd e w d a b) → handleOk h = false → exec (.trd e w d a b) s = .next (trapWhole s x 0x33)) ∧
    (Runs s x (.twr e w d a b) → handleOk h = false → exec (.twr e w d a b) s = .next (trapWhole s x 0x33)) ∧
    (Runs s x (.trd e w d a b) → handleOk h = true → x.lanes = [] →
      Completes (.trd e w d a b) s x 0 x.gr x.gr.getS x.gr.getV x.gr.getK) ∧
    (Runs s x (.twr e w d a b) → handleOk h = true → x.lanes = [] →
      Completes (.twr e w d a b) s x 0 x.gr x.gr.getS x.gr.getV x.gr.getK) ∧
    (Runs s x (.trd e w d a b) → x.lanes ≠ [] → fits → x.gr.ldCount < 31 →
      GoesInFlight (.trd e w d a b) s x .load false false ⟨true, d.toNat, wsizeN w⟩ 4 .i32 (accs (fun _ _ => []))) ∧
    (Runs s x (.twr e w d a b) → x.lanes ≠ [] → fits → x.gr.stCount < 31 →
      GoesInFlight (.twr e w d a b) s x .store false false ⟨true, d.toNat, wsizeN w⟩ 4 .i32
        (accs (fun l m => [x.gr.getV (d.toNat + m) l])))) ∧
  (∀ (s : State) (team group seq line : Nat) (tm : Team) (y : Group) (o : PendOp), PerformsWords s team group seq line tm y o →
    (o.kind = .load → o.acq = false → o.dst.vec = true → (∀ a ∈ o.todo line, o.dst.base + a.m < 128 ∧ a.lane < 64) →
      ∃ t z, exec (.loadComplete team group seq line) s = .next t ∧ t = { s with teams := t.teams, cores := t.cores } ∧
        Performed s t team group seq line tm y o z ∧ z.s = y.s ∧
        (∀ a ∈ o.todo line, z.getV (o.dst.base + a.m) a.lane = BitVec.ofNat 32 (ofBytes ((tm.region 2).read a.loc.addr 4))) ∧
        ∀ r l, l < 64 → (∀ a ∈ o.todo line, r ≠ o.dst.base + a.m ∨ l ≠ a.lane) → z.getV r l = y.getV r l) ∧
    (o.kind = .store → o.early = false → o.rid = none → (∀ a ∈ o.todo line, a.data.length = 1) →
      ∃ t z m rg, exec (.writeVisible team group seq line) s = .next t ∧ t = { s with teams := t.teams, cores := t.cores } ∧
        t.group? team group = some z ∧ z = { y with ops := z.ops, status := z.status } ∧
        (z.status = y.status ∨ (y.status = .waiting (.opDone seq) ∧ z.status = GStatus.ready)) ∧
        (∀ p ∈ z.ops, p.seq = seq → ∀ a ∈ p.accs, a.loc.line = line → a.done = true) ∧
        (∀ k, k ≠ group → t.group? team k = s.group? team k) ∧ (∀ u, u ≠ team → t.team? u = s.team? u) ∧
        t.team? team = some m ∧ m = { tm.putRegion 2 rg with groups := m.groups } ∧ rg.base = (tm.region 2).base ∧ rg.quota = (tm.region 2).quota ∧
        (∀ a ∈ o.todo line, rg.read a.loc.addr 4 = bytesOf 4 ((a.data.getD 0 0).toNat)) ∧
        ∀ k, (∀ a ∈ o.todo line, k < a.loc.addr ∨ a.loc.addr + 4 ≤ k) → rg.read k 1 = (tm.region 2).read k 1))

/-! ### Synchronisation, system registers and launch -/

/-- R205, R233, R235: a release that issues is held under a fresh number with its group's timestamp, the homes of the writes
before it and the checking mode of its partition; it takes the group's next place in program order and changes no register, no
memory and no other group. -/
def Obligations.ReleaseHeld : Prop :=
  ∀ (s : State) (x : Site) (kind : RelKind) (sc : Scope) (hs : List Nat) (log : Option (LogKind × List Nat)),
    s.team? x.t = some x.tm → x.tm.group? x.g = some x.gr →
    let t := holdRelease s x kind sc hs log
    t.mem = s.mem ∧ t.parts = s.parts ∧ t.tick = s.tick ∧ t.nextId = s.nextId + 1 ∧
    (∀ k, k ≠ s.nextId → alook t.held k = alook s.held k) ∧
    (∃ h, alook t.held s.nextId = some h ∧ h.kind = kind ∧ h.team = x.t ∧ h.group = x.g ∧ h.seq = x.gr.nextSeq ∧ h.scope = sc ∧
      h.ts = x.gr.lastVT ∧ h.enforce = decide (fieldOf (s.part x.tm.part).chkmode 1 0 = 0) ∧
      (∀ d, d ∈ h.homes ↔ d ∈ hs ∨ d ∈ x.gr.homes)) ∧
    t.team? x.t = some (x.tm.updGroup x.g (fun y => { y with nextSeq := y.nextSeq + 1 })) ∧
    ∀ u, u ≠ x.t → t.team? u = s.team? u

/-- R59, R60, R346: BARARV marks the group as arrived and holds a release at TEAM scope for the arrival; BARWAIT waits until the
barrier's phase has changed, then acquires what the phase carries; a group that takes no part, arrives twice or waits without
having arrived takes the barrier trap. -/
def Obligations.Barriers : Prop :=
  ∀ (s : State) (x : Site) (e : Bool) (n : BitVec 4),
    let k := n.toNat
    let S := x.gr.getS
    (barrierOf x k = none → Runs s x (.bararv e n) → exec (.bararv e n) s = .next (trapWhole s x 0x38)) ∧
    (barrierOf x k = none → Runs s x (.barwait n) → exec (.barwait n) s = .next (trapWhole s x 0x38)) ∧
    ∀ b, barrierOf x k = some b →
      (Runs s x (.bararv e n) → k ∈ x.gr.arrived → exec (.bararv e n) s = .next (trapWhole s x 0x38)) ∧
      (Runs s x (.bararv e n) → k ∉ x.gr.arrived → logFree (s.core x.tm.core) ≠ 0 →
        CompletesVia (.bararv e n) s (holdRelease s x (.bararv k) .team [] (some (.other true, []))) x 0
          { x.gr with nextSeq := x.gr.nextSeq + 1, arrived := insertNat k x.gr.arrived,
                      phase0 := if b.phase then insertNat k x.gr.phase0 else x.gr.phase0.filter (· != k) }
          (nextPlace x.gr) S x.gr.getV x.gr.getK) ∧
      (Runs s x (.barwait n) → k ∉ x.gr.arrived → exec (.barwait n) s = .next (trapWhole s x 0x38)) ∧
      (Runs s x (.barwait n) → k ∈ x.gr.arrived → (b.phase = true ↔ k ∈ x.gr.phase0) → Waits (.barwait n) s x (.bar k)) ∧
      (Runs s x (.barwait n) → k ∈ x.gr.arrived → ¬ (b.phase = true ↔ k ∈ x.gr.phase0) → logFree (s.core x.tm.core) ≠ 0 →
        CompletesVia (.barwait n) s (logNow s x (.other false) .team none) x 0
          { x.gr with nextSeq := x.gr.nextSeq + 1, lastVT := max x.gr.lastVT b.ts, homes := unionNat [] x.gr.homes,
                      arrived := x.gr.arrived.filter (· != k), wrote := unionNat b.wrote x.gr.wrote } (nextPlace x.gr) S x.gr.getV x.gr.getK)

/-- R54 to R57, R379: RINGPUT by the side that owns the stage, with room for one more arrival, reserves it and holds a release;
RINGGET returns when the stage belongs to the group's side, and waits until it does. -/
def Obligations.Rings : Prop :=
  ∀ (s : State) (x : Site) (e : Bool) (g : BitVec 4) (r : BitVec 3),
    (x.tm.stage? r.toNat g.toNat = none → Runs s x (.ringput e g r) → exec (.ringput e g r) s = .next (trapWhole s x 0x37)) ∧
    (x.tm.stage? r.toNat g.toNat = none → Runs s x (.ringget g r) → exec (.ringget g r) s = .next (trapWhole s x 0x37)) ∧
    ∀ ring v, x.tm.stage? r.toNat g.toNat = some (ring, v) →
      let owns := if v.p then isConsumer ring.desc x.gr.role else isProducer ring.desc x.gr.role
      let n := if v.p then fieldOf ring.desc 19 14 + 1 else fieldOf ring.desc 13 8 + 1
      let mine := if isConsumer ring.desc x.gr.role then true else false
      (Runs s x (.ringput e g r) → owns = false ∨ n ≤ v.a + v.rv → exec (.ringput e g r) s = .next (trapWhole s x 0x37)) ∧
      (Runs s x (.ringput e g r) → owns = true → v.a + v.rv < n → logFree (s.core x.tm.core) ≠ 0 →
        CompletesVia (.ringput e g r) s
          ((holdRelease s x (.ringput r.toNat g.toNat) .team [] (some (.other true, []))).updTeam x.t
            (fun m => m.putStage r.toNat g.toNat { v with rv := v.rv + 1 }))
          { x with tm := x.tm.putStage r.toNat g.toNat { v with rv := v.rv + 1 } } 0
          { x.gr with nextSeq := x.gr.nextSeq + 1 } (nextPlace x.gr) x.gr.getS x.gr.getV x.gr.getK) ∧
      (Runs s x (.ringget g r) → isProducer ring.desc x.gr.role = false → isConsumer ring.desc x.gr.role = false →
        exec (.ringget g r) s = .next (trapWhole s x 0x37)) ∧
      (Runs s x (.ringget g r) → isProducer ring.desc x.gr.role = true ∨ isConsumer ring.desc x.gr.role = true → v.p ≠ mine →
        Waits (.ringget g r) s x (.ring r.toNat g.toNat)) ∧
      (Runs s x (.ringget g r) → isProducer ring.desc x.gr.role = true ∨ isConsumer ring.desc x.gr.role = true → v.p = mine →
        logFree (s.core x.tm.core) ≠ 0 →
        CompletesVia (.ringget g r) s (logNow s x (.other false) .team none) x 0
          { x.gr with nextSeq := x.gr.nextSeq + 1, lastVT := max x.gr.lastVT v.ts, homes := unionNat v.homes x.gr.homes,
                      wrote := unionNat v.wrote x.gr.wrote }
          (nextPlace x.gr) x.gr.getS x.gr.getV x.gr.getK)

/-- R414, R415, R149, R210: WAIT goes on when every counter is at or below its limit, and DRAIN when no copy of its path that was
in flight when it issued still is; the return of WAIT joins the completed engine operations of its group, that of DRAIN the completed
copies of its team on the path; otherwise the group waits. -/
def Obligations.WaitAndDrain : Prop :=
  ∀ (s : State) (x : Site) (ld st : BitVec 5) (cp : BitVec 6) (tm : BitVec 4) (p : DrainPath),
    let low := x.gr.ldCount ≤ ld.toNat ∧ x.gr.stCount ≤ st.toNat ∧ x.gr.cp ≤ cp.toNat ∧ x.gr.tm ≤ tm.toNat
    let flight := (s.core x.tm.core).copies.filter (fun e => onPath e.2.record p)
    let returns := fun (i : Instr) (ops : List DoneOp) => ∃ s0 b, (s0 = s ∨ s0 = logNow s x (.other false) .team (joinedTime ops)) ∧
      CompletesVia i s s0 x 0 b (nextPlace b) x.gr.getS x.gr.getV x.gr.getK ∧
      b = { x.gr with nextSeq := b.nextSeq, lastVT := b.lastVT, homes := b.homes, wrote := b.wrote, done := b.done } ∧
      x.gr.lastVT ≤ b.lastVT ∧ (∀ o ∈ ops, o.vt ≤ b.lastVT ∧ ∀ h ∈ o.homes, h ∈ b.homes) ∧ ∀ h ∈ x.gr.homes, h ∈ b.homes
    (Runs s x (.wait ld st cp tm) → low → logFree (s.core x.tm.core) ≠ 0 → returns (.wait ld st cp tm) x.gr.done) ∧
    (Runs s x (.wait ld st cp tm) → ¬ low →
      Waits (.wait ld st cp tm) s x (.limits ld.toNat st.toNat cp.toNat tm.toNat)) ∧
    (Runs s x (.drain p) → x.gr.status = GStatus.ready → flight = [] → logFree (s.core x.tm.core) ≠ 0 →
      returns (.drain p) (x.tm.groups.flatMap (fun e => e.2.done.filter (fun o => o.paths.contains p && decide (o.id < s.nextId))))) ∧
    (Runs s x (.drain p) → x.gr.status = GStatus.ready → flight ≠ [] →
      Waits (.drain p) s x (.drain p (flight.map (fun e => e.2.id)) s.nextId))

/-- R207, R208, R355: FENCE holds a release at its scope for which the group waits; FENCESC holds one at SYSTEM scope that also
drains the operations of every group of its core; when that has completed it waits for the tick boundary, at which the core counts it
and the group goes on (R220). -/
def Obligations.Fences : Prop :=
  (∀ (s : State) (x : Site) (e : Bool) (c : Scope), logFree (s.core x.tm.core) ≠ 0 →
    (Runs s x (.fence e c) →
      WaitsVia (.fence e c) s (holdRelease s x .fence c [] (some (.fence, []))) x { x.gr with nextSeq := x.gr.nextSeq + 1 }
        (.fence s.nextId)) ∧
    (Runs s x .fencesc → ∃ s0, WaitsVia .fencesc s s0 x { x.gr with nextSeq := x.gr.nextSeq + 1 } (.fence s.nextId) ∧
      s0 = { holdRelease s x .fencesc .system [] (some (.fence, [])) with held := s0.held } ∧
      ∃ h, alook s0.held s.nextId = some h ∧ h.kind = .fencesc ∧ h.scope = .system ∧ h.ts = x.gr.lastVT ∧
        ∀ u m k y, s.team? u = some m → (u, m) ∈ s.teams → m.core = x.tm.core → m.status = TStatus.resident → (k, y) ∈ m.groups →
          (u, k, y.nextSeq) ∈ h.drain)) ∧
  (∀ (s : State) (id : Nat) (h : Held) (tm : Team) (y : Group), MayComplete s id h → h.kind = .fencesc → s.team? h.team = some tm →
     tm.group? h.group = some y → ∃ t, exec (.releaseComplete id) s = .next t ∧ t = { s with held := adel s.held id, teams := t.teams, cores := t.cores } ∧
       t.team? h.team = some (tm.putGroup h.group { y with status := .waiting .fencescTick }) ∧ ∀ u, u ≠ h.team → t.team? u = s.team? u) ∧
  (∀ (s : State) (team group : Nat) (tm : Team) (y : Group), s.tick + 5 < 2 ^ 48 → s.recalls = [] → s.team? team = some tm →
     tm.group? group = some y → y.status = .waiting .fencescTick → tm.handler = none →
     asorted s.teams = true → asorted tm.groups = true →
     (∀ u ∈ s.teams, ∀ g ∈ u.2.groups, g.2.status = .waiting .fencescTick → u.1 = team ∧ g.1 = group) →
     (s.core tm.core).fencescTick ≠ s.tick + 1 →
     ∃ t z, exec .tick s = .next t ∧ t.tick = s.tick + 1 ∧ t.mem = s.mem ∧ t.group? team group = some z ∧ z.status = .ready ∧ nextPlace y z ∧
       z.s = y.s ∧ z.v = y.v ∧ z.k = y.k ∧ (t.core tm.core).fencesc = 1 ∧ (t.core tm.core).fencescTick = s.tick + 1 ∧
       ∀ g, g ≠ group → t.group? team g = s.group? team g)

/-- R371, R372, Table 3-5: RDSYS gives LANEID to each lane of the effective mask and every other register to S[d] upward; the
registers that only SUPER reads give the privilege trap elsewhere. -/
def Obligations.SystemReads : Prop :=
  ∀ (s : State) (x : Site) (e : Bool) (w : WSize) (d : RegNo) (n : BitVec 10), Runs s x (.rdsys e w d n) →
    (n = 0 → WritesV (.rdsys e w d n) s x d (fun l => (BitVec.ofNat 32 l, 0))) ∧
    (∀ super ws, systemRegister s x n.toNat = some (super, ws) →
      (super = true → x.gr.super = false → exec (.rdsys e w d n) s = .next (trapWhole s x 0x06)) ∧
      (super = false ∨ x.gr.super = true → Completes (.rdsys e w d n) s x 0 x.gr
        (fun r => if d.toNat ≤ r ∧ r < d.toNat + ws.length then ws.getD (r - d.toNat) 0 else x.gr.getS r) x.gr.getV x.gr.getK)) ∧
    (n ≠ 0 → systemRegister s x n.toNat = none → exec (.rdsys e w d n) s = .next (trapWhole s x 0x02))

/-- R416, R417, Table 18-10: WRSYS clears the flags that its word names, arms XFAULT, and writes PERF registers (with one that
counts cycles, the cycles of the tick that have passed by then are counted in every PERF register, log entry 5); a value that a
register refuses gives the system-register trap, XFAULT without CHKMODE.XFEN and the registers that no group writes give the
privilege trap. -/
def Obligations.SystemWrites : Prop :=
  ∀ (s : State) (x : Site) (e : Bool) (w : WSize) (d : RegNo) (n : BitVec 10), Runs s x (.wrsys e w d n) →
    let v := x.gr.getS d.toNat
    let p := x.gr.getPair d.toNat
    let flags := x.tm.flags &&& ~~~(BitVec.ofNat 7 v.toNat)
    let fired := if v.getLsbD 16 = true then 0 else fieldOf x.gr.xfault 16 16
    (n = 0x006 → v.toNat < 128 → CompletesVia (.wrsys e w d n) s (s.updTeam x.t (fun m => { m with flags := flags }))
      { x with tm := { x.tm with flags := flags } } 0 x.gr (nextPlace x.gr) x.gr.getS x.gr.getV x.gr.getK) ∧
    (n = 0x006 → 128 ≤ v.toNat → exec (.wrsys e w d n) s = .next (trapWhole s x 0x09)) ∧
    (n = 0x014 → (s.part x.tm.part).xfen = false → exec (.wrsys e w d n) s = .next (trapWhole s x 0x06)) ∧
    (n = 0x014 → (s.part x.tm.part).xfen = true → xfaultBad v = true → exec (.wrsys e w d n) s = .next (trapWhole s x 0x09)) ∧
    (n = 0x014 → (s.part x.tm.part).xfen = true → xfaultBad v = false → Completes (.wrsys e w d n) s x 0
      { x.gr with xfault := BitVec.ofNat 32 (v.toNat % 65536 + fired * 65536),
                  xcount := if v.getLsbD 0 = true then 0 else x.gr.xcount } x.gr.getS x.gr.getV x.gr.getK) ∧
    (0x020 ≤ n.toNat → n.toNat ≤ 0x027 → field64 p 55 48 ≠ 0 ∨ 10 ≤ field64 p 63 56 →
      exec (.wrsys e w d n) s = .next (trapWhole s x 0x09)) ∧
    (0x020 ≤ n.toNat → n.toNat ≤ 0x027 → field64 p 55 48 = 0 → field64 p 63 56 < 10 → ∃ t m z,
      exec (.wrsys e w d n) s = .next t ∧
      t = { s with teams := t.teams, cores := t.cores, cycle := t.cycle, fresh := t.fresh } ∧ t.team? x.t = some m ∧
      m = { x.tm with groups := m.groups, perf := m.perf } ∧ (alook m.perf (n.toNat - 0x020)).getD 0 = p ∧
      (∀ k, k ≠ n.toNat - 0x020 → ∀ r, alook x.tm.perf k = some r → field64 r 63 56 ∉ [1, 8, 9] →
        alook m.perf k = some (perfBump r 2 1)) ∧
      (field64 p 63 56 ∉ [1, 8, 9] → t.cycle = s.cycle ∧ t.fresh = s.fresh ∧ (∀ u, u ≠ x.t → t.team? u = s.team? u) ∧
        ∀ k, k ≠ n.toNat - 0x020 → alook m.perf k = (alook x.tm.perf k).map (fun r => perfBump r 2 1)) ∧
      (∀ u, u ≠ x.t → t.team? u = (s.team? u).map (fun v => { v with perf := ((t.team? u).getD v).perf })) ∧ (∀ h, h ≠ x.g → t.group? x.t h = s.group? x.t h) ∧
      t.group? x.t x.g = some z ∧ After x x.gr z x.gr.getS x.gr.getV x.gr.getK ∧ nextPlace x.gr z) ∧
    (n.toNat ≠ 0x006 → n.toNat ≠ 0x014 → ¬ (0x020 ≤ n.toNat ∧ n.toNat ≤ 0x027) → (sysWidth n.toNat).isSome = true →
      exec (.wrsys e w d n) s = .next (trapWhole s x 0x06))

/-- R278, R364, R367, R396, R397: the SUPER instructions of the translation and the control store begin with FENCE DEVICE, for
which the group waits, and take the privilege trap outside SUPER; TINV with a request that breaks Table 18-4 takes the
illegal-encoding trap.
R365, R366, R84: once its fence is done PGMAP answers with a status, or MAP begins its leaf store, whose result pair is the leaf, and POOL
takes the page at FTPOOL and zeroes it first; R367: the group waits for the store's release. R278: CSLOAD installs an image that passes its
checks in the master slot and in every bank. R397: TINV broadcasts its shoot-down. -/
def Obligations.SuperFences : Prop :=
  (∀ (s : State) (x : Site) (e : Bool) (d a b : RegNo), logFree (s.core x.tm.core) ≠ 0 →
    let hold := fun k => holdRelease s x k .device [] (some (.fence, []))
    let b0 := { x.gr with nextSeq := x.gr.nextSeq + 1 }
    (∀ i ∈ [Instr.pgmapPool e d a, .pgmapMap e d a, .tinv e a, .csload e a b], Runs s x i → x.gr.super = false →
      exec i s = .next (trapWhole s x 0x06)) ∧
    (x.gr.super = true →
      (Runs s x (.pgmapPool e d a) → WaitsHolding (.pgmapPool e d a) s
        (hold (.pgmapFence true (x.gr.getSn a.toNat 4) d.toNat e)) x b0 (.pgmapFence s.nextId)) ∧
      (Runs s x (.pgmapMap e d a) → WaitsHolding (.pgmapMap e d a) s
        (hold (.pgmapFence false (x.gr.getSn a.toNat 4) d.toNat e)) x b0 (.pgmapFence s.nextId)) ∧
      (Runs s x (.csload e a b) → WaitsHolding (.csload e a b) s
        (hold (.csload (x.gr.getPair a.toNat) (x.gr.getS b.toNat) e)) x b0 (.csload s.nextId)) ∧
      (Runs s x (.tinv e a) → tinvRequest (x.gr.getSn a.toNat 4) = none → exec (.tinv e a) s = .next (trapWhole s x 0x02)) ∧
      (Runs s x (.tinv e a) → ∀ v n all, tinvRequest (x.gr.getSn a.toNat 4) = some (v, n, all) →
        WaitsVia (.tinv e a) s (hold (.tinv v n all)) x b0 (.tinvFence s.nextId)))) ∧
  (∀ (s : State) (id : Nat) (h : Held) (tm : Team) (y : Group), MayComplete s id h → s.team? h.team = some tm →
     tm.group? h.group = some y → tm.handler = none ∨ tm.handler = some h.group → logFree (s.core h.core) ≠ 0 →
     let regs : Group → Prop := fun z => z.v = y.v ∧ z.k = y.k ∧ z.gmr = y.gmr ∧ z.stack = y.stack ∧ z.active = y.active
     let others : State → Prop := fun t => (∀ u, u ≠ h.team → t.team? u = s.team? u) ∧ ∀ g, g ≠ h.group → t.group? h.team g = s.group? h.team g
     let result (d : Nat) (v : DWord) (P : State → Prop) : Prop := ∃ t z, exec (.releaseComplete id) s = .next t ∧ alook t.held id = none ∧
       P t ∧ others t ∧ t.group? h.team h.group = some z ∧ regs z ∧ z.status = GStatus.ready ∧ nextPlace y z ∧ z.getPair d = v ∧
       ∀ r, r ≠ d → r ≠ d + 1 → z.getS r = y.getS r
     let waits (k : RelKind) (P : State → Prop) : Prop := ∃ t z p, exec (.releaseComplete id) s = .next t ∧ P t ∧ others t ∧
       alook t.held s.nextId = some p ∧ p.kind = k ∧ p.scope = .device ∧ p.team = h.team ∧ p.group = h.group ∧ s.tick * 65536 ≤ p.ts ∧
       t.group? h.team h.group = some z ∧ regs z ∧ z.s = y.s ∧ z.pc = y.pc ∧ z.rep = y.rep ∧ z.status = .waiting (.pgmapLeaf s.nextId)
     (∀ pool q d e, h.kind = .pgmapFence pool q d e → y.status = .waiting (.pgmapFence id) →
       let answers (st : Nat) : Prop := result d (BitVec.ofNat 64 (2 * st)) (fun t => t.mem = s.mem ∧ t.parts = s.parts)
       (pgQuadOk pool q = false → answers 5) ∧
       (pgQuadOk pool q = true → leafAddr s (s.part h.part).root (pgVa q) = none → answers 3) ∧
       ∀ a, pgQuadOk pool q = true → leafAddr s (s.part h.part).root (pgVa q) = some a → s.badLines.contains (lineOf a) = false →
         ((s.read64 a).getLsbD 0 = true → answers 2) ∧
         ((s.read64 a).getLsbD 0 = false → leafHeld s a = false →
           (pool = true → field64 (s.part h.part).ftpool 63 52 = 0 → answers 1) ∧
           (pool = false → inTarget s (pgTgt q) 3 (pgPage q) = false → answers 4) ∧
           (pool = false → inTarget s (pgTgt q) 3 (pgPage q) = true →
             waits (.pgmapLeaf a (pgLeaf q (pgPage q)) d e false) (fun t => t.mem = s.mem ∧ t.parts = s.parts)) ∧
           (pool = true → field64 (s.part h.part).ftpool 63 52 ≠ 0 →
             let page := field64 (s.part h.part).ftpool 51 16 * 65536
             waits (.pgmapFill a (pgLeaf q page) d e) (fun t => (t.part h.part).ftpool = poolTake (s.part h.part).ftpool ∧
               ∀ b, t.byte b = if page ≤ b ∧ b < page + 65536 then 0 else s.byte b)))) ∧
     (∀ a leaf d e, h.kind = .pgmapFill a leaf d e → waits (.pgmapLeaf a leaf d e true) (fun t => t.mem = s.mem)) ∧
     (∀ a leaf d e pool, h.kind = .pgmapLeaf a leaf d e pool → y.status = .waiting (.pgmapLeaf id) →
       result d leaf (fun t => t.read64 a = leaf ∧ ∀ b, b < a ∨ a + 8 ≤ b → t.byte b = s.byte b)) ∧
     (∀ addr sel e hd us, h.kind = .csload addr sel e → y.status = .waiting (.csload id) → tm.part = h.part → fieldOf sel 31 4 = 0 →
       addr.toNat % 8 = 0 → readImage s ⟨h.team, h.group, tm, y, 0⟩ addr.toNat = some (hd :: us) → imageBad hd us = none →
       let slot := fieldOf sel 3 0
       slotBound s h.part slot = false →
       ∃ t z, exec (.releaseComplete id) s = .next t ∧ t.mem = s.mem ∧ others t ∧ t.group? h.team h.group = some z ∧ regs z ∧ z.s = y.s ∧
         z.status = GStatus.ready ∧ nextPlace y z ∧ alook (t.part h.part).master slot = some (hd :: us) ∧
         (∀ k, k ≠ slot → alook (t.part h.part).master k = alook (s.part h.part).master k) ∧
         ∀ c ∈ t.cores, ∀ b ∈ c.2.banks, b.part = some h.part → alook b.slots slot = some (hd :: us)) ∧
     (∀ v n all, h.kind = .tinv v n all → y.status = .waiting (.tinvFence id) →
       ∃ t z k, exec (.releaseComplete id) s = .next t ∧ t.mem = s.mem ∧ others t ∧ t.group? h.team h.group = some z ∧
         z = { y with status := .waiting (.tinvAcks s.nextId) } ∧ alook t.shoots s.nextId = some k ∧ k.team = h.team ∧ k.group = h.group ∧
         k.part = h.part ∧ k.vpage = v ∧ k.pages = n ∧ k.all = all ∧ k.unacked = [] ∧ xdieAgent ∈ k.todo ∧
         ∀ c ∈ s.cores, (∃ e ∈ c.2.tlb, e.part = h.part) ∨
           (∃ u ∈ s.teams, u.2.core = c.1 ∧ u.2.status = .resident ∧ u.2.part = h.part) → c.1 ∈ k.todo))

/-- R279, R280: CSBIND enters a valid master slot in the team's binding table, and traps on an invalid one.
R274, R272, R273: XOP with no valid binding, with operands that its sequence's header refuses, or past the budget, traps; a
sequence of computing micro-ops has their effects one after another and is then done. -/
def Obligations.BoundOpcodes : Prop :=
  (∀ (s : State) (x : Site) (e : Bool) (q n : BitVec 4), Runs s x (.csbind e q n) →
     let master := (s.part x.tm.part).master
     let bind := aput x.tm.bind n.toNat q.toNat
     (alook master q.toNat = none → exec (.csbind e q n) s = .next (trapWhole s x 0x07)) ∧
     (alook master q.toNat ≠ none →
       CompletesVia (.csbind e q n) s (s.updTeam x.t (fun m => { m with bind := bind }))
         { x with tm := { x.tm with bind := bind } } 0 x.gr (nextPlace x.gr) x.gr.getS x.gr.getV x.gr.getK)) ∧
  (∀ (s : State) (x : Site) (e : Bool) (n : BitVec 4) (w : WSize) (d a b : RegNo), Runs s x (.xop e n w d a b) →
     let xw : XWord := ⟨w, d.toNat, a.toNat, b.toNat⟩
     (∀ code, xopRefusal s x n.toNat xw = some code → exec (.xop e n w d a b) s = .next (trapWhole s x code)) ∧
     (boundImage s x.tm n.toNat = none → xopRefusal s x n.toNat xw = some 0x07) ∧
     (∀ h us r, xopRefusal s x n.toNat xw = none → boundImage s x.tm n.toNat = some (h :: us) → us.length ≤ 32 →
       x.gr.xop = none → x.gr.replay = none → x.gr.ops = [] → (s.core x.tm.core).tiles = [] →
       sequenceResult x h xw (x.gr.emask x.tm.width) us ⟨x.gr, [], 0⟩ = some r →
       Completes (.xop e n w d a b) s x r.fl x.gr r.y.getS r.y.getV r.y.getK))

/-- R290, R291: SPAWN with an accepted record takes an entry of the team's pending-launch queue, with the record and the kernel
header as read, and holds a release at DEVICE scope; a refused record traps; with the queue full, the launch's counter at its largest
value or another group of the team waiting already, the group waits.
R294, R211: CWAIT goes on when the counter has reached its target, as an acquire at DEVICE scope; a smaller counter makes the
group wait; an address that it cannot read traps with the cause and FADDR of lane 0. -/
def Obligations.SpawnAndWait : Prop :=
  (∀ (s : State) (x : Site) (a : RegNo), Runs s x (.spawn a) →
     let r := x.gr.getSn a.toNat 16
     (spawnCheck s x r = none → exec (.spawn a) s = .next (trapWhole s x 0x30)) ∧
     (∀ h, spawnCheck s x r = some h → 4 ≤ x.tm.pendq.length ∨ counterFree s x.tm.launch = false ∨ spawnWaiters x.tm ≠ [] →
       WaitsVia (.spawn a) s { s with nextId := s.nextId + 1 } x x.gr (.spawn s.nextId r h)) ∧
     (∀ h, spawnCheck s x r = some h → spawnWaiters x.tm = [] → x.tm.pendq.length < 4 → counterFree s x.tm.launch = true →
       logFree (s.core x.tm.core) ≠ 0 →
       let q := x.tm.pendq ++ [⟨s.nextId, false, r, h, childPrio s x r⟩]
       CompletesVia (.spawn a) s
         ((holdRelease s x (.spawn s.nextId) .device [] (some (.other true, []))).updTeam x.t (fun m => { m with pendq := q }))
         { x with tm := { x.tm with pendq := q } } 0 { x.gr with nextSeq := x.gr.nextSeq + 1 } (nextPlace x.gr)
         x.gr.getS x.gr.getV x.gr.getK)) ∧
  (∀ (s : State) (x : Site) (a b : RegNo), Runs s x (.cwait a b) →
     let va := (x.gr.getPair a.toNat).toNat
     let target := x.gr.getS b.toNat
     (va % 4 ≠ 0 → ∃ s', s'.mem = s.mem ∧ s'.teams = s.teams ∧ exec (.cwait a b) s = .next (trapScalar s' x 3 va false)) ∧
     ∀ key, va % 4 = 0 → va < 2 ^ 55 → translate s x.tm.core x.tm.part va [.rd] = .ok key → dataBad s key x.gr.super = false →
       ((s.read32 key).toNat < target.toNat → Waits (.cwait a b) s x (.cwait (x.gr.getPair a.toNat) target key)) ∧
       (target.toNat ≤ (s.read32 key).toNat → ownPending x key = false → logFree (s.core x.tm.core) ≠ 0 → ∃ s0 y,
         s0 = { s with teams := s0.teams, cores := s0.cores, held := s0.held } ∧ s0.group? x.t x.g = some y ∧
         y = { x.gr with nextSeq := x.gr.nextSeq + 1, lastVT := max x.gr.lastVT (markSeen s key .device x.t x.g x.tm.core), wrote := y.wrote } ∧
         (∀ l, l ∈ y.wrote ↔ l ∈ x.gr.wrote ∨ ∃ m ∈ marksSeen s key .device x.t x.g x.tm.core, m.core = x.tm.core ∧ l ∈ m.wrote) ∧
         CompletesVia (.cwait a b) s s0 x 0 y (nextPlace y) x.gr.getS x.gr.getV x.gr.getK))


/-! ### Checkers and coherence -/

/-- R224, R227: a replay in order that no earlier entry forbids marks the oldest entry that is not yet replayed, and frees what it may.
R230, Table 10-4: a record that agrees with a close of its home is taken; R238, R239: a record that never came quarantines its
line, is logged, and pends an imprecise trap for the group that wrote the line. The model's: the class, code and class data of the event
(log entry 42), which replayed entries the log still keeps (log entry 74), that the trap goes to the group which last wrote the line
(log entries 55 and 61), and that a dirty copy's line is then left with free values (log entry 1), so that of that line nothing is said. -/
def Obligations.CheckersCheck : Prop :=
  (∀ (s : State) (core : Nat) (y : LogEntry),
     let f := keptLog ((s.core core).log.filter (fun e => (s.team? e.team).isSome))
     f.find? (fun e => !e.replayed) = some y →
     s.recalls = [] → (∀ e ∈ s.teams, spawnWaiters e.2 = []) → y.scope ≠ .system → (y.time = none → noTime y = true) →
     (∀ ty, y.time = some ty → ∀ x ∈ f, x.team = y.team → x.group = y.group → x.seq < y.seq → x.kind ≠ .fence →
        mustOrder f x y = true → x.time.isSome = true ∧ ∃ tx, earlierTime f x y = some tx ∧ passes ty tx = false) →
     ∃ t, exec (.piccoloReplay core) s = .next t ∧ t = { s with cores := t.cores } ∧ (∀ c, c ≠ core → t.core c = s.core c) ∧
       t.core core = { s.core core with log := keptLog (f.map (fun e => if e.idx = y.idx then { e with replayed := true } else e)) }) ∧
  (∀ (s : State) (home agent : Nat) (r : BassoonRec) (e : Expect) (rest : List Expect),
     outstanding s home agent r.home = e :: rest → lineIndex e.line = r.line.toNat → recordAgrees r e →
     exec (.bassoonRecord ⟨home, agent⟩ r) s = .next { s with expects := s.expects.erase e }) ∧
  (∀ (s : State) (home line : Nat) (e : Expect),
     s.expects.find? (fun f => f.home == home && f.line == line && f.lost
       && (decide (f.close + 4 < s.tick) || decide (s.tick + 1 = 2 ^ 48))) = some e →
     affected s home e.start = [] → quarantined s (128 * line) = false →
     (s.quarantine.filter (fun m => homeOf s (128 * m) == homeOf s (128 * line))).length < 64 →
     let noted : State → Prop := fun t => (∀ a, lineOf a ≠ line → t.byte a = s.byte a) ∧ ((s.line line).dirty = false → t.mem = s.mem) ∧
       line ∈ t.quarantine ∧ (∀ m ∈ s.quarantine, m ∈ t.quarantine) ∧
       (∃ r ∈ t.beret.log, r.cls = 1 ∧ r.code = 0x40 ∧ r.data = violationData 3 line e.start e.close) ∧ ∀ a, ¬ holds t a line
     (e.author = none → ∃ t, exec (.lostTimeout home line) s = .next t ∧ noted t ∧ t.teams = s.teams) ∧
     (∀ u g tm y, e.author = some (u, g) → s.team? u = some tm → tm.status = .resident →
       s.group? u g = some y → y.isRetired = false →
       ∃ t z p, exec (.lostTimeout home line) s = .next t ∧ noted t ∧ t.group? u g = some z ∧
         z = { y with traps := z.traps } ∧ p ∈ z.traps ∧ p.code = 0x40 ∧ (∀ q ∈ y.traps, q ∈ z.traps)))

/-- R178, R202, R183: a request gives its agent the permission; write permission leaves no other holder but a core whose probe the filter
of R183 answers, which changes no state. Which lines share a set, so that a request may evict one of them, is the model's (log entry 12).
R182: two sibling halves of a home's directory merge.
R183: a core without a team of the probe's partition counts the probe that was sent to it.
R192: a snoop from the pool's fabric takes back every copy, or leaves every holder a read copy.
R241: the sweeper closes a long interval, a home's own included, and opens it again for the same holders.
R242: sleep closes every interval; waking, once every close from before it has its records, starts afresh. -/
def Obligations.CachesAndIntervals : Prop :=
  (∀ (s : State) (agent part line : Nat) (w : Bool), s.sleeping = false → quarantined s (128 * line) = false →
     (mayHold s agent line = false → holdsLine s agent line w = false → exec (.coherenceRequest ⟨agent, part⟩ line w) s = .next s) ∧
     (mayHold s agent line = true →
       ∃ t, exec (.coherenceRequest ⟨agent, part⟩ line w) s = .next t ∧
         t = { s with lines := t.lines, dirs := t.dirs, expects := t.expects, probes := t.probes } ∧ holds t agent line ∧
         (w = true → holdsLine s agent line true = false →
           (∃ h, alook (t.line line).holders agent = some h ∧ (h.state = .m ∨ h.state = .e)) ∧
           (∀ a, holds t a line → a = agent ∨ filtered s part a = true) ∧
           ((∀ h ∈ (s.line line).holders, filtered s part h.1 = false) →
             (t.line line).writer = some agent ∧ (t.line line).readers = [] ∧ ∀ a, holds t a line → a = agent)) ∧
         (w = false → ∀ a, holds s a line → holds t a line) ∧
         (w = false → (∀ a, a = agent → ¬ holds s a line) →
           ∃ h, alook (t.line line).holders agent = some h ∧ h.state = .s) ∧
         (targetOf (128 * line) ≠ .pool → ∀ l, setOf agent l ≠ setOf agent line → t.line l = s.line l))) ∧
  (∀ (s : State) (home base n : Nat) (a b : DirRegion), alook (s.dir home) base = some a →
     alook (s.dir home) (base + 2 ^ n) = some b →
     a.logSize = n → b.logSize = n → n < 9 → base % 2 ^ (n + 1) = 0 → a.last + 4096 ≤ s.tick → b.last + 4096 ≤ s.tick →
     ∃ t, exec (.regionMerge ⟨home, base⟩) s = .next t ∧ t = { s with dirs := t.dirs } ∧ (∀ k, k ≠ home → t.dir k = s.dir k) ∧
       alook (t.dir home) (base + 2 ^ n) = none ∧
       (∀ k, k ≠ base → k ≠ base + 2 ^ n → alook (t.dir home) k = alook (s.dir home) k) ∧
       ∃ r, alook (t.dir home) base = some r ∧ r.logSize = n + 1 ∧ r.last = max a.last b.last ∧
         ∀ h, h ∈ r.holders ↔ h ∈ a.holders ∨ h ∈ b.holders) ∧
  (∀ (s : State) (core part line : Nat),
     ((core, part, line) ∉ s.probes → exec (.probe core part line) s = .next s) ∧
     ((core, part, line) ∈ s.probes → (∃ e ∈ s.teams, e.2.core = core ∧ e.2.status = .resident ∧ e.2.part = part) →
       exec (.probe core part line) s = .next { s with probes := s.probes.erase (core, part, line) }) ∧
     ((core, part, line) ∈ s.probes → (∀ e ∈ s.teams, e.2.core = core → e.2.part = part → e.2.status ≠ .resident) →
       ∃ t, exec (.probe core part line) s = .next t ∧
         t = { s with cores := t.cores, probes := s.probes.erase (core, part, line) } ∧
         (∀ c, c ≠ core → t.core c = s.core c) ∧ t.core core = { s.core core with
           filtered := BitVec.ofNat 32 (min (2 ^ 32 - 1) ((s.core core).filtered.toNat + 1)) })) ∧
  (∀ (s : State) (line : Nat) (inv : Bool),
     (targetOf (128 * line) ≠ .pool → exec (.backInvalidationSnoop line inv) s = .next s) ∧
     (targetOf (128 * line) = .pool →
       ∃ t, exec (.backInvalidationSnoop line inv) s = .next t ∧
         t = { s with lines := t.lines, expects := t.expects, due := t.due, agenda := t.agenda } ∧
         (∀ w ∈ s.due, w ∈ t.due) ∧ (∀ l, l ≠ line → t.line l = s.line l) ∧
         (inv = true → ∀ a, ¬ holds t a line) ∧
         (inv = false → (t.line line).writer = none ∧ ∀ a, holds t a line ↔ holds s a line))) ∧
  (∀ (s : State) (line home : Nat), homeOf s (128 * line) = some home → (∃ a, holds s a line) →
     (s.line line).start + (2 ^ 18 - 1) ≤ s.tick →
     let ls := s.line line
     ∀ a, ((ls.writer = some a) ∨ (ls.writer = none ∧ ls.shared.head? = some a)) →
     exec (.sweeperForceClose line) s = .next { s with
       expects := s.expects ++ [closedNow s line home true .requester a, closedNow s line home true .home (2048 + home)]
       lines := aput s.lines line { ls with
         shared := if ls.writer.isSome then [] else ls.readers, start := s.tick, hstart := s.lineHash line } }) ∧
  (∀ (s : State) (line home : Nat) (ls : LineState), homeOf s (128 * line) = some home → alook s.lines line = some ls →
     ls.holders = [] → ls.shared = [] → ls.start + (2 ^ 18 - 1) ≤ s.tick →
     exec (.sweeperForceClose line) s = .next { s with
       expects := s.expects ++ [closedNow s line home true .home (2048 + home)]
       lines := aput s.lines line { ls with start := s.tick, hstart := s.lineHash line } }) ∧
  (∀ (s : State), s.sleeping = false →
     ∃ t new, exec .retentionSleepEntry s = .next t ∧
       t = { s with sleeping := true, sleepTick := s.tick, lines := t.lines, expects := s.expects ++ new } ∧
       (∀ a l, ¬ holds t a l) ∧ ∀ l home, homeOf s (128 * l) = some home → (alook s.lines l).isSome = true →
         closedNow s l home true .home (2048 + home) ∈ new ∧
         ∀ a, ((s.line l).writer = some a) ∨ ((s.line l).writer = none ∧ (s.line l).shared.head? = some a) →
           closedNow s l home true .requester a (s.line l).dirty ∈ new) ∧
  (∀ (s : State), s.sleeping = true →
     (s.sleepTick < s.tick → (∀ e ∈ s.expects, s.sleepTick < e.close) →
       exec .retentionWake s = .next { s with sleeping := false, sleepTick := s.tick, lines := [], homes := [] }) ∧
     (s.tick ≤ s.sleepTick ∨ (∃ e ∈ s.expects, e.close ≤ s.sleepTick) → exec .retentionWake s = .next s))

/-! ### Memory operations performed -/

/-- R199, R200, R338: a load that no earlier access of its group holds back binds the words that memory holds, lane by lane.
R338, R254: the load whose good lanes have completed and some of whose lanes have causes then traps, its handler's mask the lanes of the
causes.
R203, R204, R343: a store becomes visible: its bytes are in memory, its time is its line's stamp.
R85, R243: the store that fires XFAULT is performed at once, at its home, and FIRED replaces ARM.
R341, R342, Table 16-2: an atomic finds the old word and writes its result; of two lanes on one word the higher finds what the lower left.
R343: one for whose flags its group waits lets the group go on when its last lane is done. -/
def Obligations.AccessesPerformed : Prop :=
  (∀ (s : State) (team group seq line : Nat) (tm : Team) (y : Group) (o : PendOp),
     Performs s team group seq line tm y o → firstOn y seq line → o.kind = .load → o.acq = false → o.dst.vec = true →
     o.dst.base < 128 → o.dst.base + o.size / 4 ≤ 128 → (∀ a ∈ o.todo line, a.lane < 64 ∧ a.m = 0) →
     (o.todo line).Pairwise (fun a b => a.lane ≠ b.lane) →
     ∃ t z, exec (.loadComplete team group seq line) s = .next t ∧ t.mem = s.mem ∧ t.held = s.held ∧
       Performed s t team group seq line tm y o z ∧ z.s = y.s ∧ z.lastVT = y.lastVT ∧
       (∀ a ∈ o.todo line, ∀ m, m < o.size / 4 → z.getV (o.dst.base + m) a.lane = s.read32 (a.loc.addr + 4 * m)) ∧
       ∀ r l, l < 64 → (∀ a ∈ o.todo line, a.lane = l → r < o.dst.base ∨ o.dst.base + o.size / 4 ≤ r) → z.getV r l = y.getV r l) ∧
  (∀ (s : State) (team group seq line : Nat) (tm : Team) (y : Group) (o : PendOp),
     OpMoves s team group seq line tm y o → firstOn y seq line → o.kind = .load → o.acq = false → o.dst.vec = true →
     (∀ a ∈ o.todo line, a.loc.space = 0 ∧ quarantined s a.loc.addr = false ∧ s.badLines.contains (lineOf a.loc.addr) = false) →
     o.dst.base < 128 → o.dst.base + o.size / 4 ≤ 128 → (∀ a ∈ o.todo line, a.lane < 64 ∧ a.m = 0) →
     (o.todo line).Pairwise (fun a b => a.lane ≠ b.lane) → (∀ a ∈ o.accs, a.done = true ∨ a.loc.line = line) →
     o.late ≠ [] → (∀ b ∈ o.late, b.lane < 64 ∧ laneOf y.live b.lane = true) → o.late.Pairwise (fun a b => a.lane ≠ b.lane) →
     y.status = .waiting (.opDone seq) → o.mpc = none → o.pt.rep = none → y.redo = [] → y.frames = [] → y.stack.length < 32 → tm.handler = none →
     let causes := o.late.map (fun b => (b.lane, b.cause))
     ∃ t z, exec (.loadComplete team group seq line) s = .next t ∧ t.group? team group = some z ∧ (∀ p ∈ z.ops, p.seq ≠ seq) ∧
       z.pc = BitVec.ofNat 64 (field64 (s.part tm.part).tvbase 54 8 * 256 + 16 * laneCode causes) ∧
       z.tcause = BitVec.ofNat 32 (laneCode causes + 0x300) ∧ z.tlanes = causes ∧ z.gmr = 0 ∧ z.super = true ∧
       (∀ l, l < 64 → (laneOf z.active l = true ↔ ∃ b ∈ o.late, b.lane = l)) ∧
       z.stack = ⟨y.active, o.pt.pc, .trap, 0, 1⟩ :: y.stack ∧
       (∀ a ∈ o.todo line, ∀ m, m < o.size / 4 → z.getV (o.dst.base + m) a.lane = s.read32 (a.loc.addr + 4 * m)) ∧
       ∀ u, u ≠ team → t.team? u = s.team? u) ∧
  (∀ (s : State) (team group seq line : Nat) (tm : Team) (y : Group) (o : PendOp),
     Performs s team group seq line tm y o → firstOn y seq line → o.kind = .store → o.early = false → o.rid = none →
     (∀ a ∈ o.todo line, 4 * a.data.length = o.size) →
     ∃ t z, exec (.writeVisible team group seq line) s = .next t ∧ Stored s t o.size (o.todo line) ∧
       Performed s t team group seq line tm y o z ∧ z.s = y.s ∧ z.v = y.v ∧
       z.lastVT = max y.lastVT (s.tick * 65536 + s.stampCount (if cached s (128 * line) then tm.core else homeAgent s (128 * line)))) ∧
  (∀ (s : State) (team group seq line : Nat) (tm : Team) (y : Group) (o : PendOp),
     Performs s team group seq line tm y o → o.kind = .store → o.early = true → (∀ a ∈ o.accs, a.done = false ∧ a.loc.line = line) →
     (∀ a ∈ o.accs, 4 * a.data.length = o.size) → awaitHome s tm.part line = none →
     ∃ t z, exec (.xfaultFire team group seq) s = .next t ∧ Stored s t o.size o.accs ∧
       z.lastVT = max y.lastVT (s.tick * 65536 + s.stampCount (homeAgent s (128 * line))) ∧
       Performed s t team group seq line tm { y with xfault := z.xfault, xcount := 0 } o z ∧ z.s = y.s ∧ z.v = y.v ∧
       z.xfault = (y.xfault ||| 0x10000) &&& ~~~1) ∧
  (∀ (s : State) (team group seq line op : Nat) (tm : Team) (y : Group) (o : PendOp) (a : Acc),
     Performs s team group seq line tm y o → firstOn y seq line → o.kind = .atom op → o.acq = false → o.early = false → o.rid = none →
     o.todo line = [a] → o.dst.vec = true → o.dst.base < 128 → a.lane < 64 → (∀ b, y.status ≠ .waiting (.flagsDone seq b)) →
     let old := s.read32 a.loc.addr
     let res := atomicResult op o.typ old (a.data.getD 0 0) (a.data.getD 1 0)
     ∃ t z m, exec (.remoteAtomic (.groupOp team group seq line)) s = .next t ∧
       t.read32 a.loc.addr = res.1.getD old ∧ (∀ b, b < a.loc.addr ∨ a.loc.addr + 4 ≤ b → t.byte b = s.byte b) ∧
       Performed s t team group seq line tm y o z ∧ z.s = y.s ∧
       (∀ r l, l < 64 → z.getV r l = if r = o.dst.base ∧ l = a.lane then old else y.getV r l) ∧
       t.team? team = some m ∧ m.flags = tm.flags ||| res.2) ∧
  (∀ (s : State) (team group seq line op : Nat) (tm : Team) (y : Group) (o : PendOp) (a b : Acc),
     Performs s team group seq line tm y o → firstOn y seq line → o.kind = .atom op → o.acq = false → o.early = false → o.rid = none →
     o.todo line = [a, b] → a.lane < b.lane → b.lane < 64 → a.loc.addr = b.loc.addr → o.dst.vec = true → o.dst.base < 128 →
     (∀ e, y.status ≠ .waiting (.flagsDone seq e)) →
     let old := s.read32 a.loc.addr
     let one := atomicResult op o.typ old (a.data.getD 0 0) (a.data.getD 1 0)
     let mid := one.1.getD old
     let two := atomicResult op o.typ mid (b.data.getD 0 0) (b.data.getD 1 0)
     ∃ t z m, exec (.remoteAtomic (.groupOp team group seq line)) s = .next t ∧
       t.read32 a.loc.addr = two.1.getD mid ∧ (∀ k, k < a.loc.addr ∨ a.loc.addr + 4 ≤ k → t.byte k = s.byte k) ∧
       Performed s t team group seq line tm y o z ∧ z.s = y.s ∧ z.getV o.dst.base a.lane = old ∧ z.getV o.dst.base b.lane = mid ∧
       (∀ r l, l < 64 → r ≠ o.dst.base ∨ (l ≠ a.lane ∧ l ≠ b.lane) → z.getV r l = y.getV r l) ∧
       t.team? team = some m ∧ m.flags = tm.flags ||| one.2 ||| two.2) ∧
  (∀ (s : State) (team group seq line op : Nat) (ends : Bool) (tm : Team) (y : Group) (o : PendOp) (a : Acc),
     Performs s team group seq line tm y o → firstOn y seq line → o.kind = .atom op → o.acq = false → o.early = false → o.rid = none →
     o.todo line = [a] → (∀ b ∈ o.accs, b.done = true ∨ b.loc.line = line) → y.status = .waiting (.flagsDone seq ends) →
     let old := s.read32 a.loc.addr
     ∃ t z, exec (.remoteAtomic (.groupOp team group seq line)) s = .next t ∧ t.group? team group = some z ∧
       t.read32 a.loc.addr = (atomicResult op o.typ old (a.data.getD 0 0) (a.data.getD 1 0)).1.getD old ∧
       (∀ p ∈ z.ops, p.seq ≠ seq) ∧ z.pc = y.pc ∧ (o.dst.vec = true → z.s = y.s) ∧
       (ends = false ∨ tm.handler = none ∨ tm.handler = some group → z.status = .ready))

/-! ### Time, releases and shoot-downs -/

/-- R4, R229, R232: a tick boundary raises the tick by 1, the records of earlier ticks that are not lost have arrived, and a home is
cleared through the ticks before its earliest close whose record is missing.
R242: the counter wraps to 0 once nothing from before it is outstanding. That the times kept from before the wrap then read as 0 is the
model's (log entry 38). -/
def Obligations.Ticks : Prop :=
  (∀ (s : State), s.tick + 5 < 2 ^ 48 → QuietTick s (s.tick + 1) →
     ∃ t, exec .tick s = .next t ∧
       t = { s with
         tick := s.tick + 1, cycle := 0, homes := t.homes, teams := t.teams
         expects := s.expects.filter (fun e => e.lost || decide (s.tick ≤ e.close)) } ∧
       (∀ u, t.team? u = (s.team? u).map (fun m => { m with perf := ((t.team? u).getD m).perf })) ∧
       (∀ e ∈ t.expects, t.clearedBelow e.home ≤ e.close) ∧
       ∀ d, (∀ e ∈ t.expects, e.home ≠ d) → t.clearedBelow d = s.tick + 1) ∧
  (∀ (s : State), s.tick + 1 = 2 ^ 48 → QuietTick s 0 → (∀ h ∈ s.held, h.2.split = wrapSplit) → (∀ e ∈ s.expects, e.lost = false) →
     ∃ t, exec .tickWrap s = .next t ∧ t.tick = 0 ∧ t.wrapHold = false ∧ t.mem = s.mem ∧ t.parts = s.parts ∧ t.stamps = [] ∧
       t.expects = [] ∧ (∀ h ∈ t.held, h.2.ts = 0 ∧ h.2.split = 0) ∧ (∀ l, (t.line l).start = 0) ∧
       ∀ u g z, t.group? u g = some z → ∃ y, s.group? u g = some y ∧ z.lastVT = 0 ∧ z.s = y.s ∧ z.v = y.v ∧ z.k = y.k) ∧
  (∀ (s : State), s.tick + 1 ≠ 2 ^ 48 → exec .tickWrap s = .next s) ∧
  (∀ (s : State), s.tick + 1 = 2 ^ 48 → exec .tick s = .next s)

/-- R205, R222, R233, R235: a held release whose conditions hold completes and has its effect: a FENCE's group goes on (R353);
an arrival on a ring or a barrier is counted, an engine's post as well (R55, R57, R59, R60); a spawned entry is accepted (R291); a store or
an atomic that is a release is performed and the words that it writes carry its timestamp (R197, R203). While a condition fails nothing
happens. -/
def Obligations.ReleasesComplete : Prop :=
  (∀ (s : State) (id : Nat) (h : Held) (tm : Team) (y : Group), MayComplete s id h → h.kind = .fence →
     s.team? h.team = some tm → s.group? h.team h.group = some y → y.status = .waiting (.fence id) → tm.handler = none →
     ∃ t z, exec (.releaseComplete id) s = .next t ∧ alook t.held id = none ∧ t.mem = s.mem ∧
       (∀ u, u ≠ h.team → t.team? u = s.team? u) ∧ (∀ g, g ≠ h.group → t.group? h.team g = s.group? h.team g) ∧
       t.group? h.team h.group = some z ∧ nextPlace y z ∧ z.s = y.s ∧ z.v = y.v ∧ z.k = y.k ∧ z.ops = y.ops ∧ z.status = .ready) ∧
  (∀ (s : State) (id r st : Nat) (h : Held) (tm : Team) (ring : Ring) (v : Stage), MayComplete s id h → h.kind = .ringput r st →
     s.team? h.team = some tm → tm.stage? r st = some (ring, v) → st < ring.stages.length →
     (∀ y, s.group? h.team h.group = some y → y.isRetired = false) →
     let side (p : Bool) (n : Nat) : Prop := ∃ t m z, exec (.releaseComplete id) s = .next t ∧ alook t.held id = none ∧
       t.mem = s.mem ∧ (∀ u, u ≠ h.team → t.team? u = s.team? u) ∧ t.team? h.team = some m ∧ m = { tm with rings := m.rings } ∧
       m.stage? r st = some (⟨ring.desc, setAt ring.stages st z⟩, z) ∧ z.rv = v.rv - 1 ∧
       (v.a + 1 = n → z.a = 0 ∧ z.p = !p ∧ z.ts = max v.nts h.ts ∧ z.nts = 0) ∧
       (v.a + 1 ≠ n → z.a = v.a + 1 ∧ z.p = p ∧ z.ts = v.ts ∧ z.nts = max v.nts h.ts)
     (v.p = false → roleCode h.role = fieldOf ring.desc 5 4 → side false (fieldOf ring.desc 13 8 + 1)) ∧
     (v.p = true → roleCode h.role = fieldOf ring.desc 7 6 → side true (fieldOf ring.desc 19 14 + 1))) ∧
  (∀ (s : State) (id r st : Nat) (h : Held) (tm : Team) (ring : Ring) (v : Stage), MayComplete s id h → h.kind = .post r st →
     s.team? h.team = some tm → tm.stage? r st = some (ring, v) → st < ring.stages.length →
     let side (p : Bool) (n : Nat) : Prop := ∃ t m z, exec (.releaseComplete id) s = .next t ∧ alook t.held id = none ∧
       t.mem = s.mem ∧ (∀ u, u ≠ h.team → t.team? u = s.team? u) ∧ t.team? h.team = some m ∧
       m = { tm with rings := m.rings, posts := tm.posts - 1 } ∧ m.stage? r st = some (⟨ring.desc, setAt ring.stages st z⟩, z) ∧ z.rv = v.rv ∧
       (v.a + 1 = n → z.a = 0 ∧ z.p = !p ∧ z.ts = max v.nts h.ts ∧ z.nts = 0) ∧
       (v.a + 1 ≠ n → z.a = v.a + 1 ∧ z.p = p ∧ z.ts = v.ts ∧ z.nts = max v.nts h.ts)
     (v.p = false → roleCode h.role = fieldOf ring.desc 5 4 → side false (fieldOf ring.desc 13 8 + 1)) ∧
     (v.p = true → roleCode h.role = fieldOf ring.desc 7 6 → side true (fieldOf ring.desc 19 14 + 1))) ∧
  (∀ (s : State) (id n : Nat) (h : Held) (tm : Team) (y : Group) (b : Barrier), MayComplete s id h → h.kind = .bararv n →
     s.team? h.team = some tm → s.group? h.team h.group = some y → y.isRetired = false → alook tm.barriers n = some b →
     ∃ t m c, exec (.releaseComplete id) s = .next t ∧ alook t.held id = none ∧ t.mem = s.mem ∧
       (∀ u, u ≠ h.team → t.team? u = s.team? u) ∧ t.team? h.team = some m ∧ m = { tm with barriers := m.barriers } ∧
       alook m.barriers n = some c ∧ (∀ k, k ≠ n → alook m.barriers k = alook tm.barriers k) ∧ c.desc = b.desc ∧ c.e = b.e ∧
       (b.count + 1 = b.e → c.count = 0 ∧ c.phase = !b.phase ∧ c.ts = max b.nts h.ts ∧ c.nts = 0) ∧
       (b.count + 1 ≠ b.e → c.count = b.count + 1 ∧ c.phase = b.phase ∧ c.ts = b.ts ∧ c.nts = max b.nts h.ts)) ∧
  (∀ (s : State) (id n : Nat) (h : Held) (tm : Team) (l : Launch) (e : PendLaunch), MayComplete s id h → h.kind = .spawn n →
     s.team? h.team = some tm → alook s.launches tm.launch = some l → e ∈ tm.pendq →
     (∀ f ∈ tm.pendq, f.id = n ↔ f = e) → e.accepted = false →
     ∃ t m k, exec (.releaseComplete id) s = .next t ∧ alook t.held id = none ∧ t.mem = s.mem ∧
       t.team? h.team = some m ∧ m = { tm with pendq := m.pendq } ∧ { e with accepted := true } ∈ m.pendq ∧
       m.pendq.length = tm.pendq.length ∧ alook t.launches tm.launch = some k ∧ k = { l with count := l.count + 1 }) ∧
  (∀ (s : State) (id seq line : Nat) (h : Held) (tm : Team) (y : Group) (o : PendOp), MayComplete s id h → h.kind = .strel seq →
     Performs s h.team h.group seq line tm y o → h.core = tm.core → o.kind = .store → o.rid = some id →
     (∀ a ∈ o.accs, a.done = false ∧ a.loc.line = line ∧ 4 * a.data.length = o.size) →
     ∃ t z, exec (.releaseComplete id) s = .next t ∧ alook t.held id = none ∧ Stored s t o.size o.accs ∧
       Performed s t h.team h.group seq line tm y o z ∧ z.s = y.s ∧ z.v = y.v ∧
       ∀ a ∈ o.accs, ∀ i, i < o.size / 4 → h.mark (a.loc.addr / 4 + i) ∈ t.marks) ∧
  (∀ (s : State) (id seq line op : Nat) (h : Held) (tm : Team) (y : Group) (o : PendOp) (a : Acc), MayComplete s id h → h.kind = .atom seq →
     Performs s h.team h.group seq line tm y o → h.core = tm.core → o.kind = .atom op → o.acq = false → o.rid = some id → o.accs = [a] →
     o.dst.vec = true → o.dst.base < 128 → a.lane < 64 → (∀ e, y.status ≠ .waiting (.flagsDone seq e)) →
     let old := s.read32 a.loc.addr
     let res := atomicResult op o.typ old (a.data.getD 0 0) (a.data.getD 1 0)
     ∃ t z m, exec (.releaseComplete id) s = .next t ∧ alook t.held id = none ∧ t.read32 a.loc.addr = res.1.getD old ∧
       (∀ b, b < a.loc.addr ∨ a.loc.addr + 4 ≤ b → t.byte b = s.byte b) ∧ Performed s t h.team h.group seq line tm y o z ∧ z.s = y.s ∧
       (∀ r l, l < 64 → z.getV r l = if r = o.dst.base ∧ l = a.lane then old else y.getV r l) ∧
       t.team? h.team = some m ∧ m.flags = tm.flags ||| res.2 ∧ (res.1.isSome = true → h.mark (a.loc.addr / 4) ∈ t.marks)) ∧
  (∀ (s : State) (id : Nat) (h : Held), alook s.held id = some h →
     s.tick ≤ h.ts / 65536 ∨ postHeld s h = true ∨ wrapSplit ≤ h.split ∨
     (h.enforce = true ∧ ∃ d ∈ h.homes, s.clearedBelow d ≤ max (h.ts / 65536) h.split) ∨
     (h.group ≠ 64 ∧ ∃ y o, s.group? h.team h.group = some y ∧ o ∈ y.ops ∧ o.seq < h.seq) ∨
     (h.log.isSome = true ∧ ∃ e ∈ (s.core h.core).log, e.rid = some id ∧ e.replayed = false) →
     exec (.releaseComplete id) s = .next s)

/-- R217, R262, R397, Table 9-4: an agent of a shoot-down, other than the agent of inbound host requests, drops the translations that it
names; a core acknowledges once it no longer uses one; the last acknowledgement lets the TINV's group go on.
R175, R218: an invalidation of host pages shoots down every translation of the message's partition that leads to them, in every agent
that could use one; when the host has no page there any more, it refuses those pages from then on. That a message names the host pages of
one partition, its PASID, and that the host's answers are inputs, are the model's (log entry 32). -/
def Obligations.ShootDowns : Prop :=
  (∀ (s : State) (id agent : Nat) (k : Shoot), alook s.shoots id = some k → agent ∈ k.todo → agent ≠ xdieAgent →
     ∃ t j, exec (.shootdown id agent) s = .next t ∧ t = { s with shoots := t.shoots, cores := t.cores } ∧
       alook t.shoots id = some j ∧ j = { k with todo := j.todo, unacked := j.unacked } ∧ agent ∉ j.todo ∧ agent ∈ j.unacked ∧
       (∀ c, c ≠ agent → t.core c = s.core c) ∧ t.core agent = { s.core agent with tlb := (t.core agent).tlb } ∧
       ∀ e, e ∈ (t.core agent).tlb ↔ e ∈ (s.core agent).tlb ∧ k.names e = false) ∧
  (∀ (s : State) (id agent : Nat) (k : Shoot), alook s.shoots id = some k → agent ∈ k.unacked → usesNamed s k agent = false →
     (k.todo ≠ [] ∨ (∃ b ∈ k.unacked, b ≠ agent) →
       exec (.tinvAck id agent) s =
         .next { s with shoots := aput s.shoots id { k with unacked := k.unacked.filter (· != agent) } }) ∧
     (∀ tm y, k.todo = [] → (∀ b ∈ k.unacked, b = agent) → s.team? k.team = some tm → s.group? k.team k.group = some y →
       y.status = .waiting (.tinvAcks id) → tm.handler = none →
       ∃ t z, exec (.tinvAck id agent) s = .next t ∧ alook t.shoots id = none ∧ t.mem = s.mem ∧
         (∀ u, u ≠ k.team → t.team? u = s.team? u) ∧ t.group? k.team k.group = some z ∧ nextPlace y z ∧ z.s = y.s ∧
         z.v = y.v ∧ z.status = .ready)) ∧
  (∀ (s : State) (id agent : Nat) (k : Shoot), alook s.shoots id = some k → usesNamed s k agent = true →
     exec (.tinvAck id agent) s = .next s) ∧
  (∀ (s : State) (msg : AtsMessage) (page pages : Nat),
     ∃ t k, exec (.atsInvalidation msg page pages) s = .next t ∧
       t = { s with nextId := s.nextId + 1, shoots := t.shoots, hostRefused := t.hostRefused } ∧ alook t.shoots s.nextId = some k ∧
       (∀ i, i ≠ s.nextId → alook t.shoots i = alook s.shoots i) ∧
       k.part = msg.part ∧ k.vpage = page ∧ k.pages = pages ∧ k.unacked = [] ∧ xdieAgent ∈ k.todo ∧
       (∀ c ∈ s.cores, (∃ e ∈ c.2.tlb, e.part = msg.part) ∨
         (∃ e ∈ s.teams, e.2.core = c.1 ∧ e.2.status = .resident ∧ e.2.part = msg.part) → c.1 ∈ k.todo) ∧
       (∀ e, k.names e = true ↔ e.part = msg.part ∧ field64 e.leaf 59 58 = 1 ∧
         pageMeets e.level (entryAddr e.leaf / 65536) page pages = true) ∧
       ∀ q p, (q, p) ∈ t.hostRefused ↔ (q, p) ∈ s.hostRefused ∨ (msg.refuse = true ∧ q = msg.part ∧ page ≤ p ∧ p < page + pages))

/-! ### Engines -/

/-- R145, R148, R210: a copy that meets no fault frees its slot, lowers its group's counter, can be joined, and begins its
post; a single 32-bit element goes from memory to the typed buffer or back with its bits unchanged.
R150, R151, R260: a copy that meets a fault is held with it, and an imprecise trap pends for the group that issued it; while it is
held it does not complete. R230: one whose access waits for a hash check does not complete in this step. -/
def Obligations.CopiesEnd : Prop :=
  (∀ (s : State) (core slot : Nat) (c : Copy) (tm : Team) (y : Group), CopyActs s core slot c tm → copyFaultOf s core tm c = none →
     s.room (stampsFor c (unitsLeft s c).length) = true → (∀ k ∈ unitsLeft s c, awaitUnit s core tm.part c k = none) →
     s.group? c.team c.group = some y →
     ∃ t z m d, exec (.copyComplete core slot) s = .next t ∧ alook (t.core core).copies slot = none ∧
       (∀ k, k ≠ slot → alook (t.core core).copies k = alook (s.core core).copies k) ∧ (∀ k, k ≠ core → t.core k = s.core k) ∧
       t.group? c.team c.group = some z ∧ z = { y with cp := y.cp - 1, done := y.done ++ [d] } ∧ d.id = c.id ∧
       t.team? c.team = some m ∧
       (postE c.post = false → t.held = s.held ∧ m.posts = tm.posts) ∧
       (postE c.post = true → m.posts = tm.posts + 1 ∧ ∃ h, alook t.held s.newId = some h ∧
         h.kind = .post (postRing c.post) (postStage c.post) ∧ h.team = c.team ∧ h.role = y.role)) ∧
  (∀ (s : State) (core slot : Nat) (c : Copy) (tm : Team) (e : ElemType) (du : Nat) (reg : Region), CopyActs s core slot c tm →
     copyFaultOf s core tm c = none → s.room (stampsFor c 1) = true → c.op = 0 → c.done = [] → c.landing = [] →
     c.taken = [] → awaitUnit s core tm.part c 0 = none → cSType c.record = .plain e → cDType c.record = .plain e →
     typeBits e = 32 → unitCount c.record = 1 → tensorInMem c.record = true → insideAt c.record none 0 0 = true →
     denseRegion s c tm = some (du, reg) →
     let keys := keysOf ((span (addrAt c.record none 0 0) 4).map (copyByte s core tm.part c))
     let o := denseByte c.record 0 0
     (tensorIsSrc c.record = true → ∀ x, s.team? du = some x → hBuf (denseHandle c.record) < x.regions.length →
       ∃ t m, exec (.copyComplete core slot) s = .next t ∧ t.mem = s.mem ∧ t.team? du = some m ∧
         (m.region (hBuf (denseHandle c.record))).read o 4 = keys.map s.byte ∧
         ∀ k, k < o ∨ o + 4 ≤ k → (m.region (hBuf (denseHandle c.record))).byte k = reg.byte k) ∧
     (tensorIsSrc c.record = false → keys.Nodup →
       ∃ t, exec (.copyComplete core slot) s = .next t ∧ keys.map t.byte = reg.read o 4 ∧
         ∀ b, b ∉ keys → t.byte b = s.byte b)) ∧
  (∀ (s : State) (core slot : Nat) (c : Copy) (tm : Team) (y : Group) (h : CopyHold), CopyActs s core slot c tm →
     copyFaultOf s core tm c = some h → s.group? c.team c.group = some y → y.isRetired = false →
     ∃ t z k p, exec (.copyFault core slot) s = .next t ∧ alook (t.core core).copies slot = some k ∧ k.held = some h ∧
       k.record = c.record ∧ (∀ i ∈ c.done, i ∈ k.done) ∧ t.group? c.team c.group = some z ∧ z = { y with traps := z.traps } ∧
       p ∈ z.traps ∧ p.code = h.code ∧ p.copy = some slot ∧ p.aux = [(0x080, 1, slot), (0x088, 8, h.va), (0x090, 1, h.kind)]) ∧
  (∀ (s : State) (core slot k : Nat) (c : Copy) (tm : Team) (w : State), CopyActs s core slot c tm → copyFaultOf s core tm c = none →
     s.room (stampsFor c (unitsLeft s c).length) = true → (unitsLeft s c).head? = some k → awaitUnit s core tm.part c k = some w →
     exec (.copyComplete core slot) s = .next w) ∧
  (∀ (s : State) (core slot : Nat) (c : Copy), alook (s.core core).copies slot = some c → c.held ≠ none →
     exec (.copyComplete core slot) s = .next s ∧ exec (.copyFault core slot) s = .next s)

/-- R157, R158: the oldest tile operation of a core takes effect, leaves the queue, lowers its group's counter and can be joined.
R163: TZERO clears 16 KiB of CB; R128, R152, R153, R161: TMMA leaves the matrix sum in the accumulators; R165: TSTAT writes the row
statistics; R166: TCVT writes the converted tile to AB, TQUANT its blocks' codes and scales.
R134: a byte of an operand that was read ahead is seen as it was then.
R167: a fetch that fails kills the team, which awaits its FAULT decision; that the killed team's held releases go with it is the model's
reading (log entry 35). -/
def Obligations.TileOperationsEnd : Prop :=
  (∀ (s : State) (core : Nat) (o : TileOp) (rest : List TileOp) (tm : Team) (y : Group), TileActs s core o rest tm →
     o.landing.isSome = true ∨ fetchFails s o tm = false → s.group? o.team o.group = some y → tm.regions.length = 3 →
     let ends (q : State → Team → Group → Prop) : Prop := ∃ t m z, exec (.tileOpComplete core) s = .next t ∧
       (t.core core).tiles = rest ∧ (∀ k, k ≠ core → t.core k = s.core k) ∧ t.mem = s.mem ∧
       (∀ u, u ≠ o.team → t.team? u = s.team? u) ∧ (∀ g, g ≠ o.group → t.group? o.team g = s.group? o.team g) ∧
       t.team? o.team = some m ∧ m.region 0 = tm.region 0 ∧ t.group? o.team o.group = some z ∧
       z = { y with v := z.v, bad := z.bad, tm := y.tm - 1, done := y.done ++ [⟨o.id, 0, none, [], [], [],
         (match o.kind with | .tstat _ _ d => some d | _ => none), false⟩] } ∧ q t m z
     ends (fun t _ _ => postE o.post = true → ∃ h, alook t.held s.newId = some h ∧
       h.kind = .post (postRing o.post) (postStage o.post) ∧ h.team = o.team ∧ h.role = y.role) ∧
     (∀ bs, o.landing = some bs → (∀ e mask d, o.kind ≠ .tstat e mask d) → ends (fun _ m z => z.v = y.v ∧ m.flags = tm.flags ∧
       ∀ b, b < 3 → m.region b = if b = o.kind.destBuf then (tm.region b).landed bs else tm.region b)) ∧
     (o.kind = .tzero → o.landing = none → ends (fun _ m z => z.v = y.v ∧ m.region 1 = tm.region 1 ∧
       ∀ k, (m.region 2).byte k = if hOff o.dh ≤ k ∧ k < hOff o.dh + 16384 then 0 else (tm.region 2).byte k)) ∧
     (∀ fw ra rb acc, o.kind = .tmma fw → o.landing = none → tmmaOperands s o tm fw = some (ra, rb) → fwAcc fw = some acc → 8 ∣ typeBits acc →
       let at' := (fwA fw).getD (.plain .bf16)
       let bt := (fwB fw).getD (.plain .bf16)
       let sums := matrixSum acc (fwZ fw) (o.seen 0 (tm.region 2)) (hOff o.dh)
         ((span 0 64).map (tileRow (o.seen 1 ra) (hOff o.ah) at' (fwK fw) (fwTA fw)))
         ((span 0 64).map (tileRow (o.seen 2 rb) (hOff o.bh) bt (fwK fw) (fwTB fw)))
         (fwK fw / 32)
       ends (fun _ m z => z.v = y.v ∧ m.region 1 = tm.region 1 ∧ m.flags = tm.flags ||| sums.2 ∧
         ∀ i j, i < 64 → j < 64 →
           accRead (m.region 2) (hOff o.dh) acc i j = sums.1.getD (64 * i + j) 0 % 2 ^ (8 * accSize acc))) ∧
     (∀ e mask d, o.kind = .tstat e mask d → d + 3 < 128 → 
       ends (fun _ m z => m.regions = tm.regions ∧ ∀ r l, l < 64 →
         let st := rowStats e ((span 0 64).map (fun j => accRead (o.seen 0 (tm.region 2)) (hOff o.dh) e l j))
         z.getV r l = if mask.getLsbD l = true ∧ d ≤ r ∧ r < d + 4 then
           BitVec.ofNat 32 ([st.1, st.2.1, st.2.2.1, st.2.2.2.1].getD (r - d) 0) else y.getV r l)) ∧
     (∀ cw src e, o.kind = .tcvt cw → o.landing = none → cvFmt cw = some (.plain e) → cvSrc cw = some src → 8 ∣ typeBits e →
       let n := typeBits e / 8
       ends (fun _ m z => z.v = y.v ∧ m.region 2 = tm.region 2 ∧ ∀ i j, i < 64 → j < 64 →
         (m.region 1).read (hOff o.dh + (if cvT cw then j * 64 * n + i * n else i * 64 * n + j * n)) n =
           bytesOf n (convertVal e (decodeVal src (accRead (o.seen 0 (tm.region 2)) (hOff o.ah) src i j)) false (cvR cw) (cvSat cw)).1)) ∧
     (∀ cw src e, o.kind = .tquant cw → o.landing = none → cvFmt cw = some e → e.isBlock = true → cvSrc cw = some src →
       let p := tilePitch e 64
       ends (fun _ m z => z.v = y.v ∧ m.region 2 = tm.region 2 ∧ ∀ i q, i < 64 → q < 2 →
         let block := quantise e ((span (32 * q) 32).map (fun j => decodeVal src (accRead (o.seen 0 (tm.region 2)) (hOff o.ah) src i j))) (cvR cw)
         (m.region 1).read (hOff o.dh + i * p + q * 4 * e.bits) (4 * e.bits) = packCodes e.bits (block.2.map (·.1)) ∧
         (m.region 1).byte (hOff o.dh + 64 * p + i * 2 + q) = BitVec.ofNat 8 block.1))) ∧
  (∀ (s : State) (core : Nat) (o : TileOp) (rest : List TileOp) (tm : Team) (u : Bool), TileActs s core o rest tm → o.landing = none →
     let cause := if fetchFails s o tm = true then (if sourceGone s o = true then 2 else 1) else 3
     (fetchFails s o tm = true ∨ u = true →
       ∃ t, exec (.operandFetchFault core u) s = .next t ∧ t.team? o.team = none ∧ t.mem = s.mem ∧
         (∀ v, v ≠ o.team → t.team? v = s.team? v) ∧ (∀ h ∈ t.held, h.2.team ≠ o.team ∨ h.2.kind.frontEnd = true) ∧
         t.faults = s.faults ++ [⟨o.team, tm.grid, tm.launch, tm.part, tm.queue, tm.prio, tm.teamIdx, tm.tries, cause⟩]) ∧
     (fetchFails s o tm = true → exec (.tileOpComplete core) s = .next s) ∧
     (fetchFails s o tm = false → u = false → exec (.operandFetchFault core u) s = .next s))

/-! ### Teams -/

/-- R188, R189: a flit reaches the receive queue of the group that it names, waits while that queue is full, or is dropped, with NORCV and
its allowance back at its sender, when none resolves or its packet has been cut short.
R190, Table 8-10: a cluster's reset takes every flit from and to it and returns their allowances. At a receiver outside it whole packets
stay, partial packets from it go, and one that has been returned in part is cut, its queued flits gone with it. That a flit from the cluster
is discarded in flight too, that the queues of groups inside stay as they are, and that the cluster is named within its die, are the
model's (log entry 53). -/
def Obligations.FlitsDelivered : Prop :=
  (∀ (s : State) (f : Flit) (fs : List Flit), s.flits = f :: fs →
     (∀ u y, flitGroup s f = some (u, y) → y.q.rq.length < 16 → f.cut ∉ s.cutPackets →
       ∃ t z, exec (.flitDelivery f.srcTeam f.srcGroup) s = .next t ∧ t = { s with flits := fs, teams := t.teams } ∧
         t.group? u f.dstGroup = some z ∧ z = { y with q := { y.q with rq := y.q.rq ++ [f] } } ∧
         (∀ v, v ≠ u → t.team? v = s.team? v) ∧ ∀ g, g ≠ f.dstGroup → t.group? u g = s.group? u g) ∧
     (∀ u y, flitGroup s f = some (u, y) → 16 ≤ y.q.rq.length → f.cut ∉ s.cutPackets → fs = [] →
       exec (.flitDelivery f.srcTeam f.srcGroup) s = .next s) ∧
     (∀ y, flitGroup s f = none ∨ f.cut ∈ s.cutPackets → s.group? f.srcTeam f.srcGroup = some y →
       ∃ t z, exec (.flitDelivery f.srcTeam f.srcGroup) s = .next t ∧
         t = { s with flits := fs, teams := t.teams, cutPackets := if f.last then s.cutPackets.filter (· != f.cut) else s.cutPackets } ∧
         t.group? f.srcTeam f.srcGroup = some z ∧ z = { y with q := { y.q with alw := z.q.alw, norcv := true } } ∧
         z.q.allow f.dstCore f.dstGroup = min 8 (y.q.allow f.dstCore f.dstGroup + 1))) ∧
  (∀ (s : State) (die cluster : Nat),
     let within' := inCluster die cluster
     ∃ t, exec (.clusterResetNotice die cluster) s = .next t ∧ t = { s with flits := t.flits, teams := t.teams, cutPackets := t.cutPackets } ∧
       (∀ f, f ∈ t.flits ↔ f ∈ s.flits ∧ within' f.srcCore = false ∧ within' f.dstCore = false) ∧
       ∀ u tm g y, s.team? u = some tm → tm.group? g = some y → ∃ z, t.group? u g = some z ∧ z = { y with q := z.q } ∧
         (tm.status = .resident → within' tm.core = true → z.q = { y.q with alw := z.q.alw }) ∧
         (tm.status ≠ .resident ∨ within' tm.core = false →
           (y.q.prst = true → z.q.prst = true) ∧ (∀ f ∈ z.q.rq, f ∈ y.q.rq) ∧
           (∀ f ∈ y.q.rq, within' f.srcCore = false ∨ f.last = true → f ∈ z.q.rq) ∧
           (∀ pre f post, y.q.rq = pre ++ f :: post → (∃ l ∈ post, l.sender = f.sender ∧ l.last = true) → f ∈ z.q.rq) ∧
           (∀ f ∈ y.q.rq, within' f.srcCore = true → (∀ l ∈ y.q.rq, l.sender = f.sender → l.last = false) →
             f ∉ z.q.rq ∧ z.q.prst = true ∧ (f.sender, tm.core, g) ∈ t.cutPackets) ∧
           ∀ p, y.q.cur = some p → within' y.q.rcore = true →
             (∀ f ∈ y.q.rq, f.sender = p → f.last = false ∧ within' f.srcCore = true) →
             z.q.cut = true ∧ z.q.prst = true ∧ (∀ f ∈ z.q.rq, f.sender ≠ p) ∧ (p, tm.core, g) ∈ t.cutPackets) ∧
         ((∀ e ∈ s.teams, ∀ k ∈ e.2.groups, ∀ f ∈ k.2.q.rq, ¬ (f.srcTeam = u ∧ f.srcGroup = g)) → ∀ c d, y.q.allow c d ≤ 8 →
           z.q.allow c d = min 8 (y.q.allow c d + (s.flits.filter (fun f => decide (f.srcTeam = u ∧ f.srcGroup = g) &&
             decide (64 * f.dstCore + f.dstGroup = 64 * c + d) && (within' f.srcCore || within' f.dstCore))).length)))

/-- R246, R254: between runs a group takes its pending imprecise trap of lowest CODE, with PREC 0, at its place, and its handler runs in
every live lane.
R52: a team whose groups all wait at barriers and rings, with nothing in flight that could end a wait, takes code 0x39 in its
lowest-numbered group.
R255, R256, R45: once its fence is done, POPR or EXIT returns by the entry as RACT says; RACT 10 escalates the team and RACT 11 kills it.
That TRAPPC of an imprecise trap is the address of the group's next word is the model's (log entry 55), under REP that of the prefixed word
(log entry 21). -/
def Obligations.TrapsDelivered : Prop :=
  (∀ (s s1 : State) (team group n : Nat) (tm : Team) (y : Group) (p : PendTrap) (rest : List PendTrap), s.team? team = some tm →
     s.group? team group = some y → tm.status = .resident → y.status = .ready → y.super = false →
     holdsPort s tm.core team group = false → y.traps = p :: rest → p.copy = none → p.cont = none → p.redo = [] →
     (∀ a ∈ p.aux, 0x80 ≤ a.1 ∧ a.1 + a.2.1 ≤ 0x200) → lowestSlot y n →
     let paused := if y.redo = [] then y.xop else y.redoEnd.xop
     pushEntry (s.updGroup team group (fun z => { z with traps := rest })) team group
       ⟨y.active, y.point.pc, if paused.isSome then .trapXop else .trap, (paused.map (·.mpc)).getD 0, n⟩ = some s1 →
     ∃ t z, exec (.impreciseTrapDelivery team group) s = .next t ∧ t.group? team group = some z ∧ z.traps = rest ∧
       z.pc = BitVec.ofNat 64 (field64 (s.part tm.part).tvbase 54 8 * 256 + 16 * p.code) ∧
       z.tcause = BitVec.ofNat 32 (p.code + (match y.rep with | some r => r.idx * 2 ^ 10 | none => 0)) ∧ z.gmr = 0 ∧
       z.active = y.live ∧ z.super = true ∧ z.v = y.v ∧ z.k = y.k ∧ z.ops = y.ops ∧
       t.read32 (frameAddr tm group n) = z.tcause ∧ t.read64 (frameAddr tm group n + 8) = y.point.word ∧
       (∀ r, r < 8 → t.read32 (frameAddr tm group n + 0x40 + 4 * r) = y.getS r) ∧
       (∀ a, a < frameAddr tm group n ∨ frameAddr tm group n + 0x1000 ≤ a → t.byte a = s1.byte a) ∧
       ∀ u, u ≠ team → t.team? u = s.team? u) ∧
  (∀ (s s1 : State) (team g n : Nat) (tm : Team) (y : Group) (others : List (Nat × Group)), s.team? team = some tm →
     s.group? team g = some y → tm.live = (g, y) :: others → deadlocked s team tm = true → tm.handler = none →
     (∀ e ∈ tm.groups, e.1 < 64) → y.frames.length < 4 → lowestSlot y n →
     let paused := stopped ⟨team, g, tm, y, 0⟩
     pushEntry (wakeHere s team g) team g
       ⟨y.active, y.point.pc, if paused.isSome then .trapXop else .trap, (paused.map (·.mpc)).getD 0, n⟩ = some s1 →
     ∃ t z, exec (.teamDeadlockTrap team) s = .next t ∧ t.group? team g = some z ∧ z.status = .ready ∧
       z.pc = BitVec.ofNat 64 (field64 (s.part tm.part).tvbase 54 8 * 256 + 16 * 0x39) ∧
       z.tcause = BitVec.ofNat 32 (0x139 + (match y.rep with | some r => r.idx * 2 ^ 10 | none => 0)) ∧ z.super = true ∧
       z.v = y.v ∧ z.k = y.k ∧ t.read64 (frameAddr tm g n + 8) = y.point.word ∧
       (∀ a, a < frameAddr tm g n ∨ frameAddr tm g n + 0x1000 ≤ a → t.byte a = s1.byte a) ∧
       ∀ u, u ≠ team → t.team? u = s.team? u) ∧
  (∀ (s : State) (team : Nat) (tm : Team), s.team? team = some tm →
     (∃ e ∈ tm.live, e.2.status = .ready) ∨ tm.posts ≠ 0 → exec (.teamDeadlockTrap team) s = .next s) ∧
  (∀ (s : State) (id : Nat) (h : Held) (tm : Team) (y : Group) (e : StackEntry) (rest : List StackEntry) (hid : FrameHidden) (live : Lanes),
     MayComplete s id h → h.kind = .popr → s.team? h.team = some tm → tm.group? h.group = some y → tm.handler = some h.group →
     (y.status = .waiting (.popr id) ∧ y.stack = e :: rest ∧ y.spilled = 0 ∧ live = y.live) ∨
       (y.status = .waiting (.poprExit id) ∧ stackLess (wholeStack s tm h.group y) y.active = e :: rest ∧ rest.length < 32 ∧
        live = y.live &&& ~~~y.active) →
     e.kind ≠ .reconv → alook y.frames e.gidx = some hid → hid.copy = none → y.ops = [] → ReturnsBy s ⟨h.team, h.group, tm, y, 0⟩ e →
     let act := fieldOf (s.read32 (frameAddr tm h.group e.gidx + 4)) 1 0
     (act = 0 ∨ act = 1 → ∃ t, exec (.releaseComplete id) s = .next t ∧ alook t.held id = none ∧
       Returned s t h.team h.group tm y live e rest hid (decide (act = 1))) ∧
     (act = 2 → requestsFull s = false → ∃ t m z, exec (.releaseComplete id) s = .next t ∧ t.mem = s.mem ∧ t.team? h.team = some m ∧
       m.saving = some (2 ^ 64) ∧ t.group? h.team h.group = some z ∧ z.status = .waiting (.escalated e.gidx) ∧ z.stack = e :: rest ∧
       z.live = live ∧ (∀ g, g ≠ h.group → t.group? h.team g = s.group? h.team g) ∧ ∀ u, u ≠ h.team → t.team? u = s.team? u) ∧
     (act = 3 → ∃ s1 t, s1.mem = s.mem ∧ s1.launches = s.launches ∧ s1.grids = s.grids ∧ exec (.releaseComplete id) s = .next t ∧
       t = failTeam s1 h.team hid.code ∧ t.team? h.team = none))

/-- R42: a group stalled for more than 4,096 cycles on a load from the pool or from another die gives up its port and keeps everything
else; that these cycles are 33 ticks is the model's (log entry 39).
R47: a team whose groups have all retired and of which nothing is in flight leaves in one step.
R48: with its grid's last team the grid-end release begins.
R290, R288: its completion counts the grid at CNTADDR and lowers the spawn-tree counter; at zero the launch-completion release begins, whose
completion writes the signal and reports the packet. -/
def Obligations.TeamsLeave : Prop :=
  (∀ (s : State) (team group : Nat) (x : Site), siteOf s team group = some x → x.gr.status = .ready → x.gr.xop = none →
     holdsPort s x.tm.core team group = true →
     stalled s x (usesOf (instrAt s x)) (makesEvents (instrAt s x)) = true →
     (∃ o ∈ x.gr.ops, o.kind = .load ∧ o.since + 33 ≤ s.tick ∧
       ((usesOf (instrAt s x)).any o.writes = true ∨ (makesEvents (instrAt s x) = true ∧ o.acq = true)) ∧
       ∃ a ∈ o.accs, a.done = false ∧ a.loc.space = 0 ∧ (targetOf a.loc.addr = .pool ∨
         (targetOf a.loc.addr = .hbm ∧ a.loc.addr / dieSpan ≠ x.tm.die) ∨
         (targetOf a.loc.addr = .scratch ∧ scratchSlice a.loc.addr / 160 ≠ x.tm.die))) →
     ∃ t z, exec (.loadStallYield team group) s = .next t ∧ t = { s with teams := t.teams, cores := t.cores } ∧
       holdsPort t x.tm.core team group = false ∧ t.group? team group = some z ∧
       z = { x.gr with status := .waiting .loadStall, runPos := 0, passes := 0, starving := none, tcause := haltedCause x x.gr } ∧
       (∀ u, u ≠ team → t.team? u = s.team? u) ∧ ∀ g, g ≠ group → t.group? team g = s.group? team g) ∧
  (∀ (s : State) (team : Nat) (tm : Team) (g : Grid), s.team? team = some tm → teamDone s team tm = true →
     alook s.grids tm.grid = some g →
     let after := { g with alive := g.alive - 1, vt := max g.vt tm.vt, homes := unionNat tm.homes g.homes }
     ∃ t, exec (.teamRetire team) s = .next t ∧ t.team? team = none ∧ t.mem = s.mem ∧
       (∀ u, u ≠ team → t.team? u = s.team? u) ∧ (∀ k, k ≠ tm.grid → alook t.grids k = alook s.grids k) ∧
       (tm.saveVA, tm.savePA) ∈ (t.part tm.part).savePool ∧
       (2 ≤ g.alive → alook t.grids tm.grid = some after ∧ t.held = s.held.filter (fun e => decide (e.2.team ≠ team) || e.2.kind.frontEnd)) ∧
       (g.alive = 1 → g.next = rTeams g.record → g.again = [] → g.fate = .running →
         alook t.grids tm.grid = some { after with fate := .releasing } ∧
         ∃ h, alook t.held s.newId = some h ∧ h.kind = .gridEnd tm.grid ∧ h.scope = rScope g.record ∧ h.ts = max g.vt tm.vt)) ∧
  (∀ (s : State) (team : Nat) (tm : Team), s.team? team = some tm →
     (∃ e ∈ tm.groups, e.2.status ≠ .retired) ∨ tm.posts ≠ 0 ∨ tm.pendq ≠ [] ∨
     (∃ e ∈ (s.core tm.core).copies, e.2.team = team) ∨ (∃ o ∈ (s.core tm.core).tiles, o.team = team) →
     exec (.teamRetire team) s = .next s) ∧
  (∀ (s : State) (id gd : Nat) (h : Held) (g : Grid) (l : Launch), MayComplete s id h → h.kind = .gridEnd gd → alook s.grids gd = some g →
     alook s.launches g.launch = some l → l.ended = false → (∀ e ∈ s.teams, e.2.launch = g.launch → spawnWaiters e.2 = []) →
     let lower : Launch := { l with count := l.count - 1, vt := max l.vt g.vt, homes := unionNat g.homes l.homes }
     let ends (P : State → Prop) : Prop := ∃ t, exec (.releaseComplete id) s = .next t ∧ t.teams = s.teams ∧ P t ∧
       alook t.grids gd = some { g with fate := .completed, outcome := s.tick } ∧
       (∀ k, (t.part g.part).queue k = { (s.part g.part).queue k with
         seed := if ((s.part g.part).queue k).seed = some gd then none else ((s.part g.part).queue k).seed }) ∧
       (1 < l.count → alook t.launches g.launch = some lower ∧ alook t.held id = none) ∧
       (l.count = 1 → alook t.launches g.launch = some { lower with ended := true } ∧ ∃ i q, alook t.held i = some q ∧
         q.kind = .launchEnd g.launch ∧ q.scope = l.scope ∧ q.ts = max l.vt g.vt)
     (rCnt g.record = 0 → ends (fun t => t.mem = s.mem)) ∧
     (rCnt g.record ≠ 0 → ∀ key, feAccess s feCore g.part (rCnt g.record) 4 4 [.rd, .wr, .at] true = .ok key →
       ends (fun t => t.read32 key = s.read32 key + 1 ∧ (∀ a, a < key ∨ key + 4 ≤ a → t.byte a = s.byte a) ∧ h.mark (key / 4) ∈ t.marks))) ∧
  (∀ (s : State) (id k : Nat) (h : Held) (l : Launch), MayComplete s id h → h.kind = .launchEnd k → alook s.launches k = some l →
     (∀ p ∈ s.parts, p.2.report = none) → s.reports.length < 65536 →
     let ends (P : State → Prop) : Prop := ∃ t, exec (.releaseComplete id) s = .next t ∧ t.teams = s.teams ∧ P t ∧ alook t.launches k = none ∧
       (∀ e ∈ t.grids, e.2.launch ≠ k) ∧ (⟨l.part, l.tag, 0, false, false, 0, 0, l.queue, s.tick⟩ : Report) ∈ t.reports
     (l.sigaddr = 0 → ends (fun t => t.mem = s.mem)) ∧
     (l.sigaddr ≠ 0 → ∀ key, feAccess s feCore l.part l.sigaddr.toNat 8 8 [.wr] true = .ok key →
       ends (fun t => t.read64 key = l.sigval ∧ ∀ a, a < key ∨ key + 8 ≤ a → t.byte a = s.byte a)))

/-! ### Saving, packets and decisions -/

/-- R51, R265, Table 11-10: a team whose groups all wait at blocking points stops its issue; once nothing of it is in flight it is saved:
S and K stand in its save area, nothing outside that area changes, and its registers, masks and stacks are those it will resume with.
A team that escalates is saved as escalated.
R265: a deadline that passes before withdraws the save and starts rung 1 on the team's queue.
R264: a saved team whose wake condition holds is ready; firmware's release writes RACT.
R258: the host's answer to a page request writes RACT 00 and grants the pages, or RACT 11.
R325: during a live update both answers are queued, and refused BUSY with a log entry once 256 requests wait; the page request of a team
that escalates then is refused too.
The model's: that Table 11-10's g is GROUPID, that pending loads are given up, and what a receive queue keeps (`z.q`; log entry 46); that
the host's grant takes pages off `hostRefused` (log entry 32); the class and code of a BUSY event (log entries 42 and 48). -/
def Obligations.SavesAndWakes : Prop :=
  (∀ (s : State) (team : Nat) (tm : Team), s.team? team = some tm → tm.saving.isSome = true → tm.status = .resident →
     (s.core tm.core).debugHalt = false → tm.stopped = true ∨ teamBlocked s team tm = true → teamQuiet s team tm = true →
     escalatedAt tm = none → asorted tm.groups = true → tm.regions.length = 3 →
     (∀ e ∈ tm.groups, e.1 < 64 ∧ e.2.stack.length ≤ 32 ∧ asorted e.2.s = true ∧ asorted e.2.k = true ∧
       (∀ r ∈ e.2.s, r.1 < 128) ∧ (∀ r ∈ e.2.k, r.1 < 8) ∧
       ∀ v ∈ e.2.v, vOffset tm e.1 + 4 * (tm.width * (v.1 / 64) + v.1 % 64) + 4 ≤ 0x40000) →
     (∀ r ∈ tm.regions, ∀ e ∈ r.bytes, e.1 < 0x20000) →
     ∃ t m, exec (.preemptSave team) s = .next t ∧ t.team? team = some m ∧ m.status = .saved ∧ m.saving = none ∧
       m.stopped = false ∧ (∀ g, holdsPort t tm.core team g = false) ∧
       (∀ a, a < tm.savePA ∨ tm.savePA + 0x400000 ≤ a → t.byte a = s.byte a) ∧
       ∀ g y, tm.group? g = some y →
         (∀ r, r < 128 → t.read32 (tm.savePA + 0x2A0000 + 0x200 * g + 4 * r) = y.getS r) ∧
         (∀ r, r < 8 → t.read64 (tm.savePA + 0x2B0000 + 0x40 * g + 8 * r) = y.getK r) ∧
         ∃ z, m.group? g = some z ∧
           z = { y with q := z.q, ops := y.ops.map PendOp.abandoned, runPos := 0, passes := 0, starving := none }) ∧
  (∀ (s : State) (team g slot : Nat) (tm : Team), s.team? team = some tm → tm.saving.isSome = true → tm.status = .resident →
     (s.core tm.core).debugHalt = false → tm.stopped = true ∨ teamBlocked s team tm = true → teamQuiet s team tm = true →
     escalatedAt tm = some (g, slot) →
     ∃ t m, exec (.preemptSave team) s = .next t ∧ t.team? team = some m ∧ m.status = .escalated g slot ∧ m.saving = none ∧
       m.woken = none ∧ (requestsFull s = true → m.pri = false) ∧ team ∉ (t.part tm.part).preempting) ∧
  (∀ (s : State) (team : Nat) (tm : Team), s.team? team = some tm → tm.saving.isSome = true → tm.status = .resident →
     (s.core tm.core).debugHalt = false →
     (tm.stopped = true ∨ teamBlocked s team tm = true → teamQuiet s team tm = false →
       ∃ t, exec (.preemptSave team) s = .next t ∧ t = { s with teams := t.teams } ∧ t.team? team = some { tm with stopped := true } ∧
         ∀ u, u ≠ team → t.team? u = s.team? u) ∧
     (tm.stopped = false → teamBlocked s team tm = false → exec (.preemptSave team) s = .next s)) ∧
  (∀ (s : State) (team d : Nat) (tm : Team), s.team? team = some tm → tm.saving = some d →
     (128 * s.tick + 127 < d → exec (.preemptDeadlineExpiry team) s = .next s) ∧
     (tm.stopped = true → exec (.preemptDeadlineExpiry team) s = .next s) ∧
     (tm.status = .resident → d ≤ 128 * s.tick + 127 → tm.stopped = false → teamBlocked s team tm = false →
       ∃ t, exec (.preemptDeadlineExpiry team) s = .next t ∧ t.mem = s.mem ∧ t.team? team = some { tm with saving := none } ∧
         (∀ u, u ≠ team → t.team? u = s.team? u) ∧ team ∉ (t.part tm.part).preempting ∧
         (s.fw.rungs = [] → ∃ r ∈ t.fw.rungs, r.rung = 1 ∧ r.target = queueTarget tm.part tm.queue ∧ r.missed = some tm.launch))) ∧
  (∀ (s : State) (team : Nat) (tm : Team), s.team? team = some tm → tm.status = .saved → tm.woken = none →
     (wakeHolds s team tm = true →
       ∃ t, exec (.wakeCondition team) s = .next t ∧ t = { s with teams := t.teams, parts := t.parts } ∧
         t.team? team = some { tm with woken := some s.tick } ∧ (∀ u, u ≠ team → t.team? u = s.team? u) ∧
         ∀ p, t.part p = { s.part p with rested := (t.part p).rested }) ∧
     (wakeHolds s team tm = false → exec (.wakeCondition team) s = .next s)) ∧
  (∀ (s : State) (team g slot : Nat) (tm : Team) (y : Group) (act : BitVec 2), s.team? team = some tm → tm.status = .escalated g slot →
     tm.group? g = some y →
     let at' := frameAddr tm g slot + 4
     (tm.pri = false → gateRequest s = .go →
       ∃ t m z, exec (.firmwareRelease team act) s = .next t ∧ t.read32 at' = act.setWidth 32 ∧
         (∀ a, a < at' ∨ at' + 4 ≤ a → t.byte a = s.byte a) ∧ t.team? team = some m ∧ m.status = .saved ∧ m.woken = some s.tick ∧
         m.group? g = some z ∧ z = { y with status := .ready } ∧ ∀ u, u ≠ team → t.team? u = s.team? u) ∧
     (tm.pri = false → gateRequest s = .held → exec (.firmwareRelease team act) s =
       .next { s with fw := { s.fw with queued := s.fw.queued ++ [.firmwareRelease team act] } }) ∧
     (tm.pri = false → gateRequest s = .busy →
       ∃ t, exec (.firmwareRelease team act) s = .next t ∧ t = { s with beret := t.beret } ∧
         ∃ e ∈ t.beret.log, e.cls = 4 ∧ e.code = 1 ∧ e.tick = BitVec.ofNat 64 s.tick) ∧
     (tm.pri = true → exec (.firmwareRelease team act) s = .next s)) ∧
  (∀ (s : State) (team g slot : Nat) (tm : Team) (ok : Bool), s.team? team = some tm → tm.status = .escalated g slot →
     tm.pri = true →
     (gateRequest s = .busy → ∃ t, exec (.priResponse team ok) s = .next t ∧ t = { s with beret := t.beret }) ∧
     (gateRequest s = .held → exec (.priResponse team ok) s =
       .next { s with fw := { s.fw with queued := s.fw.queued ++ [.priResponse team ok] } }) ∧
     (gateRequest s = .go →
     let at' := frameAddr tm g slot + 4
     ∃ t, exec (.priResponse team ok) s = .next t ∧ t = { s with mem := t.mem, teams := t.teams, hostRefused := t.hostRefused } ∧
       t.read32 at' = (if ok then 0 else 3) ∧ (∀ a, a < at' ∨ at' + 4 ≤ a → t.byte a = s.byte a) ∧
       t.team? team = some { tm with pri := false } ∧ (∀ u, u ≠ team → t.team? u = s.team? u) ∧
       ∀ q p, (q, p) ∈ t.hostRefused ↔ (q, p) ∈ s.hostRefused ∧ (ok = true → q = tm.part → p ∉ hmaskPages s tm g slot)))

/-- R283: a doorbell sets the write index, whether or not the queue is enabled; one more than 2^SIZE ahead disables an enabled queue. That
firmware answers that with rung 1 is the model's choice (log entry 42).
R284 to R288, R318: a packet that keeps its tables is executed and the read index advances by 1 and is stored at RDADDR: NOP
alone, WAIT once its value is reached. LAUNCH begins its seed grid, which takes the partition's next GRIDID, and leaves the read index
where it is until the seed is placed (Decisions); while the grid table is full its seed waits as a ready item of the queue (Table 14-1).
R331, R335: the management function has no doorbells.
That a packet of unknown type is reported by the step for NOP is the model's (log entry 41), as are the occasions on which awaited values
are read again (log entry 24).
R285, R294: an awaited value that has been reached, when it is read again, ends its wait.
R291, R292: the front end takes the first accepted entry of a team's pending-launch queue as a new grid; a group that waits in SPAWN
takes the entry that it frees. -/
def Obligations.CommandQueues : Prop :=
  (∀ (s : State) (part queue : Nat) (i : DWord), s.fw.mgmtOnly = true →
     exec (.doorbellWrite part queue i) s = .next s ∧ exec (.reportDoorbell part i) s = .next s) ∧
  (∀ (s : State) (part queue : Nat) (i : DWord), s.fw.mgmtOnly = false →
     let q := (s.part part).queue queue
     (q.en = false ∨ i.toNat ≤ q.rd.toNat + 2 ^ q.size →
       ∃ t, exec (.doorbellWrite part queue i) s = .next t ∧ t = { s with parts := t.parts } ∧
         (t.part part).queue queue = { q with wr := i } ∧ (∀ k, k ≠ queue → (t.part part).queue k = (s.part part).queue k) ∧
         ∀ p, p ≠ part → t.part p = s.part p) ∧
     (q.en = true → q.rd.toNat + 2 ^ q.size < i.toNat →
       ∃ t, exec (.doorbellWrite part queue i) s = .next t ∧ t.mem = s.mem ∧ t.teams = s.teams ∧
         ((t.part part).queue queue).en = false ∧ ((t.part part).queue queue).wr = i ∧
         (s.fw.rungs = [] → ∃ r ∈ t.fw.rungs, r.rung = 1 ∧ r.target = queueTarget part queue))) ∧
  (∀ (s : State) (part queue : Nat) (w : List Word), mayTake s part queue = true → packetAt s part queue = .inr w →
     packetOk ((s.part part).queue queue) w = true →
     let q := (s.part part).queue queue
     let advanced : State → Prop := fun t => (t.part part).queue queue = { q with rd := q.rd + 1, wait := none, lined := none } ∧ t.teams = s.teams ∧
       ∀ key, feAccess s feCore part q.rdaddr 8 8 [.wr] true = .ok key →
         t.read64 key = q.rd + 1 ∧ ∀ a, a < key ∨ key + 8 ≤ a → t.byte a = s.byte a
     (pkType w = 0 → ∃ t, exec (.nopPacket part queue) s = .next t ∧ advanced t ∧ t.launches = s.launches) ∧
     (∀ key, pkType w = 2 → feAccess s feCore part (pkSig w).toNat 8 8 [.rd] false = .ok key →
       ((pkVal w).toNat ≤ (s.read64 key).toNat → ∃ t, exec (.waitPacket part queue) s = .next t ∧ advanced t) ∧
       ((s.read64 key).toNat < (pkVal w).toNat → ∃ t, exec (.waitPacket part queue) s = .next t ∧
         t = { s with parts := t.parts } ∧ (t.part part).queue queue = { q with wait := some w, watch := key })) ∧
     (pkType w = 1 → Config.gridTable ≤ gridsOpen s part → ∃ t, exec (.launchPacket part queue) s = .next t ∧
       t = { s with parts := t.parts } ∧ (t.part part).queue queue = { q with lined := q.lined <|> some (s.tick, w) }) ∧
     (∀ key, pkType w = 1 → gridsOpen s part < Config.gridTable → feAccess s feCore part (pkCode w).toNat 128 128 [.rd] false = .ok key →
       headerOk (wordsOf s key 32) 0 [0, 0, 1] = true →
       ∃ t l g k, exec (.launchPacket part queue) s = .next t ∧ t.mem = s.mem ∧ t.teams = s.teams ∧
         alook t.launches s.newId = some l ∧ l.part = part ∧ l.queue = queue ∧ l.count = 1 ∧ l.tag = pkTag w ∧ l.prio = pkPrio w ∧
         l.sigaddr = pkSig w ∧ l.sigval = pkVal w ∧ (t.part part).queue queue = { q with seed := some k, lined := none } ∧
         alook t.grids k = some g ∧ g.launch = s.newId ∧ g.gridid = (s.part part).gridCtr ∧ g.record = seedRecord w ∧
         g.header = wordsOf s key 32 ∧ g.seed = true ∧ g.next = 0 ∧ g.fate = .running ∧
         g.ready = ((q.lined.map (·.1)).getD s.tick) ∧ (t.part part).gridCtr = (s.part part).gridCtr + 1)) ∧
  (∀ (s : State) (part queue : Nat) (w : List Word), mayTake s part queue = true → packetAt s part queue = .inr w →
     packetOk ((s.part part).queue queue) w = false → 2 < pkType w → (s.part part).report = none → s.reports.length < 65536 →
     ∃ t, exec (.nopPacket part queue) s = .next t ∧ ((t.part part).queue queue).rd = ((s.part part).queue queue).rd + 1 ∧
       (⟨part, pkTag w, 0, false, true, 0, 0x100, queue, s.tick⟩ : Report) ∈ t.reports) ∧
  (∀ (s : State) (part queue : Nat), mayTake s part queue = false →
     exec (.nopPacket part queue) s = .next s ∧ exec (.waitPacket part queue) s = .next s ∧ exec (.launchPacket part queue) s = .next s) ∧
  (∀ (s : State) (w : WaitAt), mayReread s w = false → exec (.waitValueReread w) s = .next s) ∧
  (∀ (s : State) (team group : Nat) (tm : Team) (y : Group) (va : DWord) (target : Word) (old : Nat), s.team? team = some tm →
     s.group? team group = some y → tm.status = .resident → y.status = .waiting (.cwait va target old) →
     mayReread s (.group team group) = true →
     let x : Site := ⟨team, group, tm, y, 0⟩
     let e := exec (.waitValueReread (.group team group)) s
     (∀ key, cwaitRead s x va.toNat target = .reached key → ownPending x key = false → logFree (s.core tm.core) ≠ 0 →
       ∃ t z, e = .next t ∧ t.mem = s.mem ∧ t.group? team group = some z ∧ (tm.handler = none → z.status = .ready) ∧ nextPlace y z ∧
         z.s = y.s ∧ z.v = y.v ∧ z.k = y.k ∧ z.lastVT = max y.lastVT (markSeen s key .device team group tm.core) ∧
         (∀ u, u ≠ team → t.team? u = s.team? u) ∧ ∀ g, g ≠ group → t.group? team g = s.group? team g) ∧
     (∀ key, cwaitRead s x va.toNat target = .short key → ∃ t, e = .next t ∧ t = { s with due := t.due, teams := t.teams } ∧
       t.group? team group = some { y with status := .waiting (.cwait va target key) } ∧
       (∀ u, u ≠ team → t.team? u = s.team? u) ∧ ∀ g, g ≠ group → t.group? team g = s.group? team g)) ∧
  (∀ (s : State) (part queue key : Nat) (w : List Word), mayReread s (.queue part queue) = true →
     let q := (s.part part).queue queue
     q.wait = some w → q.en = true → s.pausedOn q.die = false → (s.front q.die).inReset = false →
     feAccess s feCore part (pkSig w).toNat 8 8 [.rd] false = .ok key →
     ((pkVal w).toNat ≤ (s.read64 key).toNat → ∃ t, exec (.waitValueReread (.queue part queue)) s = .next t ∧ t.teams = s.teams ∧
       (t.part part).queue queue = { q with rd := q.rd + 1, wait := none, lined := none }) ∧
     ((s.read64 key).toNat < (pkVal w).toNat → ∃ t, exec (.waitValueReread (.queue part queue)) s = .next t ∧
       t = { s with due := t.due, parts := t.parts } ∧ (t.part part).queue queue = { q with watch := key })) ∧
  (∀ (s : State) (team : Nat) (tm : Team) (l : Launch) (p : PendLaunch) (rest : List PendLaunch), s.team? team = some tm →
     tm.pendq = p :: rest → p.accepted = true → gridsOpen s tm.part < Config.gridTable → alook s.launches tm.launch = some l →
     s.pausedOn l.die = false → (s.front l.die).inReset = false →
     ∃ t m g, exec (.pendingEntryTake team) s = .next t ∧ t.mem = s.mem ∧ t.team? team = some m ∧
       ((∀ e ∈ tm.groups, ∀ since r h, e.2.status ≠ .waiting (.spawn since r h)) → m = { tm with pendq := rest }) ∧
       (∀ k y since r h, tm.groups = [(k, y)] → y.status = .waiting (.spawn since r h) → tm.status = .resident → tm.handler = none →
         rest.length < Config.pendingEntries → counterFree s tm.launch = true → logFree (s.core tm.core) ≠ 0 →
         ∃ e z, m.pendq = rest ++ [e] ∧ e.accepted = false ∧ e.record = r ∧ e.header = h ∧ m.group? k = some z ∧ z.status = .ready ∧
           nextPlace y z) ∧
       (∀ u, u ≠ team → t.team? u = s.team? u) ∧ alook t.grids s.newId = some g ∧ g.launch = tm.launch ∧ g.part = tm.part ∧
       g.record = p.record ∧ g.header = p.header ∧ g.prio = p.prio ∧ g.gridid = (s.part tm.part).gridCtr ∧ g.seed = false ∧
       g.fate = .running ∧ t.launches = s.launches ∧ (t.part tm.part).gridCtr = (s.part tm.part).gridCtr + 1) ∧
  (∀ (s : State) (part : Nat) (i : DWord) (r : ReportRing), s.fw.mgmtOnly = false → (s.part part).report = some r → s.reports = [] → (∀ p ∈ s.parts, p.2.lost = 0) →
     ∃ t, exec (.reportDoorbell part i) s = .next t ∧ t = { s with parts := t.parts } ∧ (∀ p, p ≠ part → t.part p = s.part p) ∧
       t.part part = { s.part part with report := some { r with rd := min i.toNat r.wr } })

/-- R299, R300, R307: a DISPATCH places the next team of the oldest ready item of the queue that it names on the core that it
names, and counts the placement; one that decides nothing rests.
R63, R292: the team starts at its entry point with S0:1 = ARG, one for each group of the launch record.
The placement of a queue's seed finishes its LAUNCH packet: the read index advances (R285).
R301, R307: a PREEMPT asks for a save by its deadline.
R167, R307: a FAULT decision relaunches the team or fails its launch.
R312: an overrun is counted; at the third the program is disabled.
The model's: the class, code and class data of an overrun's event (log entry 42), that `rested` is how an engine remembers that nothing
has come about since its snapshot (log entry 43), and that a relaunch queues the team in the step of the decision (log entry 45). -/
def Obligations.Decisions : Prop :=
  (∀ (s : State) (die part : Nat) (d : Decision), decisionFor s die part 0 0 = some d → die < s.fronts.length →
     (decideBy d.prog 0 d.view = .halt →
       ∃ t, exec (.dispatch die part) s = .next t ∧ t = { s with parts := t.parts, fronts := t.fronts } ∧
         (t.front die).deciding = none ∧
         ((s.front die).deciding = none ∨ die ∈ (s.part part).rested → die ∈ (t.part part).rested) ∧ (t.part part).queues = (s.part part).queues) ∧
     (∀ q c i gd g l core area rest, decideBy d.prog 0 d.view = .decide q c → nextItem s part q.toNat = some i → i.queue = q.toNat →
       i.kind = .fresh gd → alook s.grids gd = some g → g.part = part → rCoop g.record = false → alook s.launches g.launch = some l →
       d.view.ids[c.toNat]? = some core → fits s core part (recNeed g.record) = true →
       (s.part part).savePool = area :: rest →
       ∃ t m, exec (.dispatch die part) s = .next t ∧ t.team? s.newId = some m ∧ m.core = core ∧ m.die = dieOf core ∧
         m.grid = gd ∧ m.teamIdx = g.next ∧ m.part = part ∧ m.launch = g.launch ∧ m.status = .resident ∧ m.width = rWidth g.record ∧
         (m.saveVA, m.savePA) = area ∧ m.groups.length = rGroups g.record ∧
         (∀ k, k < rGroups g.record → ∃ z, m.group? k = some z ∧ z.pc = BitVec.ofNat 64 (rCode g.record + 0x80) ∧
           z.getPair 0 = rArg g.record ∧ (∀ r, 2 ≤ r → z.getS r = 0) ∧ z.v = [] ∧ z.k = [] ∧ z.gmr = 0 ∧ z.stack = [] ∧
           z.active = fullMask m.width ∧ z.status = .ready) ∧
         (∀ u, u ≠ s.newId → t.team? u = s.team? u) ∧ (t.part part).savePool = rest ∧
         alook t.grids gd = some { g with next := g.next + 1, alive := g.alive + 1 } ∧
         ((t.part part).queue q.toNat).quota = ((s.part part).queue q.toNat).quota - 1 ∧
         ((t.part part).queue q.toNat).last = s.tick ∧
         (let u := (s.part part).queue q.toNat
          let v := (t.part part).queue q.toNat
          (u.seed = some gd → v.rd = u.rd + 1 ∧ v.seed = none) ∧ (u.seed ≠ some gd → v.rd = u.rd ∧ v.seed = u.seed)))) ∧
  (∀ (s : State) (die part : Nat) (d : Decision) (c dl : DWord) (u : Nat) (x : Team), decisionFor s die part 1 0 = some d →
     decideBy d.prog 1 d.view = .decide c dl → d.view.ids[c.toNat]? = some u → s.team? u = some x → x.status = .resident →
     dl.toNat % 2 ^ 32 ≠ 0 →
     ∃ t, exec (.preempt die part) s = .next t ∧ t = { s with parts := t.parts, fronts := t.fronts, teams := t.teams } ∧
       t.team? u = some { x with saving := some (128 * s.tick + dl.toNat % 2 ^ 32) } ∧ (∀ v, v ≠ u → t.team? v = s.team? v) ∧
       u ∈ (t.part part).preempting) ∧
  (∀ (s : State) (team : Nat) (f : FaultRec) (d : Decision) (g : Grid) (l : Launch), faultOf s team = some f →
     decisionFor s (faultDie s f) f.part 2 team = some d → alook s.launches f.launch = some l → alook s.grids f.grid = some g →
     (∀ n, decideBy d.prog 2 d.view = .decide 0 n → f.tries < n.toNat →
       ∃ t, exec (.faultDecision team) s = .next t ∧ t.mem = s.mem ∧ t.teams = s.teams ∧ (∀ x ∈ t.faults, x.team ≠ team) ∧
         alook t.grids f.grid = some { g with again := g.again ++ [(f.teamIdx, f.tries + 1, s.tick)] } ∧ t.launches = s.launches) ∧
     (decideBy d.prog 2 d.view = .decide 2 0 → f.tries < (s.part f.part).retry →
       ∃ t, exec (.faultDecision team) s = .next t ∧ t.mem = s.mem ∧
         alook t.grids f.grid = some { g with again := g.again ++ [(f.teamIdx, f.tries + 1, s.tick)] }) ∧
     (decideBy d.prog 2 d.view = .halt ∨ (∃ n, decideBy d.prog 2 d.view = .decide 1 n) ∨
      (∃ n, decideBy d.prog 2 d.view = .decide 0 n ∧ n.toNat ≤ f.tries) →
       ∃ t, exec (.faultDecision team) s = .next t ∧ (∀ x ∈ t.faults, x.team ≠ team) ∧ alook t.launches f.launch = none)) ∧
  (∀ (s : State) (die part : Nat) (d : Decision) (p : List Word), (s.front die).deciding = some d → d.part = part →
     d.prog = some p → d.kind = 1 → d.view.cands = [] → d.gen = (s.part part).gen → die < s.fronts.length →
     let n := min 3 (field64 (s.part part).ppol 31 30 + 1)
     ∃ t, exec (.decisionOverrun die part) s = .next t ∧ t.mem = s.mem ∧ t.teams = s.teams ∧ (t.front die).deciding = none ∧
       field64 (t.part part).ppol 31 30 = n ∧
       ((t.part part).ppol.getLsbD 29 = true ↔ n = 3 ∨ (s.part part).ppol.getLsbD 29 = true) ∧
       ∃ r ∈ t.beret.log, r.cls = 6 ∧ r.code = 0x312 ∧ r.src = BitVec.ofNat 32 die ∧ r.data = classData [part, 1])

/-! ### Firmware -/

/-- R314: a running firmware core's write of HEALTH takes the tick, and the core is healthy from then on; one whose register has gone
unwritten for more than 15,625 ticks is no longer healthy. That its lapse is logged and asks for rung 2 of its die is R320's trigger.
R316: the holder renews its lease while it runs, by at most 78,125 ticks; once it has lapsed or is not VALID the lowest-numbered healthy
core takes it with the next EPOCH; any other write of LEASE is refused and logged, and changes nothing else. A lapsed lease has no leader.
R317: the requests held since then go to the new holder, once each, in arrival order.
R327: the close of a live update of FW restores the lease: HOLDER as recorded when healthy, otherwise the lowest-numbered healthy core; the
recorded EPOCH + 1; VALID; EXPIRY at TICK + 78,125. An update of BERET leaves the lease to R316, and its requests wait until it closes.
The model's: the class, code and class data of the three events (log entry 42), and that a core whose die is held in reset writes nothing
(log entry 47). -/
def Obligations.FirmwareAndLease : Prop :=
  (∀ (s : State) (core : Nat),
     (runs s core = true → core < s.fw.health.length →
       ∃ t, exec (.healthWrite core) s = .next t ∧ t = { s with fw := { s.fw with health := t.fw.health, down := t.fw.down } } ∧
         t.fw.health.getD core 0 = s.tick + 1 ∧ (∀ k, k ≠ core → t.fw.health.getD k 0 = s.fw.health.getD k 0) ∧
         healthy t core = true ∧ ∀ k, k ∈ t.fw.down ↔ k ∈ s.fw.down ∧ k ≠ core) ∧
     (runs s core = false → exec (.healthWrite core) s = .next s)) ∧
  (∀ (s : State) (core : Nat),
     (core < 5 → s.fw.health.getD core 0 + 15625 < s.tick + 1 → 15625 < s.tick → s.tick < 2 ^ 48 → core ∉ s.fw.down →
       healthy s core = false ∧
       ∃ t, exec (.healthLapse core) s = .next t ∧ t = { s with fw := { s.fw with down := t.fw.down, rungs := t.fw.rungs }, beret := t.beret } ∧
         core ∈ t.fw.down ∧ (∃ e ∈ t.beret.log, e.cls = 4 ∧ e.code = 0x314 ∧ e.src = BitVec.ofNat 32 core ∧ e.tick = BitVec.ofNat 64 s.tick) ∧
         (s.fw.rungs = [] → ∃ r ∈ t.fw.rungs, r.rung = 2 ∧ r.target = core)) ∧
     (healthy s core = true ∨ core ∈ s.fw.down ∨ s.tick ≤ 15625 ∨ 5 ≤ core → exec (.healthLapse core) s = .next s)) ∧
  (∀ (s : State) (writer : Nat) (v : DWord),
     let old := s.fw.lease
     let renews := leaseValid old = true ∧ s.tick < leaseEnd old ∧ writer = leaseHolder old ∧ s.fw.demoted = false ∧
       runs s writer = true ∧ leaseHolder v = writer ∧ leaseValid v = true ∧ leaseEpoch v = leaseEpoch old ∧ leaseEnd v ≤ s.tick + 78125
     let takes := (updating s = false ∨ s.fw.updCtrl = .beret) ∧ (leaseEnd old ≤ s.tick ∨ leaseValid old = false) ∧ lowestHealthy s = some writer ∧
       runs s writer = true ∧ leaseHolder v = writer ∧ leaseEpoch v = (leaseEpoch old + 1) % 4096 ∧ leaseValid v = true
     let refused : Instr → Prop := fun i => ∃ t, exec i s = .next t ∧ t = { s with beret := t.beret } ∧
       ∃ e ∈ t.beret.log, e.cls = 4 ∧ e.code = 0x316 ∧ e.src = BitVec.ofNat 32 writer ∧ e.tick = BitVec.ofNat 64 s.tick
     (renews → ∃ t, exec (.leaseRenewal writer v) s = .next t ∧ t = { s with fw := { s.fw with lease := v } } ∧
       (s.tick < leaseEnd v → leader t = some writer)) ∧
     (¬ renews → refused (.leaseRenewal writer v)) ∧
     (takes → ∃ t, exec (.leaseTakeover writer v) s = .next t ∧ t = { s with fw := t.fw, agenda := t.agenda } ∧
       t.fw = { s.fw with lease := v, demoted := false, queued := if updating s then s.fw.queued else [], rungs := t.fw.rungs } ∧
       (s.tick < leaseEnd v → leader t = some writer) ∧
       t.fw.rungs = s.fw.rungs.map (fun r => if r.rung ≤ 4 then { r with deadline := some (s.tick + rungLimit r.rung) } else r) ∧
       t.agenda = (if updating s then [] else s.fw.queued.map (fun i => Move.event (restamp writer (leaseEpoch v) i))) ++ s.agenda) ∧
     (¬ takes → refused (.leaseTakeover writer v))) ∧
  (∀ (s : State),
     (leaseValid s.fw.lease = true → leaseEnd s.fw.lease ≤ s.tick →
       ∃ t, exec .leaseExpiry s = .next t ∧ t = { s with fw := { s.fw with rungs := t.fw.rungs }, beret := t.beret } ∧ leader t = none ∧
         t.fw.rungs = s.fw.rungs.map (fun r => if r.rung ≤ 4 then { r with deadline := none } else r) ∧
         ∃ e ∈ t.beret.log, e.cls = 4 ∧ e.code = 0x317 ∧ e.src = BitVec.ofNat 32 (leaseHolder s.fw.lease)) ∧
     (leaseValid s.fw.lease = false ∨ s.tick < leaseEnd s.fw.lease → exec .leaseExpiry s = .next s)) ∧
  (∀ (s : State) (old : DWord), s.tick + 78125 < 2 ^ 48 → (match s.fw.blob with | some b => b.lease = old | none => s.fw.lease = old) →
     (∀ h, s.fw.update = .committed ∨ s.fw.update = .reinstalled →
       (healthy s (leaseHolder old) = true ∧ h = leaseHolder old) ∨ (healthy s (leaseHolder old) = false ∧ lowestHealthy s = some h) →
       ∃ t, exec .leaseRestore s = .next t ∧ t = { s with fw := t.fw, agenda := t.agenda } ∧ leaseValid t.fw.lease = true ∧
         leaseHolder t.fw.lease = h ∧ leaseEpoch t.fw.lease = (leaseEpoch old + 1) % 4096 ∧ leaseEnd t.fw.lease = s.tick + 78125 ∧
         t.fw.update = (if s.fw.update = .committed then .ready else .rolledBack) ∧ updating t = false ∧ t.fw.blob = none ∧
         t.fw.queued = [] ∧ t.agenda = s.fw.queued.map (fun i => Move.event (restamp h ((leaseEpoch old + 1) % 4096) i)) ++ s.agenda) ∧
     (s.fw.update ≠ .committed → s.fw.update ≠ .reinstalled → exec .leaseRestore s = .next s) ∧
     (healthy s (leaseHolder old) = false → lowestHealthy s = none → exec .leaseRestore s = .next s))

/-- R315: a write of the leader under its epoch sets the register that it names (R76, R83, R84, R173, R250, R295, R315; the retry limit of
Table 14-8, which the configuration record may set too); any other writer's changes nothing; during an update it is held (R325).
R335: a virtual function owns at most one partition.
The model's: that a nonzero reserved bit of TVBASE or FTPOOL leaves the register as it is (log entry 79), that LOAD keeps what is active (log
entry 44), and how the 256 waiting requests are counted and a BUSY one is logged (log entry 48).
R180, R181, Table 8-7: a way leaves the cache only after a flush, and while no line has come into it since.
R309 to R311: LOAD, verification and SWAP of a policy program. -/
def Obligations.ManagementWrites : Prop :=
  (∀ (s : State) (writer epoch part : Nat), LeaderWrites s writer epoch →
     let sets (w : MgmtWrite) (p : Partition) : Prop := ∃ t, exec (.managementWrite writer epoch w) s = .next t ∧
       t = { s with parts := t.parts } ∧ (∀ q, q ≠ part → t.part q = s.part q) ∧ t.part part = p
     let refuses (w : MgmtWrite) : Prop := ∃ t, exec (.managementWrite writer epoch w) s = .next t ∧ t = { s with beret := t.beret }
     (∀ v, field64 v 63 55 = 0 → field64 v 7 0 = 0 → sets (.tvbase part v) { s.part part with tvbase := v }) ∧
     (∀ v, field64 v 63 55 ≠ 0 ∨ field64 v 7 0 ≠ 0 → refuses (.tvbase part v)) ∧
     (∀ v, field64 v 15 0 = 0 → sets (.ftpool part v) { s.part part with ftpool := v }) ∧
     (∀ v, field64 v 15 0 ≠ 0 → refuses (.ftpool part v)) ∧
     (∀ n, n ≤ 15 → sets (.retryLimit part n) { s.part part with retry := n }) ∧
     (∀ fn, fn ≤ 16 → fn = 0 ∨ (∀ q ∈ s.parts, q.1 ≠ part → q.2.owner ≠ fn) → sets (.owner part fn) { s.part part with owner := fn }) ∧
     (∀ fn, fn ≠ 0 → (∃ q ∈ s.parts, q.1 ≠ part ∧ q.2.owner = fn) → refuses (.owner part fn)) ∧
     (∀ pa : DWord, pa.toNat % 65536 = 0 → pa.toNat < 2 ^ 52 → sets (.pageRoot part pa) { s.part part with root := pa.toNat }) ∧
     (∀ va pa : DWord, va.toNat % 2 ^ 22 = 0 → pa.toNat % 2 ^ 22 = 0 → va.toNat < 2 ^ 55 → targetOf pa.toNat = .hbm →
       sets (.saveArea part va pa) { s.part part with savePool := (s.part part).savePool ++ [(va.toNat, pa.toNat)] }) ∧
     (∀ v : Word, fieldOf v 31 4 = 0 → fieldOf v 1 0 ≤ 1 → v.getLsbD 3 = true →
       sets (.chkmode part v) { s.part part with chkmode := v }) ∧
     (∀ v : Word, fieldOf v 31 4 = 0 → fieldOf v 1 0 ≤ 1 → v.getLsbD 3 = false →
       ∃ t, exec (.managementWrite writer epoch (.chkmode part v)) s = .next t ∧ t.part part = { s.part part with chkmode := v } ∧
         ∀ u g z x, t.team? u = some x → x.part = part → x.group? g = some z → z.xfault = 0) ∧
     (∀ core v, plimOk v = true → core < Config.coreCount →
       ∃ t, exec (.plimWrite writer epoch part core v) s = .next t ∧ t = { s with parts := t.parts } ∧
         t.part part = { s.part part with plim := (t.part part).plim } ∧
         alook (t.part part).plim core = some v ∧ ∀ k, k ≠ core → alook (t.part part).plim k = alook (s.part part).plim k)) ∧
  (∀ (s : State) (writer epoch part core slice : Nat) (w : MgmtWrite) (v : DWord) (x : Word) (f : BitVec 16),
     let all : List Instr := [.managementWrite writer epoch w, .plimWrite writer epoch part core v, .wayMaskWrite writer epoch slice x,
       .wayFlush writer epoch slice f, .policyLoad writer epoch part, .policySwap writer epoch part]
     (leader s ≠ some writer ∨ leaseEpoch s.fw.lease ≠ epoch → ∀ i ∈ all, ∃ t, exec i s = .next t ∧ t = { s with beret := t.beret }) ∧
     (leader s = some writer → leaseEpoch s.fw.lease = epoch → updating s = true → waitingRequests s < 256 →
       ∀ i ∈ all, exec i s = .next { s with fw := { s.fw with queued := s.fw.queued ++ [i] } }) ∧
     (leader s = some writer → leaseEpoch s.fw.lease = epoch → updating s = true → 256 ≤ waitingRequests s →
       ∀ i ∈ all, ∃ t, exec i s = .next t ∧ t = { s with beret := t.beret })) ∧
  (∀ (s : State) (writer epoch slice : Nat) (v : Word), LeaderWrites s writer epoch → slice < 640 → fieldOf v 31 18 = 0 →
     let x := s.slice slice
     let leaving := x.ways &&& ~~~(v.setWidth 16) &&& ~~~x.flushed
     let held := (heldWays s slice).any (x.ways &&& ~~~(v.setWidth 16)).getLsbD
     (leaving ≠ 0 ∨ held = true → ∃ t, exec (.wayMaskWrite writer epoch slice v) s = .next t ∧ t = { s with slices := t.slices } ∧
       t.slice slice = { x with refused := true } ∧ ∀ k, k ≠ slice → t.slice k = s.slice k) ∧
     (leaving = 0 → held = false → ∃ t, exec (.wayMaskWrite writer epoch slice v) s = .next t ∧ t = { s with slices := t.slices, mem := t.mem } ∧
       (t.slice slice).ways = v.setWidth 16 ∧ (t.slice slice).refused = (x.refused && !v.getLsbD 17) ∧ (∀ k, k ≠ slice → t.slice k = s.slice k) ∧
       ∀ a, a < scratchKey slice ∨ scratchKey slice + 2 ^ 19 ≤ a → t.byte a = s.byte a)) ∧
  (∀ (s : State) (writer epoch slice : Nat) (f : BitVec 16), LeaderWrites s writer epoch → slice < 640 →
     ∃ t, exec (.wayFlush writer epoch slice f) s = .next t ∧ t = { s with slices := t.slices } ∧
       t.slice slice = { s.slice slice with busy := true, flushing := (s.slice slice).flushing ||| f }) ∧
  (∀ (s : State) (slice : Nat),
     ((s.slice slice).busy = true → ∃ t, exec (.wayFlushComplete slice) s = .next t ∧
       t = { s with slices := t.slices, lines := t.lines, expects := t.expects } ∧ (t.slice slice).busy = false ∧
       (t.slice slice).flushed = (s.slice slice).flushed ||| ((s.slice slice).flushing &&& (s.slice slice).ways) ∧
       ∀ l h, alook (t.line l).holders (2048 + slice) = some h → (s.slice slice).flushing.getLsbD h.way = false) ∧
     ((s.slice slice).busy = false → exec (.wayFlushComplete slice) s = .next s)) ∧
  (∀ (s : State) (writer epoch part : Nat), LeaderWrites s writer epoch →
     let p := s.part part
     let only (i : Instr) (q : Partition → Prop) : Prop := ∃ t, exec i s = .next t ∧ t = { s with parts := t.parts } ∧
       (∀ k, k ≠ part → t.part k = s.part k) ∧ t.part part = { p with ppol := (t.part part).ppol } ∧ q (t.part part)
     only (.policyLoad writer epoch part) (fun r => r.ppol.getLsbD 33 = true ∧ r.ppol.getLsbD 32 = false ∧ r.ppol.getLsbD 34 = false) ∧
     (p.ppol.getLsbD 33 = true → only (.policyVerifyEnd part) (fun r => r.ppol.getLsbD 33 = false ∧
       field64 r.ppol 47 39 = (verifyImage p.shadowImage).2 % 512 ∧
       ((verifyImage p.shadowImage).1 = 0 → r.ppol.getLsbD 32 = true) ∧
       ((verifyImage p.shadowImage).1 ≠ 0 → r.ppol.getLsbD 34 = true ∧ field64 r.ppol 38 35 = (verifyImage p.shadowImage).1 % 16))) ∧
     (p.ppol.getLsbD 33 = false → p.ppol.getLsbD 32 = true → only (.policySwap writer epoch part) (fun r =>
       r.gen = (p.gen + 1) % 2 ^ 16 ∧ r.active = !p.active ∧ r.ppol.getLsbD 27 = true ∧ r.ppol.getLsbD 32 = p.ppol.getLsbD 27 ∧
       r.ppol.getLsbD 29 = false ∧ field64 r.ppol 31 30 = 0)))

/-! ### The reset ladder -/

/-- R320, Tables 15-3 to 15-5: the triggers of the rungs, and the rung that follows one past its limit.
R321: rung 1 empties its queue and restarts it, rung 2 clears its die's decision and asks for rung 3 where its launch tables are bad, and a
leader that it resets is a follower; rung 3 empties its partition, rung 4 its die, rung 5 ends every launch, whatever is under way,
and keeps the pool, the host's memory and the tick, rung 6 restarts the device. R326: rungs 5 and 6 wait for the close of an update.
R263: a halted core is released first, with its log entry. R334: a die that has not cooled stays in reset. R22, R332: what power-on and power
loss leave; the event log outlives a reset.
The model's: what HBM and scratch bytes read as after a reset (`memRest`, log entry 8); that a rung is one step, and that rung 4 leaves
CLUSTER_RESET_NOTICE on the agenda (log entry 47). -/
def Obligations.ResetLadder : Prop :=
  (∀ (s : State) (part queue : Nat), (leader s).isSome = true → updating s = false → (alook (s.part part).queues queue).isSome = true →
     ∃ t, exec (.rung1 part queue) s = .next t ∧ (∀ l ∈ t.launches, l.2.part ≠ part ∨ l.2.queue ≠ queue) ∧
       ((t.part part).queue queue).rd = ((s.part part).queue queue).wr ∧ ((t.part part).queue queue).en = true ∧
       ((t.part part).queue queue).wait = none ∧ ∀ r ∈ t.fw.rungs, r.rung = 1 → r.target ≠ queueTarget part queue) ∧
  (∀ (s : State) (die : Nat), (leader s).isSome = true → updating s = false → die < s.fronts.length →
     ∃ t, exec (.rung2 die) s = .next t ∧ t = { s with parts := t.parts, fronts := t.fronts, fw := t.fw, beret := t.beret } ∧
       (t.front die).deciding = none ∧ (t.front die).paused = false ∧ (t.front die).tableBad = false ∧
       (∀ d, d ≠ die → t.front d = s.front d) ∧ (leader s = some die → leader t = none) ∧
       ((s.front die).tableBad = true → (∀ r ∈ s.fw.rungs, r.rung = 2 ∧ r.target = die) →
         ∀ l ∈ s.launches, l.2.die = die → ∃ r ∈ t.fw.rungs, r.rung = 3 ∧ r.target = l.2.part)) ∧
  (∀ (s : State) (part : Nat), (leader s).isSome = true → updating s = false →
     ∃ t, exec (.rung3 part) s = .next t ∧ (∀ l ∈ t.launches, l.2.part ≠ part) ∧
       (∀ c, ∀ b ∈ (t.core c).banks, b.part ≠ some part) ∧ ∀ r ∈ t.fw.rungs, r.rung = 3 → r.target ≠ part) ∧
  (∀ (s : State) (die : Nat), (leader s).isSome = true → updating s = false → die < 4 →
     ∃ t, exec (.rung4 die) s = .next t ∧ (∀ l ∈ t.launches, l.2.die ≠ die) ∧
       (∀ c, c < 1536 → dieOf c = die → t.core c = Core.idle) ∧ (∀ d, d < 640 → d / 160 = die → t.slice d = Slice.idle) ∧
       t.agenda = .event (.clusterResetNotice die 0) :: .event (.clusterResetNotice die 1) :: s.agenda) ∧
  (∀ (s : State) (part queue die : Nat), leader s = none ∨ updating s = true →
     exec (.rung1 part queue) s = .next s ∧ exec (.rung2 die) s = .next s ∧ exec (.rung3 part) s = .next s ∧ exec (.rung4 die) s = .next s) ∧
  (∀ (s : State),
     let fresh : State → Prop := fun t => t.teams = [] ∧ t.cores = [] ∧ t.held = [] ∧ t.launches = [] ∧ t.grids = [] ∧
       t.flits = [] ∧ t.lines = [] ∧ t.slices = [] ∧ t.quarantine = [] ∧ t.fw.lease = 0 ∧
       t.fw.fwA = s.fw.fwA ∧ t.fw.fwB = s.fw.fwB ∧ t.fw.beretA = s.fw.beretA ∧ t.fw.beretB = s.fw.beretB ∧
       (s.fw.configOk = true → ∀ d, d < 4 → (t.front d).inReset = ((s.front d).inReset && decide (s.beret.coolLimit ≤ hottest s.beret.readings d))) ∧
       ∀ a, a < poolBase → t.byte a = memRest
     let outer : State → Prop := fun t => ∀ a, poolBase ≤ a → t.byte a = s.byte a
     let idle : Prop := s.launches = [] ∧ asorted s.parts = true ∧ ∀ p ∈ s.parts, ∀ q ∈ p.2.queues, q.2.wait = none
     let logged : State → Prop := fun t =>
       (s.cores = [] → s.beret.log.length + 8 ≤ flashRing → ∀ e ∈ s.beret.log, e ∈ t.beret.log) ∧
       ∀ c k, s.cores = [(c, k)] → k.debugHalt = true → ∃ e ∈ t.beret.log, e.cls = 7 ∧ e.code = 0x264 ∧ e.src = BitVec.ofNat 32 c
     (updating s = false → ∃ t, exec .rung5 s = .next t ∧ fresh t ∧ t.tick = s.tick ∧ t.powered = true ∧
       ((∀ p q, ((s.part p).queue q).seed = none) → outer t) ∧
       (idle → logged t ∧ ∀ p, t.part p = { Partition.idle with lost := (s.part p).lost }) ∧
       ∀ k l, s.launches = [(k, l)] → s.grids = [] → s.reports = [] → unseenReports s = [] →
         (∀ p ∈ s.parts, ∀ q ∈ p.2.queues, ((s.part p.1).queue q.1).wait = none) →
         (⟨l.part, l.tag, 0, false, true, 5, 0x104, l.queue, s.tick⟩ : Report) ∈ t.reports) ∧
     (updating s = false → ∃ t, exec .rung6 s = .next t ∧ fresh t ∧ outer t ∧ logged t ∧ t.parts = [] ∧ t.tick = 0 ∧ t.powered = true) ∧
     (updating s = true → exec .rung5 s = .next s ∧ exec .rung6 s = .next s) ∧
     (∃ t, exec .powerOn s = .next t ∧ fresh t ∧ outer t ∧ t.parts = [] ∧ t.tick = 0 ∧ t.powered = true ∧ ∃ r ∈ t.fw.rungs, r.rung = 6) ∧
     ∃ t, exec .powerLoss s = .next t ∧ fresh t ∧ outer t ∧ t.parts = [] ∧ t.powered = false) ∧
  (∀ (s : State) (die other core : Nat), RungAsked .perst s 6 0 ∧ RungAsked .pfFlr s 5 0 ∧ RungAsked .beretFault s 6 0 ∧
     (core < 5 → RungAsked (.firmwareCoreWatchdog core) s 2 core) ∧
     (die < 4 → RungAsked (.frontEndHardwareError die) s 2 die ∧ RungAsked (.dieStructureUncorrectableError die) s 4 die) ∧
     (die < 4 → other ≠ die → RungAsked (.linkDown die other) s 4 die)) ∧
  (∀ (s : State) (vf : Nat), vf ≠ 0 → s.fw.rungs = [] →
     ∃ t, exec (.vfFlr vf) s = .next t ∧ t = { s with fw := t.fw, beret := t.beret } ∧
       ∀ p ∈ s.parts, p.2.owner = vf → ∃ r ∈ t.fw.rungs, r.rung = 3 ∧ r.target = p.1) ∧
  (∀ (s : State) (r : RungRun) (d : Nat), s.fw.rungs = [r] → r.deadline = some d → d < s.tick → updating s = false →
     let next (n u : Nat) : Prop := ∃ t, exec .rungTimeout s = .next t ∧ t.mem = s.mem ∧ t.teams = s.teams ∧
       ∃ q ∈ t.fw.rungs, q.rung = n ∧ q.target = u
     (r.rung = 1 → next 3 (r.target / 64)) ∧ (r.rung = 2 → r.target < 4 → next 4 r.target) ∧
     (r.rung = 2 → 4 ≤ r.target → next 5 0) ∧ (r.rung = 3 ∨ r.rung = 4 → next 5 0) ∧ (r.rung = 5 → next 6 0))

/-! ### Beret -/

/-- Table 15-7, R330, R331, R335: what each mailbox command answers and changes, and who reaches it: a virtual function reaches QPARAM,
POLICY and RESET of rungs 1 and 3 for its own partition. R309, R311: POLICY writes the shadow slot and loads it, or swaps. R324: a Beret
without a verified image answers nothing.
The model's: the class, code and source of the events of a halt (log entry 42), refusing a POWERLIM above the configured limit (log entry
49), and the layout of the attestation report (log entry 50). -/
def Obligations.MailboxCommands : Prop :=
  (∀ (s : State) (fn start code : Nat) (nonce : List Byte), s.fw.beretRun = true → s.fw.mgmtOnly = false →
     (fn ≤ 16 → Answers (.status fn) s
       (.status s.fw.update s.fw.fwActive s.fw.beretActive (rungNow s) (leaseHolder s.fw.lease))) ∧
     (fn ≤ 16 → Answers (.sensors fn) s (.sensors s.beret.readings (s.fronts.map (·.throttle)))) ∧
     Answers (.readlog 0 start) s (.log (s.beret.log.drop (start - (s.beret.logCount - s.beret.log.length)))) ∧
     (fn ≤ 16 → s.fw.keyValid = true → nonce.length = 32 → Answers (.attest fn nonce) s
       (.attest (attestReport s fn nonce) (Config.attestSignature (attestReport s fn nonce)) Config.identityPublic)) ∧
     (fn ≤ 16 → s.fw.keyValid = false → Answers (.attest fn nonce) s .noKey) ∧
     Answers (.unknownCommand fn code) s .unknown) ∧
  (∀ (s : State) (fn core watts offset start code : Nat) (h : Bool) (c : Controller) (bs : List Byte) (r : Readings), s.fw.beretRun = false →
     ∀ i ∈ [Instr.status fn, .sensors fn, .readlog fn start, .attest fn bs, .writeimg fn c offset bs, .verify fn c, .activate fn c,
       .powerlim fn watts, .debug fn core h, .unknownCommand fn code, .sensorSample r], exec i s = .next s) ∧
  (∀ (s : State) (fn core watts offset start : Nat) (h : Bool) (c : Controller) (bs : List Byte), s.fw.beretRun = true → fn ≠ 0 →
     ∀ i ∈ [Instr.readlog fn start, .writeimg fn c offset bs, .verify fn c, .activate fn c, .powerlim fn watts, .debug fn core h],
       Answers i s .unknown) ∧
  (∀ (s : State) (watts core : Nat) (h : Bool),
     (watts ≤ s.beret.cfgLimit → Commands (.powerlim 0 watts) s .ok (fun t => t.beret.powerLim = watts ∧ t = { s with beret := t.beret })) ∧
     (s.beret.cfgLimit < watts → Commands (.powerlim 0 watts) s .refused (fun t => t.beret.powerLim = s.beret.powerLim ∧ t.teams = s.teams)) ∧
     (core < 1536 → Commands (.debug 0 core h) s .ok (fun t => t = { s with cores := t.cores, beret := t.beret, teams := t.teams } ∧
       t.core core = { s.core core with debugHalt := h } ∧ (∀ k, k ≠ core → t.core k = s.core k) ∧ (h = false → t.teams = s.teams) ∧
       (∃ e ∈ t.beret.log, e.cls = 7 ∧ e.code = (if h then 0x263 else 0x264) ∧ e.src = BitVec.ofNat 32 core) ∧
       ∀ u x, s.team? u = some x → ∃ m, t.team? u = some m ∧ m = { x with groups := m.groups } ∧ (x.core ≠ core → m = x) ∧
         ∀ g y, x.group? g = some y → ∃ z, m.group? g = some z ∧ z = { y with passes := z.passes, starving := z.starving } ∧
           (h = true → x.core = core → z.passes = 0 ∧ z.starving = none)))) ∧
  (∀ (s : State) (by' part queue quota deadline weight : Nat) (x : Partition), alook s.parts part = some x → by' = 0 ∨ (by' ≤ 16 ∧ x.owner = by') →
     ((alook (s.part part).queues queue).isSome = true → weight ≤ 255 → Commands (.qparam by' part queue quota deadline weight) s .ok
       (fun t => t.teams = s.teams ∧ (t.part part).queue queue =
         { (s.part part).queue queue with quota := quota, deadline := deadline, weight := weight })) ∧
     (∀ image : List Word, image.length ≤ 513 → (s.part part).ppol.getLsbD 33 = false →
       Commands (.policy by' part image false) s .ok (fun t => t.teams = s.teams ∧ (t.part part).ppol.getLsbD 33 = true ∧
         (t.part part).ppol.getLsbD 32 = false ∧ (t.part part).activeImage = (s.part part).activeImage ∧
         ∀ i, i < image.length → (t.part part).shadowImage.getD i 0 = image.getD i 0)) ∧
     ((s.part part).ppol.getLsbD 33 = false → (s.part part).ppol.getLsbD 32 = true →
       Commands (.policy by' part [] true) s .ok (fun t => t.teams = s.teams ∧ (t.part part).active = !(s.part part).active ∧
         (t.part part).gen = ((s.part part).gen + 1) % 2 ^ 16)) ∧
     ((s.part part).ppol.getLsbD 33 = false → (s.part part).ppol.getLsbD 32 = false →
       Commands (.policy by' part [] true) s .refused (fun t => t.teams = s.teams ∧ ∀ p, t.part p = s.part p)) ∧
     (∀ rung sub u, rung = 1 ∨ rung = 3 → rungTarget s rung part sub = some u →
       Commands (.reset by' rung part sub) s .ok (fun t => t.teams = s.teams ∧ (s.fw.rungs = [] → ∃ r ∈ t.fw.rungs, r.rung = rung ∧ r.target = u))) ∧
     (∀ fn i, i ∈ [Instr.qparam fn part queue quota deadline weight, .policy fn part [] false] → fn ≠ 0 → fn ≤ 16 → x.owner ≠ fn →
       s.fw.beretRun = true → s.fw.mgmtOnly = false → Answers i s .refused)) ∧
  (∀ (s : State) (rung target sub u : Nat), s.fw.beretRun = true → s.fw.mgmtOnly = false → rungTarget s rung target sub = some u → gateRequest s = .go →
     ∃ t, exec (.reset 0 rung target sub) s = .next t ∧ t.mem = s.mem ∧ t.teams = s.teams ∧
       t.beret.replies = s.beret.replies ++ [.ok] ∧ (s.fw.rungs = [] → ∃ r ∈ t.fw.rungs, r.rung = rung ∧ r.target = u))

/-- R324 to R329: WRITEIMG and VERIFY work on the inactive slot; ACTIVATE captures the blob and pauses dispatch; the new image's
commit flips the active slot; a rejected blob or the watchdog rolls back; a pause ends by its timer. A blob is rejected whose MAGIC or digest
is wrong, or in which a live launch, grid or queue is missing.
R332, R334: a sensor sample is kept, and throttles; of the event log what is 10 ms old has reached flash.
The model's: what an update pauses and when (log entry 48), the contents of headers, records and sections (free values, log entry 6), and the
sensors' units (log entry 49). -/
def Obligations.UpdatesAndSensors : Prop :=
  (∀ (s : State) (c : Controller) (offset : Nat) (bs : List Byte), c ≠ .config →
     Commands (.writeimg 0 c offset bs) s .ok (fun t => t.teams = s.teams ∧ (t.fw.inactive c).verified = false ∧ t.fw.active c = s.fw.active c ∧
       (∀ i, i < bs.length → alook (t.fw.inactive c).body (offset + i) = bs[i]?) ∧
       ∀ o, o < offset ∨ offset + bs.length ≤ o → alook (t.fw.inactive c).body o = alook (s.fw.inactive c).body o) ∧
     (verifies s (controllerNo c) (s.fw.inactive c) = true →
       Commands (.verify 0 c) s .ok (fun t => t.teams = s.teams ∧ (t.fw.inactive c).verified = true ∧ (t.fw.inactive c).body = (s.fw.inactive c).body)) ∧
     (verifies s (controllerNo c) (s.fw.inactive c) = false →
       Commands (.verify 0 c) s .refused (fun t => t.teams = s.teams ∧ (t.fw.inactive c).verified = false)) ∧
     ((s.fw.inactive c).verified = true → Commands (.activate 0 c) s .ok (fun t => t.teams = s.teams ∧ t.fw.update = .captured ∧ t.fw.updCtrl = c ∧
       (∀ f ∈ t.fronts, f.paused = true ∧ f.pauseSince = s.tick) ∧
       (c = .fw → ∃ b, t.fw.blob = some b ∧ b.lease = s.fw.lease ∧ b.parts = s.parts ∧ b.launches = s.launches ∧ b.grids = s.grids ∧
         b.health = s.fw.health ∧ b.slices = s.slices ∧ b.records = s.reports ∧ b.pending = s.fw.queued ∧ t.fw.sram = blobBytes b))) ∧
     ((s.fw.inactive c).verified = false → Commands (.activate 0 c) s .refused (fun t => t.teams = s.teams ∧ t.fw = s.fw))) ∧
  (∀ (s : State), s.fw.update = .installing →
     (s.fw.updCtrl = .fw → (∀ d, d < 4 → s.pausedOn d = true) →
       ∃ t, exec (.blobInstall true) s = .next t ∧ t.mem = s.mem ∧ t.teams = s.teams ∧ t.parts = s.parts ∧
         (blobAccepted s = true → t.fw.update = .committed ∧ t.fw.fwActive = !s.fw.fwActive ∧ t.launches = s.launches ∧
           ∀ f ∈ t.fronts, f.paused = false) ∧
         (blobAccepted s = false → t.fw.update = .rollingBack ∧ t.fw.fwActive = s.fw.fwActive)) ∧
     (s.fw.updCtrl = .beret → s.fw.blob = none → (∀ d, d < 4 → s.pausedOn d = true) →
       ∃ t, exec (.blobInstall true) s = .next t ∧ t.mem = s.mem ∧ t.teams = s.teams ∧ t.parts = s.parts ∧ t.fw.update = .ready ∧
         t.fw.beretActive = !s.fw.beretActive ∧ t.fw.fwActive = s.fw.fwActive ∧ ∀ f ∈ t.fronts, f.paused = false) ∧
     (∀ b, s.fw.blob = some b → numAt s.fw.sram 0 4 ≠ 0x48425848 ∨
       (s.fw.sram.drop 16).take 64 ≠ bytesOf 64 (Config.sha3 (s.fw.sram.drop 128)).toNat ∨
       (∃ e ∈ s.launches, alook b.launches e.1 = none) ∨ (∃ e ∈ s.grids, alook b.grids e.1 = none) → blobAccepted s = false) ∧
     (∀ ok, ok = false ∨ blobAccepted s = false →
       ∃ t, exec (.blobInstall ok) s = .next t ∧ t.fw.update = .rollingBack ∧ t.fw.fwActive = s.fw.fwActive ∧ t.mem = s.mem ∧
         t.teams = s.teams ∧ t.parts = s.parts) ∧
     (s.fw.watchdog ≤ s.tick →
       ∃ t, exec .updateWatchdogExpiry s = .next t ∧ t.fw.update = .rollingBack ∧ t.fw.fwActive = s.fw.fwActive ∧ t.mem = s.mem ∧
         t.teams = s.teams) ∧
     (s.tick < s.fw.watchdog → exec .updateWatchdogExpiry s = .next s)) ∧
  (∀ (s : State) (die : Nat), die < 4 → die < s.fronts.length → (s.front die).paused = true →
     ((s.front die).pauseSince + 7813 ≤ s.tick →
       ∃ t, exec (.pauseTimerExpiry die) s = .next t ∧ t = { s with fronts := t.fronts, fw := { s.fw with pausedHalf := t.fw.pausedHalf } } ∧
         t.front die = { s.front die with paused := false } ∧ ∀ d, d ≠ die → t.front d = s.front d) ∧
     (s.tick < (s.front die).pauseSince + 7813 → exec (.pauseTimerExpiry die) s = .next s)) ∧
  (∀ (s : State) (r : Readings), s.fronts.length = 4 → s.fw.beretRun = true →
     let b := s.beret
     let limit := min 2800 (min s.beret.cfgLimit s.beret.powerLim)
     ∃ t, exec (.sensorSample r) s = .next t ∧ t.mem = s.mem ∧ t.teams = s.teams ∧ t.beret.readings = r ∧
       t.beret.logCount - (t.beret.log.filter (fun e => decide (e.tick.toNat ≤ s.tick ∧ s.tick < e.tick.toNat + 78125))).length ≤ t.beret.flash ∧
       ∀ die, die < 4 →
         (b.hotLimit ≤ hottest r die → 8 ≤ (t.front die).throttle) ∧
         (hottest r die < b.hotLimit → limit < r.power → (t.front die).throttle = min 15 ((s.front die).throttle + 1)) ∧
         (hottest r die < b.hotLimit → r.power ≤ limit → (t.front die).throttle = (s.front die).throttle ∨
           (100 * r.power ≤ 95 * limit ∧ (t.front die).throttle = (s.front die).throttle - 1)) ∧
         (b.critLimit ≤ hottest r die → (s.front die).inReset = false → (t.front die).inReset = true) ∧
         (b.coolLimit ≤ hottest r die → hottest r die < b.critLimit → (t.front die).inReset = (s.front die).inReset))

/-! ### Words, steps and memory -/

/-- R88 to R99: decoding the word of a well-formed instruction gives the instruction back, every operand at every value. -/
def Obligations.DecodeOfEncode : Prop := ∀ (i : Instr) (w : Word), i.wf = true → encode i = some w → decode w = .instr i

/-- R92: a word that decodes is the one word of its instruction, which is well formed; a word is refused by check 1 exactly when
its opcode is not assigned, and by check 2 otherwise. -/
def Obligations.WordsHaveOneMeaning : Prop :=
  (∀ (w : Word) (i : Instr), decode w = .instr i → i.wf = true ∧ encode i = some w) ∧
  (∀ w : Word, decode w = .illegalInstruction ↔ opAssigned (w.toNat / 2 ^ 23 % 256) = false) ∧
  (∀ w : Word, decode w = .illegalEncoding ↔ opAssigned (w.toNat / 2 ^ 23 % 256) = true ∧ ∀ i : Instr, i.wf = true → encode i ≠ some w)

/-- Tables 3-4, 3-13, 4-2 and 4-3: words written out field by field decode to the instructions that they stand for.
Tables 5-1, 5-6 and 5-7, R109, R110, R112, R113, R115, R117, R121 to R123, R125, R126, R128: results of the lanes' arithmetic worked out
by hand: the exact result rounded once under each mode, ties, subnormals, overflow with and without saturation, NaNs and NaR, the E4M3
boundary of R115, the block of R117's example, the encodings of Table 5-6, special values and integers in conversion. -/
def Obligations.SampleWordsAndNumbers : Prop :=
  decode 0b0_00000001_00_0000101_0000010_0000011 = .instr (.sadd false 5 2 3) ∧
  decode 0b1_00001101_10_0000001_0000010_0000011 = .instr (.scmp true .lt 1 2 3) ∧
  decode 0b0_00010000_00_0000101_11111111111111 = .instr (.saddi false 5 (-1)) ∧
  decode 0b0_01000000_00_0000101_0000010_0000011 = .instr (.vadd false 5 2 3) ∧
  decode 0b1_01010101_00_0000101_0000010_0001010 = .instr (.vcvt true 5 2 .bf16) ∧
  decode 0b1_11010001_1_011_1111111111111111110 = .instr (.brk true 3 (-2)) ∧
  decode 0b1_11010000_0000000_1111111111111111 = .instr (.bru (-1)) ∧
  decode 0b1_11100001_00_0000000_00000000101010 = .instr (.trap 42) ∧
  decode 0b0_00000000_00_0000101_0000010_0000011 = .illegalInstruction ∧
  decode 0b0_00000001_01_0000101_0000010_0000011 = .illegalEncoding ∧
  laneAdd ⟨.fp32, .rne, false⟩ false 0x3F800000 0x33800000 = (0x3F800000, flNX) ∧
  laneAdd ⟨.fp32, .rne, false⟩ false 0x3F800001 0x33800000 = (0x3F800002, flNX) ∧
  laneAdd ⟨.fp32, .rtz, false⟩ false 0x3F800001 0x33800000 = (0x3F800001, flNX) ∧
  laneAdd ⟨.fp32, .rup, false⟩ false 0x3F800000 0x33800000 = (0x3F800001, flNX) ∧
  laneAdd ⟨.fp32, .rup, false⟩ true 0xBF800000 0x33800000 = (0xBF800000, flNX) ∧
  laneAdd ⟨.fp32, .rdn, false⟩ true 0xBF800000 0x33800000 = (0xBF800001, flNX) ∧
  laneAdd ⟨.fp32, .rne, false⟩ true 0x3F800000 0x3F800000 = (0, 0) ∧
  laneAdd ⟨.fp32, .rdn, false⟩ true 0x3F800000 0x3F800000 = (0x80000000, 0) ∧
  laneMul ⟨.fp32, .rne, false⟩ 0x00800000 0x3F000000 = (0x00400000, 0) ∧
  laneMul ⟨.fp32, .rne, false⟩ 0x00000001 0x3F000000 = (0, flUF ||| flNX) ∧
  laneMul ⟨.fp32, .rup, false⟩ 0x00000001 0x3F000000 = (1, flUF ||| flNX) ∧
  laneFma ⟨.fp32, .rne, false⟩ 0x3F800001 0x3F800001 0xBF800002 = (0x28800000, 0) ∧
  laneAdd ⟨.fp32, .rne, true⟩ false 0x7F7FFFFF 0x7F7FFFFF = (0x7F7FFFFF, flSAT ||| flNX) ∧
  laneAdd ⟨.fp32, .rne, false⟩ false 0x7F7FFFFF 0x7F7FFFFF = (0x7F800000, flOF ||| flNX) ∧
  laneAdd ⟨.fp32, .rtz, false⟩ false 0x7F7FFFFF 0x7F7FFFFF = (0x7F7FFFFF, flOF ||| flNX) ∧
  laneAdd ⟨.fp32, .rup, false⟩ false 0xFF7FFFFF 0xFF7FFFFF = (0xFF7FFFFF, flOF ||| flNX) ∧
  laneAdd ⟨.fp32, .rdn, false⟩ false 0xFF7FFFFF 0xFF7FFFFF = (0xFF800000, flOF ||| flNX) ∧
  laneCvt ⟨.fp32, .rne, true⟩ .e4m3 0x43F00000 = (0x7E, flSAT ||| flNX) ∧
  laneCvt ⟨.fp32, .rtz, false⟩ .e4m3 0x43F00000 = (0x7F, flOF ||| flNX) ∧
  laneCvt ⟨.fp32, .rne, false⟩ .e2m1 0x41000000 = (7, flOF ||| flNX) ∧
  laneAdd ⟨.fp32, .rne, false⟩ false 0x7F800001 0x3F800000 = (0x7FC00000, flNV) ∧
  laneAdd ⟨.fp32, .rne, false⟩ false 0xFFC00001 0x3F800000 = (0x7FC00000, 0) ∧
  laneAdd ⟨.fp32, .rne, false⟩ true 0x7F800000 0x7F800000 = (0x7FC00000, flNV) ∧
  laneMul ⟨.fp16, .rne, false⟩ 0x0000 0x7C00 = (0x7E00, flNV) ∧
  laneSpecial ⟨.fp32, .rne, false⟩ .rcp 0x80000000 = (0xFF800000, flDZ) ∧
  laneSpecial ⟨.fp32, .rne, false⟩ .sqrt 0xBF800000 = (0x7FC00000, flNV) ∧
  laneMinMax ⟨.fp32, .rne, false⟩ false 0x00000000 0x80000000 = (0x80000000, 0) ∧
  laneMinMax ⟨.fp32, .rne, false⟩ true 0x7FC00000 0xBF800000 = (0xBF800000, 0) ∧
  laneCmp ⟨.fp32, .rne, false⟩ .lt 0x7FC00000 0x3F800000 = (false, flNV) ∧
  laneCmp ⟨.fp32, .rne, false⟩ .ne 0x7FC00000 0x7FC00000 = (true, 0) ∧
  laneCmp ⟨.fp32, .rne, false⟩ .eq 0x80000000 0x00000000 = (true, 0) ∧
  (quantiseMX .e4m3 8 [.fin ⟨false, 464, 0, false⟩, .fin ⟨false, 465, 0, false⟩] .rne) = (127, [(0x7E, flNX), (0x7E, flSAT ||| flNX)]) ∧
  (quantiseBX 2 ([0x40400000, 0xBECCCCCD, 0x3F666666, 0].map (decodeVal .fp32)) .rne) = (128, [(1, flSAT ||| flNX), (0, flNX), (0, flNX), (0, 0)]) ∧
  laneCvt ⟨.fp32, .rne, false⟩ .tf16 0x3F800000 = (0x4000, 0) ∧
  laneCvt ⟨.fp32, .rne, false⟩ .tf16 0x40400000 = (0x5800, 0) ∧
  laneCvt ⟨.fp32, .rne, false⟩ .tf16 0xBEC00000 = (0xA800, 0) ∧
  laneCvt ⟨.fp32, .rne, false⟩ .tf16 0x4C800000 = (0x7FFE, 0) ∧
  laneCvt ⟨.fp32, .rne, false⟩ .tf16 0x4D800000 = (0x7FFF, 0) ∧
  laneCvt ⟨.fp32, .rne, false⟩ .tf16 0x31800000 = (0x0001, 0) ∧
  laneCvt ⟨.fp32, .rup, false⟩ .tf16 0x4D000000 = (0x7FFE, flNX) ∧
  laneCvt ⟨.fp32, .rne, false⟩ .tf16 0x2EDBE6FF = (0x0001, flNX) ∧
  laneCvt ⟨.fp32, .rne, false⟩ .tf8 0x3FC00000 = (0x50, 0) ∧
  laneAdd ⟨.tf16, .rne, false⟩ false 0x8000 0x4000 = (0x8000, 0) ∧
  laneSpecial ⟨.tf16, .rne, false⟩ .rcp 0 = (0x8000, flNR ||| flDZ) ∧
  laneMinMax ⟨.tf16, .rne, false⟩ false 0x8000 0x4000 = (0x8000, 0) ∧
  laneMinMax ⟨.tf16, .rne, false⟩ true 0x8000 0xC000 = (0xC000, 0) ∧
  laneCmp ⟨.tf16, .rne, false⟩ .lt 0x8000 0xFFFF = (true, 0) ∧
  laneCvt ⟨.fp32, .rne, false⟩ .tf16 0x7FC00000 = (0x8000, 0) ∧
  laneCvt ⟨.fp32, .rne, false⟩ .tf16 0xFF800000 = (0x8000, flNR) ∧
  laneCvt ⟨.fp32, .rne, false⟩ .i32 0x7FC00000 = (0, flNV) ∧
  laneCvt ⟨.fp32, .rne, true⟩ .i8 0x7F800000 = (127, flSAT) ∧
  laneCvt ⟨.fp32, .rne, false⟩ .i8 0x7F800000 = (0, flNV) ∧
  laneCvt ⟨.fp32, .rne, true⟩ .e4m3 0xFF800000 = (0xFE, flSAT) ∧
  laneCvt ⟨.fp32, .rne, false⟩ .e4m3 0xFF800000 = (0x7F, flNV) ∧
  laneCvt ⟨.fp32, .rne, false⟩ .e2m1 0xFF800000 = (0xF, flNV) ∧
  laneCvt ⟨.tf16, .rne, false⟩ .fp32 0x8000 = (0x7FC00000, 0) ∧
  laneCvt ⟨.fp32, .rne, false⟩ .fp16 0x80000000 = (0x8000, 0) ∧
  laneCvt ⟨.fp32, .rne, false⟩ .i32 0x40200000 = (2, flNX) ∧
  laneCvt ⟨.fp32, .rup, false⟩ .i32 0x40200000 = (3, flNX) ∧
  laneCvt ⟨.fp32, .rne, true⟩ .i8 0x43960000 = (127, flSAT) ∧
  laneCvt ⟨.fp32, .rne, false⟩ .i8 0x43960000 = (44, flNV) ∧
  laneCvt ⟨.tf32, .rne, false⟩ .fp32 0x7FFFFFFF = (0x7F800000, flOF ||| flNX) ∧
  laneCvt ⟨.tf32, .rne, false⟩ .fp32 0x00000001 = (0, flUF ||| flNX) ∧
  laneCvt ⟨.tf32, .rup, false⟩ .fp32 0x00000001 = (1, flUF ||| flNX) ∧
  kGroup .fp32 (.zero false) [.fin ⟨false, 1, 28, false⟩, .fin ⟨false, 1, 0, false⟩] [.fin ⟨false, 1, 28, false⟩, .fin ⟨false, 1, 0, false⟩] = (decodeVal .fp32 0x5B800000, flNX)

/-- R90, R92, R436: a step takes the first move of the agenda. A port's move runs the instruction of the group that the port
chooses, as the decoder reads it from the word at the group's place; an event runs as it is; while power is off only POWER_ON
runs. Around it go the cycles that PERF may count, what the instruction's results depend on, and the counters that are to be read again.
The agenda is the model's own (log entry 17). -/
def Obligations.StepRunsTheInstruction : Prop :=
  (∀ (s : State) (c p : Nat) (rest : List Move), s.powered = true → s.agenda = .issue c p :: rest →
     let b := passCycles { s with agenda := rest }
     (∀ s' i, portIssue b c p = some (s', i) → Machine.step s = afterIssue s' i (exec i s')) ∧
     (portIssue b c p = none → Machine.step s = .next b)) ∧
  (∀ (s : State) (e : Instr) (rest : List Move), s.agenda = .event e :: rest → s.powered = true ∨ e = .powerOn →
     let b := passCycles { s with agenda := rest }
     Machine.step s = afterMove b (exec e { b with cur := none })) ∧
  (∀ (s : State) (m : Move) (rest : List Move), s.agenda = m :: rest → s.powered = false → m ≠ .event .powerOn →
     Machine.step s = .next { s with agenda := rest }) ∧
  (∀ (s : State) (c p t g key : Nat) (x : Site) (w : Word) (i : Instr), s.sleeping = false →
     ((s.core c).ports.getD p Port.idle).holder = some (t, g) → siteOf s t g = some x → x.gr.rep = none → x.gr.xop = none →
     mayIssue s x = true → fetchAt s x = .word key w → decode w = .instr i → (∀ o ∈ x.gr.done, o.stat = none) →
     ∃ s', portIssue s c p = some (s', i) ∧
       s' = { s with cur := some (t, g), cores := s'.cores, lines := s'.lines, dirs := s'.dirs, expects := s'.expects, probes := s'.probes } ∧
       ∀ k, s'.core k = { s.core k with tlb := (s'.core k).tlb }) ∧
  (∀ s : State, (∀ e ∈ s.teams, ∀ p ∈ e.2.perf, countsCycles p.2 = false) → passCycles s = s) ∧
  (∀ (b t : State) (i : Instr), ∃ u, afterIssue b i (.next t) = .next (noteWritten b u) ∧ u = { t with teams := u.teams, cores := u.cores } ∧
     (∀ k, ∃ l, u.core k = { t.core k with log := l } ∧
       l.map (fun e => { e with deps := [] }) = (t.core k).log.map (fun e => { e with deps := [] })) ∧
     ∀ v g y, t.group? v g = some y → ∃ z, u.group? v g = some z ∧ z = { y with deps := z.deps, ops := z.ops } ∧
       z.ops.map (fun o => { o with deps := [] }) = y.ops.map (fun o => { o with deps := [] })) ∧
  (∀ (b t : State), afterMove b (.next t) = .next (noteWritten b t) ∧ (waitKeys t = [] → noteWritten b t = t) ∧
     ∃ due agenda, noteWritten b t = { t with due := due, agenda := agenda })

/-- Every step keeps memory in its canonical form: addresses strictly rising, no entry equal to what an unlisted address reads
as. -/
def Obligations.MemoryFormKept : Prop :=
  ∀ (s t : State), Memory.wf s.mem → Machine.step s = .next t → Memory.wf t.mem

/-- R4, R269, R316, R320: what reset leaves: tick 0, no team, no lease, every way cache, and memory in its canonical form with
nothing listed. That an unlisted byte reads as 0 is the model's choice (log entry 8). -/
def Obligations.ResetState : Prop :=
  Memory.wf State.reset.mem ∧ State.reset.tick = 0 ∧ State.reset.teams = [] ∧ State.reset.held = [] ∧
  leaseValid State.reset.fw.lease = false ∧ leader State.reset = none ∧
  (∀ h, (State.reset.slice h).ways = 0xFFFF) ∧ (∀ c, (State.reset.core c).banks = [Bank.free, Bank.free, Bank.free, Bank.free]) ∧
  ∀ a, State.reset.byte a = 0
end

