-- ==== Sys2Proof/Laws/Tables.lean ====
section
/-! SUPPORT. The laws of the association lists and sparse tables of Bits.lean: reading after writing, and the canonical form
that every write keeps. -/
namespace Sys2Proof.Laws
open Sys2Proof.Machine

variable {α : Type}

/-! ### Reading after writing, on any list -/

@[simp] theorem alook_nil (k : Nat) : alook ([] : List (Nat × α)) k = none := rfl

@[simp] theorem alook_aput_same (m : List (Nat × α)) (k : Nat) (v : α) : alook (aput m k v) k = some v := by
  induction m with
  | nil => simp [aput, alook]
  | cons e m ih =>
    obtain ⟨j, u⟩ := e
    simp only [aput]
    split
    · simp [alook]
    · split
      · simp [alook]
      · rename_i h; simp [alook, ih]; intro hj; exact absurd (by simp [hj]) h

theorem alook_aput_other (m : List (Nat × α)) {k j : Nat} (v : α) (h : j ≠ k) : alook (aput m k v) j = alook m j := by
  induction m with
  | nil => simp [aput, alook, Ne.symm h]
  | cons e m ih =>
    obtain ⟨i, u⟩ := e
    simp only [aput]
    split
    · simp [alook, Ne.symm h]
    · split
      · rename_i hi; have := eq_of_beq hi; subst this; simp [alook, Ne.symm h]
      · simp [alook, ih]

theorem alook_aput (m : List (Nat × α)) (k j : Nat) (v : α) :
    alook (aput m k v) j = if j = k then some v else alook m j := by
  split
  · subst_vars; simp
  · exact alook_aput_other m v ‹_›

@[simp] theorem alook_adel_same (m : List (Nat × α)) (k : Nat) : alook (adel m k) k = none := by
  induction m with
  | nil => rfl
  | cons e m ih =>
    obtain ⟨j, u⟩ := e
    unfold adel at ih ⊢
    rw [List.filter_cons]
    by_cases h : j = k <;> simp [h, alook, ih]

theorem alook_adel_other (m : List (Nat × α)) {k j : Nat} (h : j ≠ k) : alook (adel m k) j = alook m j := by
  induction m with
  | nil => rfl
  | cons e m ih =>
    obtain ⟨i, u⟩ := e
    unfold adel at ih ⊢
    rw [List.filter_cons]
    by_cases hi : i = k
    · subst hi; simp [alook, ih, Ne.symm h]
    · simp [hi, alook, ih]

theorem alook_adel (m : List (Nat × α)) (k j : Nat) : alook (adel m k) j = if j = k then none else alook m j := by
  split
  · subst_vars; simp
  · exact alook_adel_other m ‹_›

theorem sget_sput [DecidableEq α] (z : α) (m : List (Nat × α)) (k j : Nat) (v : α) :
    sget z (sput z m k v) j = if j = k then v else sget z m j := by
  unfold sget sput
  split
  · rw [alook_adel]; split <;> simp_all
  · rw [alook_aput]; split <;> simp_all

@[simp] theorem sget_sput_same [DecidableEq α] (z : α) (m : List (Nat × α)) (k : Nat) (v : α) :
    sget z (sput z m k v) k = v := by simp [sget_sput]

theorem sget_sput_other [DecidableEq α] (z : α) (m : List (Nat × α)) {k j : Nat} (v : α) (h : j ≠ k) :
    sget z (sput z m k v) j = sget z m j := by simp [sget_sput, h]

/-- What a run of writes leaves at a key. -/
theorem sget_sputAll [DecidableEq α] (z : α) (vs : List α) (m : List (Nat × α)) (k j : Nat) :
    sget z (sputAll z m k vs) j = if k ≤ j then vs.getD (j - k) (sget z m j) else sget z m j := by
  induction vs generalizing m k with
  | nil => simp [sputAll]
  | cons v vs ih =>
    simp only [sputAll, ih, sget_sput]
    by_cases h1 : k + 1 ≤ j
    · have h2 : k ≤ j := by omega
      have h3 : j ≠ k := by omega
      obtain ⟨d, hd⟩ : ∃ d, j - k = d + 1 := ⟨j - k - 1, by omega⟩
      have h4 : j - (k + 1) = d := by omega
      simp [h1, h2, h3, hd, h4]
    · by_cases h2 : j = k
      · subst h2; simp
      · have h3 : ¬ k ≤ j := by omega
        simp [h1, h2, h3]

@[simp] theorem length_sgetAll (z : α) (m : List (Nat × α)) (k n : Nat) : (sgetAll z m k n).length = n := by
  induction n generalizing k with
  | zero => rfl
  | succ n ih => simp [sgetAll, ih]

/-! ### The canonical form -/

/-- Keys strictly rising, as a proposition. -/
theorem asorted_iff (m : List (Nat × α)) : asorted m = true ↔ m.Pairwise (fun a b => a.1 < b.1) := by
  induction m with
  | nil => simp [asorted]
  | cons e m ih =>
    obtain ⟨j, v⟩ := e
    cases m with
    | nil => simp [asorted]
    | cons e' m =>
      obtain ⟨k, w⟩ := e'
      simp only [asorted, Bool.and_eq_true, decide_eq_true_eq, ih, List.pairwise_cons, List.mem_cons, forall_eq_or_imp]
      constructor
      · rintro ⟨h, h1, h2⟩
        exact ⟨⟨h, fun a ha => Nat.lt_trans h (h1 a ha)⟩, h1, h2⟩
      · rintro ⟨⟨h, -⟩, h1, h2⟩
        exact ⟨h, h1, h2⟩

theorem asorted_filter (p : Nat × α → Bool) {m : List (Nat × α)} (h : asorted m = true) : asorted (m.filter p) = true := by
  rw [asorted_iff] at *
  exact h.filter p

theorem asorted_adel {m : List (Nat × α)} (k : Nat) (h : asorted m = true) : asorted (adel m k) = true := asorted_filter _ h

theorem mem_aput {m : List (Nat × α)} {k : Nat} {v : α} {e : Nat × α} (h : e ∈ aput m k v) : e = (k, v) ∨ e ∈ m := by
  induction m with
  | nil => simpa [aput] using h
  | cons a m ih =>
    obtain ⟨j, u⟩ := a
    simp only [aput] at h
    split at h
    · simp only [List.mem_cons] at h ⊢; tauto
    · split at h
      · simp only [List.mem_cons] at h ⊢; tauto
      · simp only [List.mem_cons] at h ⊢
        rcases h with h | h
        · tauto
        · rcases ih h with h | h <;> tauto

theorem asorted_aput {m : List (Nat × α)} (k : Nat) (v : α) (h : asorted m = true) : asorted (aput m k v) = true := by
  rw [asorted_iff] at *
  induction m with
  | nil => simp [aput]
  | cons a m ih =>
    obtain ⟨j, u⟩ := a
    rw [List.pairwise_cons] at h
    simp only [aput]
    split
    · rename_i hk
      rw [List.pairwise_cons, List.pairwise_cons]
      refine ⟨?_, h⟩
      intro e he
      rcases List.mem_cons.mp he with rfl | he
      · exact hk
      · exact Nat.lt_trans hk (h.1 e he)
    · split
      · rename_i hj
        have hj := eq_of_beq hj
        subst hj
        rw [List.pairwise_cons]
        exact h
      · rename_i hk hj
        rw [List.pairwise_cons]
        refine ⟨?_, ih h.2⟩
        intro e he
        rcases mem_aput he with rfl | he
        · have : j ≠ k := fun hjk => hj (by simp [hjk])
          show j < k
          omega
        · exact h.1 e he

theorem swf_filter [DecidableEq α] {z : α} (p : Nat × α → Bool) {m : List (Nat × α)} (h : swf z m = true) :
    swf z (m.filter p) = true := by
  simp only [swf, Bool.and_eq_true] at *
  refine ⟨asorted_filter p h.1, ?_⟩
  have h2 := h.2
  simp only [slean, List.all_eq_true] at *
  intro e he
  exact h2 e (List.mem_of_mem_filter he)

theorem swf_sput [DecidableEq α] {z : α} {m : List (Nat × α)} (k : Nat) (v : α) (h : swf z m = true) :
    swf z (sput z m k v) = true := by
  unfold sput
  split
  · exact swf_filter _ h
  · rename_i hv
    simp only [swf, Bool.and_eq_true] at *
    refine ⟨asorted_aput k v h.1, ?_⟩
    have h2 := h.2
    simp only [slean, List.all_eq_true, decide_eq_true_eq] at *
    intro e he
    rcases mem_aput he with rfl | he
    · exact hv
    · exact h2 e he

theorem swf_sputAll [DecidableEq α] {z : α} (vs : List α) {m : List (Nat × α)} (k : Nat) (h : swf z m = true) :
    swf z (sputAll z m k vs) = true := by
  induction vs generalizing m k with
  | nil => exact h
  | cons v vs ih => exact ih (k + 1) (swf_sput k v h)

theorem swf_sclear [DecidableEq α] {z : α} {m : List (Nat × α)} (k n : Nat) (h : swf z m = true) :
    swf z (sclear m k n) = true := swf_filter _ h

theorem swf_nil [DecidableEq α] (z : α) : swf z ([] : List (Nat × α)) = true := rfl

end Sys2Proof.Laws
end

