-- ==== Sys2Proof/Laws/State.lean ====
section
/-! SUPPORT. The laws of the state's accessors (Access.lean): what each update changes, and for every other field of State that
it leaves it alone. -/
namespace Sys2Proof.Laws
open Sys2Proof.Machine

/-! ### Fields that an update leaves alone -/

@[simp] theorem putTeam_powered (s : State) (t : Nat) (x : Team) : (s.putTeam t x).powered = s.powered := rfl
@[simp] theorem putTeam_tick (s : State) (t : Nat) (x : Team) : (s.putTeam t x).tick = s.tick := rfl
@[simp] theorem putTeam_mem (s : State) (t : Nat) (x : Team) : (s.putTeam t x).mem = s.mem := rfl
@[simp] theorem putTeam_marks (s : State) (t : Nat) (x : Team) : (s.putTeam t x).marks = s.marks := rfl
@[simp] theorem putTeam_badLines (s : State) (t : Nat) (x : Team) : (s.putTeam t x).badLines = s.badLines := rfl
@[simp] theorem putTeam_quarantine (s : State) (t : Nat) (x : Team) : (s.putTeam t x).quarantine = s.quarantine := rfl
@[simp] theorem putTeam_quarantinedHomes (s : State) (t : Nat) (x : Team) : (s.putTeam t x).quarantinedHomes = s.quarantinedHomes := rfl
@[simp] theorem putTeam_cores (s : State) (t : Nat) (x : Team) : (s.putTeam t x).cores = s.cores := rfl
@[simp] theorem putTeam_lines (s : State) (t : Nat) (x : Team) : (s.putTeam t x).lines = s.lines := rfl
@[simp] theorem putTeam_expects (s : State) (t : Nat) (x : Team) : (s.putTeam t x).expects = s.expects := rfl
@[simp] theorem putTeam_dirs (s : State) (t : Nat) (x : Team) : (s.putTeam t x).dirs = s.dirs := rfl
@[simp] theorem putTeam_homes (s : State) (t : Nat) (x : Team) : (s.putTeam t x).homes = s.homes := rfl
@[simp] theorem putTeam_stamps (s : State) (t : Nat) (x : Team) : (s.putTeam t x).stamps = s.stamps := rfl
@[simp] theorem putTeam_held (s : State) (t : Nat) (x : Team) : (s.putTeam t x).held = s.held := rfl
@[simp] theorem putTeam_shoots (s : State) (t : Nat) (x : Team) : (s.putTeam t x).shoots = s.shoots := rfl
@[simp] theorem putTeam_flits (s : State) (t : Nat) (x : Team) : (s.putTeam t x).flits = s.flits := rfl
@[simp] theorem putTeam_slices (s : State) (t : Nat) (x : Team) : (s.putTeam t x).slices = s.slices := rfl
@[simp] theorem putTeam_windows (s : State) (t : Nat) (x : Team) : (s.putTeam t x).windows = s.windows := rfl
@[simp] theorem putTeam_hostRefused (s : State) (t : Nat) (x : Team) : (s.putTeam t x).hostRefused = s.hostRefused := rfl
@[simp] theorem putTeam_sleeping (s : State) (t : Nat) (x : Team) : (s.putTeam t x).sleeping = s.sleeping := rfl
@[simp] theorem putTeam_wrapHold (s : State) (t : Nat) (x : Team) : (s.putTeam t x).wrapHold = s.wrapHold := rfl
@[simp] theorem putTeam_parts (s : State) (t : Nat) (x : Team) : (s.putTeam t x).parts = s.parts := rfl
@[simp] theorem putTeam_launches (s : State) (t : Nat) (x : Team) : (s.putTeam t x).launches = s.launches := rfl
@[simp] theorem putTeam_grids (s : State) (t : Nat) (x : Team) : (s.putTeam t x).grids = s.grids := rfl
@[simp] theorem putTeam_reports (s : State) (t : Nat) (x : Team) : (s.putTeam t x).reports = s.reports := rfl
@[simp] theorem putTeam_fronts (s : State) (t : Nat) (x : Team) : (s.putTeam t x).fronts = s.fronts := rfl
@[simp] theorem putTeam_faults (s : State) (t : Nat) (x : Team) : (s.putTeam t x).faults = s.faults := rfl
@[simp] theorem putTeam_fw (s : State) (t : Nat) (x : Team) : (s.putTeam t x).fw = s.fw := rfl
@[simp] theorem putTeam_beret (s : State) (t : Nat) (x : Team) : (s.putTeam t x).beret = s.beret := rfl
@[simp] theorem putTeam_agenda (s : State) (t : Nat) (x : Team) : (s.putTeam t x).agenda = s.agenda := rfl
@[simp] theorem putTeam_cur (s : State) (t : Nat) (x : Team) : (s.putTeam t x).cur = s.cur := rfl
@[simp] theorem putTeam_fresh (s : State) (t : Nat) (x : Team) : (s.putTeam t x).fresh = s.fresh := rfl
@[simp] theorem putTeam_nextId (s : State) (t : Nat) (x : Team) : (s.putTeam t x).nextId = s.nextId := rfl

@[simp] theorem putCore_powered (s : State) (c : Nat) (x : Core) : (s.putCore c x).powered = s.powered := rfl
@[simp] theorem putCore_tick (s : State) (c : Nat) (x : Core) : (s.putCore c x).tick = s.tick := rfl
@[simp] theorem putCore_mem (s : State) (c : Nat) (x : Core) : (s.putCore c x).mem = s.mem := rfl
@[simp] theorem putCore_marks (s : State) (c : Nat) (x : Core) : (s.putCore c x).marks = s.marks := rfl
@[simp] theorem putCore_badLines (s : State) (c : Nat) (x : Core) : (s.putCore c x).badLines = s.badLines := rfl
@[simp] theorem putCore_quarantine (s : State) (c : Nat) (x : Core) : (s.putCore c x).quarantine = s.quarantine := rfl
@[simp] theorem putCore_quarantinedHomes (s : State) (c : Nat) (x : Core) : (s.putCore c x).quarantinedHomes = s.quarantinedHomes := rfl
@[simp] theorem putCore_teams (s : State) (c : Nat) (x : Core) : (s.putCore c x).teams = s.teams := rfl
@[simp] theorem putCore_lines (s : State) (c : Nat) (x : Core) : (s.putCore c x).lines = s.lines := rfl
@[simp] theorem putCore_expects (s : State) (c : Nat) (x : Core) : (s.putCore c x).expects = s.expects := rfl
@[simp] theorem putCore_dirs (s : State) (c : Nat) (x : Core) : (s.putCore c x).dirs = s.dirs := rfl
@[simp] theorem putCore_homes (s : State) (c : Nat) (x : Core) : (s.putCore c x).homes = s.homes := rfl
@[simp] theorem putCore_stamps (s : State) (c : Nat) (x : Core) : (s.putCore c x).stamps = s.stamps := rfl
@[simp] theorem putCore_held (s : State) (c : Nat) (x : Core) : (s.putCore c x).held = s.held := rfl
@[simp] theorem putCore_shoots (s : State) (c : Nat) (x : Core) : (s.putCore c x).shoots = s.shoots := rfl
@[simp] theorem putCore_flits (s : State) (c : Nat) (x : Core) : (s.putCore c x).flits = s.flits := rfl
@[simp] theorem putCore_slices (s : State) (c : Nat) (x : Core) : (s.putCore c x).slices = s.slices := rfl
@[simp] theorem putCore_windows (s : State) (c : Nat) (x : Core) : (s.putCore c x).windows = s.windows := rfl
@[simp] theorem putCore_hostRefused (s : State) (c : Nat) (x : Core) : (s.putCore c x).hostRefused = s.hostRefused := rfl
@[simp] theorem putCore_sleeping (s : State) (c : Nat) (x : Core) : (s.putCore c x).sleeping = s.sleeping := rfl
@[simp] theorem putCore_wrapHold (s : State) (c : Nat) (x : Core) : (s.putCore c x).wrapHold = s.wrapHold := rfl
@[simp] theorem putCore_parts (s : State) (c : Nat) (x : Core) : (s.putCore c x).parts = s.parts := rfl
@[simp] theorem putCore_launches (s : State) (c : Nat) (x : Core) : (s.putCore c x).launches = s.launches := rfl
@[simp] theorem putCore_grids (s : State) (c : Nat) (x : Core) : (s.putCore c x).grids = s.grids := rfl
@[simp] theorem putCore_reports (s : State) (c : Nat) (x : Core) : (s.putCore c x).reports = s.reports := rfl
@[simp] theorem putCore_fronts (s : State) (c : Nat) (x : Core) : (s.putCore c x).fronts = s.fronts := rfl
@[simp] theorem putCore_faults (s : State) (c : Nat) (x : Core) : (s.putCore c x).faults = s.faults := rfl
@[simp] theorem putCore_fw (s : State) (c : Nat) (x : Core) : (s.putCore c x).fw = s.fw := rfl
@[simp] theorem putCore_beret (s : State) (c : Nat) (x : Core) : (s.putCore c x).beret = s.beret := rfl
@[simp] theorem putCore_agenda (s : State) (c : Nat) (x : Core) : (s.putCore c x).agenda = s.agenda := rfl
@[simp] theorem putCore_cur (s : State) (c : Nat) (x : Core) : (s.putCore c x).cur = s.cur := rfl
@[simp] theorem putCore_fresh (s : State) (c : Nat) (x : Core) : (s.putCore c x).fresh = s.fresh := rfl
@[simp] theorem putCore_nextId (s : State) (c : Nat) (x : Core) : (s.putCore c x).nextId = s.nextId := rfl

@[simp] theorem putPart_powered (s : State) (p : Nat) (x : Partition) : (s.putPart p x).powered = s.powered := rfl
@[simp] theorem putPart_tick (s : State) (p : Nat) (x : Partition) : (s.putPart p x).tick = s.tick := rfl
@[simp] theorem putPart_mem (s : State) (p : Nat) (x : Partition) : (s.putPart p x).mem = s.mem := rfl
@[simp] theorem putPart_marks (s : State) (p : Nat) (x : Partition) : (s.putPart p x).marks = s.marks := rfl
@[simp] theorem putPart_badLines (s : State) (p : Nat) (x : Partition) : (s.putPart p x).badLines = s.badLines := rfl
@[simp] theorem putPart_quarantine (s : State) (p : Nat) (x : Partition) : (s.putPart p x).quarantine = s.quarantine := rfl
@[simp] theorem putPart_quarantinedHomes (s : State) (p : Nat) (x : Partition) : (s.putPart p x).quarantinedHomes = s.quarantinedHomes := rfl
@[simp] theorem putPart_teams (s : State) (p : Nat) (x : Partition) : (s.putPart p x).teams = s.teams := rfl
@[simp] theorem putPart_cores (s : State) (p : Nat) (x : Partition) : (s.putPart p x).cores = s.cores := rfl
@[simp] theorem putPart_lines (s : State) (p : Nat) (x : Partition) : (s.putPart p x).lines = s.lines := rfl
@[simp] theorem putPart_expects (s : State) (p : Nat) (x : Partition) : (s.putPart p x).expects = s.expects := rfl
@[simp] theorem putPart_dirs (s : State) (p : Nat) (x : Partition) : (s.putPart p x).dirs = s.dirs := rfl
@[simp] theorem putPart_homes (s : State) (p : Nat) (x : Partition) : (s.putPart p x).homes = s.homes := rfl
@[simp] theorem putPart_stamps (s : State) (p : Nat) (x : Partition) : (s.putPart p x).stamps = s.stamps := rfl
@[simp] theorem putPart_held (s : State) (p : Nat) (x : Partition) : (s.putPart p x).held = s.held := rfl
@[simp] theorem putPart_shoots (s : State) (p : Nat) (x : Partition) : (s.putPart p x).shoots = s.shoots := rfl
@[simp] theorem putPart_flits (s : State) (p : Nat) (x : Partition) : (s.putPart p x).flits = s.flits := rfl
@[simp] theorem putPart_slices (s : State) (p : Nat) (x : Partition) : (s.putPart p x).slices = s.slices := rfl
@[simp] theorem putPart_windows (s : State) (p : Nat) (x : Partition) : (s.putPart p x).windows = s.windows := rfl
@[simp] theorem putPart_hostRefused (s : State) (p : Nat) (x : Partition) : (s.putPart p x).hostRefused = s.hostRefused := rfl
@[simp] theorem putPart_sleeping (s : State) (p : Nat) (x : Partition) : (s.putPart p x).sleeping = s.sleeping := rfl
@[simp] theorem putPart_wrapHold (s : State) (p : Nat) (x : Partition) : (s.putPart p x).wrapHold = s.wrapHold := rfl
@[simp] theorem putPart_launches (s : State) (p : Nat) (x : Partition) : (s.putPart p x).launches = s.launches := rfl
@[simp] theorem putPart_grids (s : State) (p : Nat) (x : Partition) : (s.putPart p x).grids = s.grids := rfl
@[simp] theorem putPart_reports (s : State) (p : Nat) (x : Partition) : (s.putPart p x).reports = s.reports := rfl
@[simp] theorem putPart_fronts (s : State) (p : Nat) (x : Partition) : (s.putPart p x).fronts = s.fronts := rfl
@[simp] theorem putPart_faults (s : State) (p : Nat) (x : Partition) : (s.putPart p x).faults = s.faults := rfl
@[simp] theorem putPart_fw (s : State) (p : Nat) (x : Partition) : (s.putPart p x).fw = s.fw := rfl
@[simp] theorem putPart_beret (s : State) (p : Nat) (x : Partition) : (s.putPart p x).beret = s.beret := rfl
@[simp] theorem putPart_agenda (s : State) (p : Nat) (x : Partition) : (s.putPart p x).agenda = s.agenda := rfl
@[simp] theorem putPart_cur (s : State) (p : Nat) (x : Partition) : (s.putPart p x).cur = s.cur := rfl
@[simp] theorem putPart_fresh (s : State) (p : Nat) (x : Partition) : (s.putPart p x).fresh = s.fresh := rfl
@[simp] theorem putPart_nextId (s : State) (p : Nat) (x : Partition) : (s.putPart p x).nextId = s.nextId := rfl

@[simp] theorem putSlice_powered (s : State) (h : Nat) (x : Slice) : (s.putSlice h x).powered = s.powered := rfl
@[simp] theorem putSlice_tick (s : State) (h : Nat) (x : Slice) : (s.putSlice h x).tick = s.tick := rfl
@[simp] theorem putSlice_mem (s : State) (h : Nat) (x : Slice) : (s.putSlice h x).mem = s.mem := rfl
@[simp] theorem putSlice_marks (s : State) (h : Nat) (x : Slice) : (s.putSlice h x).marks = s.marks := rfl
@[simp] theorem putSlice_badLines (s : State) (h : Nat) (x : Slice) : (s.putSlice h x).badLines = s.badLines := rfl
@[simp] theorem putSlice_quarantine (s : State) (h : Nat) (x : Slice) : (s.putSlice h x).quarantine = s.quarantine := rfl
@[simp] theorem putSlice_quarantinedHomes (s : State) (h : Nat) (x : Slice) : (s.putSlice h x).quarantinedHomes = s.quarantinedHomes := rfl
@[simp] theorem putSlice_teams (s : State) (h : Nat) (x : Slice) : (s.putSlice h x).teams = s.teams := rfl
@[simp] theorem putSlice_cores (s : State) (h : Nat) (x : Slice) : (s.putSlice h x).cores = s.cores := rfl
@[simp] theorem putSlice_lines (s : State) (h : Nat) (x : Slice) : (s.putSlice h x).lines = s.lines := rfl
@[simp] theorem putSlice_expects (s : State) (h : Nat) (x : Slice) : (s.putSlice h x).expects = s.expects := rfl
@[simp] theorem putSlice_dirs (s : State) (h : Nat) (x : Slice) : (s.putSlice h x).dirs = s.dirs := rfl
@[simp] theorem putSlice_homes (s : State) (h : Nat) (x : Slice) : (s.putSlice h x).homes = s.homes := rfl
@[simp] theorem putSlice_stamps (s : State) (h : Nat) (x : Slice) : (s.putSlice h x).stamps = s.stamps := rfl
@[simp] theorem putSlice_held (s : State) (h : Nat) (x : Slice) : (s.putSlice h x).held = s.held := rfl
@[simp] theorem putSlice_shoots (s : State) (h : Nat) (x : Slice) : (s.putSlice h x).shoots = s.shoots := rfl
@[simp] theorem putSlice_flits (s : State) (h : Nat) (x : Slice) : (s.putSlice h x).flits = s.flits := rfl
@[simp] theorem putSlice_windows (s : State) (h : Nat) (x : Slice) : (s.putSlice h x).windows = s.windows := rfl
@[simp] theorem putSlice_hostRefused (s : State) (h : Nat) (x : Slice) : (s.putSlice h x).hostRefused = s.hostRefused := rfl
@[simp] theorem putSlice_sleeping (s : State) (h : Nat) (x : Slice) : (s.putSlice h x).sleeping = s.sleeping := rfl
@[simp] theorem putSlice_wrapHold (s : State) (h : Nat) (x : Slice) : (s.putSlice h x).wrapHold = s.wrapHold := rfl
@[simp] theorem putSlice_parts (s : State) (h : Nat) (x : Slice) : (s.putSlice h x).parts = s.parts := rfl
@[simp] theorem putSlice_launches (s : State) (h : Nat) (x : Slice) : (s.putSlice h x).launches = s.launches := rfl
@[simp] theorem putSlice_grids (s : State) (h : Nat) (x : Slice) : (s.putSlice h x).grids = s.grids := rfl
@[simp] theorem putSlice_reports (s : State) (h : Nat) (x : Slice) : (s.putSlice h x).reports = s.reports := rfl
@[simp] theorem putSlice_fronts (s : State) (h : Nat) (x : Slice) : (s.putSlice h x).fronts = s.fronts := rfl
@[simp] theorem putSlice_faults (s : State) (h : Nat) (x : Slice) : (s.putSlice h x).faults = s.faults := rfl
@[simp] theorem putSlice_fw (s : State) (h : Nat) (x : Slice) : (s.putSlice h x).fw = s.fw := rfl
@[simp] theorem putSlice_beret (s : State) (h : Nat) (x : Slice) : (s.putSlice h x).beret = s.beret := rfl
@[simp] theorem putSlice_agenda (s : State) (h : Nat) (x : Slice) : (s.putSlice h x).agenda = s.agenda := rfl
@[simp] theorem putSlice_cur (s : State) (h : Nat) (x : Slice) : (s.putSlice h x).cur = s.cur := rfl
@[simp] theorem putSlice_fresh (s : State) (h : Nat) (x : Slice) : (s.putSlice h x).fresh = s.fresh := rfl
@[simp] theorem putSlice_nextId (s : State) (h : Nat) (x : Slice) : (s.putSlice h x).nextId = s.nextId := rfl

@[simp] theorem bumpId_powered (s : State) : (s.bumpId).powered = s.powered := rfl
@[simp] theorem bumpId_tick (s : State) : (s.bumpId).tick = s.tick := rfl
@[simp] theorem bumpId_mem (s : State) : (s.bumpId).mem = s.mem := rfl
@[simp] theorem bumpId_marks (s : State) : (s.bumpId).marks = s.marks := rfl
@[simp] theorem bumpId_badLines (s : State) : (s.bumpId).badLines = s.badLines := rfl
@[simp] theorem bumpId_quarantine (s : State) : (s.bumpId).quarantine = s.quarantine := rfl
@[simp] theorem bumpId_quarantinedHomes (s : State) : (s.bumpId).quarantinedHomes = s.quarantinedHomes := rfl
@[simp] theorem bumpId_teams (s : State) : (s.bumpId).teams = s.teams := rfl
@[simp] theorem bumpId_cores (s : State) : (s.bumpId).cores = s.cores := rfl
@[simp] theorem bumpId_lines (s : State) : (s.bumpId).lines = s.lines := rfl
@[simp] theorem bumpId_expects (s : State) : (s.bumpId).expects = s.expects := rfl
@[simp] theorem bumpId_dirs (s : State) : (s.bumpId).dirs = s.dirs := rfl
@[simp] theorem bumpId_homes (s : State) : (s.bumpId).homes = s.homes := rfl
@[simp] theorem bumpId_stamps (s : State) : (s.bumpId).stamps = s.stamps := rfl
@[simp] theorem bumpId_held (s : State) : (s.bumpId).held = s.held := rfl
@[simp] theorem bumpId_shoots (s : State) : (s.bumpId).shoots = s.shoots := rfl
@[simp] theorem bumpId_flits (s : State) : (s.bumpId).flits = s.flits := rfl
@[simp] theorem bumpId_slices (s : State) : (s.bumpId).slices = s.slices := rfl
@[simp] theorem bumpId_windows (s : State) : (s.bumpId).windows = s.windows := rfl
@[simp] theorem bumpId_hostRefused (s : State) : (s.bumpId).hostRefused = s.hostRefused := rfl
@[simp] theorem bumpId_sleeping (s : State) : (s.bumpId).sleeping = s.sleeping := rfl
@[simp] theorem bumpId_wrapHold (s : State) : (s.bumpId).wrapHold = s.wrapHold := rfl
@[simp] theorem bumpId_parts (s : State) : (s.bumpId).parts = s.parts := rfl
@[simp] theorem bumpId_launches (s : State) : (s.bumpId).launches = s.launches := rfl
@[simp] theorem bumpId_grids (s : State) : (s.bumpId).grids = s.grids := rfl
@[simp] theorem bumpId_reports (s : State) : (s.bumpId).reports = s.reports := rfl
@[simp] theorem bumpId_fronts (s : State) : (s.bumpId).fronts = s.fronts := rfl
@[simp] theorem bumpId_faults (s : State) : (s.bumpId).faults = s.faults := rfl
@[simp] theorem bumpId_fw (s : State) : (s.bumpId).fw = s.fw := rfl
@[simp] theorem bumpId_beret (s : State) : (s.bumpId).beret = s.beret := rfl
@[simp] theorem bumpId_agenda (s : State) : (s.bumpId).agenda = s.agenda := rfl
@[simp] theorem bumpId_cur (s : State) : (s.bumpId).cur = s.cur := rfl
@[simp] theorem bumpId_fresh (s : State) : (s.bumpId).fresh = s.fresh := rfl

@[simp] theorem updCore_powered (s : State) (c : Nat) (f : Core → Core) : (s.updCore c f).powered = s.powered := rfl
@[simp] theorem updCore_tick (s : State) (c : Nat) (f : Core → Core) : (s.updCore c f).tick = s.tick := rfl
@[simp] theorem updCore_mem (s : State) (c : Nat) (f : Core → Core) : (s.updCore c f).mem = s.mem := rfl
@[simp] theorem updCore_marks (s : State) (c : Nat) (f : Core → Core) : (s.updCore c f).marks = s.marks := rfl
@[simp] theorem updCore_badLines (s : State) (c : Nat) (f : Core → Core) : (s.updCore c f).badLines = s.badLines := rfl
@[simp] theorem updCore_quarantine (s : State) (c : Nat) (f : Core → Core) : (s.updCore c f).quarantine = s.quarantine := rfl
@[simp] theorem updCore_quarantinedHomes (s : State) (c : Nat) (f : Core → Core) : (s.updCore c f).quarantinedHomes = s.quarantinedHomes := rfl
@[simp] theorem updCore_teams (s : State) (c : Nat) (f : Core → Core) : (s.updCore c f).teams = s.teams := rfl
@[simp] theorem updCore_lines (s : State) (c : Nat) (f : Core → Core) : (s.updCore c f).lines = s.lines := rfl
@[simp] theorem updCore_expects (s : State) (c : Nat) (f : Core → Core) : (s.updCore c f).expects = s.expects := rfl
@[simp] theorem updCore_dirs (s : State) (c : Nat) (f : Core → Core) : (s.updCore c f).dirs = s.dirs := rfl
@[simp] theorem updCore_homes (s : State) (c : Nat) (f : Core → Core) : (s.updCore c f).homes = s.homes := rfl
@[simp] theorem updCore_stamps (s : State) (c : Nat) (f : Core → Core) : (s.updCore c f).stamps = s.stamps := rfl
@[simp] theorem updCore_held (s : State) (c : Nat) (f : Core → Core) : (s.updCore c f).held = s.held := rfl
@[simp] theorem updCore_shoots (s : State) (c : Nat) (f : Core → Core) : (s.updCore c f).shoots = s.shoots := rfl
@[simp] theorem updCore_flits (s : State) (c : Nat) (f : Core → Core) : (s.updCore c f).flits = s.flits := rfl
@[simp] theorem updCore_slices (s : State) (c : Nat) (f : Core → Core) : (s.updCore c f).slices = s.slices := rfl
@[simp] theorem updCore_windows (s : State) (c : Nat) (f : Core → Core) : (s.updCore c f).windows = s.windows := rfl
@[simp] theorem updCore_hostRefused (s : State) (c : Nat) (f : Core → Core) : (s.updCore c f).hostRefused = s.hostRefused := rfl
@[simp] theorem updCore_sleeping (s : State) (c : Nat) (f : Core → Core) : (s.updCore c f).sleeping = s.sleeping := rfl
@[simp] theorem updCore_wrapHold (s : State) (c : Nat) (f : Core → Core) : (s.updCore c f).wrapHold = s.wrapHold := rfl
@[simp] theorem updCore_parts (s : State) (c : Nat) (f : Core → Core) : (s.updCore c f).parts = s.parts := rfl
@[simp] theorem updCore_launches (s : State) (c : Nat) (f : Core → Core) : (s.updCore c f).launches = s.launches := rfl
@[simp] theorem updCore_grids (s : State) (c : Nat) (f : Core → Core) : (s.updCore c f).grids = s.grids := rfl
@[simp] theorem updCore_reports (s : State) (c : Nat) (f : Core → Core) : (s.updCore c f).reports = s.reports := rfl
@[simp] theorem updCore_fronts (s : State) (c : Nat) (f : Core → Core) : (s.updCore c f).fronts = s.fronts := rfl
@[simp] theorem updCore_faults (s : State) (c : Nat) (f : Core → Core) : (s.updCore c f).faults = s.faults := rfl
@[simp] theorem updCore_fw (s : State) (c : Nat) (f : Core → Core) : (s.updCore c f).fw = s.fw := rfl
@[simp] theorem updCore_beret (s : State) (c : Nat) (f : Core → Core) : (s.updCore c f).beret = s.beret := rfl
@[simp] theorem updCore_agenda (s : State) (c : Nat) (f : Core → Core) : (s.updCore c f).agenda = s.agenda := rfl
@[simp] theorem updCore_cur (s : State) (c : Nat) (f : Core → Core) : (s.updCore c f).cur = s.cur := rfl
@[simp] theorem updCore_fresh (s : State) (c : Nat) (f : Core → Core) : (s.updCore c f).fresh = s.fresh := rfl
@[simp] theorem updCore_nextId (s : State) (c : Nat) (f : Core → Core) : (s.updCore c f).nextId = s.nextId := rfl

@[simp] theorem updPart_powered (s : State) (p : Nat) (f : Partition → Partition) : (s.updPart p f).powered = s.powered := rfl
@[simp] theorem updPart_tick (s : State) (p : Nat) (f : Partition → Partition) : (s.updPart p f).tick = s.tick := rfl
@[simp] theorem updPart_mem (s : State) (p : Nat) (f : Partition → Partition) : (s.updPart p f).mem = s.mem := rfl
@[simp] theorem updPart_marks (s : State) (p : Nat) (f : Partition → Partition) : (s.updPart p f).marks = s.marks := rfl
@[simp] theorem updPart_badLines (s : State) (p : Nat) (f : Partition → Partition) : (s.updPart p f).badLines = s.badLines := rfl
@[simp] theorem updPart_quarantine (s : State) (p : Nat) (f : Partition → Partition) : (s.updPart p f).quarantine = s.quarantine := rfl
@[simp] theorem updPart_quarantinedHomes (s : State) (p : Nat) (f : Partition → Partition) : (s.updPart p f).quarantinedHomes = s.quarantinedHomes := rfl
@[simp] theorem updPart_teams (s : State) (p : Nat) (f : Partition → Partition) : (s.updPart p f).teams = s.teams := rfl
@[simp] theorem updPart_cores (s : State) (p : Nat) (f : Partition → Partition) : (s.updPart p f).cores = s.cores := rfl
@[simp] theorem updPart_lines (s : State) (p : Nat) (f : Partition → Partition) : (s.updPart p f).lines = s.lines := rfl
@[simp] theorem updPart_expects (s : State) (p : Nat) (f : Partition → Partition) : (s.updPart p f).expects = s.expects := rfl
@[simp] theorem updPart_dirs (s : State) (p : Nat) (f : Partition → Partition) : (s.updPart p f).dirs = s.dirs := rfl
@[simp] theorem updPart_homes (s : State) (p : Nat) (f : Partition → Partition) : (s.updPart p f).homes = s.homes := rfl
@[simp] theorem updPart_stamps (s : State) (p : Nat) (f : Partition → Partition) : (s.updPart p f).stamps = s.stamps := rfl
@[simp] theorem updPart_held (s : State) (p : Nat) (f : Partition → Partition) : (s.updPart p f).held = s.held := rfl
@[simp] theorem updPart_shoots (s : State) (p : Nat) (f : Partition → Partition) : (s.updPart p f).shoots = s.shoots := rfl
@[simp] theorem updPart_flits (s : State) (p : Nat) (f : Partition → Partition) : (s.updPart p f).flits = s.flits := rfl
@[simp] theorem updPart_slices (s : State) (p : Nat) (f : Partition → Partition) : (s.updPart p f).slices = s.slices := rfl
@[simp] theorem updPart_windows (s : State) (p : Nat) (f : Partition → Partition) : (s.updPart p f).windows = s.windows := rfl
@[simp] theorem updPart_hostRefused (s : State) (p : Nat) (f : Partition → Partition) : (s.updPart p f).hostRefused = s.hostRefused := rfl
@[simp] theorem updPart_sleeping (s : State) (p : Nat) (f : Partition → Partition) : (s.updPart p f).sleeping = s.sleeping := rfl
@[simp] theorem updPart_wrapHold (s : State) (p : Nat) (f : Partition → Partition) : (s.updPart p f).wrapHold = s.wrapHold := rfl
@[simp] theorem updPart_launches (s : State) (p : Nat) (f : Partition → Partition) : (s.updPart p f).launches = s.launches := rfl
@[simp] theorem updPart_grids (s : State) (p : Nat) (f : Partition → Partition) : (s.updPart p f).grids = s.grids := rfl
@[simp] theorem updPart_reports (s : State) (p : Nat) (f : Partition → Partition) : (s.updPart p f).reports = s.reports := rfl
@[simp] theorem updPart_fronts (s : State) (p : Nat) (f : Partition → Partition) : (s.updPart p f).fronts = s.fronts := rfl
@[simp] theorem updPart_faults (s : State) (p : Nat) (f : Partition → Partition) : (s.updPart p f).faults = s.faults := rfl
@[simp] theorem updPart_fw (s : State) (p : Nat) (f : Partition → Partition) : (s.updPart p f).fw = s.fw := rfl
@[simp] theorem updPart_beret (s : State) (p : Nat) (f : Partition → Partition) : (s.updPart p f).beret = s.beret := rfl
@[simp] theorem updPart_agenda (s : State) (p : Nat) (f : Partition → Partition) : (s.updPart p f).agenda = s.agenda := rfl
@[simp] theorem updPart_cur (s : State) (p : Nat) (f : Partition → Partition) : (s.updPart p f).cur = s.cur := rfl
@[simp] theorem updPart_fresh (s : State) (p : Nat) (f : Partition → Partition) : (s.updPart p f).fresh = s.fresh := rfl
@[simp] theorem updPart_nextId (s : State) (p : Nat) (f : Partition → Partition) : (s.updPart p f).nextId = s.nextId := rfl

@[simp] theorem updQueue_powered (s : State) (p q : Nat) (f : Queue → Queue) : (s.updQueue p q f).powered = s.powered := rfl
@[simp] theorem updQueue_tick (s : State) (p q : Nat) (f : Queue → Queue) : (s.updQueue p q f).tick = s.tick := rfl
@[simp] theorem updQueue_mem (s : State) (p q : Nat) (f : Queue → Queue) : (s.updQueue p q f).mem = s.mem := rfl
@[simp] theorem updQueue_marks (s : State) (p q : Nat) (f : Queue → Queue) : (s.updQueue p q f).marks = s.marks := rfl
@[simp] theorem updQueue_badLines (s : State) (p q : Nat) (f : Queue → Queue) : (s.updQueue p q f).badLines = s.badLines := rfl
@[simp] theorem updQueue_quarantine (s : State) (p q : Nat) (f : Queue → Queue) : (s.updQueue p q f).quarantine = s.quarantine := rfl
@[simp] theorem updQueue_quarantinedHomes (s : State) (p q : Nat) (f : Queue → Queue) : (s.updQueue p q f).quarantinedHomes = s.quarantinedHomes := rfl
@[simp] theorem updQueue_teams (s : State) (p q : Nat) (f : Queue → Queue) : (s.updQueue p q f).teams = s.teams := rfl
@[simp] theorem updQueue_cores (s : State) (p q : Nat) (f : Queue → Queue) : (s.updQueue p q f).cores = s.cores := rfl
@[simp] theorem updQueue_lines (s : State) (p q : Nat) (f : Queue → Queue) : (s.updQueue p q f).lines = s.lines := rfl
@[simp] theorem updQueue_expects (s : State) (p q : Nat) (f : Queue → Queue) : (s.updQueue p q f).expects = s.expects := rfl
@[simp] theorem updQueue_dirs (s : State) (p q : Nat) (f : Queue → Queue) : (s.updQueue p q f).dirs = s.dirs := rfl
@[simp] theorem updQueue_homes (s : State) (p q : Nat) (f : Queue → Queue) : (s.updQueue p q f).homes = s.homes := rfl
@[simp] theorem updQueue_stamps (s : State) (p q : Nat) (f : Queue → Queue) : (s.updQueue p q f).stamps = s.stamps := rfl
@[simp] theorem updQueue_held (s : State) (p q : Nat) (f : Queue → Queue) : (s.updQueue p q f).held = s.held := rfl
@[simp] theorem updQueue_shoots (s : State) (p q : Nat) (f : Queue → Queue) : (s.updQueue p q f).shoots = s.shoots := rfl
@[simp] theorem updQueue_flits (s : State) (p q : Nat) (f : Queue → Queue) : (s.updQueue p q f).flits = s.flits := rfl
@[simp] theorem updQueue_slices (s : State) (p q : Nat) (f : Queue → Queue) : (s.updQueue p q f).slices = s.slices := rfl
@[simp] theorem updQueue_windows (s : State) (p q : Nat) (f : Queue → Queue) : (s.updQueue p q f).windows = s.windows := rfl
@[simp] theorem updQueue_hostRefused (s : State) (p q : Nat) (f : Queue → Queue) : (s.updQueue p q f).hostRefused = s.hostRefused := rfl
@[simp] theorem updQueue_sleeping (s : State) (p q : Nat) (f : Queue → Queue) : (s.updQueue p q f).sleeping = s.sleeping := rfl
@[simp] theorem updQueue_wrapHold (s : State) (p q : Nat) (f : Queue → Queue) : (s.updQueue p q f).wrapHold = s.wrapHold := rfl
@[simp] theorem updQueue_launches (s : State) (p q : Nat) (f : Queue → Queue) : (s.updQueue p q f).launches = s.launches := rfl
@[simp] theorem updQueue_grids (s : State) (p q : Nat) (f : Queue → Queue) : (s.updQueue p q f).grids = s.grids := rfl
@[simp] theorem updQueue_reports (s : State) (p q : Nat) (f : Queue → Queue) : (s.updQueue p q f).reports = s.reports := rfl
@[simp] theorem updQueue_fronts (s : State) (p q : Nat) (f : Queue → Queue) : (s.updQueue p q f).fronts = s.fronts := rfl
@[simp] theorem updQueue_faults (s : State) (p q : Nat) (f : Queue → Queue) : (s.updQueue p q f).faults = s.faults := rfl
@[simp] theorem updQueue_fw (s : State) (p q : Nat) (f : Queue → Queue) : (s.updQueue p q f).fw = s.fw := rfl
@[simp] theorem updQueue_beret (s : State) (p q : Nat) (f : Queue → Queue) : (s.updQueue p q f).beret = s.beret := rfl
@[simp] theorem updQueue_agenda (s : State) (p q : Nat) (f : Queue → Queue) : (s.updQueue p q f).agenda = s.agenda := rfl
@[simp] theorem updQueue_cur (s : State) (p q : Nat) (f : Queue → Queue) : (s.updQueue p q f).cur = s.cur := rfl
@[simp] theorem updQueue_fresh (s : State) (p q : Nat) (f : Queue → Queue) : (s.updQueue p q f).fresh = s.fresh := rfl
@[simp] theorem updQueue_nextId (s : State) (p q : Nat) (f : Queue → Queue) : (s.updQueue p q f).nextId = s.nextId := rfl

@[simp] theorem putByte_powered (s : State) (a : Nat) (b : Byte) : (s.putByte a b).powered = s.powered := rfl
@[simp] theorem putByte_tick (s : State) (a : Nat) (b : Byte) : (s.putByte a b).tick = s.tick := rfl
@[simp] theorem putByte_marks (s : State) (a : Nat) (b : Byte) : (s.putByte a b).marks = s.marks := rfl
@[simp] theorem putByte_badLines (s : State) (a : Nat) (b : Byte) : (s.putByte a b).badLines = s.badLines := rfl
@[simp] theorem putByte_quarantine (s : State) (a : Nat) (b : Byte) : (s.putByte a b).quarantine = s.quarantine := rfl
@[simp] theorem putByte_quarantinedHomes (s : State) (a : Nat) (b : Byte) : (s.putByte a b).quarantinedHomes = s.quarantinedHomes := rfl
@[simp] theorem putByte_teams (s : State) (a : Nat) (b : Byte) : (s.putByte a b).teams = s.teams := rfl
@[simp] theorem putByte_cores (s : State) (a : Nat) (b : Byte) : (s.putByte a b).cores = s.cores := rfl
@[simp] theorem putByte_lines (s : State) (a : Nat) (b : Byte) : (s.putByte a b).lines = s.lines := rfl
@[simp] theorem putByte_expects (s : State) (a : Nat) (b : Byte) : (s.putByte a b).expects = s.expects := rfl
@[simp] theorem putByte_dirs (s : State) (a : Nat) (b : Byte) : (s.putByte a b).dirs = s.dirs := rfl
@[simp] theorem putByte_homes (s : State) (a : Nat) (b : Byte) : (s.putByte a b).homes = s.homes := rfl
@[simp] theorem putByte_stamps (s : State) (a : Nat) (b : Byte) : (s.putByte a b).stamps = s.stamps := rfl
@[simp] theorem putByte_held (s : State) (a : Nat) (b : Byte) : (s.putByte a b).held = s.held := rfl
@[simp] theorem putByte_shoots (s : State) (a : Nat) (b : Byte) : (s.putByte a b).shoots = s.shoots := rfl
@[simp] theorem putByte_flits (s : State) (a : Nat) (b : Byte) : (s.putByte a b).flits = s.flits := rfl
@[simp] theorem putByte_slices (s : State) (a : Nat) (b : Byte) : (s.putByte a b).slices = s.slices := rfl
@[simp] theorem putByte_windows (s : State) (a : Nat) (b : Byte) : (s.putByte a b).windows = s.windows := rfl
@[simp] theorem putByte_hostRefused (s : State) (a : Nat) (b : Byte) : (s.putByte a b).hostRefused = s.hostRefused := rfl
@[simp] theorem putByte_sleeping (s : State) (a : Nat) (b : Byte) : (s.putByte a b).sleeping = s.sleeping := rfl
@[simp] theorem putByte_wrapHold (s : State) (a : Nat) (b : Byte) : (s.putByte a b).wrapHold = s.wrapHold := rfl
@[simp] theorem putByte_parts (s : State) (a : Nat) (b : Byte) : (s.putByte a b).parts = s.parts := rfl
@[simp] theorem putByte_launches (s : State) (a : Nat) (b : Byte) : (s.putByte a b).launches = s.launches := rfl
@[simp] theorem putByte_grids (s : State) (a : Nat) (b : Byte) : (s.putByte a b).grids = s.grids := rfl
@[simp] theorem putByte_reports (s : State) (a : Nat) (b : Byte) : (s.putByte a b).reports = s.reports := rfl
@[simp] theorem putByte_fronts (s : State) (a : Nat) (b : Byte) : (s.putByte a b).fronts = s.fronts := rfl
@[simp] theorem putByte_faults (s : State) (a : Nat) (b : Byte) : (s.putByte a b).faults = s.faults := rfl
@[simp] theorem putByte_fw (s : State) (a : Nat) (b : Byte) : (s.putByte a b).fw = s.fw := rfl
@[simp] theorem putByte_beret (s : State) (a : Nat) (b : Byte) : (s.putByte a b).beret = s.beret := rfl
@[simp] theorem putByte_agenda (s : State) (a : Nat) (b : Byte) : (s.putByte a b).agenda = s.agenda := rfl
@[simp] theorem putByte_cur (s : State) (a : Nat) (b : Byte) : (s.putByte a b).cur = s.cur := rfl
@[simp] theorem putByte_fresh (s : State) (a : Nat) (b : Byte) : (s.putByte a b).fresh = s.fresh := rfl
@[simp] theorem putByte_nextId (s : State) (a : Nat) (b : Byte) : (s.putByte a b).nextId = s.nextId := rfl

@[simp] theorem putBytes_powered (s : State) (a : Nat) (bs : List Byte) : (s.putBytes a bs).powered = s.powered := rfl
@[simp] theorem putBytes_tick (s : State) (a : Nat) (bs : List Byte) : (s.putBytes a bs).tick = s.tick := rfl
@[simp] theorem putBytes_marks (s : State) (a : Nat) (bs : List Byte) : (s.putBytes a bs).marks = s.marks := rfl
@[simp] theorem putBytes_badLines (s : State) (a : Nat) (bs : List Byte) : (s.putBytes a bs).badLines = s.badLines := rfl
@[simp] theorem putBytes_quarantine (s : State) (a : Nat) (bs : List Byte) : (s.putBytes a bs).quarantine = s.quarantine := rfl
@[simp] theorem putBytes_quarantinedHomes (s : State) (a : Nat) (bs : List Byte) : (s.putBytes a bs).quarantinedHomes = s.quarantinedHomes := rfl
@[simp] theorem putBytes_teams (s : State) (a : Nat) (bs : List Byte) : (s.putBytes a bs).teams = s.teams := rfl
@[simp] theorem putBytes_cores (s : State) (a : Nat) (bs : List Byte) : (s.putBytes a bs).cores = s.cores := rfl
@[simp] theorem putBytes_lines (s : State) (a : Nat) (bs : List Byte) : (s.putBytes a bs).lines = s.lines := rfl
@[simp] theorem putBytes_expects (s : State) (a : Nat) (bs : List Byte) : (s.putBytes a bs).expects = s.expects := rfl
@[simp] theorem putBytes_dirs (s : State) (a : Nat) (bs : List Byte) : (s.putBytes a bs).dirs = s.dirs := rfl
@[simp] theorem putBytes_homes (s : State) (a : Nat) (bs : List Byte) : (s.putBytes a bs).homes = s.homes := rfl
@[simp] theorem putBytes_stamps (s : State) (a : Nat) (bs : List Byte) : (s.putBytes a bs).stamps = s.stamps := rfl
@[simp] theorem putBytes_held (s : State) (a : Nat) (bs : List Byte) : (s.putBytes a bs).held = s.held := rfl
@[simp] theorem putBytes_shoots (s : State) (a : Nat) (bs : List Byte) : (s.putBytes a bs).shoots = s.shoots := rfl
@[simp] theorem putBytes_flits (s : State) (a : Nat) (bs : List Byte) : (s.putBytes a bs).flits = s.flits := rfl
@[simp] theorem putBytes_slices (s : State) (a : Nat) (bs : List Byte) : (s.putBytes a bs).slices = s.slices := rfl
@[simp] theorem putBytes_windows (s : State) (a : Nat) (bs : List Byte) : (s.putBytes a bs).windows = s.windows := rfl
@[simp] theorem putBytes_hostRefused (s : State) (a : Nat) (bs : List Byte) : (s.putBytes a bs).hostRefused = s.hostRefused := rfl
@[simp] theorem putBytes_sleeping (s : State) (a : Nat) (bs : List Byte) : (s.putBytes a bs).sleeping = s.sleeping := rfl
@[simp] theorem putBytes_wrapHold (s : State) (a : Nat) (bs : List Byte) : (s.putBytes a bs).wrapHold = s.wrapHold := rfl
@[simp] theorem putBytes_parts (s : State) (a : Nat) (bs : List Byte) : (s.putBytes a bs).parts = s.parts := rfl
@[simp] theorem putBytes_launches (s : State) (a : Nat) (bs : List Byte) : (s.putBytes a bs).launches = s.launches := rfl
@[simp] theorem putBytes_grids (s : State) (a : Nat) (bs : List Byte) : (s.putBytes a bs).grids = s.grids := rfl
@[simp] theorem putBytes_reports (s : State) (a : Nat) (bs : List Byte) : (s.putBytes a bs).reports = s.reports := rfl
@[simp] theorem putBytes_fronts (s : State) (a : Nat) (bs : List Byte) : (s.putBytes a bs).fronts = s.fronts := rfl
@[simp] theorem putBytes_faults (s : State) (a : Nat) (bs : List Byte) : (s.putBytes a bs).faults = s.faults := rfl
@[simp] theorem putBytes_fw (s : State) (a : Nat) (bs : List Byte) : (s.putBytes a bs).fw = s.fw := rfl
@[simp] theorem putBytes_beret (s : State) (a : Nat) (bs : List Byte) : (s.putBytes a bs).beret = s.beret := rfl
@[simp] theorem putBytes_agenda (s : State) (a : Nat) (bs : List Byte) : (s.putBytes a bs).agenda = s.agenda := rfl
@[simp] theorem putBytes_cur (s : State) (a : Nat) (bs : List Byte) : (s.putBytes a bs).cur = s.cur := rfl
@[simp] theorem putBytes_fresh (s : State) (a : Nat) (bs : List Byte) : (s.putBytes a bs).fresh = s.fresh := rfl
@[simp] theorem putBytes_nextId (s : State) (a : Nat) (bs : List Byte) : (s.putBytes a bs).nextId = s.nextId := rfl

@[simp] theorem write32_powered (s : State) (a : Nat) (v : Word) : (s.write32 a v).powered = s.powered := rfl
@[simp] theorem write32_tick (s : State) (a : Nat) (v : Word) : (s.write32 a v).tick = s.tick := rfl
@[simp] theorem write32_marks (s : State) (a : Nat) (v : Word) : (s.write32 a v).marks = s.marks := rfl
@[simp] theorem write32_badLines (s : State) (a : Nat) (v : Word) : (s.write32 a v).badLines = s.badLines := rfl
@[simp] theorem write32_quarantine (s : State) (a : Nat) (v : Word) : (s.write32 a v).quarantine = s.quarantine := rfl
@[simp] theorem write32_quarantinedHomes (s : State) (a : Nat) (v : Word) : (s.write32 a v).quarantinedHomes = s.quarantinedHomes := rfl
@[simp] theorem write32_teams (s : State) (a : Nat) (v : Word) : (s.write32 a v).teams = s.teams := rfl
@[simp] theorem write32_cores (s : State) (a : Nat) (v : Word) : (s.write32 a v).cores = s.cores := rfl
@[simp] theorem write32_lines (s : State) (a : Nat) (v : Word) : (s.write32 a v).lines = s.lines := rfl
@[simp] theorem write32_expects (s : State) (a : Nat) (v : Word) : (s.write32 a v).expects = s.expects := rfl
@[simp] theorem write32_dirs (s : State) (a : Nat) (v : Word) : (s.write32 a v).dirs = s.dirs := rfl
@[simp] theorem write32_homes (s : State) (a : Nat) (v : Word) : (s.write32 a v).homes = s.homes := rfl
@[simp] theorem write32_stamps (s : State) (a : Nat) (v : Word) : (s.write32 a v).stamps = s.stamps := rfl
@[simp] theorem write32_held (s : State) (a : Nat) (v : Word) : (s.write32 a v).held = s.held := rfl
@[simp] theorem write32_shoots (s : State) (a : Nat) (v : Word) : (s.write32 a v).shoots = s.shoots := rfl
@[simp] theorem write32_flits (s : State) (a : Nat) (v : Word) : (s.write32 a v).flits = s.flits := rfl
@[simp] theorem write32_slices (s : State) (a : Nat) (v : Word) : (s.write32 a v).slices = s.slices := rfl
@[simp] theorem write32_windows (s : State) (a : Nat) (v : Word) : (s.write32 a v).windows = s.windows := rfl
@[simp] theorem write32_hostRefused (s : State) (a : Nat) (v : Word) : (s.write32 a v).hostRefused = s.hostRefused := rfl
@[simp] theorem write32_sleeping (s : State) (a : Nat) (v : Word) : (s.write32 a v).sleeping = s.sleeping := rfl
@[simp] theorem write32_wrapHold (s : State) (a : Nat) (v : Word) : (s.write32 a v).wrapHold = s.wrapHold := rfl
@[simp] theorem write32_parts (s : State) (a : Nat) (v : Word) : (s.write32 a v).parts = s.parts := rfl
@[simp] theorem write32_launches (s : State) (a : Nat) (v : Word) : (s.write32 a v).launches = s.launches := rfl
@[simp] theorem write32_grids (s : State) (a : Nat) (v : Word) : (s.write32 a v).grids = s.grids := rfl
@[simp] theorem write32_reports (s : State) (a : Nat) (v : Word) : (s.write32 a v).reports = s.reports := rfl
@[simp] theorem write32_fronts (s : State) (a : Nat) (v : Word) : (s.write32 a v).fronts = s.fronts := rfl
@[simp] theorem write32_faults (s : State) (a : Nat) (v : Word) : (s.write32 a v).faults = s.faults := rfl
@[simp] theorem write32_fw (s : State) (a : Nat) (v : Word) : (s.write32 a v).fw = s.fw := rfl
@[simp] theorem write32_beret (s : State) (a : Nat) (v : Word) : (s.write32 a v).beret = s.beret := rfl
@[simp] theorem write32_agenda (s : State) (a : Nat) (v : Word) : (s.write32 a v).agenda = s.agenda := rfl
@[simp] theorem write32_cur (s : State) (a : Nat) (v : Word) : (s.write32 a v).cur = s.cur := rfl
@[simp] theorem write32_fresh (s : State) (a : Nat) (v : Word) : (s.write32 a v).fresh = s.fresh := rfl
@[simp] theorem write32_nextId (s : State) (a : Nat) (v : Word) : (s.write32 a v).nextId = s.nextId := rfl

@[simp] theorem write64_powered (s : State) (a : Nat) (v : DWord) : (s.write64 a v).powered = s.powered := rfl
@[simp] theorem write64_tick (s : State) (a : Nat) (v : DWord) : (s.write64 a v).tick = s.tick := rfl
@[simp] theorem write64_marks (s : State) (a : Nat) (v : DWord) : (s.write64 a v).marks = s.marks := rfl
@[simp] theorem write64_badLines (s : State) (a : Nat) (v : DWord) : (s.write64 a v).badLines = s.badLines := rfl
@[simp] theorem write64_quarantine (s : State) (a : Nat) (v : DWord) : (s.write64 a v).quarantine = s.quarantine := rfl
@[simp] theorem write64_quarantinedHomes (s : State) (a : Nat) (v : DWord) : (s.write64 a v).quarantinedHomes = s.quarantinedHomes := rfl
@[simp] theorem write64_teams (s : State) (a : Nat) (v : DWord) : (s.write64 a v).teams = s.teams := rfl
@[simp] theorem write64_cores (s : State) (a : Nat) (v : DWord) : (s.write64 a v).cores = s.cores := rfl
@[simp] theorem write64_lines (s : State) (a : Nat) (v : DWord) : (s.write64 a v).lines = s.lines := rfl
@[simp] theorem write64_expects (s : State) (a : Nat) (v : DWord) : (s.write64 a v).expects = s.expects := rfl
@[simp] theorem write64_dirs (s : State) (a : Nat) (v : DWord) : (s.write64 a v).dirs = s.dirs := rfl
@[simp] theorem write64_homes (s : State) (a : Nat) (v : DWord) : (s.write64 a v).homes = s.homes := rfl
@[simp] theorem write64_stamps (s : State) (a : Nat) (v : DWord) : (s.write64 a v).stamps = s.stamps := rfl
@[simp] theorem write64_held (s : State) (a : Nat) (v : DWord) : (s.write64 a v).held = s.held := rfl
@[simp] theorem write64_shoots (s : State) (a : Nat) (v : DWord) : (s.write64 a v).shoots = s.shoots := rfl
@[simp] theorem write64_flits (s : State) (a : Nat) (v : DWord) : (s.write64 a v).flits = s.flits := rfl
@[simp] theorem write64_slices (s : State) (a : Nat) (v : DWord) : (s.write64 a v).slices = s.slices := rfl
@[simp] theorem write64_windows (s : State) (a : Nat) (v : DWord) : (s.write64 a v).windows = s.windows := rfl
@[simp] theorem write64_hostRefused (s : State) (a : Nat) (v : DWord) : (s.write64 a v).hostRefused = s.hostRefused := rfl
@[simp] theorem write64_sleeping (s : State) (a : Nat) (v : DWord) : (s.write64 a v).sleeping = s.sleeping := rfl
@[simp] theorem write64_wrapHold (s : State) (a : Nat) (v : DWord) : (s.write64 a v).wrapHold = s.wrapHold := rfl
@[simp] theorem write64_parts (s : State) (a : Nat) (v : DWord) : (s.write64 a v).parts = s.parts := rfl
@[simp] theorem write64_launches (s : State) (a : Nat) (v : DWord) : (s.write64 a v).launches = s.launches := rfl
@[simp] theorem write64_grids (s : State) (a : Nat) (v : DWord) : (s.write64 a v).grids = s.grids := rfl
@[simp] theorem write64_reports (s : State) (a : Nat) (v : DWord) : (s.write64 a v).reports = s.reports := rfl
@[simp] theorem write64_fronts (s : State) (a : Nat) (v : DWord) : (s.write64 a v).fronts = s.fronts := rfl
@[simp] theorem write64_faults (s : State) (a : Nat) (v : DWord) : (s.write64 a v).faults = s.faults := rfl
@[simp] theorem write64_fw (s : State) (a : Nat) (v : DWord) : (s.write64 a v).fw = s.fw := rfl
@[simp] theorem write64_beret (s : State) (a : Nat) (v : DWord) : (s.write64 a v).beret = s.beret := rfl
@[simp] theorem write64_agenda (s : State) (a : Nat) (v : DWord) : (s.write64 a v).agenda = s.agenda := rfl
@[simp] theorem write64_cur (s : State) (a : Nat) (v : DWord) : (s.write64 a v).cur = s.cur := rfl
@[simp] theorem write64_fresh (s : State) (a : Nat) (v : DWord) : (s.write64 a v).fresh = s.fresh := rfl
@[simp] theorem write64_nextId (s : State) (a : Nat) (v : DWord) : (s.write64 a v).nextId = s.nextId := rfl

@[simp] theorem logEvent_powered (s : State) (cls code src : Nat) (data : List Nat) : (s.logEvent cls code src data).powered = s.powered := rfl
@[simp] theorem logEvent_tick (s : State) (cls code src : Nat) (data : List Nat) : (s.logEvent cls code src data).tick = s.tick := rfl
@[simp] theorem logEvent_mem (s : State) (cls code src : Nat) (data : List Nat) : (s.logEvent cls code src data).mem = s.mem := rfl
@[simp] theorem logEvent_marks (s : State) (cls code src : Nat) (data : List Nat) : (s.logEvent cls code src data).marks = s.marks := rfl
@[simp] theorem logEvent_badLines (s : State) (cls code src : Nat) (data : List Nat) : (s.logEvent cls code src data).badLines = s.badLines := rfl
@[simp] theorem logEvent_quarantine (s : State) (cls code src : Nat) (data : List Nat) : (s.logEvent cls code src data).quarantine = s.quarantine := rfl
@[simp] theorem logEvent_quarantinedHomes (s : State) (cls code src : Nat) (data : List Nat) : (s.logEvent cls code src data).quarantinedHomes = s.quarantinedHomes := rfl
@[simp] theorem logEvent_teams (s : State) (cls code src : Nat) (data : List Nat) : (s.logEvent cls code src data).teams = s.teams := rfl
@[simp] theorem logEvent_cores (s : State) (cls code src : Nat) (data : List Nat) : (s.logEvent cls code src data).cores = s.cores := rfl
@[simp] theorem logEvent_lines (s : State) (cls code src : Nat) (data : List Nat) : (s.logEvent cls code src data).lines = s.lines := rfl
@[simp] theorem logEvent_expects (s : State) (cls code src : Nat) (data : List Nat) : (s.logEvent cls code src data).expects = s.expects := rfl
@[simp] theorem logEvent_dirs (s : State) (cls code src : Nat) (data : List Nat) : (s.logEvent cls code src data).dirs = s.dirs := rfl
@[simp] theorem logEvent_homes (s : State) (cls code src : Nat) (data : List Nat) : (s.logEvent cls code src data).homes = s.homes := rfl
@[simp] theorem logEvent_stamps (s : State) (cls code src : Nat) (data : List Nat) : (s.logEvent cls code src data).stamps = s.stamps := rfl
@[simp] theorem logEvent_held (s : State) (cls code src : Nat) (data : List Nat) : (s.logEvent cls code src data).held = s.held := rfl
@[simp] theorem logEvent_shoots (s : State) (cls code src : Nat) (data : List Nat) : (s.logEvent cls code src data).shoots = s.shoots := rfl
@[simp] theorem logEvent_flits (s : State) (cls code src : Nat) (data : List Nat) : (s.logEvent cls code src data).flits = s.flits := rfl
@[simp] theorem logEvent_slices (s : State) (cls code src : Nat) (data : List Nat) : (s.logEvent cls code src data).slices = s.slices := rfl
@[simp] theorem logEvent_windows (s : State) (cls code src : Nat) (data : List Nat) : (s.logEvent cls code src data).windows = s.windows := rfl
@[simp] theorem logEvent_hostRefused (s : State) (cls code src : Nat) (data : List Nat) : (s.logEvent cls code src data).hostRefused = s.hostRefused := rfl
@[simp] theorem logEvent_sleeping (s : State) (cls code src : Nat) (data : List Nat) : (s.logEvent cls code src data).sleeping = s.sleeping := rfl
@[simp] theorem logEvent_wrapHold (s : State) (cls code src : Nat) (data : List Nat) : (s.logEvent cls code src data).wrapHold = s.wrapHold := rfl
@[simp] theorem logEvent_parts (s : State) (cls code src : Nat) (data : List Nat) : (s.logEvent cls code src data).parts = s.parts := rfl
@[simp] theorem logEvent_launches (s : State) (cls code src : Nat) (data : List Nat) : (s.logEvent cls code src data).launches = s.launches := rfl
@[simp] theorem logEvent_grids (s : State) (cls code src : Nat) (data : List Nat) : (s.logEvent cls code src data).grids = s.grids := rfl
@[simp] theorem logEvent_reports (s : State) (cls code src : Nat) (data : List Nat) : (s.logEvent cls code src data).reports = s.reports := rfl
@[simp] theorem logEvent_fronts (s : State) (cls code src : Nat) (data : List Nat) : (s.logEvent cls code src data).fronts = s.fronts := rfl
@[simp] theorem logEvent_faults (s : State) (cls code src : Nat) (data : List Nat) : (s.logEvent cls code src data).faults = s.faults := rfl
@[simp] theorem logEvent_fw (s : State) (cls code src : Nat) (data : List Nat) : (s.logEvent cls code src data).fw = s.fw := rfl
@[simp] theorem logEvent_agenda (s : State) (cls code src : Nat) (data : List Nat) : (s.logEvent cls code src data).agenda = s.agenda := rfl
@[simp] theorem logEvent_cur (s : State) (cls code src : Nat) (data : List Nat) : (s.logEvent cls code src data).cur = s.cur := rfl
@[simp] theorem logEvent_fresh (s : State) (cls code src : Nat) (data : List Nat) : (s.logEvent cls code src data).fresh = s.fresh := rfl
@[simp] theorem logEvent_nextId (s : State) (cls code src : Nat) (data : List Nat) : (s.logEvent cls code src data).nextId = s.nextId := rfl

@[simp] theorem updTeam_powered (s : State) (t : Nat) (f : Team → Team) : (s.updTeam t f).powered = s.powered := by unfold State.updTeam; split <;> rfl
@[simp] theorem updTeam_tick (s : State) (t : Nat) (f : Team → Team) : (s.updTeam t f).tick = s.tick := by unfold State.updTeam; split <;> rfl
@[simp] theorem updTeam_mem (s : State) (t : Nat) (f : Team → Team) : (s.updTeam t f).mem = s.mem := by unfold State.updTeam; split <;> rfl
@[simp] theorem updTeam_marks (s : State) (t : Nat) (f : Team → Team) : (s.updTeam t f).marks = s.marks := by unfold State.updTeam; split <;> rfl
@[simp] theorem updTeam_badLines (s : State) (t : Nat) (f : Team → Team) : (s.updTeam t f).badLines = s.badLines := by unfold State.updTeam; split <;> rfl
@[simp] theorem updTeam_quarantine (s : State) (t : Nat) (f : Team → Team) : (s.updTeam t f).quarantine = s.quarantine := by unfold State.updTeam; split <;> rfl
@[simp] theorem updTeam_quarantinedHomes (s : State) (t : Nat) (f : Team → Team) : (s.updTeam t f).quarantinedHomes = s.quarantinedHomes := by unfold State.updTeam; split <;> rfl
@[simp] theorem updTeam_cores (s : State) (t : Nat) (f : Team → Team) : (s.updTeam t f).cores = s.cores := by unfold State.updTeam; split <;> rfl
@[simp] theorem updTeam_lines (s : State) (t : Nat) (f : Team → Team) : (s.updTeam t f).lines = s.lines := by unfold State.updTeam; split <;> rfl
@[simp] theorem updTeam_expects (s : State) (t : Nat) (f : Team → Team) : (s.updTeam t f).expects = s.expects := by unfold State.updTeam; split <;> rfl
@[simp] theorem updTeam_dirs (s : State) (t : Nat) (f : Team → Team) : (s.updTeam t f).dirs = s.dirs := by unfold State.updTeam; split <;> rfl
@[simp] theorem updTeam_homes (s : State) (t : Nat) (f : Team → Team) : (s.updTeam t f).homes = s.homes := by unfold State.updTeam; split <;> rfl
@[simp] theorem updTeam_stamps (s : State) (t : Nat) (f : Team → Team) : (s.updTeam t f).stamps = s.stamps := by unfold State.updTeam; split <;> rfl
@[simp] theorem updTeam_held (s : State) (t : Nat) (f : Team → Team) : (s.updTeam t f).held = s.held := by unfold State.updTeam; split <;> rfl
@[simp] theorem updTeam_shoots (s : State) (t : Nat) (f : Team → Team) : (s.updTeam t f).shoots = s.shoots := by unfold State.updTeam; split <;> rfl
@[simp] theorem updTeam_flits (s : State) (t : Nat) (f : Team → Team) : (s.updTeam t f).flits = s.flits := by unfold State.updTeam; split <;> rfl
@[simp] theorem updTeam_slices (s : State) (t : Nat) (f : Team → Team) : (s.updTeam t f).slices = s.slices := by unfold State.updTeam; split <;> rfl
@[simp] theorem updTeam_windows (s : State) (t : Nat) (f : Team → Team) : (s.updTeam t f).windows = s.windows := by unfold State.updTeam; split <;> rfl
@[simp] theorem updTeam_hostRefused (s : State) (t : Nat) (f : Team → Team) : (s.updTeam t f).hostRefused = s.hostRefused := by unfold State.updTeam; split <;> rfl
@[simp] theorem updTeam_sleeping (s : State) (t : Nat) (f : Team → Team) : (s.updTeam t f).sleeping = s.sleeping := by unfold State.updTeam; split <;> rfl
@[simp] theorem updTeam_wrapHold (s : State) (t : Nat) (f : Team → Team) : (s.updTeam t f).wrapHold = s.wrapHold := by unfold State.updTeam; split <;> rfl
@[simp] theorem updTeam_parts (s : State) (t : Nat) (f : Team → Team) : (s.updTeam t f).parts = s.parts := by unfold State.updTeam; split <;> rfl
@[simp] theorem updTeam_launches (s : State) (t : Nat) (f : Team → Team) : (s.updTeam t f).launches = s.launches := by unfold State.updTeam; split <;> rfl
@[simp] theorem updTeam_grids (s : State) (t : Nat) (f : Team → Team) : (s.updTeam t f).grids = s.grids := by unfold State.updTeam; split <;> rfl
@[simp] theorem updTeam_reports (s : State) (t : Nat) (f : Team → Team) : (s.updTeam t f).reports = s.reports := by unfold State.updTeam; split <;> rfl
@[simp] theorem updTeam_fronts (s : State) (t : Nat) (f : Team → Team) : (s.updTeam t f).fronts = s.fronts := by unfold State.updTeam; split <;> rfl
@[simp] theorem updTeam_faults (s : State) (t : Nat) (f : Team → Team) : (s.updTeam t f).faults = s.faults := by unfold State.updTeam; split <;> rfl
@[simp] theorem updTeam_fw (s : State) (t : Nat) (f : Team → Team) : (s.updTeam t f).fw = s.fw := by unfold State.updTeam; split <;> rfl
@[simp] theorem updTeam_beret (s : State) (t : Nat) (f : Team → Team) : (s.updTeam t f).beret = s.beret := by unfold State.updTeam; split <;> rfl
@[simp] theorem updTeam_agenda (s : State) (t : Nat) (f : Team → Team) : (s.updTeam t f).agenda = s.agenda := by unfold State.updTeam; split <;> rfl
@[simp] theorem updTeam_cur (s : State) (t : Nat) (f : Team → Team) : (s.updTeam t f).cur = s.cur := by unfold State.updTeam; split <;> rfl
@[simp] theorem updTeam_fresh (s : State) (t : Nat) (f : Team → Team) : (s.updTeam t f).fresh = s.fresh := by unfold State.updTeam; split <;> rfl
@[simp] theorem updTeam_nextId (s : State) (t : Nat) (f : Team → Team) : (s.updTeam t f).nextId = s.nextId := by unfold State.updTeam; split <;> rfl

@[simp] theorem updGroup_powered (s : State) (t g : Nat) (f : Group → Group) : (s.updGroup t g f).powered = s.powered := updTeam_powered ..
@[simp] theorem updGroup_tick (s : State) (t g : Nat) (f : Group → Group) : (s.updGroup t g f).tick = s.tick := updTeam_tick ..
@[simp] theorem updGroup_mem (s : State) (t g : Nat) (f : Group → Group) : (s.updGroup t g f).mem = s.mem := updTeam_mem ..
@[simp] theorem updGroup_marks (s : State) (t g : Nat) (f : Group → Group) : (s.updGroup t g f).marks = s.marks := updTeam_marks ..
@[simp] theorem updGroup_badLines (s : State) (t g : Nat) (f : Group → Group) : (s.updGroup t g f).badLines = s.badLines := updTeam_badLines ..
@[simp] theorem updGroup_quarantine (s : State) (t g : Nat) (f : Group → Group) : (s.updGroup t g f).quarantine = s.quarantine := updTeam_quarantine ..
@[simp] theorem updGroup_quarantinedHomes (s : State) (t g : Nat) (f : Group → Group) : (s.updGroup t g f).quarantinedHomes = s.quarantinedHomes := updTeam_quarantinedHomes ..
@[simp] theorem updGroup_cores (s : State) (t g : Nat) (f : Group → Group) : (s.updGroup t g f).cores = s.cores := updTeam_cores ..
@[simp] theorem updGroup_lines (s : State) (t g : Nat) (f : Group → Group) : (s.updGroup t g f).lines = s.lines := updTeam_lines ..
@[simp] theorem updGroup_expects (s : State) (t g : Nat) (f : Group → Group) : (s.updGroup t g f).expects = s.expects := updTeam_expects ..
@[simp] theorem updGroup_dirs (s : State) (t g : Nat) (f : Group → Group) : (s.updGroup t g f).dirs = s.dirs := updTeam_dirs ..
@[simp] theorem updGroup_homes (s : State) (t g : Nat) (f : Group → Group) : (s.updGroup t g f).homes = s.homes := updTeam_homes ..
@[simp] theorem updGroup_stamps (s : State) (t g : Nat) (f : Group → Group) : (s.updGroup t g f).stamps = s.stamps := updTeam_stamps ..
@[simp] theorem updGroup_held (s : State) (t g : Nat) (f : Group → Group) : (s.updGroup t g f).held = s.held := updTeam_held ..
@[simp] theorem updGroup_shoots (s : State) (t g : Nat) (f : Group → Group) : (s.updGroup t g f).shoots = s.shoots := updTeam_shoots ..
@[simp] theorem updGroup_flits (s : State) (t g : Nat) (f : Group → Group) : (s.updGroup t g f).flits = s.flits := updTeam_flits ..
@[simp] theorem updGroup_slices (s : State) (t g : Nat) (f : Group → Group) : (s.updGroup t g f).slices = s.slices := updTeam_slices ..
@[simp] theorem updGroup_windows (s : State) (t g : Nat) (f : Group → Group) : (s.updGroup t g f).windows = s.windows := updTeam_windows ..
@[simp] theorem updGroup_hostRefused (s : State) (t g : Nat) (f : Group → Group) : (s.updGroup t g f).hostRefused = s.hostRefused := updTeam_hostRefused ..
@[simp] theorem updGroup_sleeping (s : State) (t g : Nat) (f : Group → Group) : (s.updGroup t g f).sleeping = s.sleeping := updTeam_sleeping ..
@[simp] theorem updGroup_wrapHold (s : State) (t g : Nat) (f : Group → Group) : (s.updGroup t g f).wrapHold = s.wrapHold := updTeam_wrapHold ..
@[simp] theorem updGroup_parts (s : State) (t g : Nat) (f : Group → Group) : (s.updGroup t g f).parts = s.parts := updTeam_parts ..
@[simp] theorem updGroup_launches (s : State) (t g : Nat) (f : Group → Group) : (s.updGroup t g f).launches = s.launches := updTeam_launches ..
@[simp] theorem updGroup_grids (s : State) (t g : Nat) (f : Group → Group) : (s.updGroup t g f).grids = s.grids := updTeam_grids ..
@[simp] theorem updGroup_reports (s : State) (t g : Nat) (f : Group → Group) : (s.updGroup t g f).reports = s.reports := updTeam_reports ..
@[simp] theorem updGroup_fronts (s : State) (t g : Nat) (f : Group → Group) : (s.updGroup t g f).fronts = s.fronts := updTeam_fronts ..
@[simp] theorem updGroup_faults (s : State) (t g : Nat) (f : Group → Group) : (s.updGroup t g f).faults = s.faults := updTeam_faults ..
@[simp] theorem updGroup_fw (s : State) (t g : Nat) (f : Group → Group) : (s.updGroup t g f).fw = s.fw := updTeam_fw ..
@[simp] theorem updGroup_beret (s : State) (t g : Nat) (f : Group → Group) : (s.updGroup t g f).beret = s.beret := updTeam_beret ..
@[simp] theorem updGroup_agenda (s : State) (t g : Nat) (f : Group → Group) : (s.updGroup t g f).agenda = s.agenda := updTeam_agenda ..
@[simp] theorem updGroup_cur (s : State) (t g : Nat) (f : Group → Group) : (s.updGroup t g f).cur = s.cur := updTeam_cur ..
@[simp] theorem updGroup_fresh (s : State) (t g : Nat) (f : Group → Group) : (s.updGroup t g f).fresh = s.fresh := updTeam_fresh ..
@[simp] theorem updGroup_nextId (s : State) (t g : Nat) (f : Group → Group) : (s.updGroup t g f).nextId = s.nextId := updTeam_nextId ..

@[simp] theorem raise_powered (s : State) (t : Nat) (fl : Fl) : (s.raise t fl).powered = s.powered := by unfold State.raise; split <;> simp
@[simp] theorem raise_tick (s : State) (t : Nat) (fl : Fl) : (s.raise t fl).tick = s.tick := by unfold State.raise; split <;> simp
@[simp] theorem raise_mem (s : State) (t : Nat) (fl : Fl) : (s.raise t fl).mem = s.mem := by unfold State.raise; split <;> simp
@[simp] theorem raise_marks (s : State) (t : Nat) (fl : Fl) : (s.raise t fl).marks = s.marks := by unfold State.raise; split <;> simp
@[simp] theorem raise_badLines (s : State) (t : Nat) (fl : Fl) : (s.raise t fl).badLines = s.badLines := by unfold State.raise; split <;> simp
@[simp] theorem raise_quarantine (s : State) (t : Nat) (fl : Fl) : (s.raise t fl).quarantine = s.quarantine := by unfold State.raise; split <;> simp
@[simp] theorem raise_quarantinedHomes (s : State) (t : Nat) (fl : Fl) : (s.raise t fl).quarantinedHomes = s.quarantinedHomes := by unfold State.raise; split <;> simp
@[simp] theorem raise_cores (s : State) (t : Nat) (fl : Fl) : (s.raise t fl).cores = s.cores := by unfold State.raise; split <;> simp
@[simp] theorem raise_lines (s : State) (t : Nat) (fl : Fl) : (s.raise t fl).lines = s.lines := by unfold State.raise; split <;> simp
@[simp] theorem raise_expects (s : State) (t : Nat) (fl : Fl) : (s.raise t fl).expects = s.expects := by unfold State.raise; split <;> simp
@[simp] theorem raise_dirs (s : State) (t : Nat) (fl : Fl) : (s.raise t fl).dirs = s.dirs := by unfold State.raise; split <;> simp
@[simp] theorem raise_homes (s : State) (t : Nat) (fl : Fl) : (s.raise t fl).homes = s.homes := by unfold State.raise; split <;> simp
@[simp] theorem raise_stamps (s : State) (t : Nat) (fl : Fl) : (s.raise t fl).stamps = s.stamps := by unfold State.raise; split <;> simp
@[simp] theorem raise_held (s : State) (t : Nat) (fl : Fl) : (s.raise t fl).held = s.held := by unfold State.raise; split <;> simp
@[simp] theorem raise_shoots (s : State) (t : Nat) (fl : Fl) : (s.raise t fl).shoots = s.shoots := by unfold State.raise; split <;> simp
@[simp] theorem raise_flits (s : State) (t : Nat) (fl : Fl) : (s.raise t fl).flits = s.flits := by unfold State.raise; split <;> simp
@[simp] theorem raise_slices (s : State) (t : Nat) (fl : Fl) : (s.raise t fl).slices = s.slices := by unfold State.raise; split <;> simp
@[simp] theorem raise_windows (s : State) (t : Nat) (fl : Fl) : (s.raise t fl).windows = s.windows := by unfold State.raise; split <;> simp
@[simp] theorem raise_hostRefused (s : State) (t : Nat) (fl : Fl) : (s.raise t fl).hostRefused = s.hostRefused := by unfold State.raise; split <;> simp
@[simp] theorem raise_sleeping (s : State) (t : Nat) (fl : Fl) : (s.raise t fl).sleeping = s.sleeping := by unfold State.raise; split <;> simp
@[simp] theorem raise_wrapHold (s : State) (t : Nat) (fl : Fl) : (s.raise t fl).wrapHold = s.wrapHold := by unfold State.raise; split <;> simp
@[simp] theorem raise_parts (s : State) (t : Nat) (fl : Fl) : (s.raise t fl).parts = s.parts := by unfold State.raise; split <;> simp
@[simp] theorem raise_launches (s : State) (t : Nat) (fl : Fl) : (s.raise t fl).launches = s.launches := by unfold State.raise; split <;> simp
@[simp] theorem raise_grids (s : State) (t : Nat) (fl : Fl) : (s.raise t fl).grids = s.grids := by unfold State.raise; split <;> simp
@[simp] theorem raise_reports (s : State) (t : Nat) (fl : Fl) : (s.raise t fl).reports = s.reports := by unfold State.raise; split <;> simp
@[simp] theorem raise_fronts (s : State) (t : Nat) (fl : Fl) : (s.raise t fl).fronts = s.fronts := by unfold State.raise; split <;> simp
@[simp] theorem raise_faults (s : State) (t : Nat) (fl : Fl) : (s.raise t fl).faults = s.faults := by unfold State.raise; split <;> simp
@[simp] theorem raise_fw (s : State) (t : Nat) (fl : Fl) : (s.raise t fl).fw = s.fw := by unfold State.raise; split <;> simp
@[simp] theorem raise_beret (s : State) (t : Nat) (fl : Fl) : (s.raise t fl).beret = s.beret := by unfold State.raise; split <;> simp
@[simp] theorem raise_agenda (s : State) (t : Nat) (fl : Fl) : (s.raise t fl).agenda = s.agenda := by unfold State.raise; split <;> simp
@[simp] theorem raise_cur (s : State) (t : Nat) (fl : Fl) : (s.raise t fl).cur = s.cur := by unfold State.raise; split <;> simp
@[simp] theorem raise_fresh (s : State) (t : Nat) (fl : Fl) : (s.raise t fl).fresh = s.fresh := by unfold State.raise; split <;> simp
@[simp] theorem raise_nextId (s : State) (t : Nat) (fl : Fl) : (s.raise t fl).nextId = s.nextId := by unfold State.raise; split <;> simp

@[simp] theorem count_powered (s : State) (t ev n : Nat) : (s.count t ev n).powered = s.powered := updTeam_powered ..
@[simp] theorem count_tick (s : State) (t ev n : Nat) : (s.count t ev n).tick = s.tick := updTeam_tick ..
@[simp] theorem count_mem (s : State) (t ev n : Nat) : (s.count t ev n).mem = s.mem := updTeam_mem ..
@[simp] theorem count_marks (s : State) (t ev n : Nat) : (s.count t ev n).marks = s.marks := updTeam_marks ..
@[simp] theorem count_badLines (s : State) (t ev n : Nat) : (s.count t ev n).badLines = s.badLines := updTeam_badLines ..
@[simp] theorem count_quarantine (s : State) (t ev n : Nat) : (s.count t ev n).quarantine = s.quarantine := updTeam_quarantine ..
@[simp] theorem count_quarantinedHomes (s : State) (t ev n : Nat) : (s.count t ev n).quarantinedHomes = s.quarantinedHomes := updTeam_quarantinedHomes ..
@[simp] theorem count_cores (s : State) (t ev n : Nat) : (s.count t ev n).cores = s.cores := updTeam_cores ..
@[simp] theorem count_lines (s : State) (t ev n : Nat) : (s.count t ev n).lines = s.lines := updTeam_lines ..
@[simp] theorem count_expects (s : State) (t ev n : Nat) : (s.count t ev n).expects = s.expects := updTeam_expects ..
@[simp] theorem count_dirs (s : State) (t ev n : Nat) : (s.count t ev n).dirs = s.dirs := updTeam_dirs ..
@[simp] theorem count_homes (s : State) (t ev n : Nat) : (s.count t ev n).homes = s.homes := updTeam_homes ..
@[simp] theorem count_stamps (s : State) (t ev n : Nat) : (s.count t ev n).stamps = s.stamps := updTeam_stamps ..
@[simp] theorem count_held (s : State) (t ev n : Nat) : (s.count t ev n).held = s.held := updTeam_held ..
@[simp] theorem count_shoots (s : State) (t ev n : Nat) : (s.count t ev n).shoots = s.shoots := updTeam_shoots ..
@[simp] theorem count_flits (s : State) (t ev n : Nat) : (s.count t ev n).flits = s.flits := updTeam_flits ..
@[simp] theorem count_slices (s : State) (t ev n : Nat) : (s.count t ev n).slices = s.slices := updTeam_slices ..
@[simp] theorem count_windows (s : State) (t ev n : Nat) : (s.count t ev n).windows = s.windows := updTeam_windows ..
@[simp] theorem count_hostRefused (s : State) (t ev n : Nat) : (s.count t ev n).hostRefused = s.hostRefused := updTeam_hostRefused ..
@[simp] theorem count_sleeping (s : State) (t ev n : Nat) : (s.count t ev n).sleeping = s.sleeping := updTeam_sleeping ..
@[simp] theorem count_wrapHold (s : State) (t ev n : Nat) : (s.count t ev n).wrapHold = s.wrapHold := updTeam_wrapHold ..
@[simp] theorem count_parts (s : State) (t ev n : Nat) : (s.count t ev n).parts = s.parts := updTeam_parts ..
@[simp] theorem count_launches (s : State) (t ev n : Nat) : (s.count t ev n).launches = s.launches := updTeam_launches ..
@[simp] theorem count_grids (s : State) (t ev n : Nat) : (s.count t ev n).grids = s.grids := updTeam_grids ..
@[simp] theorem count_reports (s : State) (t ev n : Nat) : (s.count t ev n).reports = s.reports := updTeam_reports ..
@[simp] theorem count_fronts (s : State) (t ev n : Nat) : (s.count t ev n).fronts = s.fronts := updTeam_fronts ..
@[simp] theorem count_faults (s : State) (t ev n : Nat) : (s.count t ev n).faults = s.faults := updTeam_faults ..
@[simp] theorem count_fw (s : State) (t ev n : Nat) : (s.count t ev n).fw = s.fw := updTeam_fw ..
@[simp] theorem count_beret (s : State) (t ev n : Nat) : (s.count t ev n).beret = s.beret := updTeam_beret ..
@[simp] theorem count_agenda (s : State) (t ev n : Nat) : (s.count t ev n).agenda = s.agenda := updTeam_agenda ..
@[simp] theorem count_cur (s : State) (t ev n : Nat) : (s.count t ev n).cur = s.cur := updTeam_cur ..
@[simp] theorem count_fresh (s : State) (t ev n : Nat) : (s.count t ev n).fresh = s.fresh := updTeam_fresh ..
@[simp] theorem count_nextId (s : State) (t ev n : Nat) : (s.count t ev n).nextId = s.nextId := updTeam_nextId ..

@[simp] theorem onSite_powered (s : State) (x : Site) (f : Group → Group) : (s.onSite x f).powered = s.powered := updGroup_powered ..
@[simp] theorem onSite_tick (s : State) (x : Site) (f : Group → Group) : (s.onSite x f).tick = s.tick := updGroup_tick ..
@[simp] theorem onSite_mem (s : State) (x : Site) (f : Group → Group) : (s.onSite x f).mem = s.mem := updGroup_mem ..
@[simp] theorem onSite_marks (s : State) (x : Site) (f : Group → Group) : (s.onSite x f).marks = s.marks := updGroup_marks ..
@[simp] theorem onSite_badLines (s : State) (x : Site) (f : Group → Group) : (s.onSite x f).badLines = s.badLines := updGroup_badLines ..
@[simp] theorem onSite_quarantine (s : State) (x : Site) (f : Group → Group) : (s.onSite x f).quarantine = s.quarantine := updGroup_quarantine ..
@[simp] theorem onSite_quarantinedHomes (s : State) (x : Site) (f : Group → Group) : (s.onSite x f).quarantinedHomes = s.quarantinedHomes := updGroup_quarantinedHomes ..
@[simp] theorem onSite_cores (s : State) (x : Site) (f : Group → Group) : (s.onSite x f).cores = s.cores := updGroup_cores ..
@[simp] theorem onSite_lines (s : State) (x : Site) (f : Group → Group) : (s.onSite x f).lines = s.lines := updGroup_lines ..
@[simp] theorem onSite_expects (s : State) (x : Site) (f : Group → Group) : (s.onSite x f).expects = s.expects := updGroup_expects ..
@[simp] theorem onSite_dirs (s : State) (x : Site) (f : Group → Group) : (s.onSite x f).dirs = s.dirs := updGroup_dirs ..
@[simp] theorem onSite_homes (s : State) (x : Site) (f : Group → Group) : (s.onSite x f).homes = s.homes := updGroup_homes ..
@[simp] theorem onSite_stamps (s : State) (x : Site) (f : Group → Group) : (s.onSite x f).stamps = s.stamps := updGroup_stamps ..
@[simp] theorem onSite_held (s : State) (x : Site) (f : Group → Group) : (s.onSite x f).held = s.held := updGroup_held ..
@[simp] theorem onSite_shoots (s : State) (x : Site) (f : Group → Group) : (s.onSite x f).shoots = s.shoots := updGroup_shoots ..
@[simp] theorem onSite_flits (s : State) (x : Site) (f : Group → Group) : (s.onSite x f).flits = s.flits := updGroup_flits ..
@[simp] theorem onSite_slices (s : State) (x : Site) (f : Group → Group) : (s.onSite x f).slices = s.slices := updGroup_slices ..
@[simp] theorem onSite_windows (s : State) (x : Site) (f : Group → Group) : (s.onSite x f).windows = s.windows := updGroup_windows ..
@[simp] theorem onSite_hostRefused (s : State) (x : Site) (f : Group → Group) : (s.onSite x f).hostRefused = s.hostRefused := updGroup_hostRefused ..
@[simp] theorem onSite_sleeping (s : State) (x : Site) (f : Group → Group) : (s.onSite x f).sleeping = s.sleeping := updGroup_sleeping ..
@[simp] theorem onSite_wrapHold (s : State) (x : Site) (f : Group → Group) : (s.onSite x f).wrapHold = s.wrapHold := updGroup_wrapHold ..
@[simp] theorem onSite_parts (s : State) (x : Site) (f : Group → Group) : (s.onSite x f).parts = s.parts := updGroup_parts ..
@[simp] theorem onSite_launches (s : State) (x : Site) (f : Group → Group) : (s.onSite x f).launches = s.launches := updGroup_launches ..
@[simp] theorem onSite_grids (s : State) (x : Site) (f : Group → Group) : (s.onSite x f).grids = s.grids := updGroup_grids ..
@[simp] theorem onSite_reports (s : State) (x : Site) (f : Group → Group) : (s.onSite x f).reports = s.reports := updGroup_reports ..
@[simp] theorem onSite_fronts (s : State) (x : Site) (f : Group → Group) : (s.onSite x f).fronts = s.fronts := updGroup_fronts ..
@[simp] theorem onSite_faults (s : State) (x : Site) (f : Group → Group) : (s.onSite x f).faults = s.faults := updGroup_faults ..
@[simp] theorem onSite_fw (s : State) (x : Site) (f : Group → Group) : (s.onSite x f).fw = s.fw := updGroup_fw ..
@[simp] theorem onSite_beret (s : State) (x : Site) (f : Group → Group) : (s.onSite x f).beret = s.beret := updGroup_beret ..
@[simp] theorem onSite_agenda (s : State) (x : Site) (f : Group → Group) : (s.onSite x f).agenda = s.agenda := updGroup_agenda ..
@[simp] theorem onSite_cur (s : State) (x : Site) (f : Group → Group) : (s.onSite x f).cur = s.cur := updGroup_cur ..
@[simp] theorem onSite_fresh (s : State) (x : Site) (f : Group → Group) : (s.onSite x f).fresh = s.fresh := updGroup_fresh ..
@[simp] theorem onSite_nextId (s : State) (x : Site) (f : Group → Group) : (s.onSite x f).nextId = s.nextId := updGroup_nextId ..

/-! ### Teams, groups, cores and partitions after an update -/

theorem team?_putTeam (s : State) (t u : Nat) (x : Team) :
    (s.putTeam t x).team? u = if u = t then some x else s.team? u := alook_aput ..

theorem team?_updTeam (s : State) (t u : Nat) (f : Team → Team) :
    (s.updTeam t f).team? u = if u = t then (s.team? t).map f else s.team? u := by
  unfold State.updTeam
  cases h : s.team? t with
  | none => by_cases hu : u = t <;> simp [hu, h]
  | some x => rw [team?_putTeam]; rfl

@[simp] theorem team?_updTeam_same (s : State) (t : Nat) (f : Team → Team) : (s.updTeam t f).team? t = (s.team? t).map f := by
  simp [team?_updTeam]

theorem group?_of_team (s : State) (t g : Nat) : s.group? t g = (s.team? t).bind (fun x => x.group? g) := rfl

theorem group?_putGroup (x : Team) (g h : Nat) (y : Group) :
    (x.putGroup g y).group? h = if h = g then some y else x.group? h := alook_aput ..

theorem group?_updGroup_team (x : Team) (g h : Nat) (f : Group → Group) :
    (x.updGroup g f).group? h = if h = g then (x.group? g).map f else x.group? h := by
  unfold Team.updGroup
  cases e : x.group? g with
  | none => by_cases hu : h = g <;> simp [hu, e]
  | some y => rw [group?_putGroup]; rfl

theorem group?_updGroup (s : State) (t g u h : Nat) (f : Group → Group) :
    (s.updGroup t g f).group? u h = if u = t ∧ h = g then (s.group? t g).map f else s.group? u h := by
  unfold State.group? State.updGroup
  rw [team?_updTeam]
  by_cases hu : u = t
  · subst hu
    cases e : s.team? u with
    | none => simp
    | some x => by_cases hh : h = g <;> simp [group?_updGroup_team, hh]
  · simp [hu]

@[simp] theorem group?_updGroup_same (s : State) (t g : Nat) (f : Group → Group) :
    (s.updGroup t g f).group? t g = (s.group? t g).map f := by simp [group?_updGroup]

/-- Changing a team's fields other than its groups leaves every group as it was. -/
theorem group?_updTeam (s : State) (t u h : Nat) (f : Team → Team) (hf : ∀ x, (f x).groups = x.groups) :
    (s.updTeam t f).group? u h = s.group? u h := by
  unfold State.group?
  rw [team?_updTeam]
  by_cases hu : u = t
  · subst hu
    cases s.team? u with
    | none => simp
    | some x => simp [Team.group?, hf]
  · simp [hu]

theorem core_putCore (s : State) (c d : Nat) (x : Core) : (s.putCore c x).core d = if d = c then x else s.core d := by
  simp only [State.core, State.putCore, alook_aput]
  split <;> rfl

theorem core_updCore (s : State) (c d : Nat) (f : Core → Core) :
    (s.updCore c f).core d = if d = c then f (s.core c) else s.core d := core_putCore ..

theorem part_putPart (s : State) (p q : Nat) (x : Partition) : (s.putPart p x).part q = if q = p then x else s.part q := by
  simp only [State.part, State.putPart, alook_aput]
  split <;> rfl

theorem part_updPart (s : State) (p q : Nat) (f : Partition → Partition) :
    (s.updPart p f).part q = if q = p then f (s.part p) else s.part q := part_putPart ..

theorem slice_putSlice (s : State) (h k : Nat) (x : Slice) : (s.putSlice h x).slice k = if k = h then x else s.slice k := by
  simp only [State.slice, State.putSlice, alook_aput]
  split <;> rfl

theorem queue_putQueue (p : Partition) (q r : Nat) (x : Queue) : (p.putQueue q x).queue r = if r = q then x else p.queue r := by
  simp only [Partition.queue, Partition.putQueue, alook_aput]
  split <;> rfl

@[simp] theorem core_updTeam (s : State) (t c : Nat) (f : Team → Team) : (s.updTeam t f).core c = s.core c := by
  simp [State.core]
@[simp] theorem core_updGroup (s : State) (t g c : Nat) (f : Group → Group) : (s.updGroup t g f).core c = s.core c := by
  simp [State.core]
@[simp] theorem part_updTeam (s : State) (t p : Nat) (f : Team → Team) : (s.updTeam t f).part p = s.part p := by
  simp [State.part]
@[simp] theorem part_updGroup (s : State) (t g p : Nat) (f : Group → Group) : (s.updGroup t g f).part p = s.part p := by
  simp [State.part]
@[simp] theorem team?_updCore (s : State) (c t : Nat) (f : Core → Core) : (s.updCore c f).team? t = s.team? t := rfl
@[simp] theorem group?_updCore (s : State) (c t g : Nat) (f : Core → Core) : (s.updCore c f).group? t g = s.group? t g := rfl
@[simp] theorem team?_putBytes (s : State) (a t : Nat) (bs : List Byte) : (s.putBytes a bs).team? t = s.team? t := rfl
@[simp] theorem group?_putBytes (s : State) (a t g : Nat) (bs : List Byte) : (s.putBytes a bs).group? t g = s.group? t g := rfl

/-! ### Registers -/

theorem getS_setS (y : Group) (r q : Nat) (v : Word) : (y.setS r v).getS q = if q = r then v else y.getS q := sget_sput ..
theorem getV_setS (y : Group) (r q l : Nat) (v : Word) : (y.setS r v).getV q l = y.getV q l := rfl
theorem getK_setS (y : Group) (r q : Nat) (v : Word) : (y.setS r v).getK q = y.getK q := rfl
theorem getS_setK (y : Group) (w r q : Nat) (v : Lanes) : (y.setK w r v).getS q = y.getS q := rfl
theorem getV_setK (y : Group) (w r q l : Nat) (v : Lanes) : (y.setK w r v).getV q l = y.getV q l := rfl
theorem getK_setK (y : Group) (w r q : Nat) (v : Lanes) :
    (y.setK w r v).getK q = if q = r then v &&& fullMask w else y.getK q := sget_sput ..
theorem getS_setV (y : Group) (r l q : Nat) (v : Word) : (y.setV r l v).getS q = y.getS q := rfl
theorem getK_setV (y : Group) (r l q : Nat) (v : Word) : (y.setV r l v).getK q = y.getK q := rfl

/-- Lanes are below 64, so registers do not meet. -/
theorem getV_setV (y : Group) {r l q m : Nat} (v : Word) (hl : l < 64) (hm : m < 64) :
    (y.setV r l v).getV q m = if q = r ∧ m = l then v else y.getV q m := by
  unfold Group.getV Group.setV
  rw [sget_sput]
  by_cases h : q = r ∧ m = l
  · obtain ⟨rfl, rfl⟩ := h; simp
  · have : 64 * q + m ≠ 64 * r + l := by
      intro he; apply h; constructor <;> omega
    simp [h, this]

/-! ### Memory -/

theorem byte_putByte (s : State) (a c : Nat) (b : Byte) : (s.putByte a b).byte c = if c = a then b else s.byte c := sget_sput ..

theorem byte_putBytes (s : State) (a c : Nat) (bs : List Byte) :
    (s.putBytes a bs).byte c = if a ≤ c then bs.getD (c - a) (s.byte c) else s.byte c := sget_sputAll ..

/-- A byte outside the written ones is as it was. -/
theorem byte_putBytes_outside (s : State) (a c : Nat) (bs : List Byte) (h : c < a ∨ a + bs.length ≤ c) :
    (s.putBytes a bs).byte c = s.byte c := by
  rw [byte_putBytes]
  split
  · rw [List.getD_eq_default]; omega
  · rfl

@[simp] theorem byte_updTeam (s : State) (t a : Nat) (f : Team → Team) : (s.updTeam t f).byte a = s.byte a := by
  simp [State.byte]
@[simp] theorem byte_updGroup (s : State) (t g a : Nat) (f : Group → Group) : (s.updGroup t g f).byte a = s.byte a := by
  simp [State.byte]
@[simp] theorem byte_updCore (s : State) (c a : Nat) (f : Core → Core) : (s.updCore c f).byte a = s.byte a := rfl

/-- Every memory operation keeps the canonical form. -/
theorem wf_putByte {s : State} (a : Nat) (b : Byte) (h : Memory.wf s.mem) : Memory.wf (s.putByte a b).mem := swf_sput a b h
theorem wf_putBytes {s : State} (a : Nat) (bs : List Byte) (h : Memory.wf s.mem) : Memory.wf (s.putBytes a bs).mem :=
  swf_sputAll bs a h
theorem wf_write32 {s : State} (a : Nat) (v : Word) (h : Memory.wf s.mem) : Memory.wf (s.write32 a v).mem := wf_putBytes a _ h
theorem wf_write64 {s : State} (a : Nat) (v : DWord) (h : Memory.wf s.mem) : Memory.wf (s.write64 a v).mem := wf_putBytes a _ h
theorem wf_sclear {m : List Host.Cell} (a n : Nat) (h : Memory.wf m) : Memory.wf (sclear m a n) := swf_sclear a n h
theorem wf_filter {m : List Host.Cell} (p : Host.Cell → Bool) (h : Memory.wf m) : Memory.wf (m.filter p) := swf_filter p h
theorem wf_reset : Memory.wf State.reset.mem := rfl

end Sys2Proof.Laws
end

