-- ==== Sys2Proof/Laws/Issue.lean ====
section
/-! SUPPORT. What the shared operations of an instruction do: issue (R92), and finish, with which an instruction ends (R39,
R90, R245). -/
namespace Sys2Proof.Laws
open Sys2Proof.Machine

/-! ### The issuing group -/

theorem site?_team {s : State} {x : Site} (h : s.site? = some x) : s.team? x.t = some x.tm := by
  unfold State.site? at h
  split at h
  · split at h
    · simp only [Option.map_eq_some_iff] at h; obtain ⟨gr, hg, rfl⟩ := h; assumption
    · cases h
  · cases h

theorem site?_group {s : State} {x : Site} (h : s.site? = some x) : s.group? x.t x.g = some x.gr := by
  unfold State.site? at h
  split at h
  · split at h
    · simp only [Option.map_eq_some_iff] at h; obtain ⟨gr, hg, rfl⟩ := h; simp [State.group?, *]
    · cases h
  · cases h

/-- A mask made from a predicate that holds nowhere below the width is empty. -/
theorem maskOf_false {w : Nat} {p : Nat → Bool} (h : ∀ l, p l = false) : maskOf w p = 0 := by
  have : ∀ (ls : List Nat) (m : Lanes), ls.foldl (fun (m : Lanes) l => if p l then m ||| (1 <<< l) else m) m = m := by
    intro ls
    induction ls with
    | nil => intro m; rfl
    | cons l ls ih => intro m; simp [h]
  exact this _ _

theorem readsOf_sub {i : Instr} {u : Use} (h : u ∈ readsOf i) : u ∈ usesOf i := by
  unfold readsOf at h
  split at h
  · cases h
  · split at h
    · exact List.mem_of_mem_drop h
    · exact h

/-- An instruction that names no V register reads none in error. -/
theorem vError_scalar {i : Instr} (h : (usesOf i).any (·.1) = false) (x : Site) (l : Nat) : vError x i l = false := by
  unfold vError
  split
  · simp [usesOf, uV] at h
  · simp [usesOf, uV] at h
  · simp [usesOf, uV] at h
  · simp [usesOf, uV] at h
  · dsimp only
    rw [List.any_eq_false] at h ⊢
    intro u hu
    simp [h u (readsOf_sub hu)]

theorem scalarMemory_uses {i : Instr} (h : scalarMemory i = true) : (usesOf i).any (·.1) = false := by
  cases i <;> first | rfl | exact absurd h (by simp [scalarMemory])

/-- An instruction that runs has its own effect. -/
theorem issue_runs {s : State} {x : Site} {i : Instr} (h : Runs s x i) (k : Site → Out) : issue s i k = k x := by
  obtain ⟨hs, hp, hr, hc⟩ := h
  rcases hc with hb | ⟨he, hv⟩
  · simp [issue, hs, hp, hr, hb]
  · have : ∀ l, (laneOf (if scalarMemory i then 1 else if (usesOf i).any (·.1) then x.gr.emask x.tm.width else x.gr.active) l
        && vError x i l) = false := by
      intro l
      by_cases c : (usesOf i).any (·.1) = true
      · have hm : scalarMemory i = false := by
          cases d : scalarMemory i with
          | false => rfl
          | true => rw [scalarMemory_uses d] at c; cases c
        simp only [hm, c, if_true, Bool.false_eq_true, if_false]
        cases hl : laneOf (x.gr.emask x.tm.width) l
        · rfl
        · simp [hv l hl]
      · simp [vError_scalar (by simpa using c) x l]
    have hz := maskOf_false (w := x.tm.width) this
    unfold issue
    simp only [hs, hp, hr, Bool.false_eq_true, if_false]
    split
    · rfl
    · unfold issueChecked
      simp only [he, Bool.false_and, Bool.false_eq_true, if_false, hz, if_true]

/-- What fails one of the checks takes the trap of its cause. -/
theorem issue_refused {s : State} {x : Site} {i : Instr} {code : Nat} (hs : s.site? = some x)
    (hp : precheck x i = some code) (k : Site → Out) : issue s i k = .next (trapWhole s x code) := by
  simp [issue, hs, hp]

/-- What must wait leaves the state as it is. -/
theorem issue_stalls {s : State} {x : Site} {i : Instr} (hs : s.site? = some x) (hp : precheck x i = none)
    (hr : stalled s x (usesOf i) (makesEvents i) = true) (k : Site → Out) : issue s i k = .next s := by
  simp [issue, hs, hp, hr]

/-! ### Changes to one group

`Near s t k g`: t is s but for group g of team k, that team's FLAGS and PERF, and the ports of the cores. -/

structure Near (s t : State) (k g : Nat) : Prop where
  rest : t = { s with teams := t.teams, cores := t.cores }
  cores : ∀ c, t.core c = { s.core c with ports := (t.core c).ports }
  others : ∀ u, u ≠ k → t.team? u = s.team? u
  mates : ∀ h, h ≠ g → t.group? k h = s.group? k h
  team : ∀ m, s.team? k = some m → ∃ n, t.team? k = some n ∧
    n = { m with groups := n.groups, flags := n.flags, perf := n.perf }

theorem Near.refl (s : State) (k g : Nat) : Near s s k g :=
  ⟨rfl, fun _ => rfl, fun _ _ => rfl, fun _ _ => rfl, fun m h => ⟨m, h, rfl⟩⟩

theorem Near.trans {s t u : State} {k g : Nat} (a : Near s t k g) (b : Near t u k g) : Near s u k g where
  rest := by rw [b.rest, a.rest]
  cores c := by rw [b.cores c, a.cores c]
  others v h := (b.others v h).trans (a.others v h)
  mates h hh := (b.mates h hh).trans (a.mates h hh)
  team m hm := by
    obtain ⟨n, hn, e⟩ := a.team m hm
    obtain ⟨o, ho, e'⟩ := b.team n hn
    exact ⟨o, ho, by rw [e', e]⟩

theorem near_updTeam (s : State) (k g : Nat) (f : Team → Team) (hm : ∀ m h, h ≠ g → (f m).group? h = m.group? h)
    (hf : ∀ m, f m = { m with groups := (f m).groups, flags := (f m).flags, perf := (f m).perf }) :
    Near s (s.updTeam k f) k g where
  rest := by unfold State.updTeam; split <;> rfl
  cores c := by unfold State.updTeam; split <;> rfl
  others u h := by simp [team?_updTeam, h]
  mates h hh := by
    simp only [State.group?, team?_updTeam_same]
    cases hx : s.team? k with
    | none => rfl
    | some m => simp [hm m h hh]
  team m h := ⟨f m, by simp [h], hf m⟩

theorem near_updGroup (s : State) (k g : Nat) (f : Group → Group) : Near s (s.updGroup k g f) k g :=
  near_updTeam s k g _ (fun m h hh => by simp [group?_updGroup_team, hh])
    (fun m => by unfold Team.updGroup; split <;> rfl)

theorem near_count (s : State) (k g ev n : Nat) : Near s (s.count k ev n) k g :=
  near_updTeam s k g _ (fun _ _ _ => rfl) (fun _ => rfl)

theorem near_raise (s : State) (k g : Nat) (f : Fl) : Near s (s.raise k f) k g := by
  unfold State.raise
  split
  · exact Near.refl s k g
  · exact near_updTeam s k g _ (fun _ _ _ => rfl) (fun _ => rfl)

theorem near_freePort (s : State) (c k g : Nat) : Near s (freePort s c k g) k g where
  rest := rfl
  cores d := by
    simp only [freePort, core_updCore]
    split
    · subst_vars; rfl
    · rfl
  others _ _ := rfl
  mates _ _ := rfl
  team m h := ⟨m, h, rfl⟩

/-! ### The end of an instruction -/

@[simp] theorem updGroup_flags (x : Team) (g : Nat) (f : Group → Group) : (x.updGroup g f).flags = x.flags := by
  unfold Team.updGroup; split <;> rfl
@[simp] theorem updGroup_perf (x : Team) (g : Nat) (f : Group → Group) : (x.updGroup g f).perf = x.perf := by
  unfold Team.updGroup; split <;> rfl
@[simp] theorem updGroup_handler (x : Team) (g : Nat) (f : Group → Group) : (x.updGroup g f).handler = x.handler := by
  unfold Team.updGroup; split <;> rfl
@[simp] theorem updGroup_core (x : Team) (g : Nat) (f : Group → Group) : (x.updGroup g f).core = x.core := by
  unfold Team.updGroup; split <;> rfl
@[simp] theorem updGroup_group (x : Team) (g : Nat) (f : Group → Group) : (x.updGroup g f).group? g = (x.group? g).map f := by
  simp [group?_updGroup_team]
@[simp] theorem count_group (x : Team) (ev n g : Nat) : (x.count ev n).group? g = x.group? g := rfl
@[simp] theorem count_flags (x : Team) (ev n : Nat) : (x.count ev n).flags = x.flags := rfl
@[simp] theorem count_handler (x : Team) (ev n : Nat) : (x.count ev n).handler = x.handler := rfl
@[simp] theorem team?_freePort (s : State) (c t g u : Nat) : (freePort s c t g).team? u = s.team? u := rfl

theorem near_noteIssue (s : State) (k g : Nat) : Near s (noteIssue s k g) k g := by
  unfold noteIssue
  split
  · exact Near.refl s k g
  · dsimp only
    split
    · exact (near_count s k g 2 1).trans (near_updGroup ..)
    · exact near_count s k g 2 1

theorem near_endRun (s : State) (k g : Nat) : Near s (endRun s k g) k g := by
  unfold endRun
  split
  · exact Near.refl s k g
  · exact (near_freePort ..).trans (near_updGroup ..)

theorem near_finish (s : State) (k g : Nat) (e : Bool) : Near s (finish s k g e) k g := by
  unfold finish
  split
  · exact Near.refl s k g
  · dsimp only
    split
    · exact ((near_noteIssue ..).trans (near_updGroup ..)).trans (near_endRun ..)
    · exact (near_noteIssue ..).trans (near_updGroup ..)

theorem near_finishAt (s : State) (k g : Nat) (pc : DWord) : Near s (finishAt s k g pc) k g := by
  unfold finishAt
  exact ((near_noteIssue ..).trans (near_updGroup ..)).trans (near_endRun ..)

/-- A group after its instruction's issue has been counted. -/
def issueCounted (m : Team) (g : Nat) (y : Group) : Group := if m.handled g then y.skidded else y

/-- The team of a group that issues: one more event 2 in PERF. -/
theorem team_noteIssue {s : State} {k : Nat} {m : Team} (g : Nat) (h : s.team? k = some m) :
    ∃ n, (noteIssue s k g).team? k = some n ∧ n.flags = m.flags ∧ n.handler = m.handler ∧ n.core = m.core ∧
      n.perf = (m.count 2 1).perf ∧ n.group? g = (m.group? g).map (issueCounted m g) := by
  have hc : (s.count k 2 1).team? k = some (m.count 2 1) := by rw [State.count, team?_updTeam_same, h]; rfl
  unfold noteIssue
  rw [h]
  dsimp only
  by_cases c : m.handled g = true
  · rw [if_pos c]
    refine ⟨(m.count 2 1).updGroup g Group.skidded, ?_, ?_, ?_, ?_, ?_, ?_⟩
    · rw [State.updGroup, team?_updTeam_same, hc]; rfl
    · simp only [updGroup_flags, count_flags]
    · simp only [updGroup_handler, count_handler]
    · rw [updGroup_core]; rfl
    · simp only [updGroup_perf]
    · have : issueCounted m g = Group.skidded := by
        funext y; rw [issueCounted, if_pos c]
      rw [updGroup_group, count_group, this]
  · rw [if_neg c]
    refine ⟨m.count 2 1, hc, rfl, rfl, rfl, rfl, ?_⟩
    have : issueCounted m g = id := by
      funext y; rw [issueCounted, if_neg c]; rfl
    rw [this, count_group, Option.map_id]; rfl

/-- The group at the end of its run. -/
def runEnded (m : Team) (g : Nat) (y : Group) : Group :=
  let y := { y with runPos := 0, passes := 0, starving := none }
  if m.handled g ∧ (y.status = GStatus.ready ∨ y.status = GStatus.halted) then
    { y with status := GStatus.halted, tcause := haltCause y.skid }
  else y

theorem team_endRun {s : State} {k : Nat} {m : Team} (g : Nat) (h : s.team? k = some m) :
    (endRun s k g).team? k = some (m.updGroup g (runEnded m g)) := by
  unfold endRun
  rw [h]
  dsimp only
  rw [State.updGroup, team?_updTeam_same, team?_freePort, h]
  rfl

/-- A change of one group, as its team sees it. -/
theorem team_updGroup {s : State} {k : Nat} {m : Team} (g : Nat) (f : Group → Group) (h : s.team? k = some m) :
    (s.updGroup k g f).team? k = some (m.updGroup g f) := by rw [State.updGroup, team?_updTeam_same, h]; rfl

/-- The group's step to its next place. -/
def wentOn (y : Group) : Group := { y.next with runPos := y.runPos + 1, status := y.status.resumed }

/-- The group after its instruction is done. -/
def finished (m : Team) (g : Nat) (e : Bool) (y : Group) : Group :=
  let z := wentOn (issueCounted m g y)
  if (e || y.alone) = true then runEnded m g z else z

theorem runEnded_congr {m n : Team} (h : n.handler = m.handler) (g : Nat) : runEnded n g = runEnded m g := by
  funext y; unfold runEnded; rw [show n.handled g = m.handled g by unfold Team.handled; rw [h]]

/-- The team after an instruction is done: PERF has counted it, and the group has gone on. -/
theorem team_finish {s : State} {k g : Nat} {m : Team} {y : Group} (e : Bool) (h : s.team? k = some m)
    (hy : m.group? g = some y) :
    ∃ n, (finish s k g e).team? k = some n ∧ n.flags = m.flags ∧ n.perf = (m.count 2 1).perf ∧
      n.group? g = some (finished m g e y) := by
  have hg : s.group? k g = some y := by rw [State.group?, h]; exact hy
  obtain ⟨n, hn, hf, hh, -, hp, hgr⟩ := team_noteIssue g h
  rw [hy] at hgr
  have hw : ∀ f, ((noteIssue s k g).updGroup k g f).team? k = some (n.updGroup g f) := fun f => team_updGroup g f hn
  unfold finish
  rw [hg]
  dsimp only
  by_cases c : (e || y.alone) = true
  · rw [if_pos c]
    refine ⟨_, team_endRun g (hw _), by simp only [updGroup_flags, hf], by simp only [updGroup_perf, hp], ?_⟩
    rw [updGroup_group, updGroup_group, hgr, finished, if_pos c, runEnded_congr (by simp only [updGroup_handler, hh] : _ = m.handler)]
    rfl
  · rw [if_neg c]
    refine ⟨_, hw _, by simp only [updGroup_flags, hf], by simp only [updGroup_perf, hp], ?_⟩
    rw [updGroup_group, hgr, finished, if_neg c]
    rfl

/-- What a group's step to its next place leaves alone. -/
theorem wentOn_rest (y : Group) :
    wentOn y = { y with pc := (wentOn y).pc, rep := (wentOn y).rep, replay := none, xop := none, redo := (wentOn y).redo,
                        runPos := y.runPos + 1, status := y.status.resumed } ∨
    (∃ p q rest, y.redo = q :: p :: rest ∧
      wentOn y = { y with pc := p.pc, rep := p.rep, replay := p.replay, xop := p.xop, redo := p :: rest,
                          runPos := y.runPos + 1, status := y.status.resumed }) ∨
    (∃ q, y.redo = [q] ∧
      wentOn y = { y with pc := y.redoEnd.pc, rep := y.redoEnd.rep, replay := y.redoEnd.replay, xop := y.redoEnd.xop,
                          redo := [], runPos := y.runPos + 1, status := y.status.resumed }) := by
  cases hr : y.redo with
  | nil =>
    left
    unfold wentOn Group.next
    simp only [hr]
    split
    · split <;> rfl
    · rfl
  | cons q l =>
    cases l with
    | nil => right; right; refine ⟨q, rfl, ?_⟩; unfold wentOn Group.next; simp only [hr]; rfl
    | cons p rest => right; left; refine ⟨p, q, rest, rfl, ?_⟩; unfold wentOn Group.next; simp only [hr]; rfl

/-- Everything that the end of an instruction does to its group. -/
theorem after_finished (x : Site) (e : Bool) {b y : Group} (h : y = { b with s := y.s, v := y.v, k := y.k, bad := y.bad })
    (hb : ∀ a ∈ y.bad, a ∈ b.bad) :
    After x b (finished x.tm x.g e y) y.getS y.getV y.getK ∧ nextPlace b (finished x.tm x.g e y) := by
  obtain ⟨s, v, k, bad, rfl⟩ : ∃ s v k bad, y = { b with s := s, v := v, k := k, bad := bad } := ⟨_, _, _, _, h⟩
  generalize hy : ({ b with s := s, v := v, k := k, bad := bad } : Group) = y at hb ⊢
  have hc : issueCounted x.tm x.g y = { b with
      s := y.s, v := y.v, k := y.k, bad := y.bad, skid := (issueCounted x.tm x.g y).skid, midway := (issueCounted x.tm x.g y).midway } := by
    subst hy; unfold issueCounted; split <;> rfl
  have key : After x b (wentOn (issueCounted x.tm x.g y)) y.getS y.getV y.getK ∧
      nextPlace b (wentOn (issueCounted x.tm x.g y)) := by
    generalize issueCounted x.tm x.g y = u at hc
    have hu : u.redo = b.redo ∧ u.rep = b.rep ∧ u.pc = b.pc := by rw [hc]; exact ⟨rfl, rfl, rfl⟩
    have hplace : nextPlace b (wentOn u) := by
      intro h2
      have e1 : u.redo = [] := hu.1.trans h2
      simp only [wentOn, Group.next, e1, hu.2.1, hu.2.2]
      cases b.rep with
      | none => exact ⟨rfl, rfl, rfl, rfl, rfl⟩
      | some r =>
        dsimp only
        by_cases c : r.idx + 1 < r.count
        · simp [c]
        · simp [c]
    have hw : (wentOn u).s = y.s ∧ (wentOn u).v = y.v ∧ (wentOn u).k = y.k ∧ (wentOn u).bad = y.bad ∧
        (wentOn u).status = b.status.resumed ∧ (wentOn u).tcause = b.tcause ∧
        wentOn u = { b with
          s := (wentOn u).s, v := (wentOn u).v, k := (wentOn u).k, bad := (wentOn u).bad, pc := (wentOn u).pc,
          rep := (wentOn u).rep, replay := (wentOn u).replay, xop := (wentOn u).xop, redo := (wentOn u).redo,
          runPos := (wentOn u).runPos, passes := (wentOn u).passes, starving := (wentOn u).starving,
          status := (wentOn u).status, skid := (wentOn u).skid, midway := (wentOn u).midway, tcause := (wentOn u).tcause } := by
      rcases wentOn_rest u with g | ⟨p, q, rest, -, g⟩ | ⟨q, -, g⟩ <;>
        (rw [g, hc]; exact ⟨rfl, rfl, rfl, rfl, rfl, rfl, rfl⟩)
    obtain ⟨w1, w2, w3, w4, w5, w6, w7⟩ := hw
    exact ⟨⟨fun r => by simp only [Group.getS, w1], fun r l _ => by simp only [Group.getV, w2],
      fun r => by simp only [Group.getK, w3], w7, fun a ha => hb a (w4 ▸ ha), .inl w5, .inl w6⟩, hplace⟩
  unfold finished
  dsimp only
  split
  · generalize wentOn (issueCounted x.tm x.g y) = u at key
    obtain ⟨⟨k1, k2, k3, k4, k5, k6, k7⟩, k8⟩ := key
    unfold runEnded
    dsimp only
    split
    · rename_i c
      have d : x.tm.handler.isSome = true ∧ x.tm.handler ≠ some x.g := by simpa [Team.handled] using c.1
      exact ⟨⟨k1, k2, k3, by conv_lhs => rw [k4], k5, .inr rfl, .inr ⟨by
        intro hn; rw [hn] at d; exact absurd d.1 (by simp), d.2⟩⟩, k8⟩
    · exact ⟨⟨k1, k2, k3, by conv_lhs => rw [k4], k5, k6, k7⟩, k8⟩
  · exact key

/-- An instruction whose effect is a change of its group, and FLAGS, on top of what it did elsewhere. -/
theorem completesVia_doneWith {s s0 : State} {x : Site} {i : Instr} {e : Bool} {fl : Fl} {f : Group → Group} {b y0 : Group}
    {m0 : Team} (h : exec i s = doneWith (s0.raise x.t fl) x e f) (ht : s0.team? x.t = some m0)
    (hm : m0 = { x.tm with groups := m0.groups }) (hy : m0.group? x.g = some y0)
    (hf : f y0 = { b with s := (f y0).s, v := (f y0).v, k := (f y0).k, bad := (f y0).bad })
    (hb : ∀ a ∈ (f y0).bad, a ∈ b.bad) :
    CompletesVia i s s0 x fl b (nextPlace b) (f y0).getS (f y0).getV (f y0).getK := by
  have hr : (s0.raise x.t fl).team? x.t = some { m0 with flags := x.tm.flags ||| fl } := by
    have hfl : m0.flags = x.tm.flags := by rw [hm]
    unfold State.raise
    split
    · rename_i c; subst c; rw [ht, ← hfl]; simp
    · rw [team?_updTeam_same, ht, ← hfl]; rfl
  have ho : ((s0.raise x.t fl).onSite x f).team? x.t = some (({ m0 with flags := x.tm.flags ||| fl } : Team).updGroup x.g f) :=
    team_updGroup _ _ hr
  have hog : (({ m0 with flags := x.tm.flags ||| fl } : Team).updGroup x.g f).group? x.g = some (f y0) := by
    rw [updGroup_group]; show Option.map f (m0.group? x.g) = _; rw [hy]; rfl
  obtain ⟨n, hn, hf', hp, hg⟩ := team_finish e ho hog
  have near : Near s0 (finish ((s0.raise x.t fl).onSite x f) x.t x.g e) x.t x.g :=
    ((near_raise ..).trans (near_updGroup ..)).trans (near_finish ..)
  have hfin : finished (({ m0 with flags := x.tm.flags ||| fl } : Team).updGroup x.g f) x.g e (f y0)
      = finished x.tm x.g e (f y0) := by
    have hh : (({ m0 with flags := x.tm.flags ||| fl } : Team).updGroup x.g f).handler = x.tm.handler := by
      rw [updGroup_handler, hm]
    unfold finished issueCounted Team.handled
    rw [runEnded_congr hh, hh]
  refine ⟨_, _, h, ⟨near.rest, near.cores, near.others, near.mates, n, hn, ?_⟩, ?_, (after_finished x e hf hb).1, (after_finished x e hf hb).2⟩
  · obtain ⟨n', hn', e'⟩ := near.team m0 ht
    rw [hn] at hn'
    cases hn'
    rw [e', hf', hp, hm]
    simp only [updGroup_flags]
    congr 1
    show (Team.count _ 2 1).perf = _
    simp only [Team.count, updGroup_perf]
  · rw [State.group?, hn, ← hfin]; exact hg

/-- An instruction whose effect is a change of its group and FLAGS. -/
theorem completes_doneWith {s : State} {x : Site} {i : Instr} {e : Bool} {fl : Fl} {f : Group → Group} {b : Group}
    (hs : s.site? = some x) (h : exec i s = doneWith (s.raise x.t fl) x e f)
    (hf : f x.gr = { b with s := (f x.gr).s, v := (f x.gr).v, k := (f x.gr).k, bad := (f x.gr).bad })
    (hb : ∀ a ∈ (f x.gr).bad, a ∈ b.bad) :
    Completes i s x fl b (f x.gr).getS (f x.gr).getV (f x.gr).getK := by
  have ht := site?_team hs
  have hx := site?_group hs
  exact completesVia_doneWith h ht rfl (by rw [State.group?, ht] at hx; exact hx) hf hb

/-! ### Writes of registers -/

theorem mem_setS {y : Group} {r : Nat} {v : Word} {a : Nat × Word} (h : a ∈ (y.setS r v).bad) : a ∈ y.bad :=
  (List.mem_filter.1 h).1

theorem mem_setV {y : Group} {r l : Nat} {v : Word} {a : Nat × Word} (h : a ∈ (y.setV r l v).bad) : a ∈ y.bad :=
  (List.mem_filter.1 h).1

/-- What a write of several consecutive S registers does. -/
theorem setSn_spec (vs : List Word) (y : Group) (r : Nat) :
    (∀ j, (y.setSn r vs).getS j = if r ≤ j ∧ j < r + vs.length then vs.getD (j - r) 0 else y.getS j) ∧
    y.setSn r vs = { y with s := (y.setSn r vs).s, bad := (y.setSn r vs).bad } ∧
    ∀ a ∈ (y.setSn r vs).bad, a ∈ y.bad := by
  induction vs generalizing y r with
  | nil => exact ⟨fun j => by rw [if_neg (by simp)]; rfl, rfl, fun a h => h⟩
  | cons v vs ih =>
    obtain ⟨h1, h2, h3⟩ := ih (y.setS r v) (r + 1)
    refine ⟨fun j => ?_, ?_, fun a h => mem_setS (h3 a h)⟩
    · show ((y.setS r v).setSn (r + 1) vs).getS j = _
      rw [h1 j, getS_setS]
      simp only [List.length_cons]
      by_cases c : j = r
      · subst c; rw [if_neg (by omega), if_pos rfl, if_pos (by omega)]; simp
      · by_cases d : r + 1 ≤ j ∧ j < r + 1 + vs.length
        · rw [if_pos d, if_pos (by omega), show j - r = (j - (r + 1)) + 1 by omega]; rfl
        · rw [if_neg d, if_neg c, if_neg (by omega)]
    · show (y.setS r v).setSn (r + 1) vs = _
      rw [h2]; rfl

/-- What a write of V[r] in several lanes does. -/
theorem setVs_spec (rs : List (Nat × Word)) (y : Group) (r : Nat) (hl : ∀ p ∈ rs, p.1 < 64)
    (hn : (rs.map (·.1)).Nodup) :
    (∀ j l, l < 64 → (y.setVs r rs).getV j l = if j = r then ((rs.find? (fun p => p.1 == l)).map (·.2)).getD (y.getV j l) else y.getV j l) ∧
    y.setVs r rs = { y with v := (y.setVs r rs).v, bad := (y.setVs r rs).bad } ∧
    ∀ a ∈ (y.setVs r rs).bad, a ∈ y.bad := by
  induction rs generalizing y with
  | nil => exact ⟨fun j l _ => by simp [Group.setVs], rfl, fun a h => h⟩
  | cons p rs ih =>
    obtain ⟨k, v⟩ := p
    obtain ⟨h1, h2, h3⟩ := ih (y.setV r k v) (fun q hq => hl q (List.mem_cons_of_mem _ hq)) (List.nodup_cons.1 hn).2
    have hk : k < 64 := hl (k, v) (List.mem_cons_self ..)
    have hno : ∀ q ∈ rs, q.1 ≠ k := fun q hq e => (List.nodup_cons.1 hn).1 (List.mem_map.2 ⟨q, hq, e⟩)
    refine ⟨fun j l h64 => ?_, ?_, fun a h => mem_setV (h3 a h)⟩
    · show ((y.setV r k v).setVs r rs).getV j l = _
      rw [h1 j l h64]
      by_cases c : j = r
      · subst c
        rw [if_pos rfl, if_pos rfl]
        by_cases d : l = k
        · subst d
          have : rs.find? (fun p => p.1 == l) = none := by
            rw [List.find?_eq_none]; intro q hq; simpa using hno q hq
          rw [this]
          simp [getV_setV y v hk hk]
        · rw [List.find?_cons, show ((k, v).1 == l) = false by simpa using fun e => d e.symm, getV_setV y v hk h64]
          simp [d]
      · rw [if_neg c, if_neg c, getV_setV y v hk h64, if_neg (by tauto)]
    · show (y.setV r k v).setVs r rs = _
      rw [h2]; rfl

theorem mem_span (a n k : Nat) : k ∈ span a n ↔ a ≤ k ∧ k < a + n := by
  induction n generalizing a with
  | zero => simp [span]
  | succ n ih => simp only [span, List.mem_cons, ih]; omega

theorem nodup_span (a n : Nat) : (span a n).Nodup := by
  induction n generalizing a with
  | zero => exact List.nodup_nil
  | succ n ih => exact List.nodup_cons.2 ⟨fun h => by have := (mem_span ..).1 h; omega, ih _⟩

theorem mem_lanesOf (m : Lanes) (l : Nat) : l ∈ lanesOf m ↔ l < 64 ∧ laneOf m l = true := by
  simp [lanesOf, List.mem_filter, mem_span]

theorem nodup_lanesOf (m : Lanes) : (lanesOf m).Nodup := (nodup_span 0 64).filter _

/-- A write of V[r] in some lanes, each its own value. -/
theorem getV_setVs_lanes (y : Group) (r : Nat) (ls : List Nat) (f : Nat → Word) (hl : ∀ l ∈ ls, l < 64) (hn : ls.Nodup)
    (j l : Nat) (h : l < 64) :
    (y.setVs r (ls.map (fun l => (l, f l)))).getV j l = if j = r ∧ l ∈ ls then f l else y.getV j l := by
  have := (setVs_spec (ls.map (fun l => (l, f l))) y r (by
    intro p hp; obtain ⟨k, hk, rfl⟩ := List.mem_map.1 hp; exact hl k hk) (by
    rw [List.map_map]; simpa [Function.comp_def] using hn)).1 j l h
  rw [this]
  by_cases c : j = r
  · subst c
    simp only [if_true, true_and]
    induction ls with
    | nil => simp
    | cons k ks ih =>
      rw [List.map_cons, List.find?_cons]
      by_cases d : k = l
      · subst d; simp
      · rw [show ((k, f k).1 == l) = false by simpa using d]
        have := ih (fun l h => hl l (List.mem_cons_of_mem _ h)) (List.nodup_cons.1 hn).2 (by
          exact (setVs_spec (ks.map (fun l => (l, f l))) y j (by
            intro p hp; obtain ⟨q, hq, rfl⟩ := List.mem_map.1 hp; exact hl q (List.mem_cons_of_mem _ hq)) (by
            rw [List.map_map]; simpa [Function.comp_def] using (List.nodup_cons.1 hn).2)).1 j l h)
        rw [this]
        simp [List.mem_cons, show ¬ l = k from fun e => d e.symm]
  · rw [if_neg c, if_neg (by tauto)]

/-- An instruction that sets one S register. -/
theorem writesS {s : State} {x : Site} {i : Instr} {e : Bool} {d : RegNo} {v : Word} {f : Group → Group} (hs : s.site? = some x)
    (h : exec i s = doneWith s x e f) (hf : f x.gr = x.gr.setS d.toNat v) : WritesS i s x d v := by
  have := completes_doneWith (fl := 0) (b := x.gr) hs (by rw [h]; rfl) (by rw [hf]; rfl)
    (by rw [hf]; intro a ha; exact mem_setS ha)
  rw [hf] at this
  unfold WritesS
  convert this using 1
  · funext r; rw [getS_setS]; rfl
  · rfl
  · rfl

/-- An instruction that sets one K register. -/
theorem writesK {s : State} {x : Site} {i : Instr} {e : Bool} {d : KNo} {v : Lanes} {f : Group → Group} (hs : s.site? = some x)
    (h : exec i s = doneWith s x e f) (hf : f x.gr = x.gr.setK x.tm.width d.toNat v) :
    WritesK i s x d (v &&& fullMask x.tm.width) := by
  have := completes_doneWith (fl := 0) (b := x.gr) hs (by rw [h]; rfl) (by rw [hf]; rfl)
    (by rw [hf]; intro a ha; exact ha)
  rw [hf] at this
  unfold WritesK
  convert this using 1
  · rfl
  · rfl
  · funext r; rw [getK_setK]; rfl

/-- An instruction that writes V[d] in the lanes of its effective mask. -/
theorem writesV {s : State} {x : Site} {i : Instr} {e : Bool} {d : RegNo} {f : Nat → Word × Fl} (hs : s.site? = some x)
    (h : exec i s = vecWrite s x e d (x.lanes.map (fun l => (l, f l)))) : WritesV i s x d f := by
  have hm : (x.lanes.map (fun l => (l, f l))).map (fun r => (r.1, r.2.1)) = x.lanes.map (fun l => (l, (f l).1)) := by
    rw [List.map_map]; rfl
  have hl : ∀ l ∈ x.lanes, l < 64 := fun l hl => ((mem_lanesOf _ _).1 hl).1
  have sp := setVs_spec (x.lanes.map (fun l => (l, (f l).1))) x.gr d.toNat
    (by intro p hp; obtain ⟨k, hk, rfl⟩ := List.mem_map.1 hp; exact hl k hk)
    (by rw [List.map_map]; simpa [Function.comp_def, Site.lanes] using nodup_lanesOf _)
  have := completes_doneWith (b := x.gr) (fl := orFlags (x.lanes.map (fun l => (f l).2)))
    (f := fun y => y.setVs d.toNat (x.lanes.map (fun l => (l, (f l).1)))) hs
    (by rw [h]; unfold vecWrite; rw [hm, List.map_map]; rfl) (by show Group.setVs _ _ _ = _; rw [sp.2.1]) sp.2.2
  obtain ⟨t, z, h1, h2, h3, ⟨a1, a2, a3, a4, a5, a6, a7⟩, h5⟩ := this
  refine ⟨t, z, h1, h2, h3, ⟨fun r => ?_, fun r l h64 => ?_, fun r => ?_, a4, a5, a6, a7⟩, h5⟩
  · rw [a1 r]; show (Group.setVs _ _ _).getS r = _; rw [sp.2.1]; rfl
  · rw [a2 r l h64, getV_setVs_lanes _ _ _ _ hl (nodup_lanesOf _) _ _ h64]
    simp only [Site.lanes, mem_lanesOf, h64, true_and]
  · rw [a3 r]; show (Group.setVs _ _ _).getK r = _; rw [sp.2.1]; rfl

end Sys2Proof.Laws
end

