-- ==== Sys2Proof/Laws/Kept.lean ====
section
/-! SUPPORT. What the shared operations do to memory: most leave it as it is (`<operation>_mem`); those that store keep its
canonical form (`wf_<operation>`). -/
namespace Sys2Proof.Laws
open Sys2Proof Sys2Proof.Machine

/-- A loop whose every turn leaves memory as it is. -/
theorem foldl_mem {α : Type} (f : State → α → State) (h : ∀ s a, (f s a).mem = s.mem) (l : List α) (s : State) :
    (l.foldl f s).mem = s.mem := by
  induction l generalizing s with
  | nil => rfl
  | cons a l ih => rw [List.foldl_cons, ih, h]

/-- A loop whose every turn keeps the canonical form. -/
theorem wf_foldl {α : Type} {f : State → α → State} (h : ∀ s a, Memory.wf s.mem → Memory.wf (f s a).mem) (l : List α) {s : State}
    (hs : Memory.wf s.mem) : Memory.wf (l.foldl f s).mem := by
  induction l generalizing s with
  | nil => exact hs
  | cons a l ih => exact ih (h s a hs)

/-! ### Caches, intervals and agents -/

@[simp] theorem stamp_mem (s : State) (a : Nat) : (s.stamp a).mem = s.mem := rfl
@[simp] theorem expect_mem (s : State) (es : List Expect) : (s.expect es).mem = s.mem := rfl
@[simp] theorem putLine_mem (s : State) (l : Nat) (x : LineState) : (s.putLine l x).mem = s.mem := rfl
@[simp] theorem putDir_mem (s : State) (h : Nat) (d : List (Nat × DirRegion)) : (s.putDir h d).mem = s.mem := rfl
@[simp] theorem reopen_mem (s : State) (l : Nat) (f : Bool) (hs : List (Nat × Holding)) (a : Option (Nat × Nat)) :
    (reopen s l f hs a).mem = s.mem := rfl
@[simp] theorem dropHolder_mem (s : State) (a l : Nat) : (dropHolder s a l).mem = s.mem := by
  unfold dropHolder; dsimp only; repeat' split
  all_goals simp
@[simp] theorem sendProbes_mem (s : State) (a p l : Nat) : (sendProbes s a p l).mem = s.mem := rfl
@[simp] theorem recallBut_mem (s : State) (l : Nat) (k : Nat → Bool) : (recallBut s l k).mem = s.mem := by
  unfold recallBut; dsimp only; repeat' split
  all_goals simp
@[simp] theorem recallLine_mem (s : State) (l : Nat) : (recallLine s l).mem = s.mem := recallBut_mem ..
@[simp] theorem flushAgent_mem (s : State) (a : Nat) (p : Nat → Holding → Bool) : (flushAgent s a p).mem = s.mem := by
  refine foldl_mem _ (fun s e => ?_) _ s
  repeat' split
  all_goals simp
@[simp] theorem releaseSplit_mem (s : State) (c : Nat) (w : List Nat) : (releaseSplit s c w).mem = s.mem := by
  refine foldl_mem _ (fun s l => ?_) _ s
  split <;> simp

/-- A write at a line's home stores what the write itself does. -/
theorem homeWrite_mem (s : State) (l p : Nat) (w : Option (Nat × Nat)) (f : State → State) :
    ∃ u, u.mem = s.mem ∧ (homeWrite s l p w f).mem = (f u).mem := by
  unfold homeWrite; dsimp only
  split
  · exact ⟨s, rfl, rfl⟩
  · split
    · exact ⟨s, rfl, rfl⟩
    · exact ⟨_, by simp only [expect_mem, recallBut_mem, sendProbes_mem], rfl⟩

/-- A write of the hardware stores what the write itself does, on each of its lines. -/
theorem hardWrite_mem (s : State) (p a n : Nat) (f : State → State) : ∃ u, u.mem = s.mem ∧ (hardWrite s p a n f).mem = (f u).mem := by
  have key : ∀ (ls : List Nat) (g : State → State) (s : State),
      ∃ u, u.mem = s.mem ∧ (ls.foldr (fun l k s => homeWrite s l p none k) g s).mem = (g u).mem := by
    intro ls g
    induction ls with
    | nil => exact fun s => ⟨s, rfl, rfl⟩
    | cons l ls ih =>
      intro s
      obtain ⟨u, hu, e⟩ := homeWrite_mem s l p none (ls.foldr (fun l k s => homeWrite s l p none k) g)
      obtain ⟨v, hv, e'⟩ := ih u
      exact ⟨v, hv.trans hu, e.trans e'⟩
  obtain ⟨u, hu, e⟩ := key _ (fun s => { f s with marks := clearMarks s.marks a n }) s
  exact ⟨u, hu, e⟩

theorem wf_hardWrite {s : State} (p a n : Nat) {f : State → State} (hf : ∀ u, Memory.wf u.mem → Memory.wf (f u).mem)
    (h : Memory.wf s.mem) : Memory.wf (hardWrite s p a n f).mem := by
  obtain ⟨u, hu, e⟩ := hardWrite_mem s p a n f
  rw [e]
  exact hf u (by rw [hu]; exact h)

@[simp] theorem placeWay_mem (s : State) (a l : Nat) : (placeWay s a l).1.mem = s.mem := by
  unfold placeWay; dsimp only; repeat' split
  all_goals simp
@[simp] theorem grantWrite_mem (s : State) (a p l : Nat) : (grantWrite s a p l).mem = s.mem := by
  unfold grantWrite; dsimp only; repeat' split
  all_goals simp
@[simp] theorem grantRead_mem (s : State) (a p l : Nat) : (grantRead s a p l).mem = s.mem := by
  unfold grantRead; dsimp only; repeat' split
  all_goals simp
@[simp] theorem noteAuthor_mem (s : State) (a l : Nat) (w : Nat × Nat) : (noteAuthor s a l w).mem = s.mem := rfl
@[simp] theorem notePart_mem (s : State) (a p l : Nat) : (notePart s a p l).mem = s.mem := by
  unfold notePart; dsimp only; split <;> rfl
@[simp] theorem evictRegion_mem (s : State) (h b : Nat) : (evictRegion s h b).mem = s.mem := by
  unfold evictRegion; split
  · rfl
  · rw [putDir_mem]; exact foldl_mem (fun s (e : Nat × LineState) => recallLine s e.1) (fun s e => recallLine_mem s e.1) _ s
@[simp] theorem evictPool_mem (s : State) (l : Nat) : (evictPool s l).mem = s.mem := by
  unfold evictPool; dsimp only; repeat' split
  all_goals simp
@[simp] theorem enterRequest_mem (s : State) (a l : Nat) (w : Bool) : (enterRequest s a l w).mem = s.mem := by
  unfold enterRequest; repeat' split
  all_goals simp
@[simp] theorem getLine_mem (s : State) (a p l : Nat) (w : Bool) : (getLine s a p l w).mem = s.mem := by
  unfold getLine; dsimp only; repeat' split
  all_goals simp
@[simp] theorem logWalk_mem (s : State) (c p va : Nat) : (logWalk s c p va).mem = s.mem := by
  unfold logWalk; dsimp only; split <;> simp
@[simp] theorem walkReads_mem (s : State) (c p va : Nat) : (walkReads s c p va).mem = s.mem := by
  unfold walkReads; split
  · rfl
  · refine foldl_mem _ (fun s l => ?_) _ s
    split <;> simp
@[simp] theorem cacheLeaf_mem (s : State) (c p va : Nat) : (cacheLeaf s c p va).mem = s.mem := by
  unfold cacheLeaf; dsimp only; split <;> simp
@[simp] theorem flushIfLast_mem (s : State) (c p : Nat) : (flushIfLast s c p).mem = s.mem := by
  unfold flushIfLast; split <;> simp

/-- A store at a location, at its home, and of a whole record. -/
theorem wf_locPut {s : State} (l : Loc) (bs : List Byte) (h : Memory.wf s.mem) : Memory.wf (s.locPut l bs).mem := by
  unfold State.locPut; split
  · exact wf_putBytes _ _ h
  · simpa using h
theorem wf_homeStore {s : State} (p a : Nat) (bs : List Byte) (h : Memory.wf s.mem) : Memory.wf (s.homeStore p a bs).mem := by
  unfold State.homeStore
  obtain ⟨u, hu, e⟩ := homeWrite_mem s (lineOf a) p none (fun s =>
    { (s.putBytes a bs).stamp (homeAgent s a) with marks := clearMarks s.marks a bs.length })
  rw [e]
  exact wf_putBytes _ _ (by rw [hu]; exact h)

/-! ### Reports, and the end of teams and launches -/

@[simp] theorem holdPlain_mem (s : State) (k : RelKind) (t : Nat) (r : Role) (o : Nat) (pc : DWord) (sc : Scope) (ts : VTime)
    (hs : List Nat) (d c p : Nat) : (holdPlain s k t r o pc sc ts hs d c p).mem = s.mem := rfl
@[simp] theorem stir_mem (s : State) : s.stir.mem = s.mem := rfl
@[simp] theorem updLaunch_mem (s : State) (l : Nat) (f : Launch → Launch) : (s.updLaunch l f).mem = s.mem := by
  unfold State.updLaunch; split <;> rfl
@[simp] theorem updGrid_mem (s : State) (g : Nat) (f : Grid → Grid) : (s.updGrid g f).mem = s.mem := by
  unfold State.updGrid; split <;> rfl

theorem wf_putReport {s s' : State} {r : Report} (h : Memory.wf s.mem) (hs : putReport s r = some s') : Memory.wf s'.mem := by
  unfold putReport at hs
  split at hs
  · cases hs
  · split at hs
    · cases hs
    · split at hs
      · obtain rfl := Option.some.inj hs
        rw [holdPlain_mem, updPart_mem]
        exact wf_homeStore _ _ _ h
      · cases hs

theorem wf_flushReports {s : State} (h : Memory.wf s.mem) : Memory.wf (flushReports s).mem := by
  unfold flushReports; dsimp only
  refine wf_foldl (fun s r hs => ?_) _ ?_
  · split
    · next h' => exact wf_putReport hs h'
    · exact hs
  · refine wf_foldl (fun s e hs => ?_) _ h
    split
    · exact hs
    · split
      · next h' => simpa using wf_putReport hs h'
      · exact hs

theorem wf_addReport {s : State} (r : Report) (h : Memory.wf s.mem) : Memory.wf (addReport s r).mem := by
  have hf : Memory.wf (flushReports { s with reports := s.reports ++ [r] }).mem := wf_flushReports (by exact h)
  unfold addReport; dsimp only; split
  · exact hf
  · simpa using hf

theorem wf_advance {s : State} (p q : Nat) (h : Memory.wf s.mem) : Memory.wf (advance s p q).mem := by
  unfold advance; dsimp only; split
  · exact wf_homeStore _ _ _ (by simpa using h)
  · simpa using h

@[simp] theorem nothingToPreempt_mem (s : State) (t p : Nat) : (nothingToPreempt s t p).mem = s.mem := by
  unfold nothingToPreempt; split <;> simp
@[simp] theorem scrubCB_mem (s : State) (x : Team) : (scrubCB s x).mem = s.mem := by
  unfold scrubCB; split <;> simp
@[simp] theorem removeTeam_mem (s : State) (t : Nat) : (removeTeam s t).mem = s.mem := by
  unfold removeTeam; dsimp only; repeat' split
  all_goals simp
@[simp] theorem killTeam_mem (s : State) (t : Nat) : (killTeam s t).mem = s.mem := by
  unfold killTeam; dsimp only; split <;> simp

theorem wf_freeSeed {s : State} (p q : Nat) (g : List Nat) (h : Memory.wf s.mem) : Memory.wf (freeSeed s p q g).mem := by
  unfold freeSeed; split
  · split
    · simpa using wf_advance p q h
    · exact h
  · exact h

theorem wf_endLaunch {s : State} (l c r : Nat) (h : Memory.wf s.mem) : Memory.wf (endLaunch s l c r).mem := by
  unfold endLaunch
  split
  · exact h
  · refine wf_addReport _ (wf_foldl (fun s e hs => wf_addReport _ hs) _ ?_)
    apply wf_freeSeed
    show Memory.wf (List.foldl _ s _).mem
    rw [foldl_mem (fun s (e : Nat × Team) => killTeam s e.1) (fun s e => killTeam_mem s e.1)]; exact h

theorem wf_failTeam {s : State} (t c : Nat) (h : Memory.wf s.mem) : Memory.wf (failTeam s t c).mem := by
  unfold failTeam; split
  · exact h
  · exact wf_endLaunch _ _ _ (by simpa using h)

/-! ### A group's instruction -/

theorem Near.mem {s t : State} {k g : Nat} (h : Near s t k g) : t.mem = s.mem := by rw [h.rest]

@[simp] theorem freePort_mem (s : State) (c t g : Nat) : (freePort s c t g).mem = s.mem := rfl
@[simp] theorem noteIssue_mem (s : State) (t g : Nat) : (noteIssue s t g).mem = s.mem := (near_noteIssue s t g).mem
@[simp] theorem endRun_mem (s : State) (t g : Nat) : (endRun s t g).mem = s.mem := (near_endRun s t g).mem
@[simp] theorem finish_mem (s : State) (t g : Nat) (e : Bool) : (finish s t g e).mem = s.mem :=
  (near_finish s t g e).mem
@[simp] theorem finishAt_mem (s : State) (t g : Nat) (pc : DWord) : (finishAt s t g pc).mem = s.mem :=
  (near_finishAt s t g pc).mem

theorem near_waitHere (s : State) (t g : Nat) (w : Wait) : Near s (waitHere s t g w) t g := by
  unfold waitHere; split
  · exact Near.refl s t g
  · exact (near_freePort ..).trans (near_updGroup ..)
theorem near_waitHolding (s : State) (t g : Nat) (w : Wait) : Near s (waitHolding s t g w) t g := near_updGroup ..
theorem near_wakeHere (s : State) (t g : Nat) : Near s (wakeHere s t g) t g := by
  unfold wakeHere; split
  · exact Near.refl s t g
  · exact near_updGroup ..
theorem near_finishWait (s : State) (t g : Nat) : Near s (finishWait s t g) t g := by
  unfold finishWait; split
  · exact Near.refl s t g
  · exact (near_updGroup ..).trans (near_finish ..)

@[simp] theorem waitHere_mem (s : State) (t g : Nat) (w : Wait) : (waitHere s t g w).mem = s.mem :=
  (near_waitHere s t g w).mem
@[simp] theorem waitHolding_mem (s : State) (t g : Nat) (w : Wait) : (waitHolding s t g w).mem = s.mem :=
  (near_waitHolding s t g w).mem
@[simp] theorem wakeHere_mem (s : State) (t g : Nat) : (wakeHere s t g).mem = s.mem := (near_wakeHere s t g).mem
@[simp] theorem finishWait_mem (s : State) (t g : Nat) : (finishWait s t g).mem = s.mem :=
  (near_finishWait s t g).mem

/-- A waiting group: it stands at its place with its wait and is between runs. -/
theorem group_waitHere {s : State} {t g : Nat} {y : Group} (w : Wait) (h : s.group? t g = some y) :
    (waitHere s t g w).group? t g = some { y with
      status := .waiting w, runPos := 0, passes := 0, starving := none,
      tcause := if ((s.team? t).map (·.handled g)).getD false then haltCause y.skid else y.tcause } := by
  unfold waitHere
  cases ht : s.team? t with
  | none => simp [State.group?, ht] at h
  | some m =>
    have hg : m.group? g = some y := by simpa [State.group?, ht] using h
    simp [State.group?, State.updGroup, team?_updTeam_same, ht, hg]

/-! ### The reconvergence stack and traps -/

theorem wf_pushEntry {s s' : State} {t g : Nat} {e : StackEntry} (h : Memory.wf s.mem) (hs : pushEntry s t g e = some s') :
    Memory.wf s'.mem := by
  unfold pushEntry at hs
  repeat' split at hs
  all_goals first | (cases hs; done) | (simp only [Option.some.injEq] at hs; subst hs)
  · simpa using h
  · simpa using wf_hardWrite _ _ _ (fun u hu => wf_putBytes _ _ hu) h

@[simp] theorem popEntry_mem (s : State) (t g : Nat) : (popEntry s t g).mem = s.mem := by
  unfold popEntry; dsimp only; repeat' split
  all_goals simp

theorem wf_pushOrKill {s : State} (t g : Nat) (e : StackEntry) (h : Memory.wf s.mem) : Memory.wf (pushOrKill s t g e).mem := by
  unfold pushOrKill; split
  · next h' => exact wf_pushEntry h h'
  · exact wf_failTeam _ _ h

theorem wf_writeFrame {s : State} (p b : Nat) (ps : List (Nat × List Byte)) (h : Memory.wf s.mem) : Memory.wf (writeFrame s p b ps).mem :=
  wf_hardWrite _ _ _ (fun _ hu => wf_foldl (fun _ _ hs => wf_putBytes _ _ hs) _ (wf_sclear _ _ hu)) h

@[simp] theorem haltSiblings_mem (s : State) (c t g : Nat) (gs : List (Nat × Machine.Group)) : (haltSiblings s c t g gs).mem = s.mem := by
  have := foldl_mem (fun (s : State) (e : Nat × Machine.Group) => if e.2.unbegun then freePort s c t e.1 else s)
    (fun s e => by split <;> simp) gs s
  unfold haltSiblings; simpa using this

theorem wf_takeTrap {s : State} (t g : Nat) (i : Trap) (h : Memory.wf s.mem) : Memory.wf (takeTrap s t g i).mem := by
  unfold takeTrap
  split
  · split
    · exact wf_failTeam _ _ h
    · dsimp only
      split
      · exact wf_failTeam _ _ h
      · next h' =>
        split
        · simpa using wf_writeFrame _ _ _ (wf_pushEntry h h')
        · simpa using wf_writeFrame _ _ _ (wf_pushEntry h h')
  · exact h

theorem wf_trapWhole {s : State} (x : Site) (c : Nat) (h : Memory.wf s.mem) : Memory.wf (trapWhole s x c).mem := wf_takeTrap _ _ _ h
theorem wf_trapScalar {s : State} (x : Site) (c a : Nat) (b : Bool) (h : Memory.wf s.mem) : Memory.wf (trapScalar s x c a b).mem :=
  wf_takeTrap _ _ _ h
theorem wf_trapLanes {s : State} (x : Site) (cs fs : List (Nat × Nat)) (m : Lanes) (h : Memory.wf s.mem) :
    Memory.wf (trapLanes s x cs fs m).mem := wf_takeTrap _ _ _ h

@[simp] theorem settleCopy_mem (s : State) (m : Team) (t : Nat) (n : Option Nat) (b : Bool) :
    (settleCopy s m t n b).mem = s.mem := by
  unfold settleCopy; dsimp only; repeat' split
  all_goals simp
@[simp] theorem restoreFrame_mem (s : State) (m : Team) (t g : Nat) (e : StackEntry) : (restoreFrame s m t g e).mem = s.mem := by
  simp [restoreFrame]
@[simp] theorem leaveHandler_mem (s : State) (t g : Nat) : (leaveHandler s t g).mem = s.mem := by
  unfold leaveHandler; repeat' split
  all_goals simp
@[simp] theorem returnFrom_mem (s : State) (t g : Nat) (e : StackEntry) (f : FrameHidden) (k : Bool) :
    (returnFrom s t g e f k).mem = s.mem := by
  unfold returnFrom; split <;> simp
@[simp] theorem escalateTeam_mem (s : State) (t g n : Nat) : (escalateTeam s t g n).mem = s.mem := by
  unfold escalateTeam; split <;> simp

theorem wf_trapReturn {s : State} (t g : Nat) (h : Memory.wf s.mem) : Memory.wf (trapReturn s t g).mem := by
  unfold trapReturn; dsimp only
  repeat' split
  all_goals first | exact h | exact wf_failTeam _ _ h | exact wf_trapWhole _ _ h | simpa using h

/-! ### Releases, Piccolo and containment -/

@[simp] theorem logAdd_mem (s : State) (c : Nat) (e : LogEntry) : (logAdd s c e).mem = s.mem := rfl
@[simp] theorem logNow_mem (s : State) (x : Site) (k : LogKind) (sc : Scope) (j : Option EvTime) : (logNow s x k sc j).mem = s.mem := rfl
@[simp] theorem logMap_mem (s : State) (c : Nat) (p : LogEntry → Bool) (f : LogEntry → LogEntry) : (logMap s c p f).mem = s.mem := rfl
@[simp] theorem holdRelease_mem (s : State) (x : Site) (k : RelKind) (sc : Scope) (hs : List Nat)
    (log : Option (LogKind × List Nat)) (mpc : Option Nat) : (holdRelease s x k sc hs log mpc).mem = s.mem := by
  have split_mem : ∀ b : Bool, (if b = true then releaseSplit s x.tm.core x.gr.wrote else s).mem = s.mem := by
    intro b; split <;> simp
  unfold holdRelease; dsimp only
  show (State.onSite (State.bumpId _) x _).mem = s.mem
  rw [onSite_mem, bumpId_mem]
  split
  · refine Eq.trans (foldl_mem _ (fun s l => ?_) _ _) (split_mem _)
    exact logAdd_mem ..
  · exact split_mem _
@[simp] theorem holdThread_mem (s : State) (k : RelKind) (t : Nat) (r : Role) (o : Nat) (pc : DWord) (sc : Scope) (ts : VTime)
    (hs w : List Nat) (c p : Nat) : (holdThread s k t r o pc sc ts hs w c p).mem = s.mem := by
  unfold holdThread; dsimp only; show (ite _ _ _ : State).mem = _; split <;> first | exact releaseSplit_mem .. | rfl
@[simp] theorem noteWrite_mem (s : State) (t g q l : Nat) (vt : VTime) (a : Nat) : (noteWrite s t g q l vt a).mem = s.mem := by
  unfold noteWrite; split <;> simp
@[simp] theorem noteBind_mem (s : State) (t g q l : Nat) (f : Option Nat) (vt : VTime) (a : Nat) :
    (noteBind s t g q l f vt a).mem = s.mem := by
  unfold noteBind; split <;> simp
@[simp] theorem pendTrap_mem (s : State) (t g : Nat) (p : PendTrap) : (pendTrap s t g p).mem = s.mem := updGroup_mem ..
@[simp] theorem rollBack_mem (s : State) : (rollBack s).mem = s.mem := by unfold rollBack; split <;> rfl
@[simp] theorem startRung_mem (s : State) (r t : Nat) (m : Option Nat) : (startRung s r t m).mem = s.mem := by
  unfold startRung; dsimp only; repeat' split
  all_goals simp
theorem wf_recallBlind {s : State} (l : Nat) (h : Memory.wf s.mem) : Memory.wf (recallBlind s l).mem := by
  unfold recallBlind; dsimp only; repeat' split
  all_goals first | exact h | simpa [loseData] using wf_putBytes (s := reopen s l false [] none) _ _ h

/-- A quarantined line loses what a cache had written to it and not written back (R238). -/
theorem wf_quarantineLine {s : State} (l : Nat) (h : Memory.wf s.mem) : Memory.wf (quarantineLine s l).mem := by
  have hb := wf_recallBlind l h
  unfold quarantineLine; dsimp only; split
  · exact h
  · split
    · split
      · split
        all_goals
          simp only [startRung_mem, logEvent_mem]
          exact wf_foldl (fun s e hs => wf_recallBlind e.1 hs) _ (by simpa using hb)
      · simpa using hb
    · simpa using hb

theorem wf_beginQuarantine {s : State} (l : Nat) (soon : Bool) (h : Memory.wf s.mem) : Memory.wf (beginQuarantine s l soon).mem := by
  unfold beginQuarantine; split
  · exact h
  · exact wf_quarantineLine l h
@[simp] theorem undoRelease_mem (s : State) (h : Held) : (undoRelease s h).mem = s.mem := by
  unfold undoRelease; split <;> simp

@[simp] theorem giveUp_mem (s : State) (ids : List Nat) (hs : List Held) : (giveUp s ids hs).mem = s.mem := by
  unfold giveUp; dsimp only
  rw [foldl_mem _ (fun s h => logMap_mem ..)]
  exact foldl_mem _ undoRelease_mem hs s
@[simp] theorem closeEntries_mem (s : State) (t g q : Nat) : (closeEntries s t g q).mem = s.mem := by
  unfold closeEntries; split <;> simp
@[simp] theorem settleRetired_mem (s : State) (t g : Nat) : (settleRetired s t g).mem = s.mem := by
  unfold settleRetired; repeat' split
  all_goals simp
@[simp] theorem dropWaited_mem (s : State) (t g : Nat) : (dropWaited s t g).mem = s.mem := by
  unfold dropWaited; dsimp only; repeat' split
  all_goals simp

@[simp] theorem reserveSpawn_mem (s : State) (x : Site) (r : Rec) (h : List Word) : (reserveSpawn s x r h).mem = s.mem := by
  unfold reserveSpawn; simp
@[simp] theorem grantSpawn_mem (s : State) (t : Nat) : (grantSpawn s t).mem = s.mem := by
  unfold grantSpawn; dsimp only; repeat' split
  all_goals simp

theorem wf_containImprecise {s : State} (t g : Nat) (v : Violation) (l : Nat) (p : Bool) (sc : Scope) (c : Option Nat) (pc : DWord)
    (h : Memory.wf s.mem) : Memory.wf (containImprecise s t g v l p sc c pc).mem := by
  unfold containImprecise; dsimp only; repeat' split
  all_goals first | exact wf_failTeam _ _ h | simpa using h

theorem wf_discardGroup {s : State} (t g : Nat) (v : Violation) (h : Memory.wf s.mem) : Memory.wf (discardGroup s t g v).mem := by
  unfold discardGroup; dsimp only
  repeat' split
  all_goals first
    | exact h
    | exact wf_takeTrap _ _ _ (by simpa using h)
    | exact wf_containImprecise _ _ _ _ _ _ _ _ (by simpa using h)
    | simpa using h

theorem wf_discardTeam {s : State} (t : Nat) (v : Violation) (h : Memory.wf s.mem) : Memory.wf (discardTeam s t v).mem := by
  unfold discardTeam; split
  · exact h
  · rw [grantSpawn_mem]; exact wf_foldl (fun _ _ hs => wf_discardGroup _ _ _ hs) _ h

theorem wf_contain {s : State} (v : Violation) (hit : List (Nat × Held)) (w : Option (Nat × Nat)) (soon : Bool) (h : Memory.wf s.mem) :
    Memory.wf (contain s v hit w soon).mem := by
  have hq : Memory.wf (beginQuarantine (logViolation s v) v.line soon).mem := wf_beginQuarantine _ _ (by exact h)
  unfold contain; dsimp only
  split
  · repeat' split
    all_goals first | exact wf_containImprecise _ _ _ _ _ _ _ _ hq | exact hq
  · refine wf_foldl (fun s e hs => ?_) _ hq
    repeat' split
    all_goals first
      | exact hs
      | exact wf_endLaunch _ _ _ hs
      | exact wf_containImprecise _ _ _ _ _ _ _ _ (wf_discardTeam _ _ hs)
      | exact wf_discardTeam _ _ hs

theorem wf_orderViolation {s : State} (c : Nat) (y x : LogEntry) (soon : Bool) (h : Memory.wf s.mem) :
    Memory.wf (orderViolation s c y x soon).mem := by
  unfold orderViolation; dsimp only
  have hm := logMap_mem s c (fun e => e.idx == y.idx) (fun e => { e with replayed := true })
  generalize logMap s c (fun e => e.idx == y.idx) (fun e => { e with replayed := true }) = s at hm ⊢
  rw [← hm] at h
  have hq : ∀ v : Violation, Memory.wf (beginQuarantine (logViolation s v) v.line soon).mem := fun v =>
    wf_beginQuarantine _ _ (by exact h)
  repeat' split
  all_goals first | exact wf_contain _ _ _ _ h | exact wf_containImprecise _ _ _ _ _ _ _ _ (hq _) | exact hq _

theorem wf_checkReturned {s : State} (c t g q l : Nat) (soon : Bool) (h : Memory.wf s.mem) :
    Memory.wf (checkReturned s c t g q l soon).mem := by
  unfold checkReturned; dsimp only; split
  · exact wf_orderViolation _ _ _ _ h
  · exact h

end Sys2Proof.Laws
end

