-- ==== Sys2Proof/Tests/Slice0.lean ====
section
/-! SUPPORT. Ill-formed terms that check 2 refuses, words written out from the encoding tables, small steps, and for every
statement with hypotheses a state that meets them. -/
open Sys2Proof Sys2Proof.Machine
namespace Sys2Proof.Tests

/-! ### Small states -/

/-- A state in which the only group of a team on core 0 issues `i` now (Place.lean), after changes to its team, its group and
the device. -/
def bed (i : Instr) (g : Group → Group) (m : Team → Team := id) (f : State → State := id) : State :=
  { f ((State.reset.solo i 0).updTeam 0 (fun x => (m x).updGroup 0 g)) with cur := some (0, 0) }

def solo (i : Instr) : State := bed i id

/-- The issuing group of a state. -/
def at' (s : State) : Site := s.site?.getD ⟨0, 0, soloTeam .vector, Group.fresh .vector 0 0 16 0, 0⟩

/-- `Runs` as a Boolean, for a group without a register in error. -/
def runsB (s : State) (i : Instr) : Bool :=
  s.site?.isSome && (precheck (at' s) i).isNone && !stalled s (at' s) (usesOf i) (makesEvents i) && (at' s).gr.bad.isEmpty

theorem runs_of {s : State} {i : Instr} (h : runsB s i = true) : Runs s (at' s) i := by
  simp only [runsB, Bool.and_eq_true, Bool.not_eq_true', Option.isNone_iff_eq_none, List.isEmpty_iff] at h
  refine ⟨?_, h.1.1.2, h.1.2, Or.inl h.2⟩
  cases hs : s.site? with
  | none => simp [hs] at h
  | some x => simp [at', hs]

theorem all_run {f : Instr → State} {l : List Instr} (h : l.all (fun i => runsB (f i) i) = true) :
    ∀ i ∈ l, Runs (f i) (at' (f i)) i := fun i hi => runs_of (List.all_eq_true.mp h i hi)

/-- A property of the value of an option that has one. -/
theorem of_some {α : Type} {o : Option α} {p : α → Bool} (h : o.all p = true) : ∀ a, o = some a → p a = true := by
  rintro a rfl; exact h

def sets (l : List (Nat × Word)) (y : Group) : Group := l.foldl (fun y e => y.setS e.1 e.2) y
def lanes (r : Nat) (l : List (Nat × Word)) (y : Group) : Group := y.setVs r l
def mode (v : Word) (y : Group) : Group := { y with gmr := v }

/-- GMR with a type code and everything else zero. -/
def typ (t : ElemType) : Group → Group := mode (BitVec.ofNat 32 (32 * typeCode t))

/-! ### Check 2 of R92: terms that are no instructions, one for each check -/

/-- S124 to S127, misaligned groups, values that GMR, a post specification or a system register refuses (Table 3-15). -/
theorem test_ill_formed : ∀ i ∈ ([.sadd true 124 2 3, .sadd true 5 124 3, .sadd true 5 2 127, .ssel true 125 0 0,
    .scmp true .eq 0 124 0, .scmp true .eq 0 0 126, .smov true .w2 1 2, .smov true .w2 2 1, .smov true .w4 120 122,
    .smov true .w1 5 125, .smov true .w2 4 124, .smovQdst true 124, .smovQsend true 2, .smovQsend true 124, .smovQrecv true 6,
    .saddi true 124 0, .sandi true 127 0, .sori true 126 0, .sshli true 125 1, .sli true 124 0, .slih true 124 0,
    .vmov true .w2 1 2, .vmov true .w8 8 4, .vbcast true 0 124, .vbfly true 0 0 125, .vred true .add 124 0, .velect true 124,
    .vquant true 3 0 .bx8, .vdeq true 0 3 .fp32, .kmovFromS true 0 1, .kmovToS true 123 0] : List Instr), i.wf = false := by decide

theorem test_ill_formed_mode : ∀ i ∈ ([.mode true 0xA000, .mode true 0x00C0, .mode true 0x0010,
    .mode true 0x0001, .mode true 0x02E0] : List Instr), i.wf = false := by
  decide

theorem test_ill_formed_memory : ∀ i ∈ ([.modes true 124, .ld true .w4 2 8 0, .ld true .w1 2 9 0, .ldacq true .w2 1 8 0,
    .st true .w8 4 8 0, .strel true .w1 0 4 0, .ldb true .w1 0 1 0, .stb true .w2 3 8 0, .ld true .w1 0 120 0,
    .lds true .w2 3 8 0, .lds true .w1 124 8 0, .lds true .w1 0 8 124, .sts true .w8 120 8 0, .sts true .w1 0 12 0,
    .atomAdd true .relaxed 0 4 0, .atomMin true .acq 0 1 0, .atomMax true .rel 0 2 0, .atomAnd true .acqrel 0 3 0,
    .atomOr true .relaxed 0 5 0, .atomXor true .relaxed 0 6 0, .atomXchg true .relaxed 0 7 0, .atomCas true .relaxed 1 8 0,
    .atomCas true .relaxed 2 4 0, .atomsAdd true .relaxed 124 8 0, .atomsMin true .relaxed 0 8 125,
    .atomsMax true .relaxed 0 1 0, .atomsAnd true .relaxed 124 8 0, .atomsOr true .relaxed 124 8 0, .atomsXor true .relaxed 0 8 126,
    .atomsXchg true .relaxed 0 4 0, .atomsCas true .relaxed 1 8 0, .atomsCas true .relaxed 2 4 0, .pref true 4 0] : List Instr),
    i.wf = false := by decide

theorem test_ill_formed_rest : ∀ i ∈ ([.cpy true 4 0, .cpyg true 104 0, .cpyred true 0 1, .cpy true 0 0x7F, .tmmaPair true 0 1 0,
    .tmmaPair true 124 0 0, .tmmaQuad true 0 2 0, .tzero true 124, .tstat true 2 0, .tstat true 0 124, .trd true .w2 1 0 0,
    .trd true .w1 0 124 0, .twr true .w1 0 0 124, .tcvt true 124 0 0, .tquant true 0 0 125, .call 1 0, .ret 123, .spawn 4,
    .spawn 112, .cwait 1 0, .cwait 0 124, .rdsys true .w2 0 1, .rdsys true .w2 1 5, .rdsys true .w8 120 0x11,
    .wrsys true .w1 0 0x20, .wrsys true .w2 3 0x20, .pgmapPool true 1 0, .pgmapMap true 0 2, .tinv true 2, .csload true 1 0,
    .csload true 0 124] : List Instr), i.wf = false := by decide

/-! ### Decoding: words written field by field from Tables 3-13, 4-2, 4-3 and 4-4 -/

theorem test_decode_scalar : ∀ e ∈ ([
    (0b1_00000010_00_0000101_0000010_0000011, .ssub true 5 2 3), (0b0_00001110_00_1111011_0000000_0000001, .ssel false 123 0 1),
    (0b0_00001101_11_0000111_0000010_0000011, .scmp false .ltu 7 2 3), (0b1_00001111_10_0000100_0001000_0000000, .smov true .w4 4 8),
    (0b0_00001111_00_1111100_0000101_0000000, .smovQdst false 5), (0b0_00001111_10_1111101_0001000_0000000, .smovQsend false 8),
    (0b0_00001111_10_0001000_1111110_0000000, .smovQrecv false 8),
    (0b0_00010011_00_0000101_00000000011111, .sshli false 5 31), (0b0_00011000_0000101_1000000000000001, .sli false 5 0x8001),
    (0b1_00011001_0000101_0000000000000010, .slih true 5 2)] : List (Word × Instr)),
    decode e.1 = .instr e.2 := by decide

theorem test_decode_vector : ∀ e ∈ ([
    (0b0_01000011_00_0000101_0000010_0000011, .vfma false 5 2 3), (0b1_01001111_00_1111111_0000010_0000000, .vclz true 127 2),
    (0b0_01010001_11_0000001_0000010_0000011, .vcmp false .le 1 2 3), (0b0_01010011_11_0001000_0010000_0000000, .vmov false .w8 8 16),
    (0b0_01010100_00_0000101_0000010_0000000, .vbcast false 5 2), (0b0_01110001_00_0000101_0000010_0000011, .vbfly false 5 2 3),
    (0b0_01110010_11_0000101_0000010_0000000, .vred false .or 5 2), (0b1_01110101_00_0000101_0000000_0000000, .velect true 5),
    (0b0_10000000_01_0000100_0000010_0000010, .vquant false 4 2 .bx4), (0b0_10000001_01_0000101_0000010_0001000, .vdeq false 5 2 .fp32),
    (0b0_01010101_00_0000101_0000010_0010010, .vcvt false 5 2 .tf8)] : List (Word × Instr)), decode e.1 = .instr e.2 := by decide

theorem test_decode_masks : ∀ e ∈ ([
    (0b0_10010000_00_0000001_0000010_0000011, .kand false 1 2 3), (0b0_10010100_00_0000001_0000010_0000000, .kmovK false 1 2),
    (0b0_10010100_01_0000001_0000010_0000000, .kmovFromS false 1 2), (0b0_10010100_10_0000010_0000001_0000000, .kmovToS false 2 1),
    (0b0_10011000_0000000_0110000100001000, .mode false 0x6108), (0b1_10011001_00_0000000_0000101_0000000, .modes true 5)]
    : List (Word × Instr)), decode e.1 = .instr e.2 := by decide

theorem test_decode_memory : ∀ e ∈ ([
    (0b0_10100000_10_0000100_0001000_0000011, .ld false .w4 4 8 3), (0b1_10100011_00_0000101_0001000_0000011, .strel true .w1 5 8 3),
    (0b0_10100100_01_0000010_0001000_0000011, .lds false .w2 2 8 3), (0b0_10101111_11_0000010_0001000_0000011, .atomCas false .acqrel 2 8 3),
    (0b0_10101000_00_0000101_0001000_0000011, .atomAdd false .relaxed 5 8 3), (0b0_10110110_10_0000101_0001000_0000011, .atomsXchg false .rel 5 8 3),
    (0b0_10111000_00_0000000_0001000_0000011, .pref false 8 3), (0b0_10111100_00_0010000_00000010010010, .cpy false 16 0x92),
    (0b0_11000000_01_0000101_0000010_0000011, .tmmaPair false 5 2 3), (0b0_11000000_10_0000101_0000100_0000011, .tmmaQuad false 5 4 3),
    (0b0_11000010_10_0000100_0000010_0000000, .tstat false 4 2), (0b0_11000100_01_0000100_0000010_0000011, .twr false .w2 4 2 3)]
    : List (Word × Instr)), decode e.1 = .instr e.2 := by decide

theorem test_decode_control : ∀ e ∈ ([
    (0b1_11010100_0000110_0000000000000011, .call 6 3), (0b1_11010101_00_0000000_0000110_0000000, .ret 6),
    (0b1_11010010_0_000_0000000000000000101, .pushr true 5), (0b1_11010011_00_0000000_0000000_0000000, .popr),
    (0b1_11010111_00_0000000_00000101000111, .rep true false true 7), (0b0_11011000_00_0000000_00000000001001, .bararv false 9),
    (0b1_11011011_00_0000000_00000000011101, .ringget 3 5), (0b1_11011100_00001_00010_000011_0100_000, .wait 1 2 3 4),
    (0b1_11011101_00_0000000_00000000000011, .drain .mem), (0b1_11011110_00_0000000_00000000000100, .fence true .system)]
    : List (Word × Instr)), decode e.1 = .instr e.2 := by decide

theorem test_decode_system : ∀ e ∈ ([
    (0b1_11100100_00_0000000_0001000_0000000, .spawn 8), (0b1_11100101_00_0000000_0000010_0000101, .cwait 2 5),
    (0b0_11101000_01_0000010_00000000000101, .rdsys false .w2 2 5), (0b0_11101001_00_0000101_00000000000110, .wrsys false .w1 5 6),
    (0b0_11101010_01_0000010_0000100_0000000, .pgmapMap false 2 4), (0b0_11101101_00_0000000_00000000110101, .csbind false 3 5),
    (0b0_11110101_10_0000101_0000010_0000011, .xop false 5 .w4 5 2 3)]
    : List (Word × Instr)), decode e.1 = .instr e.2 := by decide

/-- Words that check 2 refuses: a reserved field, a selector, a misaligned group, S124 as an operand, a value (Table 3-15). -/
theorem test_decode_refused : ([0b0_00000001_00_1111100_0000010_0000011, 0b0_10010100_11_0000001_0000010_0000000,
    0b0_10010000_00_0001000_0000010_0000011, 0b0_11101010_10_0000010_0000100_0000000, 0b0_11011110_00_0000000_00000000000101,
    0b0_10000000_00_0000100_0000010_0000010, 0b0_01010101_00_0000101_0000010_0000110, 0b0_10111100_00_0010000_00000001111111,
    0b0_00010011_00_0000101_00000000100000] : List Word).all (fun w => decide (decode w = .illegalEncoding)) = true := by decide

/-! ### One step: expected values by hand from the rules -/

/-- S[r] of the group that has issued, after a step. -/
def stepS (s : State) (r : Nat) : Option Word :=
  match Machine.step s with
  | .next t => (t.group? 0 0).map (fun z => z.getS r)
  | _ => none

/-- SADDI S5, -1 on 0: R381 and R89 give 2^32 - 1. -/
theorem test_step_saddi : stepS (State.reset.withFetchWord 32 0b0_00010000_00_0000101_11111111111111) 5 = some 0xFFFFFFFF := by decide

/-- SLI S7, 0x8001: the immediate of format U is unsigned (R88). -/
theorem test_step_sli : stepS (State.reset.withFetchWord 32 0b0_00011000_0000111_1000000000000001) 7 = some 0x8001 := by decide

/-- A word with an unassigned opcode traps with CODE 0x01, PREC 1 (R92, Table 3-8); S0 is the low word of FRAMEPTR. -/
theorem test_step_illegal : (match Machine.step (State.reset.withFetchWord 32 0) with
    | .next t => (t.group? 0 0).map (fun z => (z.tcause, z.super, z.pc)) | _ => none) = some (0x101, true, 0x10) := by decide

/-- One execution of an instruction in `bed`: what a reader of the group gives afterwards. -/
def after {α : Type} (s : State) (i : Instr) (f : Group → α) : Option α :=
  match exec i s with
  | .next t => (t.group? 0 0).map f
  | _ => none

/-- SSRA of 0x80000000 by 33: the count is taken modulo 32 (R381), the sign comes in. -/
theorem test_ssra : after (bed (.ssra true 5 2 3) (sets [(2, 0x80000000), (3, 33)])) (.ssra true 5 2 3) (fun z => z.getS 5) =
    some 0xC0000000 := by decide

/-- SMULH of -1 and 2: the floor of -2 / 2^32. -/
theorem test_smulh : after (bed (.smulh true 2 2 3) (sets [(2, 0xFFFFFFFF), (3, 2)])) (.smulh true 2 2 3) (fun z => z.getS 2) =
    some 0xFFFFFFFF := by decide

/-- SCMP LT is signed: -1 < 1 in all sixteen lanes (R382). -/
theorem test_scmp : after (bed (.scmp true .lt 1 2 3) (sets [(2, 0xFFFFFFFF), (3, 1)])) (.scmp true .lt 1 2 3) (fun z => z.getK 1) =
    some 0xFFFF := by decide

/-- VADD of FP32 1.5 and 2.25 in lane 3 is 3.75. -/
theorem test_vadd : after (bed (.vadd true 5 2 3) (fun y => lanes 3 [(3, 0x40100000)] (lanes 2 [(3, 0x3FC00000)] (typ .fp32 y))))
    (.vadd true 5 2 3) (fun z => z.getV 5 3) = some 0x40700000 := by decide

/-- VADD of INT8 127 and 1 saturates to 127 and raises SAT (R71, R108); FLAGS is the team's. -/
theorem test_vadd_sat : (match exec (.vadd true 5 2 3) (bed (.vadd true 5 2 3)
      (fun y => lanes 3 [(0, 1)] (lanes 2 [(0, 127)] (mode 0x1040 y)))) with
    | .next t => (t.team? 0).map (fun m => (m.flags, (m.group? 0).map (fun z => z.getV 5 0))) | _ => none) =
    some (flSAT, some 127) := by decide

/-- BRU with offset -1 goes to the word before (R90). -/
theorem test_bru : after (solo (.bru 0xFFFF)) (.bru 0xFFFF) (fun z => z.pc) = some 0xFFFC := by decide

/-- BRK on lanes 0 to 3 of 16: the taken lanes go on the stack with the target, the rest go on (R349). -/
theorem test_brk : after (bed (.brk false 2 4) (fun y => y.setK 16 2 0xF)) (.brk false 2 4)
    (fun z => (z.active, z.pc, z.stack.map (fun e => (e.mask, e.pc)))) = some (0xFFF0, 0x10004, [(0xF, 0x10010)]) := by decide

/-! ### Witnesses: for each statement with hypotheses, states that meet them, for every clause -/

theorem witness_ScalarResults : ∀ i ∈ ([.sadd true 5 2 3, .ssub false 5 5 5, .smul true 5 2 3, .smulh true 5 2 3, .sand true 0 1 123,
    .sor true 5 2 3, .sxor true 5 2 3, .sshl true 5 2 3, .sshr true 5 2 3, .ssra true 5 2 3, .smin true 5 2 3, .smax true 5 2 3,
    .ssel true 5 2 3] : List Instr), Runs (solo i) (at' (solo i)) i := all_run (by decide)

theorem witness_ScalarForms : ∀ i ∈ ([.saddi true 5 0x2000, .sandi true 5 0x3FFF, .sori true 123 1, .sshli true 5 31, .sli true 5 0xFFFF,
    .slih true 5 0xFFFF, .scmp true .eq 0 2 3, .scmp true .ne 7 2 3, .scmp true .lt 1 2 3, .scmp true .ltu 1 2 3, .smov true .w1 5 123,
    .smov true .w4 8 120, .smov true .w8 112 0, .smov true .w1 5 124, .smov true .w1 5 127] : List Instr),
    Runs (solo i) (at' (solo i)) i := all_run (by decide)

/-- The message port of a group. -/
def port (f : QPort → QPort) (y : Group) : Group := { y with q := f y.q }

/-- A value that Table 8-8 allows, one that names a core that is not (0x600), and another destination inside an open packet. -/
theorem witness_MessagePorts_qdst :
    let i := Instr.smovQdst true 5
    let s := bed i (sets [(5, 0x5FF)])
    let t := bed i (sets [(5, 0x600)])
    let u := bed i (fun y => port (fun q => { q with isOpen := true }) (sets [(5, 1)] y))
    (Runs s (at' s) i ∧ fieldOf ((at' s).gr.getS 5) 31 18 = 0 ∧ fieldOf ((at' s).gr.getS 5) 10 0 < 1536 ∧ (at' s).gr.q.isOpen = false) ∧
    (Runs t (at' t) i ∧ ¬ fieldOf ((at' t).gr.getS 5) 10 0 < 1536) ∧
    (Runs u (at' u) i ∧ (at' u).gr.q.isOpen = true ∧ fieldOf ((at' u).gr.getS 5) 10 0 ≠ fieldOf (at' u).gr.q.qdst 10 0) :=
  ⟨⟨runs_of (by decide), by decide⟩, ⟨runs_of (by decide), by decide⟩, runs_of (by decide), by decide⟩

/-- With all eight allowances, and with none left. -/
theorem witness_MessagePorts_qsend :
    let i := Instr.smovQsend true 8
    let s := solo i
    let t := bed i (port (fun q => { q with alw := [(0, 0)] }))
    (Runs s (at' s) i ∧ (at' s).gr.q.allow (at' s).gr.q.dcore (at' s).gr.q.dgroup ≠ 0) ∧
    (Runs t (at' t) i ∧ (at' t).gr.q.allow (at' t).gr.q.dcore (at' t).gr.q.dgroup = 0) :=
  ⟨⟨runs_of (by decide), by decide⟩, runs_of (by decide), by decide⟩

/-- A packet cut short, a flit at the head, nothing to take. -/
theorem witness_MessagePorts_qrecv :
    let i := Instr.smovQrecv true 8
    let s := bed i (port (fun q => { q with cut := true }))
    let t := bed i (port (fun q => { q with rq := [⟨1, 2, 7, 0, 0, 0, true, [1, 2, 3, 4]⟩] }))
    let u := solo i
    (Runs s (at' s) i ∧ (at' s).gr.q.cut = true) ∧
    (Runs t (at' t) i ∧ (at' t).gr.q.cut = false ∧ (at' t).gr.q.nextFlit = some ⟨1, 2, 7, 0, 0, 0, true, [1, 2, 3, 4]⟩) ∧
    (Runs u (at' u) i ∧ (at' u).gr.q.cut = false ∧ (at' u).gr.q.nextFlit = none) :=
  ⟨⟨runs_of (by decide), by decide⟩, ⟨runs_of (by decide), by decide⟩, runs_of (by decide), by decide⟩

theorem witness_MasksAndMode : ∀ i ∈ ([.kand true 1 2 3, .kor true 7 0 0, .kxor true 1 2 3, .knot true 1 1, .kmovK true 1 2,
    .kmovFromS true 1 122, .kmovToS true 0 7, .mode true 0x8108, .modes true 5] : List Instr), Runs (solo i) (at' (solo i)) i :=
  all_run (by decide)

/-- MODES with a value of Table 3-3 and with one whose bit 16 is set. -/
theorem witness_MasksAndMode_modes :
    let i := Instr.modes true 5
    let s := bed i (sets [(5, 0x8108)])
    let t := bed i (sets [(5, 0x10000)])
    (Runs s (at' s) i ∧ gmrOk ((at' s).gr.getS 5) = true) ∧ (Runs t (at' t) i ∧ gmrOk ((at' t).gr.getS 5) = false) :=
  ⟨⟨runs_of (by decide), by decide⟩, runs_of (by decide), by decide⟩

theorem witness_VectorLanes_arith : ∀ t ∈ ([.i32, .n8, .fp32, .tf8] : List ElemType), setArith t = true ∧
    ∀ i ∈ ([.vadd true 5 2 3, .vsub true 5 2 3, .vmul true 5 5 5, .vfma true 5 2 3, .vmin true 5 2 3, .vmax true 5 2 3, .vabs true 5 2,
      .vneg true 5 2] : List Instr), Runs (bed i (typ t)) (at' (bed i (typ t))) i ∧ (at' (bed i (typ t))).mode.t = t := by
  intro t ht
  refine ⟨(by decide : ∀ t ∈ ([.i32, .n8, .fp32, .tf8] : List ElemType), setArith t = true) t ht, fun i hi => ?_⟩
  have h : ∀ t ∈ ([.i32, .n8, .fp32, .tf8] : List ElemType), ∀ i ∈ ([.vadd true 5 2 3, .vsub true 5 2 3, .vmul true 5 5 5, .vfma true 5 2 3,
      .vmin true 5 2 3, .vmax true 5 2 3, .vabs true 5 2, .vneg true 5 2] : List Instr),
      runsB (bed i (typ t)) i = true ∧ (at' (bed i (typ t))).mode.t = t := by decide
  exact ⟨runs_of (h t ht i hi).1, (h t ht i hi).2⟩

/-- The special functions, VCLASS and VCVT, in FP32. -/
theorem witness_VectorLanes_rest : ∀ i ∈ ([.vrcp true 5 2, .vrsq true 5 2, .vsqrt true 5 2, .vexp2 true 5 2, .vlog2 true 5 2, .vtanh true 5 2,
    .vclass true 5 2, .vcvt true 5 2 .e2m1] : List Instr), Runs (bed i (typ .fp32)) (at' (bed i (typ .fp32))) i ∧
      setFltTap (at' (bed i (typ .fp32))).mode.t = true ∧ setClass (at' (bed i (typ .fp32))).mode.t = true := fun i hi =>
  ⟨all_run (f := fun i => bed i (typ .fp32)) (by decide) i hi, (by decide : ∀ i ∈ ([.vrcp true 5 2, .vrsq true 5 2, .vsqrt true 5 2,
    .vexp2 true 5 2, .vlog2 true 5 2, .vtanh true 5 2, .vclass true 5 2, .vcvt true 5 2 .e2m1] : List Instr),
    setFltTap (at' (bed i (typ .fp32))).mode.t = true ∧ setClass (at' (bed i (typ .fp32))).mode.t = true) i hi⟩

/-- Every instruction of the statement, in INT32 and in NAT8. -/
theorem witness_VectorIntegers : ∀ t ∈ ([.i32, .n8] : List ElemType), ∀ i ∈ ([.vadd true 5 2 3, .vsub true 5 2 3, .vmul true 5 2 3,
    .vfma true 5 2 3, .vmin true 5 2 3, .vmax true 5 2 3, .vabs true 5 2, .vneg true 5 2, .vshl true 5 2 3, .vshr true 5 2 3,
    .vsra true 5 2 3, .vmulh true 5 2 3, .vclz true 5 2, .vpopc true 5 2] : List Instr),
    Runs (bed i (typ t)) (at' (bed i (typ t))) i ∧ ∃ sg n, kindOf (gmrType (at' (bed i (typ t))).gr.gmr) = .int sg n := by
  have h : ∀ t ∈ ([.i32, .n8] : List ElemType), ∀ i ∈ ([.vadd true 5 2 3, .vsub true 5 2 3, .vmul true 5 2 3,
      .vfma true 5 2 3, .vmin true 5 2 3, .vmax true 5 2 3, .vabs true 5 2, .vneg true 5 2, .vshl true 5 2 3, .vshr true 5 2 3,
      .vsra true 5 2 3, .vmulh true 5 2 3, .vclz true 5 2, .vpopc true 5 2] : List Instr), runsB (bed i (typ t)) i = true ∧
      gmrType (at' (bed i (typ t))).gr.gmr = t := by decide
  have k : ∀ t ∈ ([.i32, .n8] : List ElemType), ∃ sg n, kindOf t = .int sg n := by
    intro t ht
    fin_cases ht
    · exact ⟨true, 32, by decide⟩
    · exact ⟨false, 8, by decide⟩
  intro t ht i hi
  refine ⟨runs_of (h t ht i hi).1, ?_⟩
  rw [(h t ht i hi).2]
  exact k t ht

theorem witness_VectorMoves : ∀ i ∈ ([.vand true 5 2 3, .vor true 5 2 3, .vxor true 5 2 3, .vbcast true 5 123, .vsel true 5 2 3,
    .vmov true .w8 8 16, .vmov true .w1 127 0, .vshfl true 5 2 3, .vbfly true 5 2 3, .vscan true .add 5 2] : List Instr),
    Runs (solo i) (at' (solo i)) i ∧ setRed .add (gmrType (at' (solo i)).gr.gmr) = true := fun i hi =>
  ⟨all_run (by decide) i hi, (by decide : ∀ i ∈ ([.vand true 5 2 3, .vor true 5 2 3, .vxor true 5 2 3, .vbcast true 5 123, .vsel true 5 2 3,
    .vmov true .w8 8 16, .vmov true .w1 127 0, .vshfl true 5 2 3, .vbfly true 5 2 3, .vscan true .add 5 2] : List Instr),
    setRed .add (gmrType (at' (solo i)).gr.gmr) = true) i hi⟩

/-- With lanes in the mask, and VELECT with none. -/
theorem witness_VectorToGroup :
    (∀ i ∈ ([.vcmp true .le 1 2 3, .vvote true 7 2, .vred true .max 5 2, .velect true 5] : List Instr), Runs (solo i) (at' (solo i)) i) ∧
    (∀ i ∈ ([.vcmp true .le 1 2 3, .vred true .max 5 2] : List Instr), setArith (gmrType (at' (solo i)).gr.gmr) = true ∧
      setRed .max (gmrType (at' (solo i)).gr.gmr) = true) ∧ inMask (at' (solo (.velect true 5))) 0 ∧
    (let s := bed (.velect true 5) (mode 8)
     Runs s (at' s) (.velect true 5) ∧ (List.range 64).all (fun l => !laneOf ((at' s).gr.emask (at' s).tm.width) l) = true) :=
  ⟨all_run (by decide), by decide, show laneOf _ _ = true by decide, runs_of (by decide), by decide⟩

def wide (w : Nat) (m : Team) : Team := { m with width := w }

theorem witness_VectorBlocks :
    let i := Instr.vquant true 4 2 .bx4
    let s := bed i (typ .fp32)
    (Runs s (at' s) i ∧ setFltTap (gmrType (at' s).gr.gmr) = true ∧ (at' s).tm.width = 16) ∧
    (∀ w ∈ [32, 64], let t := bed i (typ .fp32) (wide w)
      Runs t (at' t) i ∧ setFltTap (gmrType (at' t).gr.gmr) = true ∧ ((at' t).tm.width = 32 ∨ (at' t).tm.width = 64)) ∧
    (let j := Instr.vdeq true 4 2 .fp32
     let u := bed j (fun y => lanes 3 [(0, 1023), (1, 0)] y)
     Runs u (at' u) j ∧ setDeq (gmrType (at' u).gr.gmr) = true ∧
       ∀ l, l < 64 → inMask (at' u) l → ((at' u).gr.getV (2 + 1) l).toNat < 1024) := by
  refine ⟨⟨runs_of (by decide), by decide⟩, fun w hw => ?_, runs_of (by decide), by decide, ?_⟩
  · have h : ∀ w ∈ [32, 64], runsB (bed (.vquant true 4 2 .bx4) (typ .fp32) (wide w)) (.vquant true 4 2 .bx4) = true ∧
        setFltTap (gmrType (at' (bed (.vquant true 4 2 .bx4) (typ .fp32) (wide w))).gr.gmr) = true ∧
        ((at' (bed (.vquant true 4 2 .bx4) (typ .fp32) (wide w))).tm.width = 32 ∨
         (at' (bed (.vquant true 4 2 .bx4) (typ .fp32) (wide w))).tm.width = 64) := by decide
    exact ⟨runs_of (h w hw).1, (h w hw).2⟩
  · exact fun l hl _ => (by decide : ∀ l, l < 64 →
      ((at' (bed (.vdeq true 4 2 .fp32) (fun y => lanes 3 [(0, 1023), (1, 0)] y))).gr.getV (2 + 1) l).toNat < 1024) l hl

/-- Each instruction with a type that it refuses. -/
theorem witness_TypeTrap : ∀ e ∈ ([(.vadd true 5 2 3, .e4m3), (.vcmp true .eq 1 2 3, .e2m1), (.vshl true 5 2 3, .fp32), (.vrcp true 5 2, .i32),
    (.vclass true 5 2, .n8), (.vdeq true 5 2 .fp32, .fp32), (.vred true .add 5 2, .e5m2), (.vquant true 4 2 .bx8, .e4m3)]
    : List (Instr × ElemType)),
    Runs (bed e.1 (typ e.2)) (at' (bed e.1 (typ e.2))) e.1 ∧
      ∃ ok, acceptedTypes e.1 = some ok ∧ ok (gmrType (at' (bed e.1 (typ e.2))).gr.gmr) = false := by
  have h : ∀ e ∈ ([(.vadd true 5 2 3, .e4m3), (.vcmp true .eq 1 2 3, .e2m1), (.vshl true 5 2 3, .fp32), (.vrcp true 5 2, .i32),
      (.vclass true 5 2, .n8), (.vdeq true 5 2 .fp32, .fp32), (.vred true .add 5 2, .e5m2), (.vquant true 4 2 .bx8, .e4m3)]
      : List (Instr × ElemType)), runsB (bed e.1 (typ e.2)) e.1 = true ∧
      (acceptedTypes e.1).map (fun ok => ok (gmrType (at' (bed e.1 (typ e.2))).gr.gmr)) = some false := by decide
  exact fun e he => ⟨runs_of (h e he).1, Option.map_eq_some_iff.mp (h e he).2⟩

/-- A pending load of S[r]. -/
def pendLoad (r seq : Nat) : PendOp :=
  { seq := seq, kind := .load, pt := .at 0, mpc := none, acq := false, rel := false, scope := .group, dst := ⟨false, r, 1⟩, size := 4,
    typ := .i32, accs := [⟨0, 0, 0x10000, ⟨0, 0, 0x10000⟩, [], false, 3, []⟩], early := false, rid := none, super := false, emask := 1,
    late := [], since := 0, deps := [] }

def repAt (n k : Nat) (y : Group) : Group := { y with rep := some ⟨0x20000, n, false, false, false, k⟩ }

/-- Check 3 at the 24th instruction of a run, check 4 with CPY in a VECTOR group, check 5 past the budget of 8 registers, check 2
for EXIT under REP, and a load in flight to a register that is read. -/
theorem witness_IssueChecks :
    let i := Instr.sadd false 5 2 3
    let s := bed i (fun y => { y with runPos := 23 })
    let j := Instr.cpy true 16 0
    let t := bed j (fun y => { y with role := .vector })
    let k := Instr.vadd true 7 2 8
    let u := bed k id (fun m => { m with budgets := [1, 1, 1] })
    let v := bed .exit (repAt 2 0)
    let w := bed i (fun y => { y with ops := [pendLoad 3 0] })
    (s.site? = some (at' s) ∧ issued i = true ∧ 24 ≤ (at' s).gr.runPos + 1 ∧ boundary i = false ∧ (at' s).gr.alone = false) ∧
    (t.site? = some (at' t) ∧ issued j = true ∧ (at' t).gr.runPos = 0 ∧ roleAllows j (at' t).gr.role = false) ∧
    (u.site? = some (at' u) ∧ issued k = true ∧ roleAllows k (at' u).gr.role = true ∧ (at' u).gr.runPos = 0 ∧
      ∃ e ∈ usesOf k, e.1 = true ∧ 8 * (at' u).tm.budgets.getD (roleCode (at' u).gr.role) 0 < e.2.1 + e.2.2) ∧
    (v.site? = some (at' v) ∧ issued .exit = true ∧ roleAllows .exit (at' v).gr.role = true ∧ usesOf .exit = [] ∧
      (at' v).gr.rep.isSome = true ∧ repAllowed .exit = false) ∧
    (w.site? = some (at' w) ∧ precheck (at' w) i = none ∧ stalled w (at' w) (usesOf i) (makesEvents i) = true) := by decide

/-- A first trap, a trap of a full stack that spills, and a trap with four frames in use. -/
theorem witness_TrapEntry :
    let s := solo .exit
    let full : List StackEntry := List.replicate 32 ⟨1, 0x10000, .reconv, 0, 0⟩
    let t := bed .exit (fun y => { y with stack := full })
    let h : FrameHidden := ⟨1, false, true, 0, 0, none, [], .at 0, none, none, 0⟩
    let u := bed .exit (fun y => { y with frames := [(1, h), (2, h), (3, h), (4, h)] })
    (s.team? (at' s).t = some (at' s).tm ∧ (at' s).tm.group? (at' s).g = some (at' s).gr ∧ (at' s).gr.frames.length < 4 ∧
      (pushEntry s 0 0 ⟨(at' s).gr.active, (at' s).gr.pc, .trap, 0, 1⟩).isSome = true) ∧
    (t.team? (at' t).t = some (at' t).tm ∧ (at' t).tm.group? (at' t).g = some (at' t).gr ∧ (at' t).gr.stack.length = 32 ∧
      (pushEntry t 0 0 ⟨(at' t).gr.active, (at' t).gr.pc, .trap, 0, 1⟩).isSome = true) ∧
    (u.team? (at' u).t = some (at' u).tm ∧ (at' u).tm.group? (at' u).g = some (at' u).gr ∧ 4 ≤ (at' u).gr.frames.length) := by decide

/-- TRAP and BKPT; a place whose page has no X leaf, in user mode and in a handler. -/
theorem witness_SoftwareTraps :
    (∀ i ∈ ([.trap 0x3FFF, .bkpt 0] : List Instr), Runs (solo i) (at' (solo i)) i) ∧
    (let h : FrameHidden := ⟨1, false, true, 0, 0, none, [], .at 0, none, none, 0⟩
     let s := bed .fetchFault (fun y => { y with pc := 0x50000 })
     let t := bed .fetchFault (fun y => { y with pc := 0x50000, frames := [(1, h)] })
     (s.site? = some (at' s) ∧ (∃ c ats, fetchAt s (at' s) = .bad c ats) ∧ (at' s).gr.super = false) ∧
     (t.site? = some (at' t) ∧ (∃ c ats, fetchAt t (at' t) = .bad c ats) ∧ (at' t).gr.super = true)) :=
  ⟨all_run (by decide), ⟨by decide, ⟨5, false, by decide⟩, by decide⟩, by decide, ⟨5, false, by decide⟩, by decide⟩

def reconv (n : Nat) : List StackEntry := List.replicate n ⟨0xF, 0x10010, .reconv, 0, 0⟩

/-- A stack of 31, of 32 with the spill region empty, with its last place free and full; entries as Table 11-1 holds them. -/
theorem witness_ReconvergenceStack :
    let at31 := bed .popr (fun y => { y with stack := reconv 31 })
    let at32 := bed .popr (fun y => { y with stack := reconv 32 })
    let last := bed .popr (fun y => { y with stack := reconv 32, spilled := 1023 })
    let full := bed .popr (fun y => { y with stack := reconv 32, spilled := 1024 })
    (∀ s ∈ [at31, at32, last, full], s.team? 0 = some (at' s).tm ∧ (at' s).tm.group? 0 = some (at' s).gr) ∧
    (at' at31).gr.stack.length < 32 ∧ (at' at31).gr.spilled = 0 ∧ 32 ≤ (at' at32).gr.stack.length ∧ (at' at32).gr.spilled = 0 ∧
    32 ≤ (at' last).gr.stack.length ∧ (at' last).gr.spilled < 1024 ∧ 1024 ≤ (at' full).gr.spilled ∧
    (pushEntry at32 0 0 ⟨1, 0, .reconv, 0, 0⟩).isSome = true ∧
    (∀ o ∈ (at' at32).gr.stack, o.pc.toNat < 2 ^ 55 ∧ o.pc.toNat % 4 = 0 ∧ o.mpc < 32 ∧ o.gidx < 16) := by decide

/-- RET to a word, to 2^55 - 4, to a misaligned address and to 2^55. -/
theorem witness_Branches :
    (∀ i ∈ ([.bru 0xFFFF, .call 6 3, .ret 6, .nop false, .rep true false true 63] : List Instr), Runs (solo i) (at' (solo i)) i) ∧
    (at' (solo (.rep true false true 63))).gr.status = GStatus.ready ∧
    (let s := bed (.ret 6) (sets [(6, 0xFFFFFFFC), (7, 0x7FFFFF)])
     let t := bed (.ret 6) (sets [(6, 2)])
     let u := bed (.ret 6) (sets [(7, 0x800000)])
     (Runs s (at' s) (.ret 6) ∧ ((at' s).gr.getPair 6).toNat % 4 = 0 ∧ ((at' s).gr.getPair 6).toNat < 2 ^ 55) ∧
     (Runs t (at' t) (.ret 6) ∧ ((at' t).gr.getPair 6).toNat % 4 ≠ 0) ∧
     (Runs u (at' u) (.ret 6) ∧ ((at' u).gr.getPair 6).toNat % 4 = 0 ∧ 2 ^ 55 ≤ ((at' u).gr.getPair 6).toNat)) :=
  ⟨all_run (by decide), by decide, ⟨runs_of (by decide), by decide⟩, ⟨runs_of (by decide), by decide⟩, runs_of (by decide), by decide⟩

/-- A group at repetition 1 of 4 of the word w, whose fields step as told. -/
def repeats (w : Word) (d a b : Bool) : State := (State.reset.withFetchWord 32 w.toNat).updGroup 0 0 (fun y => { y with rep := some ⟨0xFFFC, 4, d, a, b, 1⟩ })

/-- The only group of `repeats`. -/
def repSite (s : State) : Site := (siteOf s 0 0).getD ⟨0, 0, soloTeam .vector, Group.fresh .vector 0 0 16 0, 0⟩

/-- VADD V126 and V127; SADDI S122 and S123, with a stepped immediate too; LD of one and of two registers, its record inside and in
S124; SMOV to S123 and to S124. -/
theorem witness_Branches_repeated :
    let s := repeats (0b1_01000000_00_1111110_0000010_0000011) true true true
    let t := repeats (0b1_01000000_00_1111111_0000010_0000011) true false false
    let u := repeats (0b1_00010000_00_1111010_00000000000001) true false false
    let u2 := repeats (0b1_00010000_00_1111011_00000000000001) true false false
    let u3 := repeats (0b1_00010000_00_0000101_00000000000001) true true false
    let v := repeats (0b1_10100000_00_0000101_0001000_0000011) true true true
    let v2 := repeats (0b1_10100000_00_0000101_1110000_0000011) true true true
    let w := repeats (0b1_00001111_00_1111011_0000101_0000000) true false false
    let at1 := fun (s : State) (k : Word) => ∃ r, (repSite s).gr.rep = some r ∧ r.idx = 1 ∧ (repSite s).gr.xop = none ∧ fetchAt s (repSite s) = .word 0x10000 k
    (at1 s 0b1_01000000_00_1111110_0000010_0000011 ∧ decode 0b1_01000000_00_1111110_0000010_0000011 = .instr (.vadd true 126 2 3)) ∧
    (at1 t 0b1_01000000_00_1111111_0000010_0000011 ∧ decode 0b1_01000000_00_1111111_0000010_0000011 = .instr (.vadd true 127 2 3)) ∧
    (at1 u 0b1_00010000_00_1111010_00000000000001 ∧ decode 0b1_00010000_00_1111010_00000000000001 = .instr (.saddi true 122 1)) ∧
    (at1 u2 0b1_00010000_00_1111011_00000000000001 ∧ decode 0b1_00010000_00_1111011_00000000000001 = .instr (.saddi true 123 1)) ∧
    (at1 u3 0b1_00010000_00_0000101_00000000000001 ∧ decode 0b1_00010000_00_0000101_00000000000001 = .instr (.saddi true 5 1) ∧
      precheck (repSite u3) (.saddi true (BitVec.ofNat 7 6) 1) = none) ∧
    (at1 v 0b1_10100000_00_0000101_0001000_0000011 ∧ decode 0b1_10100000_00_0000101_0001000_0000011 = .instr (.ld true .w1 5 8 3) ∧
      (Instr.ld true .w1 6 16 4).wf = true) ∧
    (at1 v2 0b1_10100000_00_0000101_1110000_0000011 ∧ decode 0b1_10100000_00_0000101_1110000_0000011 = .instr (.ld true .w1 5 112 3) ∧
      112 + 8 ≤ 127 ∧ (Instr.ld true .w1 6 120 4).wf = false) ∧
    (at1 w 0b1_00001111_00_1111011_0000101_0000000 ∧ decode 0b1_00001111_00_1111011_0000101_0000000 = .instr (.smov true .w1 123 5) ∧ 124 ≤ 123 + 1) := by
  refine ⟨⟨⟨_, rfl, ?_⟩, ?_⟩, ⟨⟨_, rfl, ?_⟩, ?_⟩, ⟨⟨_, rfl, ?_⟩, ?_⟩, ⟨⟨_, rfl, ?_⟩, ?_⟩, ⟨⟨_, rfl, ?_⟩, ?_⟩, ⟨⟨_, rfl, ?_⟩, ?_⟩, ⟨⟨_, rfl, ?_⟩, ?_⟩,
    ⟨_, rfl, ?_⟩, ?_⟩ <;> decide

/-- Every lane, no lane and some lanes take the branch; some with a full stack. -/
theorem witness_DivergentBranch :
    let i := Instr.brk false 2 4
    let s := bed i (fun y => y.setK 16 2 0xFFFF)
    let t := solo i
    let u := bed i (fun y => y.setK 16 2 0xF)
    let v := bed i (fun y => { (y.setK 16 2 0xF) with stack := reconv 32, spilled := 1024 })
    let cond := fun (x : Site) => x.gr.getK 2 &&& fullMask x.tm.width
    let e := StackEntry.mk 0xF 0x10010 .reconv 0 0
    (Runs s (at' s) i ∧ (at' s).gr.active &&& ~~~(cond (at' s)) = 0) ∧
    (Runs t (at' t) i ∧ (at' t).gr.active &&& ~~~(cond (at' t)) ≠ 0 ∧ (at' t).gr.active &&& cond (at' t) = 0) ∧
    (Runs u (at' u) i ∧ (at' u).gr.active &&& ~~~(cond (at' u)) ≠ 0 ∧ (at' u).gr.active &&& cond (at' u) = 0xF ∧
      (at' u).gr.pc + 4 * BitVec.ofInt 64 (4 : BitVec 19).toInt = 0x10010 ∧ (pushEntry u 0 0 e).isSome = true) ∧
    (Runs v (at' v) i ∧ (at' v).gr.active &&& ~~~(cond (at' v)) ≠ 0 ∧ (at' v).gr.active &&& cond (at' v) = 0xF ∧
      pushEntry v 0 0 e = none) :=
  ⟨⟨runs_of (by decide), by decide⟩, ⟨runs_of (by decide), by decide⟩, ⟨runs_of (by decide), by decide⟩, runs_of (by decide), by decide⟩

/-- A handler's frame, and RACT in it as given. -/
def frame1 : FrameHidden := ⟨1, false, true, 0, 0, none, [], .at 0, none, none, 0⟩
def ract (v : Word) (s : State) : State := s.write32 (0x400000 + 4) v

/-- PUSHR on a stack of 31, of 32 with the last place of the spill region free, and with none; POPR on an empty stack, on an entry of
KIND 00 without and with a spilled one, and on a trap's entry whose frame is in error, whose RACT has a reserved bit, and of RACT 11. -/
theorem witness_PushAndPop :
    let i := Instr.pushr true 5
    let at31 := bed i (fun y => { y with stack := reconv 31 })
    let last := bed i (fun y => { y with stack := reconv 32, spilled := 1023 })
    let full := bed i (fun y => { y with stack := reconv 32, spilled := 1024 })
    let t := bed .popr id
    let u := bed .popr (fun y => { y with stack := reconv 1 })
    let u2 := bed .popr (fun y => { y with stack := reconv 32, spilled := 1 })
    let en : StackEntry := ⟨0xF, 0x10010, .trap, 0, 1⟩
    let trap := fun f => bed .popr (fun y => { y with stack := [en], frames := [(1, frame1)] }) id f
    let bad := trap (fun s => { s with badLines := [0x400000 / 128] })
    let odd := trap (ract 4)
    let v := trap (ract 3)
    (Runs at31 (at' at31) i ∧ (at' at31).gr.stack.length < 32) ∧
    (Runs last (at' last) i ∧ 32 ≤ (at' last).gr.stack.length ∧ (at' last).gr.spilled < 1024) ∧
    (Runs full (at' full) i ∧ 32 ≤ (at' full).gr.stack.length ∧ 1024 ≤ (at' full).gr.spilled) ∧
    (Runs t (at' t) .popr ∧ (at' t).gr.stack = []) ∧
    (Runs u (at' u) .popr ∧ (at' u).gr.stack = ⟨0xF, 0x10010, .reconv, 0, 0⟩ :: [] ∧ (at' u).gr.spilled = 0) ∧
    (Runs u2 (at' u2) .popr ∧ (at' u2).gr.stack = ⟨0xF, 0x10010, .reconv, 0, 0⟩ :: reconv 31 ∧ (at' u2).gr.spilled ≠ 0) ∧
    (Runs bad (at' bad) .popr ∧ (at' bad).gr.stack = en :: [] ∧ en.kind ≠ .reconv ∧ ∃ l ∈ frameLines (at' bad).tm (at' bad).g en false, l ∈ bad.badLines) ∧
    (Runs odd (at' odd) .popr ∧ (at' odd).gr.stack = en :: [] ∧ (∀ l ∈ frameLines (at' odd).tm (at' odd).g en true, l ∉ odd.badLines) ∧
      fieldOf (groupWord odd (at' odd).gr (frameAddr (at' odd).tm (at' odd).g en.gidx + 4)) 31 2 ≠ 0) ∧
    (Runs v (at' v) .popr ∧ (at' v).gr.stack = en :: [] ∧ ReturnsBy v (at' v) en ∧ logFree (v.core (at' v).tm.core) ≠ 0) :=
  ⟨⟨runs_of (by decide), by decide⟩, ⟨runs_of (by decide), by decide⟩, ⟨runs_of (by decide), by decide⟩, ⟨runs_of (by decide), by decide⟩,
    ⟨runs_of (by decide), by decide⟩, ⟨runs_of (by decide), by decide⟩, ⟨runs_of (by decide), by decide⟩, ⟨runs_of (by decide), by decide⟩,
    runs_of (by decide), by decide, ⟨by decide, by decide, by decide⟩, by decide⟩

/-- EXIT of every lane; with an entry below it; in a handler, with a reserved bit of RACT and with RACT 01. -/
theorem witness_ExitLanes :
    let s := solo .exit
    let t := bed .exit (fun y => { y with active := 0xF, stack := [⟨0xF0, 0x10010, .reconv, 0, 0⟩] })
    let en : StackEntry := ⟨0xF0, 0x10010, .trap, 0, 1⟩
    let trap := fun f => bed .exit (fun y => { y with active := 0xF, stack := [{ en with mask := 0xFF }], frames := [(1, frame1)] }) id f
    let odd := trap (ract 0x80000000)
    let u := trap (ract 1)
    let es := fun (s : State) => stackLess (wholeStack s (at' s).tm (at' s).g (at' s).gr) (at' s).gr.active
    (Runs s (at' s) .exit ∧ es s = []) ∧
    (Runs t (at' t) .exit ∧ es t = ⟨0xF0, 0x10010, .reconv, 0, 0⟩ :: [] ∧ (es t).length ≤ 32) ∧
    (Runs odd (at' odd) .exit ∧ es odd = en :: [] ∧ (∀ l ∈ frameLines (at' odd).tm (at' odd).g en true, l ∉ odd.badLines) ∧
      fieldOf (groupWord odd (at' odd).gr (frameAddr (at' odd).tm (at' odd).g en.gidx + 4)) 31 2 ≠ 0) ∧
    (Runs u (at' u) .exit ∧ es u = en :: [] ∧ ReturnsBy u (at' u) en ∧ logFree (u.core (at' u).tm.core) ≠ 0) :=
  ⟨⟨runs_of (by decide), by decide⟩, ⟨runs_of (by decide), by decide⟩, ⟨runs_of (by decide), by decide⟩, runs_of (by decide), by decide,
    ⟨by decide, by decide, by decide⟩, by decide⟩

/-- A record in S8 to S15: base, stride, extent, control word (Table 8-1). -/
def record (base stride extent ctrl : Word) : Group → Group := sets [(8, base), (10, stride), (11, extent), (12, ctrl)]

/-- The solo page as a buffer of words with every right. -/
def page : Group → Group := record 0x10000 4 0x1000 0x70

/-- `CanIssue` as a Boolean. -/
def canB (s : State) (x : Site) (q : MemReq) : Bool :=
  !(q.lanes x).isEmpty && (q.lanes x).all (fun l => (lanePlace s x q l).isSome) && !atLimit x.gr q.isLoad &&
    !hazard s x.tm (laneSpans s (goodOf ((q.lanes x).map (q.check s x))) (4 * q.words) (!q.isLoad)) &&
    decide ((requests (placedAccs s x q)).length ≤ logFree (s.core x.tm.core))

theorem can_of {s : State} {x : Site} {q : MemReq} (h : canB s x q = true) : CanIssue s x q := by
  simp only [canB, Bool.and_eq_true, Bool.not_eq_true', List.isEmpty_eq_false_iff, List.all_eq_true, decide_eq_true_eq] at h
  exact ⟨h.1.1.1.1, h.1.1.1.2, h.1.1.2, fun _ => h.1.2, fun _ => h.2⟩

theorem can_all {f : Instr → State} {r : Site → Instr → Option MemReq} {l : List Instr}
    (h : l.all (fun i => runsB (f i) i && (r (at' (f i)) i).any (canB (f i) (at' (f i)))) = true) :
    ∀ i ∈ l, Runs (f i) (at' (f i)) i ∧ ∃ q, r (at' (f i)) i = some q ∧ CanIssue (f i) (at' (f i)) q := by
  intro i hi
  have h := List.all_eq_true.mp h i hi
  simp only [Bool.and_eq_true] at h
  cases hq : r (at' (f i)) i with
  | none => simp [hq] at h
  | some q => exact ⟨runs_of h.1, q, rfl, can_of (by simpa [hq] using h.2)⟩

/-- A record in memory whose checks fail or pass one after another: the last byte inside, past the extent, past 2^55, a
misaligned base, no right, an unmapped page, a bad line, and one that breaks Table 8-1. -/
theorem witness_AccessChecks :
    let s := solo .exit
    let x := at' s
    let r : BufRec := ⟨0x10000, 4, 0x1000, 0x70, [0, 0, 0]⟩
    let bad := { s with badLines := [0x10000 / 128] }
    r.ok = true ∧ r.space = 0 ∧ 0x3FF * r.stride + 4 ≤ r.extent ∧ ¬ 0x400 * r.stride + 4 ≤ r.extent ∧
    (let top : BufRec := { r with base := 0x7FFFFFFFFFFFFC, extent := 8, stride := 4 }
     top.ok = true ∧ top.base.toNat + 0 + 4 ≤ 2 ^ 55 ∧ 1 * 4 + 4 ≤ top.extent ∧ ¬ top.base.toNat + 1 * top.stride + 4 ≤ 2 ^ 55) ∧
    (let odd : BufRec := { r with base := 0x10002 }
     odd.ok = true ∧ odd.base.toNat % 4 ≠ 0) ∧
    (let none' : BufRec := { r with ctrl := 0 }
     none'.ok = true ∧ recordRight r .atomic = true ∧ recordRight none' .load = false) ∧
    (∃ c ats, translate s x.tm.core x.tm.part 0x50000 (leafRights .load) = .cause c ats) ∧
    translate s x.tm.core x.tm.part 0x10000 (leafRights .store) = .ok 0x10000 ∧ accessBad s 0x10000 x.gr.super true = false ∧
    translate bad x.tm.core x.tm.part 0x10000 (leafRights .load) = .ok 0x10000 ∧ accessBad bad 0x10000 x.gr.super false = true ∧
    (let broken : BufRec := { r with ctrl := 0x78 }
     broken.ok = false) := by
  refine ⟨by decide, by decide, by decide, by decide, by decide, by decide, by decide, ⟨5, false, by decide⟩, by decide, by decide,
    by decide, by decide, by decide⟩

/-- A record of AB, swizzled, whose core field names the team's own core, with its last word inside and one past the extent, past the
quota, misaligned, and for one that LD makes. -/
theorem witness_AccessChecks_typed :
    let r : BufRec := ⟨0, 4, 0x400, 0xFF000132, [0, 0, 0]⟩
    let s := bed .exit id (fun m => m.putRegion 1 ⟨0, 0x400, 0, [], []⟩)
    let x := at' s
    r.ok = true ∧ r.space = 2 ∧ fieldOf r.ctrl 9 8 ≠ 0 ∧ { r with ctrl := 0xFF000032 }.ok = true ∧ fieldOf (0xFF000032 : Word) 9 8 = 0 ∧
    resolveCore s x.t x.tm (fieldOf r.ctrl 31 24) = some 0 ∧ s.team? 0 = some x.tm ∧ (x.tm.region 1).quota = 0x400 ∧
    (0xFF * r.stride + 4 ≤ r.extent ∧ ¬ 0x100 * r.stride + 4 ≤ r.extent) ∧
    (let far : BufRec := { r with base := 0x400 }
     far.ok = true ∧ 0 + 4 ≤ far.extent ∧ ¬ 0x400 + 4 ≤ 0x400) ∧
    (let odd : BufRec := { r with base := 2 }
     odd.ok = true ∧ 2 % 4 ≠ 0) ∧
    recordRight r .load = true ∧ recordRight { r with ctrl := 0xFF000002 } .load = false := by decide

theorem witness_LoadsAndStores : ∀ i ∈ ([.ld true .w1 5 8 3, .ldacq true .w1 127 8 3, .st true .w1 5 8 3, .strel true .w1 5 8 3,
    .lds true .w1 5 8 3, .sts true .w2 4 8 3] : List Instr),
    Runs (bed i page) (at' (bed i page)) i ∧ ∃ q, accessOf (at' (bed i page)) i = some q ∧ CanIssue (bed i page) (at' (bed i page)) q :=
  can_all (f := fun i => bed i page) (by decide)

/-- A region of AB of 1 KiB. -/
def withAB (m : Team) : Team := m.putRegion 1 ⟨0, 1024, 0, [], []⟩

/-- LDB and STB in the group's own AB region, SPACE 2, core field 255; and a load of eight registers. -/
theorem witness_LoadsAndStores_typed :
    (∀ i ∈ ([.ldb true .w1 5 8 3, .stb true .w1 5 8 3] : List Instr),
      Runs (bed i (record 0 4 0x400 0xFF000032) withAB) (at' (bed i (record 0 4 0x400 0xFF000032) withAB)) i ∧
      ∃ q, accessOf (at' (bed i (record 0 4 0x400 0xFF000032) withAB)) i = some q ∧
        CanIssue (bed i (record 0 4 0x400 0xFF000032) withAB) (at' (bed i (record 0 4 0x400 0xFF000032) withAB)) q) ∧
    (∀ i ∈ ([.ld true .w8 16 8 3] : List Instr), Runs (bed i page) (at' (bed i page)) i ∧
      ∃ q, accessOf (at' (bed i page)) i = some q ∧ CanIssue (bed i page) (at' (bed i page)) q) :=
  ⟨can_all (f := fun i => bed i (record 0 4 0x400 0xFF000032) withAB) (by decide), can_all (f := fun i => bed i page) (by decide)⟩

/-- Every atomic in INT32; ADD in FP16 and MIN in BF16, which Table 16-2 refuses. -/
theorem witness_Atomics :
    (∀ i ∈ ([.atomAdd true .relaxed 5 8 3, .atomMin true .acq 5 8 3, .atomMax true .rel 5 8 3, .atomAnd true .acqrel 5 8 3,
      .atomOr true .relaxed 5 8 3, .atomXor true .relaxed 5 8 3, .atomXchg true .relaxed 5 8 3, .atomCas true .acqrel 4 8 3,
      .atomsAdd true .rel 5 8 3, .atomsMin true .relaxed 5 8 3, .atomsMax true .relaxed 5 8 3, .atomsAnd true .relaxed 5 8 3,
      .atomsOr true .relaxed 5 8 3, .atomsXor true .relaxed 5 8 3, .atomsXchg true .acq 5 8 3, .atomsCas true .relaxed 4 8 3] : List Instr),
      Runs (bed i page) (at' (bed i page)) i ∧ ∃ q, atomicOf (at' (bed i page)) i = some q ∧ CanIssue (bed i page) (at' (bed i page)) q) ∧
    (∀ op, op < 8 → atomTypeOk op .i32 = true) ∧ atomTypeOk 0 .fp16 = false ∧ atomTypeOk 1 .bf16 = false ∧
    (let i := Instr.atomAdd true .relaxed 5 8 3
     let s := bed i (fun y => page (typ .fp16 y))
     Runs s (at' s) i ∧ atomTypeOk 0 (gmrType (at' s).gr.gmr) = false) ∧
    (let i := Instr.atomMax true .relaxed 5 8 3
     let s := bed i (fun y => page (typ .fp32 y))
     Runs s (at' s) i ∧ gmrType (at' s).gr.gmr = .fp32 ∧ ∃ q, atomicOf (at' s) i = some q ∧ CanIssue s (at' s) q) :=
  ⟨can_all (f := fun i => bed i page) (by decide), by decide, by decide, by decide, ⟨runs_of (by decide), by decide⟩, runs_of (by decide), by decide,
    _, rfl, can_of (by decide)⟩

/-- A guard that is off in every lane; 31 loads outstanding; a record that grants nothing; PREF. -/
theorem witness_AccessesNotMade :
    let i := Instr.ld true .w1 5 8 3
    let j := Instr.lds true .w1 5 8 3
    let s := bed i (fun y => page (mode 8 y))
    let t := bed i (fun y => page { y with ops := (List.range 31).map (fun n => { pendLoad 40 n with dst := ⟨false, 40, 1⟩ }) })
    let u := bed i (record 0x10000 4 0x1000 0)
    let v := bed j (record 0x10000 4 0x1000 0)
    let p := Instr.pref true 8 3
    (Runs s (at' s) i ∧ ∃ q, requestOf (at' s) i = some q ∧ q.lanes (at' s) = []) ∧
    (Runs t (at' t) i ∧ ∃ q, requestOf (at' t) i = some q ∧ q.lanes (at' t) ≠ [] ∧ atLimit (at' t).gr q.isLoad = true) ∧
    (Runs u (at' u) i ∧ ∃ q, requestOf (at' u) i = some q ∧ q.lanes (at' u) ≠ [] ∧ atLimit (at' u).gr q.isLoad = false ∧
      ∀ l ∈ q.lanes (at' u), lanePlace u (at' u) q l = none) ∧
    (Runs v (at' v) j ∧ ∃ q, requestOf (at' v) j = some q ∧ q.scalar = true ∧ ∀ l ∈ q.lanes (at' v), lanePlace v (at' v) q l = none) ∧
    Runs (bed p page) (at' (bed p page)) p := by
  refine ⟨⟨runs_of (by decide), _, rfl, by decide⟩, ⟨runs_of (by decide), _, rfl, by decide⟩, ⟨runs_of (by decide), _, rfl, by decide⟩,
    ⟨runs_of (by decide), _, rfl, by decide⟩, runs_of (by decide)⟩

/-- Lane 1 is past the extent and lane 0 is not. -/
theorem witness_AccessesNotMade_mixed :
    let i := Instr.ld true .w1 5 8 3
    let s := bed i (fun y => lanes 3 [(1, 0x400)] (page y))
    let q := (requestOf (at' s) i).getD (atomRequest (at' s) 0 .relaxed false 0 0 0)
    let rs := (q.lanes (at' s)).map (q.check s (at' s))
    Runs s (at' s) i ∧ requestOf (at' s) i = some q ∧ q.typed = false ∧ atLimit (at' s).gr q.isLoad = false ∧
      goodAccesses s (at' s) q (goodOf rs) ≠ [] ∧ badOf rs ≠ [] ∧
      (requests (goodAccesses s (at' s) q (goodOf rs))).length ≤ logFree (s.core (at' s).tm.core) :=
  ⟨runs_of (by decide), by rfl, by decide, by decide, by decide, by decide, by decide⟩

/-- A layout record: one FP32 element from memory to AB. -/
def copyRec (src dst ctrl dim0 win0 idx : Word) : Group → Group :=
  sets [(16, src), (18, dst), (20, ctrl), (22, dim0), (36, win0), (38, idx)]

/-- SRC in memory, DST in a typed buffer, both FP32, rank 1; rank 2 for CPYG; the reverse for CPYRED. -/
def ctrlIn : Word := 0b00_0000_00_0_001_0_00_01000_01000_01_00
def ctrlOut : Word := 0b00_0000_00_0_001_0_00_01000_01000_00_01
def abHandle : Word := 0xFF400000

/-- Accepted with a free slot; a reserved field; no slot left. -/
theorem witness_CopyIssue :
    let i := Instr.cpy true 16 0
    let good := copyRec 0x10000 abHandle ctrlIn 1 0 0
    let j := Instr.cpyred true 16 0
    let k := Instr.cpyg true 16 0
    let s := bed i good withAB
    let t := bed i (copyRec 0x10000 abHandle (ctrlIn ||| 0x80000000) 1 0 0) withAB
    let c := Copy.mk 9 0 0 0 0 [] 0 0 [] [] [] none 0 none [] [] [] []
    let u := bed i good withAB (fun s => s.updCore 0 (fun k => { k with copies := (span 0 Config.copySlots).map (fun n => (n, c)) }))
    let v := bed j (copyRec abHandle 0x10000 ctrlOut 1 0 0) withAB
    let w := bed k (fun y => sets [(27, 4), (23, 1)] (copyRec 0x10000 abHandle (ctrlIn + 0x20000) 1 0 0 y)) withAB
    let fine := fun (s : State) (op : Nat) => copyRefusal s (at' s) op ((at' s).gr.getSn 16 24) 0 = none ∧
      freeCopySlot (s.core (at' s).tm.core) = some 0 ∧ teamCopies (s.core (at' s).tm.core) (at' s).t < (at' s).tm.cslots ∧
      (at' s).gr.cp < 63 ∧ logFree (s.core (at' s).tm.core) ≠ 0
    (Runs s (at' s) i ∧ fine s 0) ∧ (Runs v (at' v) j ∧ fine v 2) ∧ (Runs w (at' w) k ∧ fine w 1) ∧
    (Runs t (at' t) i ∧ copyRefusal t (at' t) 0 ((at' t).gr.getSn 16 24) 0 = some 0x33) ∧
    (Runs u (at' u) i ∧ copyRefusal u (at' u) 0 ((at' u).gr.getSn 16 24) 0 = none ∧ freeCopySlot (u.core (at' u).tm.core) = none) := by
  refine ⟨⟨runs_of (by decide), by decide⟩, ⟨runs_of (by decide), by decide⟩, ⟨runs_of (by decide), by decide⟩,
    ⟨runs_of (by decide), by decide⟩, runs_of (by decide), by decide⟩

/-- Regions that hold an accumulator tile and input tiles. -/
def withTiles (m : Team) : Team := (m.putRegion 1 ⟨0, 32768, 0, [], []⟩).putRegion 2 ⟨0, 16384, 0, [], []⟩
def cbHandle : Word := 0xFF800000

/-- BF16 by BF16 into FP32, K = 32, as every lane's format word. -/
def fmt : Group → Group := lanes 3 ((span 0 16).map (fun l => (l, 0x1000)))

theorem witness_TileIssue_tmma :
    let i := Instr.tmmaPair true 0 4 3
    let j := Instr.tmmaQuad true 0 4 3
    let regs := sets [(0, cbHandle), (4, abHandle), (5, abHandle + 0x2000)]
    let s := bed i (fun y => fmt (regs y)) withTiles
    let t := bed j (fun y => fmt (regs y)) withTiles
    let u := bed j (fun y => fmt (sets [(6, 0x100)] (regs y))) withTiles
    let v := bed i (fun y => mode 8 (fmt (regs y))) withTiles
    let fine := fun (s : State) => (at' s).gr.emask (at' s).tm.width = fullMask (at' s).tm.width ∧
      (∀ l, l < (at' s).tm.width → (at' s).gr.getV 3 l = (at' s).gr.getV 3 0) ∧
      tmmaRefusal s (at' s) ((at' s).gr.getV 3 0) ((at' s).gr.getS 0) ((at' s).gr.getS 4) ((at' s).gr.getS 5) 0 0 = none ∧
      hazard s (at' s).tm (tileSpans s (at' s).t (.tmma ((at' s).gr.getV 3 0)) ((at' s).gr.getS 0) ((at' s).gr.getS 4)
        ((at' s).gr.getS 5) (handleTeam s (at' s).t (at' s).tm ((at' s).gr.getS 4)) (handleTeam s (at' s).t (at' s).tm ((at' s).gr.getS 5))) = false ∧ (at' s).gr.tm < 15 ∧ logFree (s.core (at' s).tm.core) ≠ 0
    (Runs s (at' s) i ∧ fine s) ∧ (Runs t (at' t) j ∧ fine t) ∧
    (Runs u (at' u) j ∧ (at' u).gr.emask (at' u).tm.width = fullMask (at' u).tm.width ∧
      (∀ l, l < (at' u).tm.width → (at' u).gr.getV 3 l = (at' u).gr.getV 3 0) ∧
      tmmaRefusal u (at' u) ((at' u).gr.getV 3 0) ((at' u).gr.getS 0) ((at' u).gr.getS 4) ((at' u).gr.getS 5) ((at' u).gr.getS 6)
        ((at' u).gr.getS 7) = some 0x33) ∧
    (Runs v (at' v) i ∧ (at' v).gr.emask (at' v).tm.width ≠ fullMask (at' v).tm.width) := by
  refine ⟨⟨runs_of (by decide), by decide⟩, ⟨runs_of (by decide), by decide⟩, ⟨runs_of (by decide), by decide⟩, runs_of (by decide),
    by decide⟩

theorem witness_TileIssue_rest :
    let z := Instr.tzero true 0
    let c := Instr.tcvt true 1 0 2
    let q := Instr.tquant true 1 0 2
    let st := Instr.tstat true 4 0
    let regs := sets [(0, cbHandle), (1, abHandle)]
    let a := bed z regs withTiles
    let b := bed c regs withTiles
    let d := bed q (fun y => sets [(2, 4)] (regs y)) withTiles
    let e := bed st (fun y => { typ .fp32 (regs y) with active := 0xFFFFFFFFFFFFFFFF }) (fun m => wide 64 (withTiles m))
    let f := bed z id withTiles
    let g := bed c (fun y => sets [(2, 0x01000000)] (regs y)) withTiles
    let h := bed st regs withTiles
    let room := fun (s : State) (k : TileKind) (dh ah : Word) => hazard s (at' s).tm (tileSpans s (at' s).t k dh ah 0
      (handleTeam s (at' s).t (at' s).tm ah) (handleTeam s (at' s).t (at' s).tm 0)) = false ∧
      (at' s).gr.tm < 15 ∧ logFree (s.core (at' s).tm.core) ≠ 0
    (Runs a (at' a) z ∧ ownHandle (at' a).tm cbHandle 2 = true ∧ pastQuota a (at' a).t (at' a).tm cbHandle (hOff cbHandle + 16384) = false ∧
      room a .tzero cbHandle 0) ∧
    (Runs b (at' b) c ∧ cvtRefusal b (at' b) abHandle cbHandle 0 false = none ∧ room b (.tcvt 0) abHandle cbHandle) ∧
    (Runs d (at' d) q ∧ cvtRefusal d (at' d) abHandle cbHandle 4 true = none ∧ room d (.tquant 4) abHandle cbHandle) ∧
    (Runs e (at' e) st ∧ (at' e).tm.width = 64 ∧ isFlt (gmrType (at' e).gr.gmr) = true ∧ ownHandle (at' e).tm cbHandle 2 = true ∧
      pastQuota e (at' e).t (at' e).tm cbHandle (hOff cbHandle + accBytes (gmrType (at' e).gr.gmr)) = false ∧ (at' e).gr.emask 64 ≠ 0 ∧
      room e (.tstat (gmrType (at' e).gr.gmr) ((at' e).gr.emask 64) 4) cbHandle 0) ∧
    (Runs f (at' f) z ∧ ownHandle (at' f).tm ((at' f).gr.getS 0) 2 = false) ∧
    (Runs g (at' g) c ∧ cvtRefusal g (at' g) abHandle cbHandle ((at' g).gr.getS 2) false = some 0x33) ∧
    (Runs h (at' h) st ∧ (at' h).tm.width ≠ 64) := by
  refine ⟨⟨runs_of (by decide), by decide⟩, ⟨runs_of (by decide), by decide⟩, ⟨runs_of (by decide), by decide⟩, ⟨runs_of (by decide),
    by decide⟩, ⟨runs_of (by decide), by decide⟩, ⟨runs_of (by decide), by decide⟩, runs_of (by decide), by decide⟩

/-- The last words of the region; nothing outstanding; no lane in the mask; a handle with a reserved bit. -/
theorem witness_TileWords :
    let i := Instr.trd true .w2 4 0 1
    let j := Instr.twr true .w1 5 0 1
    let regs := sets [(0, cbHandle), (1, 16384 - 128)]
    let fits := fun (x : Site) (n : Nat) => handleOk (x.gr.getS 0) = true ∧ hBuf (x.gr.getS 0) = 2 ∧ isRemote x.tm (x.gr.getS 0) = false ∧
      (x.gr.getS 1).toNat % 4 = 0 ∧
      ∀ l, l < 64 → laneOf (x.gr.emask x.tm.width) l = true →
        hOff (x.gr.getS 0) + (x.gr.getS 1).toNat + 4 * ((n - 1) * x.tm.width + l) + 4 ≤ (x.tm.region 2).quota
    let s := bed i regs withTiles
    let t := bed j regs withTiles
    (Runs s (at' s) i ∧ (at' s).lanes ≠ [] ∧ fits (at' s) 2 ∧ (s.part (at' s).tm.part).hzd = false ∧ (at' s).gr.ldCount < 31) ∧
    (Runs t (at' t) j ∧ (at' t).lanes ≠ [] ∧ fits (at' t) 1 ∧ (t.part (at' t).tm.part).hzd = false ∧ (at' t).gr.stCount < 31) ∧
    (∀ k ∈ [i, j], let u := bed k (fun y => mode 8 (regs y)) withTiles
      Runs u (at' u) k ∧ handleOk ((at' u).gr.getS 0) = true ∧ (at' u).lanes = []) ∧
    (∀ k ∈ [i, j], let v := bed k (sets [(0, 0xFFC00000)]) withTiles
      Runs v (at' v) k ∧ handleOk ((at' v).gr.getS 0) = false) := by
  refine ⟨⟨runs_of (by decide), by decide⟩, ⟨runs_of (by decide), by decide⟩, fun k hk => ?_, fun k hk => ?_⟩
  · have h : ∀ k ∈ [Instr.trd true .w2 4 0 1, .twr true .w1 5 0 1],
        let u := bed k (fun y => mode 8 (sets [(0, cbHandle), (1, 16384 - 128)] y)) withTiles
        runsB u k = true ∧ handleOk ((at' u).gr.getS 0) = true ∧ (at' u).lanes = [] := by decide
    exact ⟨runs_of (h k hk).1, (h k hk).2⟩
  · have h : ∀ k ∈ [Instr.trd true .w2 4 0 1, .twr true .w1 5 0 1], let v := bed k (sets [(0, 0xFFC00000)]) withTiles
        runsB v k = true ∧ handleOk ((at' v).gr.getS 0) = false := by decide
    exact ⟨runs_of (h k hk).1, (h k hk).2⟩

theorem witness_ReleaseHeld :
    let s := solo .fencesc
    s.team? (at' s).t = some (at' s).tm ∧ (at' s).tm.group? (at' s).g = some (at' s).gr := by decide

/-- Barrier 3 for VECTOR groups, of two arrivals, in the phase given. -/
def withBarrier (phase : Bool) (m : Team) : Team := { m with barriers := [(3, ⟨0xC, phase, 0, 2, 7, 0, [], []⟩)] }

theorem witness_Barriers :
    let i := Instr.bararv true 3
    let j := Instr.barwait 3
    let none' := solo i
    let none2 := solo j
    let s := bed i id (withBarrier false)
    let t := bed i (fun y => { y with arrived := [3] }) (withBarrier false)
    let u := bed j id (withBarrier false)
    let v := bed j (fun y => { y with arrived := [3] }) (withBarrier false)
    let w := bed j (fun y => { y with arrived := [3] }) (withBarrier true)
    let b := fun p => Barrier.mk 0xC p 0 2 7 0 [] []
    (Runs none' (at' none') i ∧ barrierOf (at' none') 3 = none) ∧ (Runs none2 (at' none2) j ∧ barrierOf (at' none2) 3 = none) ∧
    (Runs s (at' s) i ∧ barrierOf (at' s) 3 = some (b false) ∧ 3 ∉ (at' s).gr.arrived ∧ logFree (s.core (at' s).tm.core) ≠ 0) ∧
    (Runs t (at' t) i ∧ barrierOf (at' t) 3 = some (b false) ∧ 3 ∈ (at' t).gr.arrived) ∧
    (Runs u (at' u) j ∧ barrierOf (at' u) 3 = some (b false) ∧ 3 ∉ (at' u).gr.arrived) ∧
    (Runs v (at' v) j ∧ barrierOf (at' v) 3 = some (b false) ∧ 3 ∈ (at' v).gr.arrived ∧ (false = true ↔ 3 ∈ (at' v).gr.phase0)) ∧
    (Runs w (at' w) j ∧ barrierOf (at' w) 3 = some (b true) ∧ 3 ∈ (at' w).gr.arrived ∧ ¬ (true = true ↔ 3 ∈ (at' w).gr.phase0) ∧
      logFree (w.core (at' w).tm.core) ≠ 0) := by
  refine ⟨⟨runs_of (by decide), by decide⟩, ⟨runs_of (by decide), by decide⟩, ⟨runs_of (by decide), by decide⟩,
    ⟨runs_of (by decide), by decide⟩, ⟨runs_of (by decide), by decide⟩, ⟨runs_of (by decide), by decide⟩, runs_of (by decide), by decide⟩

/-- Ring 2, COPY to VECTOR, two stages, one arrival from each side, its stage 1 as given. -/
def withRing (v : Stage) (m : Team) : Team :=
  { m with rings := [(2, ⟨0x100081, [⟨false, 0, 0, 0, [], 0, [], [], []⟩, v]⟩)] }
def ringDesc : Word := 0x100081

theorem witness_Rings :
    let i := Instr.ringput true 1 2
    let j := Instr.ringget 1 2
    let none' := solo i
    let none2 := solo j
    let mine : Stage := ⟨true, 0, 0, 0, [], 0, [], [], []⟩
    let s := bed i id (withRing mine)
    let t := bed i id (withRing ⟨true, 0, 1, 0, [], 0, [], [], []⟩)
    let t2 := bed i id (withRing ⟨false, 0, 0, 0, [], 0, [], [], []⟩)
    let u := bed j (fun y => { y with role := .matrix }) (withRing mine)
    let v := bed j id (withRing ⟨false, 0, 0, 0, [], 0, [], [], []⟩)
    let w := bed j id (withRing mine)
    let stage := fun (s : State) => ((at' s).tm.stage? 2 1).map (fun p => (p.1.desc, p.2))
    (Runs none' (at' none') i ∧ (at' none').tm.stage? 2 1 = none) ∧ (Runs none2 (at' none2) j ∧ (at' none2).tm.stage? 2 1 = none) ∧
    (Runs s (at' s) i ∧ stage s = some (ringDesc, mine) ∧ isConsumer ringDesc (at' s).gr.role = true ∧
      mine.a + mine.rv < fieldOf ringDesc 19 14 + 1 ∧ logFree (s.core (at' s).tm.core) ≠ 0) ∧
    (Runs t (at' t) i ∧ stage t = some (ringDesc, ⟨true, 0, 1, 0, [], 0, [], [], []⟩) ∧ fieldOf ringDesc 19 14 + 1 ≤ 0 + 1) ∧
    (Runs t2 (at' t2) i ∧ stage t2 = some (ringDesc, ⟨false, 0, 0, 0, [], 0, [], [], []⟩) ∧ isProducer ringDesc (at' t2).gr.role = false) ∧
    (Runs u (at' u) j ∧ stage u = some (ringDesc, mine) ∧ isProducer ringDesc (at' u).gr.role = false ∧
      isConsumer ringDesc (at' u).gr.role = false) ∧
    (Runs v (at' v) j ∧ stage v = some (ringDesc, ⟨false, 0, 0, 0, [], 0, [], [], []⟩) ∧ isConsumer ringDesc (at' v).gr.role = true) ∧
    (Runs w (at' w) j ∧ stage w = some (ringDesc, mine) ∧ isConsumer ringDesc (at' w).gr.role = true ∧
      logFree (w.core (at' w).tm.core) ≠ 0) := by
  refine ⟨⟨runs_of (by decide), by decide⟩, ⟨runs_of (by decide), by decide⟩, ⟨runs_of (by decide), by decide⟩,
    ⟨runs_of (by decide), by decide⟩, ⟨runs_of (by decide), by decide⟩, ⟨runs_of (by decide), by decide⟩, ⟨runs_of (by decide), by decide⟩,
    runs_of (by decide), by decide⟩

/-- One copy in flight from memory to AB. -/
def flying1 (s : State) : State :=
  s.updCore 0 (fun k => { k with copies := [(0, Copy.mk 9 0 0 0 0 [0x10000, 0, abHandle, 0, ctrlIn, 0, 1] 0 0 [] [] [] none 0 none [] [] [] [])] })

theorem witness_WaitAndDrain :
    let i := Instr.wait 0 0 0 0
    let j := Instr.drain .mem
    let s := solo i
    let t := bed i (fun y => { y with cp := 1 })
    let u := solo j
    let v := bed j id id flying1
    (Runs s (at' s) i ∧ (at' s).gr.ldCount ≤ 0 ∧ (at' s).gr.stCount ≤ 0 ∧ (at' s).gr.cp ≤ 0 ∧ (at' s).gr.tm ≤ 0 ∧
      logFree (s.core (at' s).tm.core) ≠ 0) ∧ (Runs t (at' t) i ∧ ¬ (at' t).gr.cp ≤ 0) ∧
    (Runs u (at' u) j ∧ (at' u).gr.status = GStatus.ready ∧ (u.core (at' u).tm.core).copies.filter (fun e => onPath e.2.record .mem) = [] ∧
      logFree (u.core (at' u).tm.core) ≠ 0) ∧
    (Runs v (at' v) j ∧ (at' v).gr.status = GStatus.ready ∧ (v.core (at' v).tm.core).copies.filter (fun e => onPath e.2.record .mem) ≠ []) := by
  refine ⟨⟨runs_of (by decide), by decide⟩, ⟨runs_of (by decide), by decide⟩, ⟨runs_of (by decide), by decide⟩, runs_of (by decide), by decide⟩

theorem witness_Fences : ∀ i ∈ ([.fence true .system, .fence false .group, .fencesc] : List Instr),
    Runs (solo i) (at' (solo i)) i ∧ logFree ((solo i).core (at' (solo i)).tm.core) ≠ 0 := fun i hi =>
  ⟨all_run (by decide) i hi, (by decide : ∀ i ∈ ([.fence true .system, .fence false .group, .fencesc] : List Instr),
    logFree ((solo i).core (at' (solo i)).tm.core) ≠ 0) i hi⟩

/-- A group in a handler. -/
def super' (y : Group) : Group := { y with frames := [(1, ⟨1, false, true, 0, 0, none, [], .at 0, none, none, 0⟩)] }

/-- LANEID; every register of Table 3-5, in user mode where it may be read and in SUPER; TCAUSE in user mode; number 8. -/
theorem witness_SystemReads :
    (∀ i ∈ ([.rdsys true .w1 5 0, .rdsys true .w1 5 1, .rdsys true .w1 5 2, .rdsys true .w1 5 3, .rdsys true .w1 5 4, .rdsys true .w2 4 5,
      .rdsys true .w1 5 6, .rdsys true .w1 5 7, .rdsys true .w1 5 0x10, .rdsys true .w1 5 0x14, .rdsys true .w1 5 0x15, .rdsys true .w2 4 0x20, .rdsys true .w2 4 0x27,
      .rdsys true .w1 5 8] : List Instr), Runs (solo i) (at' (solo i)) i) ∧
    (∀ i ∈ ([.rdsys true .w1 5 0x10, .rdsys true .w8 8 0x11, .rdsys true .w2 4 0x12, .rdsys true .w2 4 0x13] : List Instr),
      Runs (bed i super') (at' (bed i super')) i) ∧
    (let s := solo (.rdsys true .w1 5 0x10)
     (at' s).gr.super = false ∧ systemRegister s (at' s) 0x10 = some (true, [0]) ∧ systemRegister s (at' s) 8 = none ∧
       (∀ n ∈ [1, 2, 3, 4, 5, 6, 7, 0x10, 0x11, 0x12, 0x13, 0x14, 0x15, 0x20, 0x27], (systemRegister s (at' s) n).isSome = true)) ∧
    (at' (bed (.rdsys true .w1 5 0x10) super')).gr.super = true :=
  ⟨all_run (by decide), all_run (f := fun i => bed i super') (by decide), by decide, by decide⟩

def xfen (s : State) : State := s.updPart 0 (fun p => { p with chkmode := 8 })

theorem witness_SystemWrites :
    let f := Instr.wrsys true .w1 4 6
    let x := Instr.wrsys true .w1 4 0x14
    let p := Instr.wrsys true .w2 4 0x20
    let q := Instr.wrsys true .w2 4 0x27
    let r := Instr.wrsys true .w1 4 7
    let s := bed f (sets [(4, 127)])
    let t := bed f (sets [(4, 128)])
    let u := solo x
    let v := bed x (sets [(4, 0x20000)]) id xfen
    let w := bed x (sets [(4, 0x103)]) id xfen
    let a := bed p (sets [(5, 0x09000000)])
    let a2 := bed p (sets [(5, 0x02000000)])
    let b := bed q (sets [(5, 0x0A000000)])
    let c := solo r
    (Runs s (at' s) f ∧ ((at' s).gr.getS 4).toNat < 128) ∧ (Runs t (at' t) f ∧ 128 ≤ ((at' t).gr.getS 4).toNat) ∧
    (Runs u (at' u) x ∧ (u.part (at' u).tm.part).xfen = false) ∧
    (Runs v (at' v) x ∧ (v.part (at' v).tm.part).xfen = true ∧ xfaultBad ((at' v).gr.getS 4) = true) ∧
    (Runs w (at' w) x ∧ (w.part (at' w).tm.part).xfen = true ∧ xfaultBad ((at' w).gr.getS 4) = false) ∧
    (Runs a (at' a) p ∧ field64 ((at' a).gr.getPair 4) 55 48 = 0 ∧ field64 ((at' a).gr.getPair 4) 63 56 = 9) ∧
    (Runs a2 (at' a2) p ∧ field64 ((at' a2).gr.getPair 4) 55 48 = 0 ∧ field64 ((at' a2).gr.getPair 4) 63 56 < 10 ∧
      field64 ((at' a2).gr.getPair 4) 63 56 ∉ [1, 8, 9]) ∧
    (Runs b (at' b) q ∧ 10 ≤ field64 ((at' b).gr.getPair 4) 63 56) ∧ (Runs c (at' c) r ∧ (sysWidth 7).isSome = true) := by
  refine ⟨⟨runs_of (by decide), by decide⟩, ⟨runs_of (by decide), by decide⟩, ⟨runs_of (by decide), by decide⟩,
    ⟨runs_of (by decide), by decide⟩, ⟨runs_of (by decide), by decide⟩, ⟨runs_of (by decide), by decide⟩, ⟨runs_of (by decide), by decide⟩,
    ⟨runs_of (by decide), by decide⟩, runs_of (by decide), by decide⟩

/-- In user mode and in SUPER; TINV with a request of Table 18-4 and with a reserved bit. -/
theorem witness_SuperFences :
    (∀ i ∈ ([.pgmapPool true 4 8, .pgmapMap true 4 8, .tinv true 8, .csload true 4 5] : List Instr), Runs (solo i) (at' (solo i)) i) ∧
    (∀ i ∈ ([.pgmapPool true 4 8, .pgmapMap true 4 8, .tinv true 8, .csload true 4 5] : List Instr),
      Runs (bed i super') (at' (bed i super')) i) ∧
    (∀ i ∈ ([.pgmapPool true 4 8, .pgmapMap true 4 8, .tinv true 8, .csload true 4 5] : List Instr), (at' (solo i)).gr.super = false ∧
      (at' (bed i super')).gr.super = true ∧ logFree ((bed i super').core (at' (bed i super')).tm.core) ≠ 0) ∧
    tinvRequest ((at' (bed (.tinv true 8) super')).gr.getSn 8 4) = some (0, 1, false) ∧
    (let s := bed (.tinv true 8) (fun y => sets [(11, 2)] (super' y))
     Runs s (at' s) (.tinv true 8) ∧ (at' s).gr.super = true ∧ tinvRequest ((at' s).gr.getSn 8 4) = none) :=
  ⟨all_run (by decide), all_run (f := fun i => bed i super') (by decide), by decide, by decide, runs_of (by decide), by decide⟩

/-- A sequence of two micro-ops: DST := A + B under GMR.TYPE, then UEND (Tables 12-1, 12-2). -/
def image : List DWord :=
  [BitVec.ofNat 64 (1 + 2 ^ 8 + 2 ^ 11 + 2 ^ 14 + 2 ^ 20 + 2 ^ 24),
   BitVec.ofNat 64 (1 * 2 ^ 58 + 64 * 2 ^ 36 + 96 * 2 ^ 28 + 128 * 2 ^ 20), BitVec.ofNat 64 (0x3F * 2 ^ 58)]

/-- Master slot 2 holds the sequence, and so does the team's bank; XOP5 is bound to it. -/
def withMaster (s : State) : State :=
  (s.updPart 0 (fun p => { p with master := [(2, image)] })).updCore 0 (fun c => { c with banks := setAt c.banks 0 ⟨some 0, [(2, image)]⟩ })
def bound (m : Team) : Team := { m with bind := [(5, 2)] }

theorem witness_BoundOpcodes :
    let i := Instr.csbind true 2 5
    let j := Instr.xop true 5 .w1 4 2 3
    let s := bed i id id withMaster
    let t := solo i
    let u := solo j
    let v := bed j id bound withMaster
    let w := bed (.xop true 5 .w2 4 2 3) id bound withMaster
    (Runs s (at' s) i ∧ alook (s.part (at' s).tm.part).master 2 ≠ none) ∧ (Runs t (at' t) i ∧ alook (t.part (at' t).tm.part).master 2 = none) ∧
    (Runs u (at' u) j ∧ boundImage u (at' u).tm 5 = none ∧ xopRefusal u (at' u) 5 ⟨.w1, 4, 2, 3⟩ = some 0x07) ∧
    (Runs w (at' w) (.xop true 5 .w2 4 2 3) ∧ xopRefusal w (at' w) 5 ⟨.w2, 4, 2, 3⟩ = some 0x02) ∧
    (Runs v (at' v) j ∧ xopRefusal v (at' v) 5 ⟨.w1, 4, 2, 3⟩ = none ∧ (boundImage v (at' v).tm 5).map List.length = some 3 ∧
      (at' v).gr.xop = none ∧ (at' v).gr.replay = none ∧ (at' v).gr.ops = [] ∧ (v.core (at' v).tm.core).tiles = [] ∧
      (match boundImage v (at' v).tm 5 with
       | some (h :: us) => (sequenceResult (at' v) h ⟨.w1, 4, 2, 3⟩ ((at' v).gr.emask (at' v).tm.width) us ⟨(at' v).gr, [], 0⟩).isSome
       | _ => false) = true) := by
  refine ⟨⟨runs_of (by decide), by decide⟩, ⟨runs_of (by decide), by decide⟩, ⟨runs_of (by decide), by decide⟩,
    ⟨runs_of (by decide), by decide⟩, runs_of (by decide), by decide⟩

/-- A launch record of one team of one VECTOR group, code at 0x10080. -/
def launchRec : Group → Group :=
  sets [(8, 0x10080), (10, 1), (11, 1), (12, 0x10000), (17, 0x3000)]

/-- A core that the partition may use. -/
def usableCore (s : State) : State := s.updPart 0 (fun p => { p with plim := [(0, BitVec.ofNat 64 (64 + 512 * 2 ^ 7))] })

theorem witness_SpawnAndWait :
    let i := Instr.spawn 8
    let j := Instr.cwait 2 4
    let e : PendLaunch := ⟨1, true, [], [], 0⟩
    let s := solo i
    let t := bed i launchRec (fun m => { m with pendq := [e, e, e, e] }) usableCore
    let u := bed i launchRec id usableCore
    let odd := bed j (sets [(2, 0x10002)])
    let low := bed j (sets [(2, 0x10080), (4, 1)])
    let met := bed j (sets [(2, 0x10080), (4, 0)])
    (Runs s (at' s) i ∧ spawnCheck s (at' s) ((at' s).gr.getSn 8 16) = none) ∧
    (Runs t (at' t) i ∧ (spawnCheck t (at' t) ((at' t).gr.getSn 8 16)).isSome = true ∧ (at' t).gr.status = GStatus.ready ∧
      4 ≤ (at' t).tm.pendq.length) ∧
    (let v := bed i launchRec (fun m => { m with launch := 3 }) (fun s => usableCore { s with launches := [(3, ⟨0, 0, 0, 2 ^ 32 - 1, 0, 0, .device, 0, 0, false, 0, []⟩)] })
     Runs v (at' v) i ∧ (spawnCheck v (at' v) ((at' v).gr.getSn 8 16)).isSome = true ∧ counterFree v (at' v).tm.launch = false) ∧
    (Runs u (at' u) i ∧ (spawnCheck u (at' u) ((at' u).gr.getSn 8 16)).isSome = true ∧ (at' u).gr.status = GStatus.ready ∧
      spawnWaiters (at' u).tm = [] ∧ (at' u).tm.pendq.length < 4 ∧ counterFree u (at' u).tm.launch = true ∧
      logFree (u.core (at' u).tm.core) ≠ 0) ∧
    (Runs odd (at' odd) j ∧ ((at' odd).gr.getPair 2).toNat % 4 ≠ 0) ∧
    (∀ v ∈ [low, met], ((at' v).gr.getPair 2).toNat % 4 = 0 ∧ ((at' v).gr.getPair 2).toNat < 2 ^ 55 ∧
      translate v (at' v).tm.core (at' v).tm.part ((at' v).gr.getPair 2).toNat [.rd] = .ok 0x10080 ∧
      dataBad v 0x10080 (at' v).gr.super = false) ∧
    (Runs low (at' low) j ∧ (low.read32 0x10080).toNat < ((at' low).gr.getS 4).toNat) ∧
    (Runs met (at' met) j ∧ ((at' met).gr.getS 4).toNat ≤ (met.read32 0x10080).toNat ∧ ownPending (at' met) 0x10080 = false ∧
      logFree (met.core (at' met).tm.core) ≠ 0) := by
  refine ⟨⟨runs_of (by decide), by decide⟩, ⟨runs_of (by decide), by decide +kernel⟩, ⟨runs_of (by decide), by decide +kernel⟩,
    ⟨runs_of (by decide), by decide +kernel⟩, ⟨runs_of (by decide), by decide⟩, by decide, ⟨runs_of (by decide), by decide⟩, runs_of (by decide),
    by decide⟩

/-! ### Witnesses for the statements about events -/

/-- A device at tick 100 with one resident team of one group on core 0. -/
def dev (g : Group → Group) (m : Team → Team := id) (f : State → State := id) : State :=
  bed .exit g m (fun s => f { s with tick := 100 })

/-- The team and the group of `dev`. -/
def tm0 (s : State) : Team := (s.team? 0).getD (soloTeam .vector)
def gr0 (s : State) : Group := ((tm0 s).group? 0).getD (Group.fresh .vector 0 0 16 0)

def logged (idx seq : Nat) (k : LogKind) (line : Option Nat) (t : Option EvTime) : LogEntry :=
  ⟨idx, 0, 0, seq, 0x10000, none, 0, k, .group, line, t, none, none, false, [], none⟩

/-- The log that Piccolo of core 0 replays. -/
def logOf (s : State) : List LogEntry := keptLog ((s.core 0).log.filter (fun e => (s.team? e.team).isSome))

/-- An entry without a time; a load behind a store of the same line that has been replayed and freed, which it does not pass. -/
theorem witness_CheckersCheck_replay :
    let none' := logged 0 0 (.other true) none none
    let s := dev id id (fun s => s.updCore 0 (fun c => { c with log := [none'] }))
    let a := { logged 0 0 .st (some 5) (some ⟨5, some 0, true⟩) with replayed := true }
    let b := logged 1 1 .ld (some 5) (some ⟨7, some 0, false⟩)
    let t := dev id id (fun s => s.updCore 0 (fun c => { c with log := [a, b] }))
    ((logOf s).find? (fun e => !e.replayed) = some none' ∧ none'.scope ≠ .system ∧ none'.time = none ∧ noTime none' = true) ∧
    (logOf t = [a, b] ∧ (logOf t).find? (fun e => !e.replayed) = some b ∧ b.scope ≠ .system ∧ b.time = some ⟨7, some 0, false⟩ ∧
      a.seq < b.seq ∧ a.kind ≠ .fence ∧ mustOrder (logOf t) a b = true ∧ earlierTime (logOf t) a b = some ⟨5, some 0, true⟩ ∧
      passes ⟨7, some 0, false⟩ ⟨5, some 0, true⟩ = false ∧ ∀ x ∈ logOf t, x.seq < b.seq → x.idx = 0) := by decide

/-- No quarantine begins and no group waits in SPAWN. -/
theorem witness_CheckersCheck_calm : (dev id).recalls = [] ∧ ∀ e ∈ (dev id).teams, spawnWaiters e.2 = [] := by
  refine ⟨by decide, fun e he => ?_⟩
  rw [show (dev id).teams = [(0, tm0 (dev id))] from by decide] at he
  simp only [List.mem_singleton] at he
  rw [he]; decide

def home5 : Nat := (homeOf State.reset (128 * 5)).getD 0

/-- A close of line 5 at tick 90 that its home expects a record of, from core 0. -/
def expect (src : RecSrc) (author : Option (Nat × Nat)) (lost : Bool) : Expect :=
  ⟨src, home5, 5, 90, 80, 0, 7, 3, 9, true, false, author, lost, false⟩


/-- The record of an L1 and that of an HBM controller. -/
theorem witness_CheckersCheck_record :
    let r : BassoonRec := { hend := 7, hstart := 3, line := BitVec.ofNat 23 (lineIndex 5), hold := 9, dur := 10, endlo := 90, home := false,
                            writer := true, forced := false }
    ∀ src ∈ [RecSrc.requester, .stack],
      outstanding (dev id id (fun s => { s with expects := [expect src none false] })) home5 0 r.home = expect src none false :: [] ∧
      lineIndex (expect src none false).line = r.line.toNat ∧ recordAgrees r (expect src none false) := by
  intro r src h
  have a : ∀ src ∈ [RecSrc.requester, .stack],
      outstanding (dev id id (fun s => { s with expects := [expect src none false] })) home5 0 false = expect src none false :: [] ∧
      lineIndex (expect src none false).line = (BitVec.ofNat 23 (lineIndex 5)).toNat := by decide
  refine ⟨(a src h).1, (a src h).2, ?_⟩
  simp only [List.mem_cons, List.not_mem_nil, or_false] at h
  rcases h with rfl | rfl <;> exact ⟨fun _ => by decide, by decide, by decide, fun w => absurd w (by decide)⟩

/-- A record that never came, of a line that no group or that group 0 wrote. -/
theorem witness_CheckersCheck_lost :
    ∀ w ∈ [none, some (0, 0)],
      let e := expect .requester w true
      let s := dev id id (fun s => { s with expects := [e] })
      s.expects.find? (fun f => f.home == home5 && f.line == 5 && f.lost
        && (decide (f.close + 4 < s.tick) || decide (s.tick + 1 = 2 ^ 48))) = some e ∧ e.author = w ∧
      affected s home5 e.start = [] ∧ quarantined s (128 * 5) = false ∧
      (s.quarantine.filter (fun m => homeOf s (128 * m) == homeOf s (128 * 5))).length < 64 ∧
      s.team? 0 = some (tm0 s) ∧ (tm0 s).status = .resident ∧ s.group? 0 0 = some (gr0 s) ∧ (gr0 s).isRetired = false := by decide

/-- Line 5 in the caches. -/
def line5 (hs : List (Nat × Holding)) (s : State) : State := { s with lines := [(5, ⟨hs, hs.map (·.1), none, 1, 0⟩)] }

def inM : Holding := ⟨.m, 0, [0]⟩
def inS : Holding := ⟨.s, 0, [0]⟩

/-- A core that may hold a line and that no cache, or another core with a team of the partition or without one, or itself holds; a slice
that may not hold it, since another is its home. -/
theorem witness_CachesAndIntervals_request :
    let s := dev id
    let m := dev id id (line5 [(0, inM)])
    let f := dev id id (line5 [(3, inM)])
    (∀ t ∈ [s, m, f], t.sleeping = false ∧ quarantined t (128 * 5) = false) ∧
    (mayHold s 2687 5 = false ∧ holdsLine s 2687 5 true = false ∧ holdsLine s 2687 5 false = false) ∧
    (∀ t ∈ [s, m, f], mayHold t 1535 5 = true ∧ holdsLine t 1535 5 true = false ∧ (alook (t.line 5).holders 1535).isSome = false) ∧
    ((alook (m.line 5).holders 0).isSome = true ∧ 1535 ≠ 0 ∧ ∀ h ∈ (m.line 5).holders, filtered m 0 h.1 = false) ∧
    ((alook (f.line 5).holders 3).isSome = true ∧ filtered f 0 3 = true) ∧
    targetOf (128 * 5) ≠ .pool ∧ Machine.setOf 1535 6 ≠ Machine.setOf 1535 5 := by decide

/-- Two halves of a region; a core probed with a team of the partition, one without, and one not probed; a line of the pool with a writer. -/
theorem witness_CachesAndIntervals_home :
    let s := dev id
    let r : DirRegion := ⟨3, [1], 0⟩
    let late := { s with tick := 4096, dirs := [(home5, [(16, r), (24, r)])] }
    let pl := poolBase / 128
    let probed := { s with probes := [(0, 0, 5), (7, 0, 5)] }
    (alook (late.dir home5) 16 = some r ∧ alook (late.dir home5) (16 + 2 ^ 3) = some r ∧ r.logSize = 3 ∧ 16 % 2 ^ 4 = 0 ∧ r.last + 4096 ≤ late.tick) ∧
    ((0, 0, 5) ∈ probed.probes ∧ ∃ e ∈ probed.teams, e.2.core = 0 ∧ e.2.status = .resident ∧ e.2.part = 0) ∧
    ((7, 0, 5) ∈ probed.probes ∧ ∀ e ∈ probed.teams, e.2.core = 7 → e.2.part = 0 → e.2.status ≠ .resident) ∧
    (0, 0, 5) ∉ s.probes ∧ targetOf (128 * pl) = .pool ∧ targetOf (128 * 5) ≠ .pool := by decide

/-- Intervals that are long open, of a writer and of readers; a device about to sleep; asleep, with its records in and not. -/
theorem witness_CachesAndIntervals_sleep :
    let old := fun (hs : List (Nat × Holding)) => { dev id id (line5 hs) with tick := 2 ^ 18 }
    let w := old [(3, inM)]
    let r := old [(3, inS), (4, inS)]
    let slept := { dev id with sleeping := true, sleepTick := 95 }
    (∀ t ∈ [w, r], homeOf t (128 * 5) = some home5 ∧ (alook (t.line 5).holders 3).isSome = true ∧ (t.line 5).start + (2 ^ 18 - 1) ≤ t.tick ∧
      t.sleeping = false) ∧
    (w.line 5).writer = some 3 ∧ (r.line 5).writer = none ∧ (r.line 5).shared.head? = some 3 ∧
    (let h := old []
     homeOf h (128 * 5) = some home5 ∧ alook h.lines 5 = some ⟨[], [], none, 1, 0⟩ ∧ (h.line 5).start + (2 ^ 18 - 1) ≤ h.tick) ∧
    (slept.sleeping = true ∧ slept.sleepTick < slept.tick ∧ ∀ e ∈ slept.expects, slept.sleepTick < e.close) ∧
    (let t := { slept with tick := 95 }
     t.sleeping = true ∧ t.tick ≤ t.sleepTick) ∧
    (let t := { slept with expects := [expect .requester none false] }
     t.sleeping = true ∧ ∃ e ∈ t.expects, e.close ≤ t.sleepTick) := by decide

/-- An operation of one access on line 512 (address 0x10000). -/
def op1 (k : OpKind) (data : List Word) : PendOp :=
  { pendLoad 5 0 with kind := k, dst := ⟨true, 5, 1⟩, accs := [⟨2, 0, 0x10000, ⟨0, 0, 0x10000⟩, data, false, 3, []⟩] }

def flight (o : PendOp) : State := dev (fun y => { y with ops := [o], nextSeq := 1 })

theorem performs_at (s : State) (o : PendOp) (q : Nat) (h : s.team? 0 = some (tm0 s) ∧ s.group? 0 0 = some (gr0 s) ∧
    (tm0 s).status = .resident ∧ (gr0 s).ops.find? (fun p => decide (p.seq = q)) = some o ∧ s.sleeping = false ∧
    o.todo 512 ≠ [] ∧ (o.todo 512).all (fun a => decide (a.loc.space = 0) && !quarantined s a.loc.addr &&
      !s.badLines.contains (lineOf a.loc.addr)) = true ∧ (s.core (tm0 s).core).log = [] ∧ o.late = [] ∧
      s.room 1 = true ∧ awaitOp s (tm0 s) o 512 (o.todo 512) = none) :
    Performs s 0 0 q 512 (tm0 s) (gr0 s) o where
  teamAt := h.1
  groupAt := h.2.1
  resident := h.2.2.1
  op := h.2.2.2.1
  awake := h.2.2.2.2.1
  todo := h.2.2.2.2.2.1
  good := fun a ha => by
    have := List.all_eq_true.mp h.2.2.2.2.2.2.1 a ha
    simp only [Bool.and_eq_true, decide_eq_true_eq, Bool.not_eq_true'] at this
    exact ⟨this.1.1, this.1.2, this.2⟩
  quiet := fun e he => by rw [h.2.2.2.2.2.2.2.1] at he; simp at he
  clean := h.2.2.2.2.2.2.2.2.1
  stamps := h.2.2.2.2.2.2.2.2.2.1
  data := h.2.2.2.2.2.2.2.2.2.2

/-- A load, a store, a store that XFAULT fires, and an atomic ADD, the group's only operation. -/
theorem witness_AccessesPerformed :
    (let o := op1 .load []
     Performs (flight o) 0 0 0 512 (tm0 (flight o)) (gr0 (flight o)) o ∧ o.acq = false ∧ o.dst.vec = true ∧ o.dst.base + o.size / 4 ≤ 128 ∧
       (∀ a ∈ o.todo 512, a.lane < 64 ∧ a.m = 0) ∧ (o.todo 512).Pairwise (fun a b => a.lane ≠ b.lane)) ∧
    (let o := op1 .store [9]
     Performs (flight o) 0 0 0 512 (tm0 (flight o)) (gr0 (flight o)) o ∧ o.early = false ∧ o.rid = none ∧
       (∀ a ∈ o.todo 512, 4 * a.data.length = o.size)) ∧
    (let o := { op1 .store [9] with early := true }
     Performs (flight o) 0 0 0 512 (tm0 (flight o)) (gr0 (flight o)) o ∧
       (∀ a ∈ o.accs, a.done = false ∧ a.loc.line = 512 ∧ 4 * a.data.length = o.size) ∧ awaitHome (flight o) (tm0 (flight o)).part 512 = none) ∧
    (let o := op1 (.atom 0) [9]
     Performs (flight o) 0 0 0 512 (tm0 (flight o)) (gr0 (flight o)) o ∧ o.acq = false ∧ o.early = false ∧ o.rid = none ∧
       o.todo 512 = [⟨2, 0, 0x10000, ⟨0, 0, 0x10000⟩, [9], false, 3, []⟩] ∧ o.dst.vec = true ∧ o.dst.base < 128) ∧
    (let a : Acc := ⟨2, 0, 0x10000, ⟨0, 0, 0x10000⟩, [9], false, 3, []⟩
     let b : Acc := ⟨63, 0, 0x10000, ⟨0, 0, 0x10000⟩, [5], false, 3, []⟩
     let o := { op1 (.atom 0) [9] with accs := [a, b] }
     Performs (flight o) 0 0 0 512 (tm0 (flight o)) (gr0 (flight o)) o ∧ o.acq = false ∧ o.early = false ∧ o.rid = none ∧
       o.todo 512 = [a, b] ∧ a.lane < b.lane ∧ b.lane < 64 ∧ a.loc.addr = b.loc.addr ∧ o.dst.vec = true ∧ o.dst.base < 128 ∧
       ∀ e, (gr0 (flight o)).status ≠ .waiting (.flagsDone 0 e)) :=
  ⟨⟨performs_at _ _ 0 (by decide), by decide⟩, ⟨performs_at _ _ 0 (by decide), by decide⟩, ⟨performs_at _ _ 0 (by decide), by decide⟩,
    ⟨performs_at _ _ 0 (by decide), by decide⟩, performs_at _ _ 0 (by decide), by decide⟩

/-- A load of lane 2 for which its group waits, since lane 1 has a cause. -/
theorem witness_AccessesPerformed_late :
    let o := { op1 .load [] with late := [⟨1, 2, 0x10400, false⟩] }
    let s := dev (fun y => { y with ops := [o], nextSeq := 1, status := .waiting (.opDone 0) })
    (s.team? 0 = some (tm0 s) ∧ s.group? 0 0 = some (gr0 s) ∧ (tm0 s).status = .resident ∧
      (gr0 s).ops.find? (fun p => decide (p.seq = 0)) = some o ∧ s.sleeping = false ∧ o.todo 512 ≠ [] ∧ (s.core (tm0 s).core).log = [] ∧
      s.room 1 = true ∧ awaitOp s (tm0 s) o 512 (o.todo 512) = none) ∧ firstOn (gr0 s) 0 512 ∧ o.kind = .load ∧ o.acq = false ∧ o.dst.vec = true ∧
    (∀ a ∈ o.todo 512, a.loc.space = 0 ∧ quarantined s a.loc.addr = false ∧ s.badLines.contains (lineOf a.loc.addr) = false) ∧
    o.dst.base + o.size / 4 ≤ 128 ∧ (∀ a ∈ o.todo 512, a.lane < 64 ∧ a.m = 0) ∧ (∀ a ∈ o.accs, a.done = true ∨ a.loc.line = 512) ∧
    o.late ≠ [] ∧ (∀ b ∈ o.late, b.lane < 64 ∧ laneOf (gr0 s).live b.lane = true) ∧ (gr0 s).status = .waiting (.opDone 0) ∧ o.mpc = none ∧
    o.pt.rep = none ∧ (gr0 s).redo = [] ∧ (gr0 s).frames = [] ∧ (gr0 s).stack.length < 32 ∧ (tm0 s).handler = none :=
  ⟨by decide, fun _ _ h => absurd h (by omega), by decide⟩

/-- An FP32 ADD for whose flag its group waits. -/
theorem witness_AccessesPerformed_flags :
    let o := { op1 (.atom 0) [0x3F800000] with typ := .fp32 }
    let s := dev (fun y => { y with ops := [o], nextSeq := 1, status := .waiting (.flagsDone 0 true) })
    Performs s 0 0 0 512 (tm0 s) (gr0 s) o ∧ o.acq = false ∧ o.early = false ∧ o.rid = none ∧
      o.todo 512 = [⟨2, 0, 0x10000, ⟨0, 0, 0x10000⟩, [0x3F800000], false, 3, []⟩] ∧ (gr0 s).status = .waiting (.flagsDone 0 true) ∧
      (∀ b ∈ o.accs, b.done = true ∨ b.loc.line = 512) ∧ firstOn (gr0 s) 0 512 ∧ (tm0 s).handler = none :=
  ⟨performs_at _ _ 0 (by decide), by decide, by decide, by decide, by decide, by decide, by decide, fun _ _ h => absurd h (by omega),
    by decide⟩

theorem witness_AccessesPerformed_first (k : OpKind) (data : List Word) : firstOn (gr0 (flight (op1 k data))) 0 512 :=
  fun p _ h => absurd h (by omega)

/-- A load and a store of a word of CB, the group's only operation (TRD, TWR). -/
theorem witness_TileWords_performed :
    ∀ o ∈ [{ op1 .load [] with accs := [⟨2, 0, 16, ⟨3, 0, 16⟩, [], false, 3, []⟩] },
        { op1 .store [9] with accs := [⟨2, 0, 16, ⟨3, 0, 16⟩, [9], false, 3, []⟩] }],
      PerformsWords (flight o) 0 0 0 (Loc.mk 3 0 16).line (tm0 (flight o)) (gr0 (flight o)) o ∧ o.acq = false ∧ o.dst.vec = true ∧
        (∀ a ∈ o.todo (Loc.mk 3 0 16).line, o.dst.base + a.m < 128 ∧ a.lane < 64) ∧ o.early = false ∧ o.rid = none ∧
        (o.kind = .store → ∀ a ∈ o.todo (Loc.mk 3 0 16).line, a.data.length = 1) := by
  intro o h
  simp only [List.mem_cons, List.not_mem_nil, or_false] at h
  have quiet : ∀ (o : PendOp), ((flight o).core (tm0 (flight o)).core).log = [] →
      ∀ e ∈ ((flight o).core (tm0 (flight o)).core).log, e.team = 0 → e.group = 0 → e.seq = 0 :=
    fun o h e he => by rw [h] at he; simp at he
  rcases h with rfl | rfl <;>
    exact ⟨⟨⟨⟨by decide, by decide, by decide, by decide, by decide, by decide, quiet _ (by decide), by decide, by decide⟩, by decide⟩, by decide,
      by decide, by decide, by decide, fun p _ hp => absurd hp (by omega)⟩, by decide⟩


/-- A tick boundary; the wrap; neither of them. -/
theorem witness_Ticks :
    let s := dev id
    let last := { s with tick := 2 ^ 48 - 1 }
    (s.tick + 5 < 2 ^ 48 ∧ QuietTick s (s.tick + 1)) ∧
    (last.tick + 1 = 2 ^ 48 ∧ QuietTick last 0 ∧ (∀ h ∈ last.held, h.2.split = wrapSplit) ∧ ∀ e ∈ last.expects, e.lost = false) ∧
    s.tick + 1 ≠ 2 ^ 48 :=
  ⟨⟨by decide, by decide, by decide, by decide, by decide, by decide⟩, ⟨by decide, ⟨by decide, by decide, by decide, by decide, by decide⟩, by decide⟩, by decide⟩

/-- A held release of team 0, group 0, with nothing left to wait for. -/
def free (k : RelKind) (g seq : Nat) (role : Role) : Held :=
  { kind := k, team := 0, group := g, role := role, seq := seq, pt := .at 0x10000, lane := 0, scope := .device, enforce := true, ts := 0,
    homes := [3], split := 0, core := 0, log := none, part := 0, drain := [], wrote := [] }

theorem may_of {s : State} {id : Nat} {h : Held} (a : alook s.held id = some h)
    (b : ((s.group? h.team h.group).all (fun y => y.ops.all (fun o => decide (h.seq ≤ o.seq)))) = true)
    (c : s.held = [(id, h)]) (d : h.drain = [] ∧ awaitRelease s h = none) (e : (s.core h.core).log = [])
    (f : h.ts / 65536 < s.tick ∧ postHeld s h = false ∧ indexTurn s h = true ∧ h.split < wrapSplit ∧ s.room 1024 = true)
    (g : (h.homes.all (fun d => decide (max (h.ts / 65536) h.split < s.clearedBelow d))) = true) : MayComplete s id h where
  held := a
  ops := Or.inr ⟨fun y hy o ho => by
      rw [hy] at b
      have := List.all_eq_true.mp b o ho
      simpa using this,
    fun e' he hne => by rw [c] at he; simp at he; exact absurd (by rw [he]) hne⟩
  drain := fun e he => by rw [d.1] at he; simp at he
  data := d.2
  replayed := fun e' he => by rw [e] at he; simp at he
  tick := f.1
  calm := f.2.1
  turn := f.2.2.1
  wrap := f.2.2.2.1
  stamps := f.2.2.2.2
  homes := fun _ d hd => by simpa using List.all_eq_true.mp g d hd

def holding (k : RelKind) (role : Role) (g : Group → Group) (m : Team → Team := id) (f : State → State := id) : State :=
  dev g m (fun s => f { s with held := [(9, free k 0 1 role)] })

/-- A FENCE, arrivals and posts on both sides of a ring, arrivals on a barrier, a spawned entry. -/
theorem witness_ReleasesComplete :
    (let s := holding .fence .vector (fun y => { y with status := .waiting (.fence 9) })
     MayComplete s 9 (free .fence 0 1 .vector) ∧ s.team? 0 = some (tm0 s) ∧ s.group? 0 0 = some (gr0 s) ∧
       (gr0 s).status = .waiting (.fence 9) ∧ (tm0 s).handler = none) ∧
    (let v : Stage := ⟨false, 0, 1, 0, [], 0, [], [], []⟩
     let s := holding (.ringput 2 1) .copy id (withRing v)
     MayComplete s 9 (free (.ringput 2 1) 0 1 .copy) ∧ s.team? 0 = some (tm0 s) ∧ s.group? 0 0 = some (gr0 s) ∧ (gr0 s).isRetired = false ∧
       (tm0 s).stage? 2 1 = some (⟨ringDesc, [⟨false, 0, 0, 0, [], 0, [], [], []⟩, v]⟩, v) ∧ v.p = false ∧ roleCode .copy = fieldOf ringDesc 5 4) ∧
    (let v : Stage := ⟨false, 0, 0, 0, [], 0, [], [], []⟩
     let s := holding (.post 2 1) .copy id (fun m => { withRing v m with posts := 1 })
     MayComplete s 9 (free (.post 2 1) 0 1 .copy) ∧ s.team? 0 = some (tm0 s) ∧ (tm0 s).posts = 1 ∧
       (tm0 s).stage? 2 1 = some (⟨ringDesc, [v, v]⟩, v) ∧ v.p = false ∧ roleCode .copy = fieldOf ringDesc 5 4) ∧
    (let v : Stage := ⟨true, 0, 0, 0, [], 0, [], [], []⟩
     let s := holding (.post 2 1) .vector id (fun m => { withRing v m with posts := 1 })
     MayComplete s 9 (free (.post 2 1) 0 1 .vector) ∧ s.team? 0 = some (tm0 s) ∧
       (tm0 s).stage? 2 1 = some (⟨ringDesc, [⟨false, 0, 0, 0, [], 0, [], [], []⟩, v]⟩, v) ∧ v.p = true ∧ roleCode .vector = fieldOf ringDesc 7 6) ∧
    (let v : Stage := ⟨true, 0, 1, 0, [], 0, [], [], []⟩
     let s := holding (.ringput 2 1) .vector id (withRing v)
     MayComplete s 9 (free (.ringput 2 1) 0 1 .vector) ∧ s.team? 0 = some (tm0 s) ∧
       (tm0 s).stage? 2 1 = some (⟨ringDesc, [⟨false, 0, 0, 0, [], 0, [], [], []⟩, v]⟩, v) ∧ v.p = true ∧ roleCode .vector = fieldOf ringDesc 7 6) ∧
    (let s := holding (.bararv 3) .vector id (withBarrier false)
     MayComplete s 9 (free (.bararv 3) 0 1 .vector) ∧ s.team? 0 = some (tm0 s) ∧ s.group? 0 0 = some (gr0 s) ∧
       (gr0 s).isRetired = false ∧ alook (tm0 s).barriers 3 = some ⟨0xC, false, 0, 2, 7, 0, [], []⟩) ∧
    (let e : PendLaunch := ⟨4, false, [], [], 0⟩
     let l : Launch := ⟨0, 0, 0, 1, 0, 0, .device, 0, 0, false, 0, []⟩
     let s := holding (.spawn 4) .vector id (fun m => { m with pendq := [e] }) (fun s => { s with launches := [(0, l)] })
     MayComplete s 9 (free (.spawn 4) 0 1 .vector) ∧ s.team? 0 = some (tm0 s) ∧ alook s.launches (tm0 s).launch = some l ∧
       e ∈ (tm0 s).pendq ∧ (∀ f ∈ (tm0 s).pendq, f.id = 4 ↔ f = e) ∧ e.accepted = false) := by
  refine ⟨⟨may_of (by decide) (by decide) (by decide) (by decide) (by decide) (by decide) (by decide), by decide⟩,
    ⟨may_of (by decide) (by decide) (by decide) (by decide) (by decide) (by decide) (by decide), by decide⟩,
    ⟨may_of (by decide) (by decide) (by decide) (by decide) (by decide) (by decide) (by decide), by decide⟩,
    ⟨may_of (by decide) (by decide) (by decide) (by decide) (by decide) (by decide) (by decide), by decide⟩,
    ⟨may_of (by decide) (by decide) (by decide) (by decide) (by decide) (by decide) (by decide), by decide⟩,
    ⟨may_of (by decide) (by decide) (by decide) (by decide) (by decide) (by decide) (by decide), by decide⟩,
    may_of (by decide) (by decide) (by decide) (by decide) (by decide) (by decide) (by decide), by decide⟩

/-- The operation of a store and of an atomic ADD that wait for their release. -/
def relOp : PendOp := { op1 .store [9] with seq := 1, rel := true, rid := some 9 }
def relAtom : PendOp := { op1 (.atom 0) [9] with seq := 1, rel := true, rid := some 9 }

theorem witness_ReleasesComplete_store :
    let s := holding (.strel 1) .vector (fun y => { y with ops := [relOp], nextSeq := 2 })
    MayComplete s 9 (free (.strel 1) 0 1 .vector) ∧ Performs s 0 0 1 512 (tm0 s) (gr0 s) relOp ∧ (free (.strel 1) 0 1 .vector).core = (tm0 s).core ∧
    relOp.kind = .store ∧ relOp.rid = some 9 ∧ ∀ a ∈ relOp.accs, a.done = false ∧ a.loc.line = 512 ∧ 4 * a.data.length = relOp.size :=
  ⟨may_of (by decide) (by decide) (by decide) (by decide) (by decide) (by decide) (by decide), performs_at _ _ 1 (by decide), by decide⟩

theorem witness_ReleasesComplete_atomic :
    let s := holding (.atom 1) .vector (fun y => { y with ops := [relAtom], nextSeq := 2 })
    MayComplete s 9 (free (.atom 1) 0 1 .vector) ∧ Performs s 0 0 1 512 (tm0 s) (gr0 s) relAtom ∧ (free (.atom 1) 0 1 .vector).core = (tm0 s).core ∧
    relAtom.kind = .atom 0 ∧ relAtom.acq = false ∧ relAtom.rid = some 9 ∧ relAtom.accs.length = 1 ∧ relAtom.dst.vec = true ∧
    relAtom.dst.base < 128 ∧ (∀ a ∈ relAtom.accs, a.lane < 64) ∧ ∀ e, (gr0 s).status ≠ .waiting (.flagsDone 1 e) :=
  ⟨may_of (by decide) (by decide) (by decide) (by decide) (by decide) (by decide) (by decide), performs_at _ _ 1 (by decide), by decide⟩

/-- A FENCESC whose release may complete; one that has completed and waits for the boundary. -/
theorem witness_Fences_completed :
    (let s := holding .fencesc .vector (fun y => { y with status := .waiting (.fence 9) })
     MayComplete s 9 (free .fencesc 0 1 .vector) ∧ s.team? 0 = some (tm0 s) ∧ (tm0 s).group? 0 = some (gr0 s)) ∧
    (let s := dev (fun y => { y with status := .waiting .fencescTick })
     s.tick + 5 < 2 ^ 48 ∧ s.recalls = [] ∧ s.team? 0 = some (tm0 s) ∧ (tm0 s).group? 0 = some (gr0 s) ∧ (gr0 s).status = .waiting .fencescTick ∧
       (tm0 s).handler = none ∧ asorted s.teams = true ∧ asorted (tm0 s).groups = true ∧
       (∀ u ∈ s.teams, ∀ g ∈ u.2.groups, g.2.status = .waiting .fencescTick → u.1 = 0 ∧ g.1 = 0) ∧
       (s.core (tm0 s).core).fencescTick ≠ s.tick + 1) :=
  ⟨⟨may_of (by decide) (by decide) (by decide) (by decide) (by decide) (by decide) (by decide), by decide⟩, by decide⟩

/-- Page tables at 0x20000 whose third level is at 0x40000, and FTPOOL, of partition 0. -/
def tabled (leaf pool : DWord) (s : State) : State :=
  (((s.updPart 0 (fun p => { p with root := 0x20000, ftpool := pool })).write64 0x20000 0x30001).write64 0x30000 0x40001).write64 0x40008 leaf

def pgReq (flags : Word) : List Word := [0x10000, 0, flags, if flags = 0 then 0 else 5]

/-- PGMAP once its fence is done: a request that breaks Table 17-2; no table; an entry that is valid; an empty pool; a page outside its
target; a leaf to be stored, of the request and of the pool. -/
theorem witness_SuperFences_pgmap :
    let at' := fun (pool : Bool) (q : List Word) (f : State → State) =>
      holding (.pgmapFence pool q 4 true) .vector (fun y => { y with status := .waiting (.pgmapFence 9), frames := [(1, frame1)] }) id f
    let h := fun (pool : Bool) (q : List Word) => free (.pgmapFence pool q 4 true) 0 1 .vector
    let map : Word := 0xF
    let pool : DWord := 0x0010000000500000
    (∀ e ∈ [(false, [0, 0, 0x40, 5], id), (false, pgReq map, id), (false, pgReq map, tabled 1 0), (true, pgReq 0, tabled 0 0),
        (false, [0x10000, 0, 0x3F, 5], tabled 0 0), (false, pgReq map, tabled 0 0), (true, pgReq 0, tabled 0 pool)],
      let s := at' e.1 e.2.1 e.2.2
      MayComplete s 9 (h e.1 e.2.1) ∧ s.team? 0 = some (tm0 s) ∧ (tm0 s).group? 0 = some (gr0 s) ∧ (tm0 s).handler = none ∧
        logFree (s.core 0) ≠ 0 ∧ (gr0 s).status = .waiting (.pgmapFence 9)) ∧
    pgQuadOk false [0, 0, 0x40, 5] = false ∧ pgQuadOk false (pgReq map) = true ∧ pgQuadOk true (pgReq 0) = true ∧
    pgQuadOk false [0x10000, 0, 0x3F, 5] = true ∧
    (let s := at' false (pgReq map) id
     leafAddr s (s.part 0).root 0x10000 = none) ∧
    (let s := at' false (pgReq map) (tabled 1 0)
     leafAddr s (s.part 0).root 0x10000 = some 0x40008 ∧ s.badLines = [] ∧ (s.read64 0x40008).getLsbD 0 = true) ∧
    (let s := at' true (pgReq 0) (tabled 0 0)
     leafAddr s (s.part 0).root 0x10000 = some 0x40008 ∧ (s.read64 0x40008).getLsbD 0 = false ∧ leafHeld s 0x40008 = false ∧
       field64 (s.part 0).ftpool 63 52 = 0) ∧
    (let s := at' false (pgReq map) (tabled 0 0)
     inTarget s (pgTgt [0x10000, 0, 0x3F, 5]) 3 (pgPage [0x10000, 0, 0x3F, 5]) = false ∧
       inTarget s (pgTgt (pgReq map)) 3 (pgPage (pgReq map)) = true) ∧
    (let s := at' true (pgReq 0) (tabled 0 pool)
     field64 (s.part 0).ftpool 63 52 ≠ 0) := by
  refine ⟨fun e he => ?_, by decide⟩
  fin_cases he <;>
    exact ⟨may_of (by decide) (by decide) (by decide) (by decide) (by decide) (by decide) (by decide), by decide⟩

/-- The store of the zero fill, that of the leaf, CSLOAD with an image at 0x10400, and TINV. -/
theorem witness_SuperFences_completed :
    let at' := fun (k : RelKind) (w : Wait) (f : State → State) => holding k .vector (fun y => { y with status := .waiting w, frames := [(1, frame1)] }) id f
    let ok := fun (s : State) (k : RelKind) => MayComplete s 9 (free k 0 1 .vector) ∧ s.team? 0 = some (tm0 s) ∧
      (tm0 s).group? 0 = some (gr0 s) ∧ (tm0 s).handler = none ∧ logFree (s.core 0) ≠ 0
    let fill : RelKind := .pgmapFill 0x40008 3 4 true
    let leaf : RelKind := .pgmapLeaf 0x40008 3 4 true true
    let load : RelKind := .csload 0x10400 2 true
    let tinv : RelKind := .tinv 0 1 false
    let imaged : State → State := fun s => (span 0 3).foldl (fun s i => s.write64 (0x10400 + 8 * i) (image.getD i 0)) s
    ok (at' fill (.pgmapLeaf 9) id) fill ∧
    (ok (at' leaf (.pgmapLeaf 9) id) leaf ∧ (gr0 (at' leaf (.pgmapLeaf 9) id)).status = .waiting (.pgmapLeaf 9)) ∧
    (let s := at' load (.csload 9) imaged
     ok s load ∧ (gr0 s).status = .waiting (.csload 9) ∧ (tm0 s).part = 0 ∧ fieldOf (2 : Word) 31 4 = 0 ∧
       readImage s ⟨0, 0, tm0 s, gr0 s, 0⟩ 0x10400 = some image ∧ (match image with | h :: us => imageBad h us | [] => some (0, 0, 0)) = none ∧
       slotBound s 0 2 = false) ∧
    (ok (at' tinv (.tinvFence 9) id) tinv ∧ (gr0 (at' tinv (.tinvFence 9) id)).status = .waiting (.tinvFence 9)) := by
  refine ⟨⟨may_of (by decide) (by decide) (by decide) (by decide) (by decide) (by decide) (by decide), by decide⟩,
    ⟨⟨may_of (by decide) (by decide) (by decide) (by decide) (by decide) (by decide) (by decide), by decide⟩, by decide⟩,
    ⟨⟨may_of (by decide) (by decide) (by decide) (by decide) (by decide) (by decide) (by decide), by decide⟩, by decide⟩,
    ⟨may_of (by decide) (by decide) (by decide) (by decide) (by decide) (by decide) (by decide), by decide⟩, by decide⟩

/-- A release whose time is not past, one with an uncleared home, one behind an access and one behind a logged entry. -/
theorem witness_ReleasesComplete_held :
    let h := free .fence 0 1 .vector
    (let k : Held := { h with ts := 100 * 65536 }
     let s := dev id id (fun s => { s with held := [(9, k)] })
     alook s.held 9 = some k ∧ s.tick ≤ k.ts / 65536) ∧
    (let k : Held := { h with split := wrapSplit }
     let s := dev id id (fun s => { s with held := [(9, k)] })
     alook s.held 9 = some k ∧ wrapSplit ≤ k.split) ∧
    (let k : Held := { h with kind := .post 2 1 }
     let s := dev (fun y => { y with traps := [⟨0x40, none, [], none, []⟩] }) id (fun s => { s with held := [(9, k)] })
     alook s.held 9 = some k ∧ postHeld s k = true) ∧
    (let s := dev id id (fun s => { s with held := [(9, h)], homes := [(3, 0)] })
     alook s.held 9 = some h ∧ h.enforce = true ∧ ∃ d ∈ h.homes, s.clearedBelow d ≤ max (h.ts / 65536) h.split) ∧
    (let s := dev (fun y => { y with ops := [op1 .load []] }) id (fun s => { s with held := [(9, h)] })
     alook s.held 9 = some h ∧ h.group ≠ 64 ∧ s.group? h.team h.group = some (gr0 s) ∧ ∃ o ∈ (gr0 s).ops, o.seq < h.seq) ∧
    (let k : Held := { h with log := some 0 }
     let e := { logged 0 1 .fence none none with rid := some 9 }
     let s := dev id id (fun s => { s.updCore 0 (fun c => { c with log := [e] }) with held := [(9, k)] })
     alook s.held 9 = some k ∧ k.log.isSome = true ∧ ∃ e ∈ (s.core k.core).log, e.rid = some 9 ∧ e.replayed = false) := by decide

/-- A shoot-down of the solo page by a group that waits for it. -/
def shooting (todo unacked : List Nat) : Shoot := ⟨0, 0, 0, 1, 1, false, todo, unacked⟩
def shoot (k : Shoot) (g : Group → Group := id) : State := dev g id (fun s => { s with shoots := [(5, k)] })

/-- Core 0 has yet to act; it has acted and another agent has not; it is the last and the group waits; it still uses the page. -/
theorem witness_ShootDowns :
    (let k := shooting [0, xdieAgent] []
     alook (shoot k).shoots 5 = some k ∧ 0 ∈ k.todo ∧ 0 ≠ xdieAgent) ∧
    (let k := shooting [xdieAgent] [0]
     alook (shoot k).shoots 5 = some k ∧ 0 ∈ k.unacked ∧ usesNamed (shoot k) k 0 = false ∧ k.todo ≠ []) ∧
    (let k := shooting [] [0]
     let s := shoot k (fun y => { y with status := .waiting (.tinvAcks 5) })
     alook s.shoots 5 = some k ∧ 0 ∈ k.unacked ∧ usesNamed s k 0 = false ∧ k.todo = [] ∧ (∀ b ∈ k.unacked, b = 0) ∧
       s.team? k.team = some (tm0 s) ∧ s.group? k.team k.group = some (gr0 s) ∧ (gr0 s).status = .waiting (.tinvAcks 5) ∧
       (tm0 s).handler = none) ∧
    (let k := shooting [] [0]
     let s := shoot k (fun y => { y with ops := [op1 .load []] })
     alook s.shoots 5 = some k ∧ usesNamed s k 0 = true) := by decide

/-- A copy of one FP32 element between memory and AB. -/
def copy1 (ctrl : Word) (out : Bool) (post : Nat) : Copy :=
  Copy.mk 9 0 0 0 0 (if out then [abHandle, 0, 0x10000, 0, ctrl, 0, 1] else [0x10000, 0, abHandle, 0, ctrl, 0, 1]) post 0x10000 [] [] [] none 0 none [] [] [] []
def copying (c : Copy) (m : Team → Team := fun m => m.putRegion 1 ⟨0, 1024, 0, [], []⟩) : State :=
  dev (fun y => { y with cp := 1, nextSeq := 1 }) m (fun s => s.updCore 0 (fun k => { k with copies := [(3, c)] }))

theorem acts_of (c : Copy) (m : Team → Team) (h : alook ((copying c m).core 0).copies 3 = some c ∧ (copying c m).team? c.team = some (tm0 (copying c m)) ∧
    (tm0 (copying c m)).status = .resident ∧ (((copying c m).group? c.team c.group).all (fun y => y.ops.isEmpty)) = true ∧ c.held = none ∧
    (copying c m).sleeping = false) : CopyActs (copying c m) 0 3 c (tm0 (copying c m)) where
  copy := h.1
  teamAt := h.2.1
  resident := h.2.2.1
  forked := fun y hy o ho => by
    have := h.2.2.2.1
    rw [hy] at this
    simp at this
    rw [this] at ho
    simp at ho
  free := h.2.2.2.2.1
  awake := h.2.2.2.2.2

/-- Into AB and out of it without a fault; with an arrival to make; with no region to land in; held. -/
theorem witness_CopiesEnd :
    let region := fun (m : Team) => m.putRegion 1 ⟨0, 1024, 0, [], []⟩
    let fine := fun (c : Copy) => copyFaultOf (copying c region) 0 (tm0 (copying c region)) c = none ∧
      (copying c region).group? c.team c.group = some (gr0 (copying c region)) ∧
      (copying c region).room (stampsFor c (unitsLeft (copying c region) c).length) = true ∧ (copying c region).room (stampsFor c 1) = true ∧
      (∀ k ∈ unitsLeft (copying c region) c, awaitUnit (copying c region) 0 (tm0 (copying c region)).part c k = none) ∧
      awaitUnit (copying c region) 0 (tm0 (copying c region)).part c 0 = none ∧
      c.op = 0 ∧ c.done = [] ∧ c.landing = [] ∧ c.taken = [] ∧ cSType c.record = .plain .fp32 ∧
      cDType c.record = .plain .fp32 ∧ typeBits .fp32 = 32 ∧ unitCount c.record = 1 ∧ tensorInMem c.record = true ∧
      insideAt c.record none 0 0 = true ∧ denseRegion (copying c region) c (tm0 (copying c region)) = some (0, ⟨0, 1024, 0, [], []⟩)
    (CopyActs (copying (copy1 ctrlIn false 0) region) 0 3 (copy1 ctrlIn false 0) (tm0 (copying (copy1 ctrlIn false 0) region)) ∧
      fine (copy1 ctrlIn false 0) ∧ postE 0 = false ∧ tensorIsSrc (copy1 ctrlIn false 0).record = true ∧
      (copying (copy1 ctrlIn false 0) region).team? 0 = some (tm0 (copying (copy1 ctrlIn false 0) region)) ∧
      hBuf (denseHandle (copy1 ctrlIn false 0).record) < (tm0 (copying (copy1 ctrlIn false 0) region)).regions.length) ∧
    (CopyActs (copying (copy1 ctrlOut true 0x92) region) 0 3 (copy1 ctrlOut true 0x92) (tm0 (copying (copy1 ctrlOut true 0x92) region)) ∧
      fine (copy1 ctrlOut true 0x92) ∧ postE 0x92 = true ∧ tensorIsSrc (copy1 ctrlOut true 0x92).record = false ∧
      (keysOf ((span (addrAt (copy1 ctrlOut true 0x92).record none 0 0) 4).map
        (copyByte (copying (copy1 ctrlOut true 0x92) region) 0 0 (copy1 ctrlOut true 0x92)))).Nodup) ∧
    (let c := copy1 ctrlIn false 0
     CopyActs (copying c id) 0 3 c (tm0 (copying c id)) ∧ copyFaultOf (copying c id) 0 (tm0 (copying c id)) c = some ⟨0x24, 0, 3⟩ ∧
       (copying c id).group? 0 0 = some (gr0 (copying c id)) ∧ (gr0 (copying c id)).isRetired = false) ∧
    (let c := { copy1 ctrlIn false 0 with held := some ⟨0x24, 0, 3⟩ }
     alook ((copying c id).core 0).copies 3 = some c ∧ c.held ≠ none) := by
  refine ⟨⟨acts_of _ _ (by decide), ⟨?_, by decide, ?_, by decide, ?_, by decide⟩, by decide⟩,
    ⟨acts_of _ _ (by decide), ⟨?_, by decide, ?_, by decide, ?_, by decide⟩, by decide⟩, ⟨acts_of _ _ (by decide), by decide⟩, by decide⟩
  all_goals
    simp only [copyFaultOf, unitsLeft]
    split <;> decide

/-- A copy whose source line's data wait for a hash check. -/
theorem witness_CopiesEnd_waits :
    let c := copy1 ctrlIn false 0
    let s := dev (fun y => { y with cp := 1, nextSeq := 1 }) (fun m => m.putRegion 1 ⟨0, 1024, 0, [], []⟩) (fun s =>
      { s.updCore 0 (fun k => { k with copies := [(3, c)] }) with expects := [{ expect .requester none false with line := 512, back := true }] })
    (alook (s.core 0).copies 3 = some c ∧ s.team? 0 = some (tm0 s) ∧ (tm0 s).status = .resident ∧ c.held = none ∧ s.sleeping = false) ∧
      s.group? 0 0 = some (gr0 s) ∧ (gr0 s).ops = [] ∧ copyFaultOf s 0 (tm0 s) c = none ∧ s.room (stampsFor c (unitsLeft s c).length) = true ∧
      (unitsLeft s c).head? = some 0 ∧ (awaitUnit s 0 (tm0 s).part c 0).isSome = true := by
  refine ⟨by decide, by decide, by decide, ?_, ?_, ?_, by decide⟩
  all_goals
    simp only [copyFaultOf, unitsLeft]
    split <;> decide

/-- A tile operation at the head of core 0's queue. -/
def tileOp (k : TileKind) (dh ah bh : Word) (post : Nat) : TileOp := ⟨9, 0, 0, 0, k, dh, ah, bh, some 0, some 0, post, 0x10000, none, []⟩
def tiling (o : TileOp) (m : Team → Team := id) : State :=
  dev (fun y => { y with tm := 1, nextSeq := 1 })
    (fun x => m ((x.putRegion 1 ⟨0, 32768, 0, [], []⟩).putRegion 2 ⟨0, 16384, 0, [], []⟩)) (fun s => s.updCore 0 (fun k => { k with tiles := [o] }))

theorem tile_of (o : TileOp) (m : Team → Team) (h : ((tiling o m).core 0).tiles = [o] ∧ (tiling o m).team? o.team = some (tm0 (tiling o m)) ∧
    (tm0 (tiling o m)).status = .resident ∧ (((tiling o m).group? o.team o.group).all (fun y => y.ops.isEmpty)) = true) :
    TileActs (tiling o m) 0 o [] (tm0 (tiling o m)) where
  first := h.1
  teamAt := h.2.1
  resident := h.2.2.1
  forked := fun y hy p hp => by
    have := h.2.2.2
    rw [hy] at this
    simp at this
    rw [this] at hp
    simp at hp

/-- TZERO with a post, TMMA of BF16, TSTAT of FP32, TCVT to BF16, TQUANT to MXFP8; one whose bytes are landing; TMMA whose source team has gone. -/
theorem witness_TileOperationsEnd :
    let cb : Word := 0xFF800000
    let z := tileOp .tzero cb 0 0 0x92
    let m := tileOp (.tmma 0x1000) cb abHandle (abHandle + 0x2000) 0
    let st := tileOp (.tstat .fp32 0xF 4) cb cb 0 0
    let cv := tileOp (.tcvt 0) abHandle cb 0 0
    let qu := tileOp (.tquant 4) abHandle cb 0 0
    let lost := { tileOp (.tmma 0x1000) cb 0x01400000 abHandle 0 with ra := some 77 }
    let ready := fun (o : TileOp) => TileActs (tiling o id) 0 o [] (tm0 (tiling o id)) ∧ fetchFails (tiling o id) o (tm0 (tiling o id)) = false ∧
      (tiling o id).group? o.team o.group = some (gr0 (tiling o id)) ∧ (tm0 (tiling o id)).regions.length = 3
    let half := { z with landing := some [(3, 0)] }
    (ready z ∧ z.kind = .tzero ∧ z.landing = none ∧ postE z.post = true) ∧
    (ready half ∧ half.landing = some [(3, 0)] ∧ half.kind = .tzero) ∧
    (ready m ∧ m.landing = none ∧ (tmmaOperands (tiling m id) m (tm0 (tiling m id)) 0x1000).isSome = true ∧ fwAcc 0x1000 = some .fp32 ∧ 8 ∣ typeBits .fp32) ∧
    (ready st ∧ st.kind = .tstat .fp32 0xF 4) ∧ (ready cv ∧ cv.landing = none ∧ cvFmt 0 = some (.plain .bf16) ∧ cvSrc 0 = some .fp32 ∧ 8 ∣ typeBits .bf16) ∧
    (ready qu ∧ qu.landing = none ∧ ((cvFmt 4).all CType.isBlock) = true ∧ (cvFmt 4).isSome = true ∧ cvSrc 4 = some .fp32) ∧
    (TileActs (tiling lost id) 0 lost [] (tm0 (tiling lost id)) ∧ lost.landing = none ∧
      fetchFails (tiling lost id) lost (tm0 (tiling lost id)) = true) := by
  refine ⟨⟨⟨tile_of _ _ (by decide), by decide⟩, by decide⟩, ⟨⟨tile_of _ _ (by decide), by decide⟩, by decide⟩,
    ⟨⟨tile_of _ _ (by decide), by decide⟩, by decide⟩,
    ⟨⟨tile_of _ _ (by decide), by decide⟩, by decide⟩, ⟨⟨tile_of _ _ (by decide), by decide⟩, by decide⟩,
    ⟨⟨tile_of _ _ (by decide), by decide⟩, by decide⟩, tile_of _ _ (by decide), by decide⟩

/-- A flit to group 0 of team 0's core 0, and one to a group that is not; one of another team, on core 1000. -/
def flit (dst : Nat) (last : Bool) : Flit := ⟨0, 0, 0, 0, 0, dst, last, [1, 2, 3, 4]⟩
def away (last : Bool) : Flit := ⟨1000, 0, 7, 0, 0, 0, last, [1, 2, 3, 4]⟩

theorem witness_FlitsDelivered :
    (let f := flit 0 true
     let s := dev id id (fun s => { s with flits := [f] })
     s.flits = [f] ∧ flitGroup s f = some (0, gr0 s) ∧ (gr0 s).q.rq.length < 16 ∧ f.cut ∉ s.cutPackets) ∧
    (let f := flit 0 true
     let s := dev (port (fun q => { q with rq := List.replicate 16 f })) id (fun s => { s with flits := [f] })
     s.flits = f :: [] ∧ flitGroup s f = some (0, gr0 s) ∧ 16 ≤ (gr0 s).q.rq.length ∧ f.cut ∉ s.cutPackets) ∧
    (∀ last ∈ [true, false], let f := flit 0 last
     let s := dev id id (fun s => { s with flits := [f], cutPackets := [(0, 0, 0)] })
     s.flits = [f] ∧ f.cut ∈ s.cutPackets ∧ s.group? f.srcTeam f.srcGroup = some (gr0 s)) ∧
    (let f := flit 5 false
     let s := dev id id (fun s => { s with flits := [f] })
     s.flits = [f] ∧ flitGroup s f = none ∧ f.last = false ∧ s.group? f.srcTeam f.srcGroup = some (gr0 s)) := by decide

/-- Group 0 of a core outside the cluster: part of a packet in its queue, begun and with PRST set; a whole packet; a flit on its way. -/
theorem witness_FlitsDelivered_reset :
    (let s := dev (port (fun q => { q with cur := some 448, rcore := 1000, rq := [away false], prst := true }))
     s.team? 0 = some (tm0 s) ∧ (tm0 s).group? 0 = some (gr0 s) ∧ (tm0 s).status = .resident ∧ inCluster 0 0 (tm0 s).core = true ∧
       inCluster 2 1 (tm0 s).core = false ∧ (gr0 s).q.prst = true ∧ (gr0 s).q.cur = some 448 ∧ inCluster 2 1 (gr0 s).q.rcore = true ∧
       (∀ f ∈ (gr0 s).q.rq, f.sender = 448 ∧ f.last = false ∧ inCluster 2 1 f.srcCore = true)) ∧
    (let s := dev (port (fun q => { q with rq := [away false, away true] }))
     s.team? 0 = some (tm0 s) ∧ (tm0 s).group? 0 = some (gr0 s) ∧ inCluster 2 1 (tm0 s).core = false ∧
       (gr0 s).q.rq = [] ++ away false :: [away true] ∧ (away true).sender = (away false).sender ∧ (away true).last = true) ∧
    (let s := dev (port (fun q => { q with alw := [(64 * 1000, 7)] })) id (fun s => { s with flits := [{ flit 0 true with dstCore := 1000 }] })
     s.team? 0 = some (tm0 s) ∧ (tm0 s).group? 0 = some (gr0 s) ∧ (gr0 s).q.allow 1000 0 = 7 ∧
       (∀ e ∈ s.teams, ∀ k ∈ e.2.groups, ∀ f ∈ k.2.q.rq, ¬ (f.srcTeam = 0 ∧ f.srcGroup = 0)) ∧
       ∃ f ∈ s.flits, f.srcTeam = 0 ∧ f.srcGroup = 0 ∧ f.dstCore = 1000 ∧ inCluster 2 1 f.dstCore = true) := by decide

/-- An imprecise trap that pends for a group between runs. -/
def pending : PendTrap := ⟨0x3A, none, [(0x80, 2, 7)], none, []⟩

theorem witness_TrapsDelivered_imprecise :
    let s := dev (fun y => { y with traps := [pending] }) id (fun s => s.updCore 0 (fun c => { c with ports := Core.idle.ports }))
    (s.team? 0 = some (tm0 s) ∧ s.group? 0 0 = some (gr0 s) ∧ (tm0 s).status = .resident ∧ (gr0 s).status = .ready ∧ (gr0 s).super = false ∧
      holdsPort s (tm0 s).core 0 0 = false ∧ (gr0 s).traps = pending :: [] ∧ pending.copy = none ∧ pending.cont = none ∧ pending.redo = [] ∧
      (∀ a ∈ pending.aux, 0x80 ≤ a.1 ∧ a.1 + a.2.1 ≤ 0x200) ∧
      (pushEntry (s.updGroup 0 0 (fun z => { z with traps := [] })) 0 0 ⟨(gr0 s).active, (gr0 s).point.pc, .trap, 0, 1⟩).isSome = true) ∧
    lowestSlot (gr0 s) 1 :=
  ⟨by decide, by decide, by decide, by decide, fun k a b => absurd b (by omega)⟩

/-- The only group waits at a barrier; a ready group; a post on its way. -/
theorem witness_TrapsDelivered_deadlock :
    let s := dev (fun y => { y with status := .waiting (.bar 3), arrived := [3] }) (withBarrier false)
    (s.team? 0 = some (tm0 s) ∧ s.group? 0 0 = some (gr0 s) ∧ (tm0 s).live = (0, gr0 s) :: [] ∧ deadlocked s 0 (tm0 s) = true ∧
      (tm0 s).handler = none ∧ (∀ e ∈ (tm0 s).groups, e.1 < 64) ∧ (gr0 s).frames.length < 4 ∧
      (pushEntry (wakeHere s 0 0) 0 0 ⟨(gr0 s).active, (gr0 s).point.pc, .trap, 0, 1⟩).isSome = true) ∧ lowestSlot (gr0 s) 1 ∧
    (let t := dev id
     t.team? 0 = some (tm0 t) ∧ ∃ e ∈ (tm0 t).live, e.2.status = .ready) ∧
    (let t := dev (fun y => { y with status := .waiting (.bar 3), arrived := [3] }) (fun m => { withBarrier false m with posts := 1 })
     t.team? 0 = some (tm0 t) ∧ (tm0 t).posts ≠ 0) :=
  ⟨by decide, ⟨by decide, by decide, by decide, fun k a b => absurd b (by omega)⟩, by decide, by decide⟩

/-- A group whose POPR or EXIT by the trap entry `en` waits for its fence, its frame's RACT and replay mask as given. -/
def returning (en : StackEntry) (h : FrameHidden) (act mask : Word) (ex : Bool) : State :=
  holding .popr .vector
    (fun y => { y with status := .waiting (if ex then .poprExit 9 else .popr 9), stack := [en], frames := [(1, h)], active := 0xF })
    (fun m => { m with handler := some 0 }) (fun s => (s.write32 0x400004 act).write32 0x400020 mask)

/-- A frame of a precise trap of lanes 0 to 3, one of an imprecise trap, one of a micro-op, one with releases to be executed again. -/
def laneFrame : FrameHidden := { frame1 with lv := true, emask := 0xF }
def lateFrame : FrameHidden := { frame1 with prec := false }
def redoFrame : FrameHidden := { lateFrame with redo := [.at 0x10020] }

/-- Every action of RACT, by POPR and by EXIT; lanes to replay that live and that have exited; a trap between runs, with discarded releases
and without. -/
theorem witness_TrapsDelivered_returns :
    let en : StackEntry := ⟨0xF0, 0x10010, .trap, 0, 1⟩
    (∀ c ∈ [(frame1, (0 : Word), (0 : Word)), (frame1, 1, 0), (frame1, 2, 0), (frame1, 3, 0), (laneFrame, 0, 3), (lateFrame, 0, 0), (redoFrame, 0, 0)],
      let s := returning en c.1 c.2.1 c.2.2 false
      MayComplete s 9 (free .popr 0 1 .vector) ∧ s.team? 0 = some (tm0 s) ∧ (tm0 s).group? 0 = some (gr0 s) ∧ (tm0 s).handler = some 0 ∧
        (gr0 s).status = .waiting (.popr 9) ∧ (gr0 s).stack = en :: [] ∧ (gr0 s).spilled = 0 ∧ alook (gr0 s).frames 1 = some c.1 ∧
        c.1.copy = none ∧ (gr0 s).ops = [] ∧ ReturnsBy s ⟨0, 0, tm0 s, gr0 s, 0⟩ en ∧ requestsFull s = false ∧
        fieldOf (s.read32 (frameAddr (tm0 s) 0 1 + 4)) 1 0 = c.2.1.toNat) ∧
    (let s := returning en laneFrame 0 3 true
     MayComplete s 9 (free .popr 0 1 .vector) ∧ s.team? 0 = some (tm0 s) ∧ (tm0 s).group? 0 = some (gr0 s) ∧ (tm0 s).handler = some 0 ∧
       (gr0 s).status = .waiting (.poprExit 9) ∧ stackLess (wholeStack s (tm0 s) 0 (gr0 s)) (gr0 s).active = en :: [] ∧
       alook (gr0 s).frames 1 = some laneFrame ∧ (gr0 s).ops = [] ∧ ReturnsBy s ⟨0, 0, tm0 s, gr0 s, 0⟩ en ∧
       (3 : Lanes) &&& ((gr0 s).live &&& ~~~(gr0 s).active) = 0) := by
  refine ⟨fun c hc => ?_, ?_⟩
  · fin_cases hc <;>
      exact ⟨may_of (by decide) (by decide) (by decide) (by decide) (by decide) (by decide) (by decide), by decide, by decide, by decide, by decide,
        by decide, by decide, by decide, by decide, by decide, ⟨by decide, by decide, by decide⟩, by decide, by decide⟩
  · exact ⟨may_of (by decide) (by decide) (by decide) (by decide) (by decide) (by decide) (by decide), by decide, by decide, by decide, by decide,
      by decide, by decide, by decide, ⟨by decide, by decide, by decide⟩, by decide⟩

/-- A load of S3 that has been pending for 33 ticks, before SADD S5, S2, S3. -/
def farLoadOf (key : Nat) : PendOp := { pendLoad 3 0 with accs := [⟨0, 0, 0x10000, ⟨0, 0, key⟩, [], false, 3, []⟩], since := 67 }
def stalledDev (key : Nat) : State :=
  { ((State.reset.withFetchWord 32 0b1_00000001_00_0000101_0000010_0000011).updGroup 0 0
      (fun y => { y with ops := [farLoadOf key], nextSeq := 1 })) with tick := 100 }

/-- A grid of two teams, both placed. -/
def grid (alive : Nat) : Grid :=
  ⟨0, 0, 0, [0x10080, 0, 2, 1, 0x10000, 0, 0, 0, 0, 0x3000], [], 0, true, 2, alive, [], 0, .running, 0, 0, []⟩

theorem witness_TeamsLeave :
    (∀ key ∈ [poolBase, dieSpan, scratchBase + 2 ^ 27],
      let s := stalledDev key
      let x := (siteOf s 0 0).getD ⟨0, 0, soloTeam .vector, Group.fresh .vector 0 0 16 0, 0⟩
      siteOf s 0 0 = some x ∧ x.gr.status = .ready ∧ x.gr.xop = none ∧ holdsPort s x.tm.core 0 0 = true ∧
        stalled s x (usesOf (instrAt s x)) (makesEvents (instrAt s x)) = true ∧
        ∃ o ∈ x.gr.ops, o.kind = .load ∧ o.since + 33 ≤ s.tick ∧
          ((usesOf (instrAt s x)).any o.writes = true ∨ (makesEvents (instrAt s x) = true ∧ o.acq = true)) ∧
          ∃ a ∈ o.accs, a.done = false ∧ a.loc.space = 0 ∧ (targetOf a.loc.addr = .pool ∨
            (targetOf a.loc.addr = .hbm ∧ a.loc.addr / dieSpan ≠ x.tm.die) ∨
            (targetOf a.loc.addr = .scratch ∧ scratchSlice a.loc.addr / 160 ≠ x.tm.die))) ∧
    (∀ n ∈ [1, 2], let s := dev (fun y => { y with status := .retired }) id (fun s => { s with grids := [(0, grid n)] })
      s.team? 0 = some (tm0 s) ∧ teamDone s 0 (tm0 s) = true ∧ alook s.grids (tm0 s).grid = some (grid n)) ∧
    ((grid 1).next = rTeams (grid 1).record ∧ (grid 1).again = [] ∧ (grid 1).fate = .running) ∧
    (let s := dev id
     s.team? 0 = some (tm0 s) ∧ ∃ e ∈ (tm0 s).groups, e.2.status ≠ .retired) ∧
    (let s := dev (fun y => { y with status := .retired }) (fun m => { m with posts := 1 })
     s.team? 0 = some (tm0 s) ∧ (tm0 s).posts ≠ 0) := by decide

/-- A grid's completion release, without CNTADDR and with it; that of a launch, without SIGADDR and with it. -/
def ended (cnt : Word) (n : Nat) (s : State) : State :=
  { s with
    grids := [(0, { grid 0 with fate := .releasing, record := [0x10080, 0, 2, 1, 0x10000, 0, 0, 0, 0, 0x3000, 0, 0, cnt, 0, 0, 0] })]
    launches := [(0, ⟨0, 0, 0, n, 7, 5, .device, if cnt = 0 then 0 else 0x10200, 9, false, 0, []⟩)] }.updCore feCore (fun c => { c with tlb := [⟨0, 1, soloLeaf, 3⟩] })

theorem witness_TeamsLeave_ends :
    (∀ c ∈ [((0 : Word), 1), (0, 2), (0x10100, 1)],
      let s := dev id id (fun s => { ended c.1 c.2 s with held := [(9, free (.gridEnd 0) 64 0 .vector)] })
      MayComplete s 9 (free (.gridEnd 0) 64 0 .vector) ∧ ∃ g l, alook s.grids 0 = some g ∧ alook s.launches g.launch = some l ∧ l.ended = false ∧
        l.count = c.2 ∧ rCnt g.record = c.1.toNat ∧ (c.1 ≠ 0 → feAccess s feCore g.part (rCnt g.record) 4 4 [.rd, .wr, .at] true = .ok 0x10100)) ∧
    (∀ c ∈ [(0 : Word), 0x10100],
      let s := dev id id (fun s => { ended c 0 s with held := [(9, free (.launchEnd 0) 64 0 .vector)] })
      MayComplete s 9 (free (.launchEnd 0) 64 0 .vector) ∧ (∀ p ∈ s.parts, p.2.report = none) ∧ s.reports.length < 65536 ∧
        ∃ l, alook s.launches 0 = some l ∧ (c = 0 → l.sigaddr = 0) ∧
          (c ≠ 0 → l.sigaddr = 0x10200 ∧ feAccess s feCore l.part l.sigaddr.toNat 8 8 [.wr] true = .ok 0x10200)) := by
  refine ⟨fun c hc => ?_, fun c hc => ?_⟩
  · fin_cases hc <;>
      exact ⟨may_of (by decide) (by decide) (by decide) (by decide) (by decide) (by decide) (by decide), _, _, rfl, rfl, by decide⟩
  · fin_cases hc <;>
      exact ⟨may_of (by decide) (by decide) (by decide) (by decide) (by decide) (by decide) (by decide), by decide, by decide, _, rfl, by decide⟩

/-! ### Saves, queues and decisions -/

/-- The lease is held by core 1 until tick 1000, under epoch 5. -/
def led (s : State) : State := { s with fw := { s.fw with lease := leaseWord 1 5 1000 } }

/-- A team that waits at a barrier with its save asked for, and one that has stopped for it. -/
theorem witness_SavesAndWakes_save :
    (∀ s ∈ [dev (fun y => { y with status := .waiting (.bar 3), arrived := [3] }) (fun m => { withBarrier false m with saving := some 99999 }),
        dev id (fun m => { m with saving := some 99999, stopped := true })],
     s.team? 0 = some (tm0 s) ∧ (tm0 s).saving.isSome = true ∧ (tm0 s).status = .resident ∧ (s.core (tm0 s).core).debugHalt = false ∧
       ((tm0 s).stopped = true ∨ teamBlocked s 0 (tm0 s) = true) ∧ teamQuiet s 0 (tm0 s) = true ∧ escalatedAt (tm0 s) = none ∧ asorted (tm0 s).groups = true ∧
       (tm0 s).regions.length = 3 ∧
       (∀ e ∈ (tm0 s).groups, e.1 < 64 ∧ e.2.stack.length ≤ 32 ∧ asorted e.2.s = true ∧ asorted e.2.k = true ∧
         (∀ r ∈ e.2.s, r.1 < 128) ∧ (∀ r ∈ e.2.k, r.1 < 8) ∧
         ∀ v ∈ e.2.v, vOffset (tm0 s) e.1 + 4 * ((tm0 s).width * (v.1 / 64) + v.1 % 64) + 4 ≤ 0x40000) ∧
       (∀ r ∈ (tm0 s).regions, ∀ e ∈ r.bytes, e.1 < 0x20000)) := by decide

/-- An update under way with room for one more request, and without. -/
def crowded (n : Nat) (s : State) : State :=
  { led s with fw := { (led s).fw with update := .captured, queued := List.replicate n .tick } }

/-- A team that escalates is saved, with room for requests and without; the answers to an escalated team and to its page request while an
update is under way. -/
theorem witness_SavesAndWakes_escalated :
    (∀ n ∈ [0, 255], let s := dev (fun y => { y with status := .waiting (.escalated 1) }) (fun m => { m with saving := some (2 ^ 64), stopped := true }) (crowded n)
      s.team? 0 = some (tm0 s) ∧ (tm0 s).saving.isSome = true ∧ (tm0 s).status = .resident ∧ (s.core (tm0 s).core).debugHalt = false ∧
        (tm0 s).stopped = true ∧ teamQuiet s 0 (tm0 s) = true ∧ escalatedAt (tm0 s) = some (0, 1) ∧ (n = 255 → requestsFull s = true)) ∧
    (∀ p ∈ [true, false], ∀ n ∈ [0, 255],
      let s := dev (fun y => { y with status := .waiting (.escalated 1) }) (fun m => { m with status := .escalated 0 1, pri := p }) (crowded n)
      s.team? 0 = some (tm0 s) ∧ (tm0 s).status = .escalated 0 1 ∧ (tm0 s).group? 0 = some (gr0 s) ∧ (tm0 s).pri = p ∧
        (n = 0 → gateRequest s = .held) ∧ (n = 255 → gateRequest s = .busy)) := by decide +kernel

/-- A store of the team in flight, or a team that still runs; a deadline that has passed, one that has not, and one of a team that has
stopped; saved teams that wake and that do not; an escalated team, with and without a leader, and with a page request. -/
theorem witness_SavesAndWakes_rest :
    (let s := dev (fun y => { y with status := .waiting (.bar 3), arrived := [3], ops := [op1 .store [9]] })
       (fun m => { withBarrier false m with saving := some 99999 })
     let r := dev id (fun m => { m with saving := some 99999 })
     (s.team? 0 = some (tm0 s) ∧ (tm0 s).saving.isSome = true ∧ (tm0 s).status = .resident ∧ (s.core (tm0 s).core).debugHalt = false ∧
       teamBlocked s 0 (tm0 s) = true ∧ teamQuiet s 0 (tm0 s) = false) ∧
     (r.team? 0 = some (tm0 r) ∧ (tm0 r).saving.isSome = true ∧ (tm0 r).status = .resident ∧ (r.core (tm0 r).core).debugHalt = false ∧
       (tm0 r).stopped = false ∧ teamBlocked r 0 (tm0 r) = false)) ∧
    (let s := dev id (fun m => { m with saving := some 12800, stopped := true })
     s.team? 0 = some (tm0 s) ∧ (tm0 s).saving = some 12800 ∧ (tm0 s).stopped = true) ∧
    (let s := dev id (fun m => { m with saving := some 12800 })
     let t := dev id (fun m => { m with saving := some 20000 })
     (s.team? 0 = some (tm0 s) ∧ (tm0 s).saving = some 12800 ∧ (tm0 s).status = .resident ∧ 12800 ≤ 128 * s.tick + 127 ∧
       (tm0 s).stopped = false ∧ teamBlocked s 0 (tm0 s) = false ∧ s.fw.rungs = []) ∧
     (t.team? 0 = some (tm0 t) ∧ (tm0 t).saving = some 20000 ∧ 128 * t.tick + 127 < 20000)) ∧
    (let s := dev (fun y => { y with status := .waiting .qrecv }) (fun m => { m with status := .saved })
     let t := dev (fun y => { y with status := .waiting (.bar 3), arrived := [3] }) (fun m => { withBarrier false m with status := .saved })
     (s.team? 0 = some (tm0 s) ∧ (tm0 s).status = .saved ∧ (tm0 s).woken = none ∧ wakeHolds s 0 (tm0 s) = true) ∧
     (t.team? 0 = some (tm0 t) ∧ (tm0 t).status = .saved ∧ (tm0 t).woken = none ∧ wakeHolds t 0 (tm0 t) = false)) ∧
    (let esc := fun (p : Bool) (f : State → State) =>
       dev (fun y => { y with status := .waiting (.escalated 1) }) (fun m => { m with status := .escalated 0 1, pri := p }) f
     (∀ f ∈ [true, false], let s := esc f led
       s.team? 0 = some (tm0 s) ∧ (tm0 s).status = .escalated 0 1 ∧ (tm0 s).group? 0 = some (gr0 s) ∧ (tm0 s).pri = f ∧ gateRequest s = .go) ∧
     let s := esc false id
     s.team? 0 = some (tm0 s) ∧ (tm0 s).status = .escalated 0 1 ∧ (tm0 s).group? 0 = some (gr0 s) ∧ (tm0 s).pri = false ∧
       gateRequest s = .held) := by decide

/-- A queue of 16 packets at 0x10400 that keeps its read index at 0x10100. -/
def queue0 : Queue :=
  { Queue.idle with base := 0x10400, rdaddr := 0x10100, en := true, wr := 1, cap := 47 }

/-- Queue 0 of partition 0 holds one packet; the front ends reach the solo page. -/
def queued (w : List Word) (s : State) : State :=
  ((span 0 w.length).foldl (fun (s : State) i => s.write32 (0x10400 + 4 * i) (w.getD i 0))
    (s.updPart 0 (fun p => { p with queues := [(0, queue0)] }))).updCore feCore (fun c => { c with tlb := [⟨0, 1, soloLeaf, 3⟩] })

/-- A packet: its type, priority, scope and budget, then its tag, code, argument, signal address and value. -/
def packet (head code sig val : Word) : List Word :=
  [head, 7, code, 0, 0, 0, sig, 0, val, 0, 0, 0, 0, 0, 0, 0]

def nopPk : List Word := packet (3 * 2 ^ 14) 0 0 0
def waitPk (v : Word) : List Word := packet (2 + 3 * 2 ^ 14) 0 0x10200 v
def launchPk : List Word := packet (1 + 5 * 2 ^ 8 + 3 * 2 ^ 14 + 16 * 2 ^ 17) 0x10800 0x10200 9
def withPk (w : List Word) : State := dev id id (queued w)

theorem witness_CommandQueues_doorbell :
    let s := withPk nopPk
    (s.fw.mgmtOnly = false ∧ { s.fw with mgmtOnly := true }.mgmtOnly = true) ∧
    (((dev id).part 0).queue 0).en = false ∧ ((s.part 0).queue 0).en = true ∧
    (2 : DWord).toNat ≤ ((s.part 0).queue 0).rd.toNat + 2 ^ ((s.part 0).queue 0).size ∧
    ((s.part 0).queue 0).rd.toNat + 2 ^ ((s.part 0).queue 0).size < (17 : DWord).toNat ∧ s.fw.rungs = [] ∧
    mayTake (dev id) 0 0 = false := by decide

/-- A packet that may be taken: NOP; WAIT, reached and not; LAUNCH; and one of a type that does not exist. -/
theorem witness_CommandQueues_packets :
    (∀ w ∈ [nopPk, waitPk 0, waitPk 5, launchPk],
      mayTake (withPk w) 0 0 = true ∧ packetAt (withPk w) 0 0 = .inr w ∧ packetOk (((withPk w).part 0).queue 0) w = true) ∧
    pkType nopPk = 0 ∧
    (∀ w ∈ [waitPk 0, waitPk 5], pkType w = 2 ∧ feAccess (withPk w) feCore 0 (pkSig w).toNat 8 8 [.rd] false = .ok 0x10200) ∧
    (pkVal (waitPk 0)).toNat ≤ ((withPk (waitPk 0)).read64 0x10200).toNat ∧
    ((withPk (waitPk 5)).read64 0x10200).toNat < (pkVal (waitPk 5)).toNat ∧
    (let s := withPk launchPk
     pkType launchPk = 1 ∧ gridsOpen s 0 < Config.gridTable ∧
       feAccess s feCore 0 (pkCode launchPk).toNat 128 128 [.rd] false = .ok 0x10800 ∧ headerOk (wordsOf s 0x10800 32) 0 [0, 0, 1] = true) ∧
    (let s := dev id id (fun s => { queued launchPk s with grids := (span 0 Config.gridTable).map (fun n => (n, grid 0)) })
     mayTake s 0 0 = true ∧ packetAt s 0 0 = .inr launchPk ∧ Config.gridTable ≤ gridsOpen s 0) ∧
    (let w := packet 7 0 0 0
     let s := withPk w
     mayTake s 0 0 = true ∧ packetAt s 0 0 = .inr w ∧ packetOk ((s.part 0).queue 0) w = false ∧ 2 < pkType w ∧
       (s.part 0).report = none ∧ s.reports.length < 65536) := by decide +kernel

/-- A launch and its grid of two teams, both still to be placed. -/
def launch0 : Launch := ⟨0, 0, 0, 1, 7, 5, .device, 0x10200, 9, false, 0, []⟩
def grid0 (prio : Nat) : Grid := { grid 0 with next := 0, prio := prio }
def launched (s : State) : State := { s with launches := [(0, launch0)] }

def isDue (w : WaitAt) (s : State) : State := { s with due := [w] }

/-- A counter that is due to be read again, at its target and below it; a wait that is not due; a WAIT packet likewise. -/
theorem witness_CommandQueues_reread :
    (∀ n ∈ [0, 1], let s := dev (fun y => { y with status := .waiting (.cwait 0x10080 (BitVec.ofNat 32 n) 0x10080) }) id (isDue (.group 0 0))
      s.team? 0 = some (tm0 s) ∧ s.group? 0 0 = some (gr0 s) ∧ (tm0 s).status = .resident ∧ (tm0 s).handler = none ∧
        (gr0 s).status = .waiting (.cwait 0x10080 (BitVec.ofNat 32 n) 0x10080) ∧ mayReread s (.group 0 0) = true ∧
        (n = 0 → cwaitRead s ⟨0, 0, tm0 s, gr0 s, 0⟩ 0x10080 0 = .reached 0x10080 ∧ ownPending ⟨0, 0, tm0 s, gr0 s, 0⟩ 0x10080 = false ∧
          logFree (s.core (tm0 s).core) ≠ 0) ∧
        (n = 1 → cwaitRead s ⟨0, 0, tm0 s, gr0 s, 0⟩ 0x10080 1 = .short 0x10080)) ∧
    mayReread (dev id) (.group 0 0) = false ∧
    (∀ n ∈ [0, 5], let w := waitPk (BitVec.ofNat 32 n)
      let s := dev id id (fun s => isDue (.queue 0 0) ((queued w s).updPart 0 (fun p => { p with queues := [(0, { queue0 with wait := some w })] })))
      mayReread s (.queue 0 0) = true ∧ ((s.part 0).queue 0).wait = some w ∧ ((s.part 0).queue 0).en = true ∧
        s.pausedOn ((s.part 0).queue 0).die = false ∧ (s.front ((s.part 0).queue 0).die).inReset = false ∧
        feAccess s feCore 0 (pkSig w).toNat 8 8 [.rd] false = .ok 0x10200 ∧
        (n = 0 → (pkVal w).toNat ≤ (s.read64 0x10200).toNat) ∧ (n = 5 → (s.read64 0x10200).toNat < (pkVal w).toNat)) := by decide +kernel

theorem witness_CommandQueues_rest :
    (∀ y ∈ [id, fun (y : Group) => { y with status := .waiting (.spawn 90 [] []) }],
     let p : PendLaunch := ⟨1, true, [], [], 0⟩
     let s := dev y (fun m => { m with pendq := [p] }) launched
     s.team? 0 = some (tm0 s) ∧ (tm0 s).pendq = p :: [] ∧ p.accepted = true ∧ gridsOpen s (tm0 s).part < Config.gridTable ∧
       alook s.launches (tm0 s).launch = some launch0 ∧ s.pausedOn launch0.die = false ∧ (s.front launch0.die).inReset = false ∧
       (tm0 s).groups = [(0, gr0 s)] ∧ (tm0 s).status = .resident ∧ (tm0 s).handler = none ∧ counterFree s (tm0 s).launch = true ∧
       logFree (s.core (tm0 s).core) ≠ 0) ∧
    ((gr0 (dev id)).status = .ready ∧
      (gr0 (dev (fun y => { y with status := .waiting (.spawn 90 [] []) }))).status = .waiting (.spawn 90 [] [])) ∧
    (let s := dev id id (fun s => s.updPart 0 (fun p => { p with report := some ⟨0x20000, 6, 0x10100, 3, 0⟩ }))
     (s.part 0).report = some ⟨0x20000, 6, 0x10100, 3, 0⟩ ∧ s.reports = [] ∧ ∀ p ∈ s.parts, p.2.lost = 0) := by decide

/-- Queue 0 enabled, a grid of priority 3 that waits, the cores that the partition may use, and a save area. -/
def waiting (cores : List (Nat × DWord)) (f : Partition → Partition) (s : State) : State :=
  (launched { s with grids := [(0, grid0 3)] }).updPart 0 (fun p =>
    f { p with queues := [(0, queue0)], plim := cores, savePool := [(0, 0x800000)] })

def wholeCore : DWord := BitVec.ofNat 64 (64 + 512 * 2 ^ 7)

/-- A decision's view, and one by the built-in rule. -/
def deci (s : State) (kind team : Nat) : Decision := (decisionFor s 0 0 kind team).getD ⟨9, 9, 9, ⟨[], [], [], []⟩, none, 0⟩

/-- No core to use: HALT. Core 5 to use: queue 0 on candidate 0. -/
theorem witness_Decisions_dispatch :
    (let s := dev id id (waiting [] id)
     decisionFor s 0 0 0 0 = some (deci s 0 0) ∧ 0 < s.fronts.length ∧ decideBy (deci s 0 0).prog 0 (deci s 0 0).view = .halt) ∧
    (let s := dev id id (waiting [(5, wholeCore)] id)
     let d := deci s 0 0
     decisionFor s 0 0 0 0 = some d ∧ 0 < s.fronts.length ∧ decideBy d.prog 0 d.view = .decide 0 0 ∧
       nextItem s 0 0 = some ⟨0, 0, 3, 0, 2, .fresh 0⟩ ∧ alook s.grids 0 = some (grid0 3) ∧ rCoop (grid0 3).record = false ∧
       alook s.launches 0 = some launch0 ∧ d.view.ids[0]? = some 5 ∧
       fits s 5 0 (recNeed (grid0 3).record) = true ∧ (s.part 0).savePool = (0, 0x800000) :: []) := by decide +kernel

/-- The grid is the seed of its queue; a decision with nothing new since its snapshot. -/
theorem witness_Decisions_seed :
    (let s := dev id id (waiting [(5, wholeCore)] (fun p => { p with queues := [(0, { queue0 with seed := some 0 })] }))
     ((s.part 0).queue 0).seed = some 0) ∧
    (let s := dev id id (waiting [(5, wholeCore)] id)
     ((s.part 0).queue 0).seed ≠ some 0) ∧
    (let s := dev id id (waiting [] id)
     (s.front 0).deciding = none) ∧
    (let s := dev id id (fun s => (waiting [] (fun p => { p with rested := [0] }) s).updFront 0 (fun f => { f with deciding := some (deci s 0 0) }))
     0 ∈ (s.part 0).rested) := by decide +kernel

theorem witness_Decisions_preempt :
    let s := dev id id (waiting [] (fun p => { p with starved := [0] }))
    let d := deci s 1 0
    decisionFor s 0 0 1 0 = some d ∧ decideBy d.prog 1 d.view = .decide 0 (BitVec.ofNat 64 (2 ^ 20)) ∧ d.view.ids[0]? = some 0 ∧
    s.team? 0 = some (tm0 s) ∧ (tm0 s).status = .resident ∧ (2 ^ 20) % 2 ^ 32 ≠ 0 := by decide +kernel

/-- A team killed by an operand fetch, before its first relaunch and after its second. -/
def killed (tries : Nat) : FaultRec := ⟨7, 0, 0, 0, 0, 3, 1, tries, 2⟩

/-- The policy program of these words, or the built-in rule. -/
def ruled (ws : List Word) (p : Partition) : Partition :=
  if ws.isEmpty then p else { p with policyA := ws, ppol := putField p.ppol 27 27 1 }

/-- PLDI X0, a; PDECIDE X0, X1: action a with 0. -/
def act (a : Word) : List Word := [1, 0x08000000 + a, 0x80020000]

theorem witness_Decisions_fault :
    let at1 := fun (tries : Nat) (ws : List Word) => dev id id (fun s => { waiting [] (fun p => { ruled ws p with retry := 2 }) s with faults := [killed tries] })
    (∀ e ∈ ([(0, []), (2, []), (0, act 2), (0, act 1), (0, [0, 0x84000000])] : List (Nat × List Word)), let s := at1 e.1 e.2
      faultOf s 7 = some (killed e.1) ∧ decisionFor s (faultDie s (killed e.1)) 0 2 7 = some (deci s 2 7) ∧
        alook s.launches 0 = some launch0 ∧ alook s.grids 0 = some (grid0 3)) ∧
    (let d := deci (at1 0 []) 2 7; decideBy d.prog 2 d.view = .decide 0 2 ∧ 0 < (2 : DWord).toNat ∧ (2 : DWord).toNat ≤ 2) ∧
    (let d := deci (at1 2 []) 2 7; decideBy d.prog 2 d.view = .decide 0 2) ∧
    (let d := deci (at1 0 (act 2)) 2 7; decideBy d.prog 2 d.view = .decide 2 0 ∧ 0 < ((at1 0 (act 2)).part 0).retry) ∧
    (let d := deci (at1 0 (act 1)) 2 7; decideBy d.prog 2 d.view = .decide 1 0) ∧
    (let d := deci (at1 0 [0, 0x84000000]) 2 7; decideBy d.prog 2 d.view = .halt) := by decide +kernel

theorem witness_Decisions_overrun :
    let d : Decision := ⟨0, 1, 0, ⟨[], [], [], []⟩, some [0x84000000], 0⟩
    let s := dev id id (fun s => s.updFront 0 (fun f => { f with deciding := some d }))
    (s.front 0).deciding = some d ∧ d.part = 0 ∧ d.prog = some [0x84000000] ∧ d.kind = 1 ∧ d.view.cands = [] ∧ d.gen = (s.part 0).gen ∧
    0 < s.fronts.length := by decide

/-! ### Firmware, the ladder and Beret -/

/-- Core 1 wrote its HEALTH at tick 20,000, which it is now. -/
def alive (f : Firmware → Firmware) : State :=
  { State.reset with tick := 20000, fw := f { Firmware.idle with health := [0, 20001, 0, 0, 0] } }

def blob0 (v : DWord) : Blob := ⟨v, [], [], [], [], [], [], [], [], []⟩

/-- A core that runs and one whose die is in reset; a core that has not written for 15,625 ticks, one that has, one whose lapse is
known, tick 15,625, and a number that is no core's. -/
theorem witness_FirmwareAndLease_health :
    let s := alive id
    let reset := { s with fronts := s.fronts.map (fun f => { f with inReset := true }) }
    (runs s 0 = true ∧ 0 < s.fw.health.length) ∧ (runs s 4 = true ∧ 4 < s.fw.health.length) ∧ runs reset 0 = false ∧
    (2 < 5 ∧ s.fw.health.getD 2 0 + 15625 < s.tick + 1 ∧ 15625 < s.tick ∧ s.tick < 2 ^ 48 ∧ 2 ∉ s.fw.down ∧ s.fw.rungs = []) ∧
    healthy s 1 = true ∧ 2 ∈ (alive (fun f => { f with down := [2] })).fw.down ∧ { s with tick := 15625 }.tick ≤ 15625 := by decide

/-- The holder before its lease's end, another core; the lapsed lease and its taker. -/
theorem witness_FirmwareAndLease_lease :
    let renew := alive (fun f => { f with lease := leaseWord 1 5 20001 })
    let lapsed := alive (fun f => { f with lease := leaseWord 1 5 20000 })
    (let v := leaseWord 1 5 30000
     leaseValid renew.fw.lease = true ∧ renew.tick < leaseEnd renew.fw.lease ∧ 1 = leaseHolder renew.fw.lease ∧ renew.fw.demoted = false ∧
       runs renew 1 = true ∧ leaseHolder v = 1 ∧ leaseValid v = true ∧ leaseEpoch v = leaseEpoch renew.fw.lease ∧
       leaseEnd v ≤ renew.tick + 78125 ∧ renew.tick < leaseEnd v ∧ 2 ≠ leaseHolder renew.fw.lease) ∧
    (let v := leaseWord 1 6 30000
     let beret := { lapsed with fw := { lapsed.fw with update := .installing, updCtrl := .beret, queued := [.tick] } }
     updating beret = true ∧ beret.fw.updCtrl = .beret ∧ leaseEnd beret.fw.lease ≤ beret.tick ∧ lowestHealthy beret = some 1 ∧
       runs beret 1 = true ∧ updating lapsed = false ∧ leaseEnd lapsed.fw.lease ≤ lapsed.tick ∧ lowestHealthy lapsed = some 1 ∧ runs lapsed 1 = true ∧
       leaseHolder v = 1 ∧ leaseEpoch v = (leaseEpoch lapsed.fw.lease + 1) % 4096 ∧ leaseValid v = true ∧ lapsed.tick < leaseEnd v ∧
       leaseValid lapsed.fw.lease = true ∧ lowestHealthy lapsed ≠ some 2) ∧
    leaseValid (alive id).fw.lease = false := by decide

/-- The close of an update whose recorded holder is healthy, of one whose is not, of a roll-back without a blob; none to take the lease;
another phase. -/
theorem witness_FirmwareAndLease_restore :
    let rec' := leaseWord 1 5 20000
    let other := leaseWord 2 5 20000
    let a := alive (fun f => { f with update := .committed, blob := some (blob0 rec') })
    let b := alive (fun f => { f with update := .reinstalled, lease := other })
    let c := { b with fw := { b.fw with health := [0, 0, 0, 0, 0] } }
    (a.tick + 78125 < 2 ^ 48 ∧ a.fw.blob = some (blob0 rec') ∧ (blob0 rec').lease = rec' ∧ a.fw.update = .committed ∧
      healthy a (leaseHolder rec') = true) ∧
    (b.tick + 78125 < 2 ^ 48 ∧ b.fw.blob = none ∧ b.fw.lease = other ∧ b.fw.update = .reinstalled ∧
      healthy b (leaseHolder other) = false ∧ lowestHealthy b = some 1) ∧
    (c.fw.blob = none ∧ c.fw.lease = other ∧ healthy c (leaseHolder other) = false ∧ lowestHealthy c = none) ∧
    ((alive id).fw.update ≠ .committed ∧ (alive id).fw.update ≠ .reinstalled) := by decide

/-- A device with a leader, and partition 0 as given. -/
def ruledBy (f : Partition → Partition) (g : State → State := id) : State := g (led (State.reset.updPart 0 f))
def loading (p : Partition) : Partition := { p with ppol := putField p.ppol 33 33 1 }

/-- Values that each register takes, and those that TVBASE and FTPOOL refuse; writers that are not the leader; an update under way with
room for requests and with none. -/
theorem witness_ManagementWrites_registers :
    let s := ruledBy id
    let held' := { s with fw := { s.fw with update := .captured } }
    let full := { held' with fw := { held'.fw with queued := List.replicate 256 .tick } }
    (leader s = some 1 ∧ leaseEpoch s.fw.lease = 5 ∧ updating s = false) ∧ (leader s ≠ some 2 ∧ leaseEpoch s.fw.lease ≠ 6) ∧
    (leader held' = some 1 ∧ leaseEpoch held'.fw.lease = 5 ∧ updating held' = true ∧ waitingRequests held' < 256) ∧
    (leader full = some 1 ∧ leaseEpoch full.fw.lease = 5 ∧ updating full = true ∧ 256 ≤ waitingRequests full) ∧
    (field64 0x7FFFFFFFFFFF00 63 55 = 0 ∧ field64 0x7FFFFFFFFFFF00 7 0 = 0 ∧ field64 (2 ^ 55) 63 55 ≠ 0 ∧ field64 1 7 0 ≠ 0) ∧
    (field64 0xFFFFFFFFFFFF0000 15 0 = 0 ∧ field64 0x8000 15 0 ≠ 0) ∧
    ((0x410000 : DWord).toNat % 65536 = 0 ∧ (0x410000 : DWord).toNat < 2 ^ 52) ∧
    ((0x400000 : DWord).toNat % 2 ^ 22 = 0 ∧ (0x400000 : DWord).toNat < 2 ^ 55 ∧ targetOf (0x400000 : DWord).toNat = .hbm) ∧
    (fieldOf 9 31 4 = 0 ∧ fieldOf 9 1 0 ≤ 1 ∧ (9 : Word).getLsbD 3 = true) ∧ (fieldOf 1 31 4 = 0 ∧ fieldOf 1 1 0 ≤ 1 ∧ (1 : Word).getLsbD 3 = false) ∧
    plimOk wholeCore = true ∧ (9 ≤ 15 ∧ (∀ q ∈ s.parts, q.1 ≠ 0 → q.2.owner ≠ 16)) ∧
    (let o := { s with parts := s.parts ++ [(1, { Partition.idle with owner := 3 })] }
     (leader o = some 1 ∧ leaseEpoch o.fw.lease = 5 ∧ updating o = false) ∧ ∃ q ∈ o.parts, q.1 ≠ 0 ∧ q.2.owner = 3) := by decide +kernel

/-- A way that leaves unflushed, one that leaves with a line in it, and none; a slice that flushes. -/
theorem witness_ManagementWrites_ways :
    let s := ruledBy id
    let flushed := s.putSlice 3 { s.slice 3 with flushed := 1 }
    let taken := { flushed with lines := [(5, ⟨[(2051, ⟨.s, 0, [0]⟩)], [2051], none, 0, 0⟩)] }
    let busy := s.putSlice 3 { s.slice 3 with busy := true, flushing := 2 }
    let leaving := fun (s : State) (v : Word) => (s.slice 3).ways &&& ~~~(v.setWidth 16) &&& ~~~(s.slice 3).flushed
    let held := fun (s : State) (v : Word) => (heldWays s 3).any ((s.slice 3).ways &&& ~~~(v.setWidth 16)).getLsbD
    (fieldOf 0xFFFE 31 18 = 0 ∧ leaving s 0xFFFE ≠ 0) ∧ (leaving taken 0xFFFE = 0 ∧ held taken 0xFFFE = true) ∧
    (leaving flushed 0xFFFE = 0 ∧ held flushed 0xFFFE = false) ∧ (s.slice 3).busy = false ∧ (busy.slice 3).busy = true := by decide

theorem witness_ManagementWrites_policy :
    (((ruledBy loading).part 0).ppol.getLsbD 33 = true ∧ (verifyImage ((ruledBy loading).part 0).shadowImage).1 ≠ 0) ∧
    (let t := ruledBy (fun p => loading { p with policyA := [0, 0x84000000], policyB := [0, 0x84000000] })
     (t.part 0).ppol.getLsbD 33 = true ∧ (verifyImage (t.part 0).shadowImage).1 = 0) ∧
    (let t := ruledBy (fun p => { p with ppol := putField p.ppol 32 32 1 })
     (t.part 0).ppol.getLsbD 33 = false ∧ (t.part 0).ppol.getLsbD 32 = true) := by decide +kernel

/-- A rung that should have been done at tick 50. -/
def rung (n u : Nat) (s : State) : State := { s with fw := { s.fw with rungs := [⟨n, u, some 50, none⟩] } }

theorem witness_ResetLadder :
    let s := ruledBy (fun p => { p with queues := [(0, queue0)], owner := 2 })
    ((leader s).isSome = true ∧ updating s = false ∧ (alook (s.part 0).queues 0).isSome = true ∧ 0 < s.fronts.length) ∧
    leader State.reset = none ∧ s.fw.rungs = [] ∧
    (let t := launched (s.updFront 0 (fun f => { f with tableBad := true }))
     (leader t).isSome = true ∧ updating t = false ∧ 0 < t.fronts.length ∧ (t.front 0).tableBad = true ∧
       (∀ r ∈ t.fw.rungs, r.rung = 2 ∧ r.target = 0) ∧ ∃ l ∈ t.launches, l.2.die = 0) ∧
    leader s = some 1 ∧ 1 < s.fronts.length ∧
    (updating s = false ∧ s.launches = [] ∧ asorted s.parts = true ∧ ∀ p ∈ s.parts, ∀ q ∈ p.2.queues, q.2.wait = none) ∧
    (let t := launched s
     updating t = false ∧ alook t.launches 0 = some launch0 ∧ t.launches.length = 1 ∧ t.grids = [] ∧ t.reports = [] ∧ unseenReports t = [] ∧
       ∀ p ∈ t.parts, ∀ q ∈ p.2.queues, ((t.part p.1).queue q.1).wait = none) ∧
    (s.cores = [] ∧ s.beret.log.length + 8 ≤ flashRing ∧ s.fw.configOk = true) ∧
    (let t := State.reset.updCore 3 (fun c => { c with debugHalt := true })
     t.cores.length = 1 ∧ (t.core 3).debugHalt = true ∧ t.launches = [] ∧ asorted t.parts = true ∧ updating t = false) ∧
    (let t := s.updFront 1 (fun f => { f with inReset := true })
     t.fw.configOk = true ∧ (t.front 1).inReset = true) ∧
    updating { s with fw := { s.fw with update := .captured } } = true ∧
    (∃ p ∈ s.parts, p.2.owner = 2) ∧
    ∀ e ∈ [(1, 70), (2, 3), (2, 4), (3, 1), (4, 2), (5, 0)], let t := dev id id (rung e.1 e.2)
      t.fw.rungs = [⟨e.1, e.2, some 50, none⟩] ∧ 50 < t.tick ∧ updating t = false := by decide

theorem witness_MailboxCommands :
    let s := ruledBy (fun p => { p with queues := [(0, queue0)], owner := 2 })
    let bare := { s with fw := { s.fw with keyValid := false } }
    (s.fw.beretRun = true ∧ ({ s with fw := { s.fw with beretRun := false } }).fw.beretRun = false) ∧
    s.fw.mgmtOnly = false ∧ gateRequest s = .go ∧ s.fw.keyValid = true ∧ (List.replicate 32 (0 : Byte)).length = 32 ∧
    (bare.fw.mgmtOnly = false ∧ bare.fw.keyValid = false) ∧ (700 ≤ s.beret.cfgLimit ∧ s.beret.cfgLimit < 3000) ∧
    alook s.parts 0 = some (s.part 0) ∧ (alook (s.part 0).queues 0).isSome = true ∧ (s.part 0).ppol.getLsbD 33 = false ∧
    (s.part 0).ppol.getLsbD 32 = false ∧
    (let t := ruledBy (fun p => { p with owner := 2, ppol := putField p.ppol 32 32 1 })
     alook t.parts 0 = some (t.part 0) ∧ (t.part 0).owner = 2 ∧ (t.part 0).ppol.getLsbD 33 = false ∧ (t.part 0).ppol.getLsbD 32 = true ∧
       gateRequest t = .go) ∧
    (s.part 0).owner = 2 ∧ (s.part 0).owner ≠ 3 ∧ rungTarget s 3 0 0 = some 0 ∧ rungTarget s 1 0 0 = some 0 ∧ s.fw.rungs = [] := by decide

/-- The old image's cores are to install, in a pause that began at tick 90. -/
def installing (c : Controller) (b : Option Blob) : State :=
  dev id id (fun s => { s with
    fw := { s.fw with update := .installing, updCtrl := c, blob := b, watchdog := 100 }
    fronts := s.fronts.map (fun f => { f with paused := true, pauseSince := 90 }) })

theorem witness_UpdatesAndSensors :
    (let s := ruledBy id
     let t := ruledBy id (fun s => { s with fw := { s.fw with fwB := ⟨[], true⟩ } })
     s.fw.beretRun = true ∧ s.fw.mgmtOnly = false ∧ gateRequest s = .go ∧ (s.fw.inactive .fw).verified = false ∧
       ((verifies s (controllerNo .fw) (s.fw.inactive .fw)) = true ∨ (verifies s (controllerNo .fw) (s.fw.inactive .fw)) = false) ∧
       gateRequest t = .go ∧ (t.fw.inactive .fw).verified = true ∧ verifies t (controllerNo .fw) (t.fw.inactive .fw) = true) ∧
    (let s := installing .fw (some (blob0 0))
     s.fw.update = .installing ∧ s.fw.updCtrl = .fw ∧ (∀ d, d < 4 → s.pausedOn d = true) ∧ s.fw.watchdog ≤ s.tick ∧
       s.fw.blob = some (blob0 0) ∧ numAt s.fw.sram 0 4 ≠ 0x48425848) ∧
    (let s := installing .beret none
     s.fw.update = .installing ∧ s.fw.updCtrl = .beret ∧ s.fw.blob = none ∧ (∀ d, d < 4 → s.pausedOn d = true) ∧ blobAccepted s = true) ∧
    (blobAccepted (installing .fw none) = false ∧ (installing .fw none).fw.update = .installing) ∧
    (let s := launched (installing .fw (some (blob0 0)))
     s.fw.update = .installing ∧ s.fw.blob = some (blob0 0) ∧ ∃ e ∈ s.launches, alook (blob0 0).launches e.1 = none) ∧
    (let s := { installing .fw (some (blob0 0)) with grids := [(0, grid 1)] }
     s.fw.update = .installing ∧ s.fw.blob = some (blob0 0) ∧ ∃ e ∈ s.grids, alook (blob0 0).grids e.1 = none) ∧
    (let s := { installing .fw none with tick := 99 }
     s.fw.update = .installing ∧ s.tick < s.fw.watchdog) ∧
    (let s := installing .fw none
     let t := { s with tick := 8000 }
     (0 < s.fronts.length ∧ (s.front 0).paused = true ∧ s.tick < (s.front 0).pauseSince + 7813) ∧
       (0 < t.fronts.length ∧ (t.front 0).paused = true ∧ (t.front 0).pauseSince + 7813 ≤ t.tick)) ∧
    (let r : Readings := { Readings.zero with junction := [0, 0, 500, 0, 400, 0, 0, 0, 430, 0, 0, 0], power := 2900 }
     State.reset.fronts.length = 4 ∧ hottest r 0 = 500 ∧ hottest r 1 = 400 ∧ hottest r 2 = 430 ∧ hottest r 3 = 0 ∧
       min 2800 (min State.reset.beret.cfgLimit State.reset.beret.powerLim) < r.power) :=
  ⟨⟨by decide, by decide, by decide, by decide, (Bool.eq_false_or_eq_true _), by decide, by decide, by decide⟩, by decide, by decide, by decide,
    by decide, by decide⟩

/-! ### Words and steps -/

theorem witness_DecodeOfEncode : (Instr.sadd true 5 2 3).wf = true ∧ encode (.sadd true 5 2 3) = some 0x80814103 := by decide

theorem witness_WordsHaveOneMeaning :
    decode 0x80814103 = .instr (.sadd true 5 2 3) ∧ decode 0 = .illegalInstruction ∧
    decode 0b0_00000001_01_0000101_0000010_0000011 = .illegalEncoding := by decide

/-- The port of the only group fetches SADD S5, S2, S3; a port with nothing to issue; an event; a device without power. -/
theorem witness_StepRunsTheInstruction :
    (let s := State.reset.withFetchWord 32 0x80814103
     let x := (siteOf s 0 0).getD ⟨0, 0, soloTeam .vector, Group.fresh .vector 0 0 16 0, 0⟩
     s.powered = true ∧ s.agenda = [.issue 0 2] ∧ (portIssue (passCycles { s with agenda := [] }) 0 2).map (·.2) = some (.sadd true 5 2 3) ∧
       s.sleeping = false ∧ ((s.core 0).ports.getD 2 Port.idle).holder = some (0, 0) ∧ siteOf s 0 0 = some x ∧ x.gr.rep = none ∧ x.gr.xop = none ∧
       mayIssue s x = true ∧ fetchAt s x = .word 0x10000 0x80814103 ∧ decode 0x80814103 = .instr (.sadd true 5 2 3) ∧
       (∀ o ∈ x.gr.done, o.stat = none) ∧ ∀ e ∈ s.teams, ∀ p ∈ e.2.perf, countsCycles p.2 = false) ∧
    (let s := { State.reset with agenda := [.issue 0 2] }
     s.powered = true ∧ s.agenda = .issue 0 2 :: [] ∧ portIssue (passCycles { s with agenda := [] }) 0 2 = none ∧ waitKeys s = []) ∧
    (let s := { State.reset with agenda := [.event .tick] }
     s.agenda = .event .tick :: [] ∧ s.powered = true) ∧
    (let s := { State.reset with agenda := [.event .tick], powered := false }
     s.powered = false ∧ Move.event .tick ≠ .event .powerOn) := by decide

theorem witness_MemoryFormKept :
    let s := State.reset.withFetchWord 32 0x80814103
    Memory.wf s.mem ∧ (match Machine.step s with | .next _ => true | _ => false) = true := by decide

end Sys2Proof.Tests
end

/-! SUPPORT. Register pairs, and what the instructions do that end their run at a place of their own (R39, R90, R373). -/
namespace Sys2Proof.Laws
open Sys2Proof Sys2Proof.Machine

/-! ### Register pairs -/

/-- What a write of S[r]:S[r + 1] does. -/
theorem setPair_spec (y : Group) (r : Nat) (v : DWord) :
    (y.setPair r v).getS = upd (upd y.getS r (loWord v)) (r + 1) (hiWord v) ∧
    y.setPair r v = { y with s := (y.setPair r v).s, bad := (y.setPair r v).bad } ∧
    ∀ a ∈ (y.setPair r v).bad, a ∈ y.bad := by
  refine ⟨?_, rfl, fun a h => mem_setS (mem_setS h)⟩
  funext q
  simp only [Group.setPair, getS_setS, upd]

/-! ### The end of a run -/

/-- The end of a run changes a group's status, TCAUSE and the counts of its run and nothing else. -/
theorem runEnded_rest (m : Team) (g : Nat) (y : Group) :
    runEnded m g y = { y with runPos := 0, passes := 0, starving := none } ∨
    (m.handler ≠ none ∧ m.handler ≠ some g ∧
      runEnded m g y =
        { y with runPos := 0, passes := 0, starving := none, status := GStatus.halted, tcause := haltCause y.skid }) := by
  unfold runEnded
  dsimp only
  split
  next h =>
    have hh : m.handler.isSome = true ∧ m.handler ≠ some g := by simpa [Team.handled] using h.1
    exact .inr ⟨Option.isSome_iff_ne_none.1 hh.1, hh.2, rfl⟩
  next => exact .inl rfl

/-- Where a group stands: all that a control transfer or REP decides. -/
def placeOf (y : Group) : DWord × Option RepPos × Option Lanes × Option XopResume × List ResumePt :=
  (y.pc, y.rep, y.replay, y.xop, y.redo)

@[simp] theorem placeOf_runEnded (m : Team) (g : Nat) (y : Group) : placeOf (runEnded m g y) = placeOf y := by
  rcases runEnded_rest m g y with h | ⟨-, -, h⟩ <;> rw [h] <;> rfl

/-- Counting the issue changes a group's skid and nothing else. -/
theorem issueCounted_rest (m : Team) (g : Nat) (y : Group) :
    issueCounted m g y = { y with skid := (issueCounted m g y).skid, midway := (issueCounted m g y).midway } := by
  unfold issueCounted
  split <;> rfl

@[simp] theorem placeOf_issueCounted (m : Team) (g : Nat) (y : Group) : placeOf (issueCounted m g y) = placeOf y := by
  rw [issueCounted_rest]; rfl

@[simp] theorem issueCounted_status (m : Team) (g : Nat) (y : Group) : (issueCounted m g y).status = y.status := by
  rw [issueCounted_rest]

theorem issueCounted_congr {m n : Team} (h : n.handler = m.handler) (g : Nat) : issueCounted n g = issueCounted m g := by
  funext y; unfold issueCounted Team.handled; rw [h]

/-! ### Instructions that end their run at a place of their own -/

/-- The end of such an instruction: its issue is counted, f places the group, and the run ends. -/
def issuedTo (s : State) (k g : Nat) (f : Group → Group) : State := endRun ((noteIssue s k g).updGroup k g f) k g

/-- The group at an address, out of REP, of a replay and of discarded releases. -/
def movedTo (pc : DWord) (y : Group) : Group :=
  { y with pc := pc, rep := none, replay := none, xop := none, redo := [], status := y.status.resumed }

/-- w is the group c at another place, with a status of its own. -/
def PlacedFrom (c w : Group) (st : GStatus) : Prop :=
  w = { c with pc := w.pc, rep := w.rep, replay := w.replay, xop := w.xop, redo := w.redo, status := st }

theorem finishAt_eq (s : State) (k g : Nat) (pc : DWord) : finishAt s k g pc = issuedTo s k g (movedTo pc) := by
  have hf : (fun y : Group =>
      let y := { y with replay := none, xop := none, rep := none, status := y.status.resumed }
      match y.redo with
      | [] => { y with pc := pc }
      | _ => { y with redo := [], pc := pc }) = movedTo pc := by
    funext y
    cases h : y.redo <;> simp only [movedTo]
  exact congrArg (issuedTo s k g) hf

theorem near_issuedTo (s : State) (k g : Nat) (f : Group → Group) : Near s (issuedTo s k g f) k g :=
  ((near_noteIssue ..).trans (near_updGroup ..)).trans (near_endRun ..)

theorem team_issuedTo {s : State} {k g : Nat} {m : Team} {y : Group} (f : Group → Group) (h : s.team? k = some m)
    (hy : m.group? g = some y) :
    ∃ n, (issuedTo s k g f).team? k = some n ∧ n.flags = m.flags ∧ n.perf = (m.count 2 1).perf ∧
      n.group? g = some (runEnded m g (f (issueCounted m g y))) := by
  obtain ⟨n, hn, hflags, hhandler, -, hperf, hgroup⟩ := team_noteIssue g h
  refine ⟨_, team_endRun g (team_updGroup g f hn), by simp only [updGroup_flags, hflags],
    by simp only [updGroup_perf, hperf], ?_⟩
  have hcongr : runEnded (n.updGroup g f) g = runEnded m g := runEnded_congr (by simp only [updGroup_handler, hhandler]) g
  rw [updGroup_group, updGroup_group, hgroup, hy, hcongr]
  rfl

/-- What a group holds after an instruction that has written registers (y, of the group b) and placed the group (w). -/
theorem after_placed (x : Site) {b y w : Group} (hy : y = { b with s := y.s, v := y.v, k := y.k, bad := y.bad })
    (hb : ∀ a ∈ y.bad, a ∈ b.bad) (hw : PlacedFrom (issueCounted x.tm x.g y) w b.status.resumed) :
    After x b (runEnded x.tm x.g w) y.getS y.getV y.getK := by
  unfold PlacedFrom at hw
  rw [issueCounted_rest] at hw
  obtain ⟨s, v, k, bad, rfl⟩ : ∃ s v k bad, y = { b with s := s, v := v, k := k, bad := bad } := ⟨_, _, _, _, hy⟩
  rcases runEnded_rest x.tm x.g w with h | ⟨h1, h2, h⟩
  · rw [h, hw]
    exact ⟨fun _ => rfl, fun _ _ _ => rfl, fun _ => rfl, rfl, hb, .inl rfl, .inl rfl⟩
  · rw [h, hw]
    exact ⟨fun _ => rfl, fun _ _ _ => rfl, fun _ => rfl, rfl, hb, .inr rfl, .inr ⟨h1, h2⟩⟩

/-- An instruction that ends its run: u is the state s0 with its own writes to the group's registers, and f places the group. -/
theorem completesVia_issuedTo {s s0 u : State} {x : Site} {i : Instr} {b y : Group} {m : Team} {f : Group → Group}
    {P : Group → Prop} (h : exec i s = .next (issuedTo u x.t x.g f)) (hn : Near s0 u x.t x.g) (ht : u.team? x.t = some m)
    (hm : m = { x.tm with groups := m.groups }) (hg : m.group? x.g = some y)
    (hy : y = { b with s := y.s, v := y.v, k := y.k, bad := y.bad }) (hb : ∀ a ∈ y.bad, a ∈ b.bad)
    (hf : PlacedFrom (issueCounted x.tm x.g y) (f (issueCounted x.tm x.g y)) b.status.resumed)
    (hP : ∀ z, placeOf z = placeOf (f (issueCounted x.tm x.g y)) → P z) :
    CompletesVia i s s0 x 0 b P y.getS y.getV y.getK := by
  obtain ⟨n, hteam, hflags, hperf, hgroup⟩ := team_issuedTo f ht hg
  have hh : m.handler = x.tm.handler := by rw [hm]
  rw [issueCounted_congr hh, runEnded_congr hh] at hgroup
  have near := hn.trans (near_issuedTo u x.t x.g f)
  refine ⟨_, _, h, ⟨near.rest, near.cores, near.others, near.mates, n, hteam, ?_⟩,
    by rw [State.group?, hteam]; exact hgroup, after_placed x hy hb hf, hP _ (placeOf_runEnded ..)⟩
  obtain ⟨n', hn', e⟩ := (near_issuedTo u x.t x.g f).team m ht
  obtain rfl : n = n' := Option.some.inj (hteam.symm.trans hn')
  rw [e, hflags, hperf, hm]
  simp [Team.count]

/-- A control transfer to `pc` by an instruction that has written registers of its group (y, of the group b). -/
theorem completesVia_finishAt {s s0 u : State} {x : Site} {i : Instr} {b y : Group} {m : Team} {pc : DWord}
    (h : exec i s = .next (finishAt u x.t x.g pc)) (hn : Near s0 u x.t x.g) (ht : u.team? x.t = some m)
    (hm : m = { x.tm with groups := m.groups }) (hg : m.group? x.g = some y)
    (hy : y = { b with s := y.s, v := y.v, k := y.k, bad := y.bad }) (hb : ∀ a ∈ y.bad, a ∈ b.bad) :
    CompletesVia i s s0 x 0 b (atPlace pc) y.getS y.getV y.getK := by
  have hst : (issueCounted x.tm x.g y).status = b.status := by rw [issueCounted_status, hy]
  rw [finishAt_eq] at h
  refine completesVia_issuedTo h hn ht hm hg hy hb (by rw [← hst]; rfl) fun z hz => ?_
  simp only [placeOf, movedTo, Prod.mk.injEq] at hz
  obtain ⟨hpc, hrep, hreplay, hxop, hredo⟩ := hz
  exact ⟨hpc, hrep, hredo, hreplay, hxop⟩

theorem updGroup_rest (m : Team) (g : Nat) (f : Group → Group) : m.updGroup g f = { m with groups := (m.updGroup g f).groups } := by
  unfold Team.updGroup
  split <;> rfl

theorem site?_teamGroup {s : State} {x : Site} (hs : s.site? = some x) : x.tm.group? x.g = some x.gr := by
  have := site?_group hs
  rwa [State.group?, site?_team hs] at this

/-- A control transfer that changes nothing else. -/
theorem completesVia_jump {s : State} {x : Site} {i : Instr} {pc : DWord} (hs : s.site? = some x)
    (h : exec i s = .next (finishAt s x.t x.g pc)) :
    CompletesVia i s s x 0 x.gr (atPlace pc) x.gr.getS x.gr.getV x.gr.getK :=
  completesVia_finishAt h (Near.refl ..) (site?_team hs) rfl (site?_teamGroup hs) rfl fun _ h => h

end Sys2Proof.Laws

/-! SUPPORT. The instructions of Tables 16-5 and 17-3 that set a place or a mask. -/
namespace Sys2Proof.Proofs
open Sys2Proof Sys2Proof.Machine Sys2Proof.Laws

/-! ### Masks and mode -/

/-- A mask instruction with a K destination writes what it computes, cut to the width. -/
theorem writesK_kOp {s : State} {x : Site} {i : Instr} {e : Bool} {d : KNo} {f : Group → Lanes} (h : Runs s x i)
    (hi : exec i s = kOp s i e d f) : WritesK i s x d (f x.gr &&& fullMask x.tm.width) :=
  writesK h.site (hi.trans (issue_runs h _)) rfl

/-- KMOV to S[r]:S[r + 1] (R356). -/
theorem completes_kmovToS {s : State} {x : Site} {e : Bool} {r : RegNo} {a : KNo} (h : Runs s x (.kmovToS e r a)) :
    let v := x.gr.getK a.toNat &&& fullMask x.tm.width
    Completes (.kmovToS e r a) s x 0 x.gr (upd (upd x.gr.getS r.toNat (loWord v)) (r.toNat + 1) (hiWord v))
      x.gr.getV x.gr.getK := by
  intro v
  obtain ⟨hS, hrest, hbad⟩ := setPair_spec x.gr r.toNat v
  have hdone : Completes (.kmovToS e r a) s x 0 x.gr (x.gr.setPair r.toNat v).getS (x.gr.setPair r.toNat v).getV
      (x.gr.setPair r.toNat v).getK :=
    completes_doneWith (f := fun y => y.setPair r.toNat (y.getK a.toNat &&& fullMask x.tm.width)) h.site (issue_runs h _) hrest hbad
  rwa [hS] at hdone

/-- An instruction that sets GMR. -/
theorem completes_setGmr {s : State} {x : Site} {i : Instr} {e : Bool} {v : Word} (hs : s.site? = some x)
    (h : exec i s = doneWith s x e (fun y => { y with gmr := v })) :
    Completes i s x 0 { x.gr with gmr := v } x.gr.getS x.gr.getV x.gr.getK :=
  completes_doneWith (b := { x.gr with gmr := v }) (fl := 0) (f := fun y => { y with gmr := v }) hs h rfl fun _ h => h

theorem exec_modes {s : State} {x : Site} {e : Bool} {a : RegNo} (h : Runs s x (.modes e a)) :
    exec (.modes e a) s = if gmrOk (x.gr.getS a.toNat) then doneWith s x e (fun y => { y with gmr := x.gr.getS a.toNat })
      else .next (trapWhole s x 0x02) := issue_runs h _

/-- Settles O4: each mask instruction is one write of a K register cut to the width, KMOV to S a write of a pair; MODE and MODES
set GMR, or MODES traps on what Table 3-3 refuses. -/
theorem masksAndMode : Obligations.MasksAndMode := by
  unfold Obligations.MasksAndMode
  constructor
  · intro s x e d a b r full p q
    exact ⟨fun h => writesK_kOp h rfl, fun h => writesK_kOp h rfl, fun h => writesK_kOp h rfl, fun h => writesK_kOp h rfl,
      fun h => writesK_kOp h rfl, fun h => writesK_kOp h rfl, completes_kmovToS⟩
  · intro s x e i a
    refine ⟨fun h => ?_, fun h hok => ?_, fun h hbad => ?_⟩
    · rw [BitVec.ofNat_toNat]
      exact completes_setGmr h.site (issue_runs h _)
    · exact completes_setGmr h.site (by rw [exec_modes h, if_pos hok])
    · rw [exec_modes h, if_neg (by rw [hbad]; decide)]

end Sys2Proof.Proofs

/-! SUPPORT. The fields of a word, and the word of a repetition under REP (R374, R375). -/
namespace Sys2Proof.Laws
open Sys2Proof Sys2Proof.Machine

/-! ### Fields of a word (Table 3-13) -/

theorem nD_lt (n : Nat) : nD n < 128 := Nat.mod_lt _ (by decide)
theorem nA_lt (n : Nat) : nA n < 128 := Nat.mod_lt _ (by decide)
theorem nB_lt (n : Nat) : nB n < 128 := Nat.mod_lt _ (by decide)

@[simp] theorem toNat_fD (n : Nat) : (fD n).toNat = nD n := by simp [fD, Nat.mod_eq_of_lt (nD_lt n)]
@[simp] theorem toNat_fA (n : Nat) : (fA n).toNat = nA n := by simp [fA, Nat.mod_eq_of_lt (nA_lt n)]
@[simp] theorem toNat_fB (n : Nat) : (fB n).toNat = nB n := by simp [fB, Nat.mod_eq_of_lt (nB_lt n)]

/-- The immediate of format I stands in the places of a and b. -/
theorem nI_eq (n : Nat) : nI n = nA n * 128 + nB n := by unfold nI nA nB; omega

theorem fWs_congr {m n : Nat} (h : fW m = fW n) : fWs m = fWs n := by unfold fWs; rw [h]

/-- A word with its d, a and b fields raised. -/
def raisedWord (n dd da db : Nat) : Nat := n + dd * 2 ^ 14 + da * 2 ^ 7 + db

/-- Raising d, a and b within their fields changes nothing else of a word. -/
theorem raisedWord_fields {n dd da db : Nat} (hd : nD n + dd ≤ 127) (ha : nA n + da ≤ 127) (hb : nB n + db ≤ 127) :
    let m := raisedWord n dd da db
    fE m = fE n ∧ fOp m = fOp n ∧ fW m = fW n ∧ nD m = nD n + dd ∧ nA m = nA n + da ∧ nB m = nB n + db ∧
      (n < 2 ^ 32 → m < 2 ^ 32) := by
  have htop : raisedWord n dd da db / 2 ^ 21 = n / 2 ^ 21 := by
    unfold raisedWord nD nA nB at *; omega
  have hE : ∀ k, fE k = decide (k / 2 ^ 21 / 2 ^ 10 % 2 = 1) := fun k => by
    rw [fE, Nat.testBit_eq_decide_div_mod_eq, Nat.div_div_eq_div_mul, ← Nat.pow_add]
  have hOp : ∀ k, fOp k = k / 2 ^ 21 / 2 ^ 2 % 256 := fun k => by rw [fOp, Nat.div_div_eq_div_mul, ← Nat.pow_add]
  refine ⟨by rw [hE, hE, htop], by rw [hOp, hOp, htop], by rw [fW, fW, htop], ?_, ?_, ?_, fun h => ?_⟩
  all_goals unfold raisedWord nD nA nB at *; omega

/-! ### Decoding a word with a given opcode -/

theorem need_eq_some {c : Prop} [Decidable c] {i j : Instr} : need c i = some j ↔ c ∧ i = j := by
  unfold need
  split <;> simp_all

theorem decode_eq_instr {w : Word} {i : Instr} :
    decode w = .instr i ↔ opAssigned (fOp w.toNat) = true ∧ decodeFields w.toNat = some i ∧ i.wf = true := by
  unfold decode
  split
  next hop =>
    cases decodeFields w.toNat with
    | none => simp
    | some j =>
      by_cases hj : j.wf = true
      · simp only [hj, if_true, hop, true_and, Decoded.instr.injEq, Option.some.injEq]
        exact ⟨fun h => ⟨h, h ▸ hj⟩, And.left⟩
      · simp only [hj, hop, true_and, Option.some.injEq]
        exact ⟨nofun, fun h => absurd (h.1 ▸ h.2) hj⟩
  next hop => simp [hop]

/-- The opcodes of Table 4-2 of the instructions whose stepping is followed here. -/
def steppedOpcode : Instr → Option Nat
  | .vadd .. => some 0x40
  | .saddi .. => some 0x10
  | .ld .. => some 0xA0
  | .smov .. => some 0x0F
  | _ => none

/-- Each arm of the decoder gives the instructions of one opcode: in the arm of opcode k, i is none of the four or has opcode k. -/
theorem fOp_of_decodeFields {n k : Nat} {i : Instr} (h : decodeFields n = some i) (hk : steppedOpcode i = some k) : fOp n = k := by
  unfold decodeFields at h
  split at h
  all_goals grind [steppedOpcode, need, decodeSmov, decodeKmov, decodeTmma, decodePgmap, Option.map_eq_some_iff]

theorem decodeFields_vadd {n : Nat} (h : fOp n = 0x40) :
    decodeFields n = need (fW n = 0) (.vadd (fE n) (fD n) (fA n) (fB n)) := by unfold decodeFields; rw [h]; rfl
theorem decodeFields_saddi {n : Nat} (h : fOp n = 0x10) :
    decodeFields n = need (fW n = 0) (.saddi (fE n) (fD n) (fI14 n)) := by unfold decodeFields; rw [h]; rfl
theorem decodeFields_ld {n : Nat} (h : fOp n = 0xA0) :
    decodeFields n = some (.ld (fE n) (fWs n) (fD n) (fA n) (fB n)) := by unfold decodeFields; rw [h]; rfl
theorem decodeFields_smov {n : Nat} (h : fOp n = 0x0F) : decodeFields n = decodeSmov n := by unfold decodeFields; rw [h]; rfl

/-- What a word stands for when its fields give an instruction: that, or check 2's refusal. -/
theorem instrOf_ofNat {n : Nat} {i : Instr} (hn : n < 2 ^ 32) (hop : opAssigned (fOp n) = true) (hf : decodeFields n = some i) :
    instrOf (BitVec.ofNat 32 n) = if i.wf then i else .illegalEncoding (BitVec.ofNat 32 n) := by
  have hnat : (BitVec.ofNat 32 n).toNat = n := by rw [BitVec.toNat_ofNat, Nat.mod_eq_of_lt hn]
  unfold instrOf decode
  rw [hnat, if_pos hop, hf]
  by_cases hwf : i.wf = true <;> simp [hwf]

/-! ### The word of a repetition -/

/-- By how much a field is raised at a repetition: by none without its step bit. -/
def stepBy (r : RepPos) (on : Bool) (step : Option Nat) : Nat := if on then r.idx * step.getD 0 else 0

@[simp] theorem stepBy_none (r : RepPos) (on : Bool) : stepBy r on none = 0 := by simp [stepBy]

/-- The word of a repetition, of an instruction whose d stands in bits 20:14 (R375). -/
theorem steppedWord_eq {n : Nat} {i : Instr} {st : Option Nat × Option Nat × Option Nat} {r : RepPos}
    (hU : ∀ e d v, i ≠ .sli e d v ∧ i ≠ .slih e d v) :
    let dd := stepBy r r.sd st.1
    let da := stepBy r r.sa st.2.1
    let db := stepBy r r.sb st.2.2
    steppedWord n i st r =
      if 127 < nD n + dd ∨ 127 < nA n + da ∨ 127 < nB n + db then none else some (raisedWord n dd da db) := by
  intro dd da db
  have hd : bitsOf n 20 14 = nD n := by simp [bitsOf, nD, Nat.shiftRight_eq_div_pow]
  have ha : bitsOf n 13 7 = nA n := by simp [bitsOf, nA, Nat.shiftRight_eq_div_pow]
  have hb : bitsOf n 6 0 = nB n := by simp [bitsOf, nB]
  have hA := nA_lt n
  have hB := nB_lt n
  have hcond : (nD n + dd > 127 ∨ (da ≠ 0 ∧ nA n + da > 127) ∨ (db ≠ 0 ∧ nB n + db > 127)) ↔
      127 < nD n + dd ∨ 127 < nA n + da ∨ 127 < nB n + db := by omega
  unfold steppedWord
  split
  next e d v => exact absurd rfl (hU e d v).1
  next e d v => exact absurd rfl (hU e d v).2
  next => simp only [Bool.false_eq_true, if_false, hd, ha, hb]; exact if_congr hcond rfl rfl

theorem instrAt_rep {s : State} {x : Site} {r : RepPos} {key : Nat} {w : Word} (hr : x.gr.rep = some r) (hx : x.gr.xop = none)
    (hf : fetchAt s x = .word key w) : instrAt s x = repInstr s x r w := by
  unfold instrAt
  rw [hx, hf, hr]

section
variable {s : State} {x : Site} {r : RepPos} {w : Word} {i j : Instr} (hw : decode w = .instr i)
  (hU : ∀ e d v, i ≠ .sli e d v ∧ i ≠ .slih e d v)
include hw hU

variable {dd da db : Nat} (hdd : stepBy r r.sd (stepsAt s x.tm i).1 = dd) (hda : stepBy r r.sa (stepsAt s x.tm i).2.1 = da)
  (hdb : stepBy r r.sb (stepsAt s x.tm i).2.2 = db)
include hdd hda hdb

/-- A repetition whose stepped field passes its end is refused. -/
theorem repInstr_over (h : 127 < nD w.toNat + dd ∨ 127 < nA w.toNat + da ∨ 127 < nB w.toNat + db) :
    repInstr s x r w = .illegalEncoding w := by
  subst hdd hda hdb
  unfold repInstr
  rw [hw]
  dsimp only
  rw [steppedWord_eq hU, if_pos h]

/-- A repetition whose raised fields are those of j stands for j, unless check 2 refuses j, a step bit names no register and the other
checks pass, or a field steps on a message port. -/
theorem repInstr_fits (hd : nD w.toNat + dd ≤ 127) (ha : nA w.toNat + da ≤ 127) (hb : nB w.toNat + db ≤ 127)
    (hj : decodeFields (raisedWord w.toNat dd da db) = some j) :
    (j.wf = false → ∃ v, repInstr s x r w = .illegalEncoding v) ∧
    (j.wf = true → repInstr s x r w =
      if (badSteps (stepsAt s x.tm i) r = true ∧ precheck x j = none) ∨ stepsOnPort i j r = true then .illegalEncoding w else j) := by
  subst hdd hda hdb
  obtain ⟨-, hOp, -, -, -, -, hlt⟩ := raisedWord_fields hd ha hb
  have hword := instrOf_ofNat (hlt w.isLt) (by rw [hOp]; exact (decode_eq_instr.1 hw).1) hj
  unfold repInstr
  rw [hw]
  dsimp only
  rw [steppedWord_eq hU, if_neg (by omega)]
  dsimp only
  constructor
  · intro hwf
    rw [hwf, if_neg Bool.false_ne_true] at hword
    rw [hword]
    split <;> exact ⟨_, rfl⟩
  · intro hwf
    rw [hword, if_pos hwf]

end

theorem badSteps_registers (k l n : Nat) (r : RepPos) : badSteps (some k, some l, some n) r = false := by simp [badSteps]

theorem badSteps_immediate (k : Nat) (r : RepPos) : badSteps (some k, none, none) r = (r.sa || r.sb) := by simp [badSteps]

/-- Without a message port among the fields of either word nothing steps on one. -/
theorem stepsOnPort_noPorts {i j : Instr} (r : RepPos) (hi : portFields i = (false, false)) (hj : portFields j = (false, false)) :
    stepsOnPort i j r = false := by simp [stepsOnPort, hi, hj]

/-- The way in which a repetition's faults are decided, with no fault in it. -/
theorem faultless {α : Type} {c p : Bool} {q : Prop} [Decidable q] (y z : α) (hc : c = false) (hp : p = false) :
    (if (c = true ∧ q) ∨ p = true then y else z) = z := by simp [hc, hp]

end Sys2Proof.Laws

/-! SUPPORT. The repetitions of VADD, SADDI, LD and SMOV (R374, R375). -/
namespace Sys2Proof.Proofs
open Sys2Proof Sys2Proof.Machine Sys2Proof.Laws

/-- Where a register field stands at a repetition. -/
def raised (r : RepPos) (on : Bool) (step : Nat) (f : RegNo) : Nat := f.toNat + stepBy r on (some step)

/-! ### What the decoder reads in each of the words -/

theorem fields_vadd {w : Word} {e : Bool} {d a b : RegNo} (hw : decode w = .instr (.vadd e d a b)) :
    fOp w.toNat = 0x40 ∧ fW w.toNat = 0 ∧ e = fE w.toNat ∧ d = fD w.toNat ∧ a = fA w.toNat ∧ b = fB w.toNat := by
  obtain ⟨-, hf, -⟩ := decode_eq_instr.1 hw
  have hop := fOp_of_decodeFields hf rfl
  rw [decodeFields_vadd hop, need_eq_some] at hf
  simp_all

theorem fields_saddi {w : Word} {e : Bool} {d : RegNo} {v : BitVec 14} (hw : decode w = .instr (.saddi e d v)) :
    fOp w.toNat = 0x10 ∧ fW w.toNat = 0 ∧ e = fE w.toNat ∧ d = fD w.toNat ∧ v = fI14 w.toNat := by
  obtain ⟨-, hf, -⟩ := decode_eq_instr.1 hw
  have hop := fOp_of_decodeFields hf rfl
  rw [decodeFields_saddi hop, need_eq_some] at hf
  simp_all

theorem fields_ld {w : Word} {e : Bool} {ws : WSize} {d a b : RegNo} (hw : decode w = .instr (.ld e ws d a b)) :
    fOp w.toNat = 0xA0 ∧ e = fE w.toNat ∧ ws = fWs w.toNat ∧ d = fD w.toNat ∧ a = fA w.toNat ∧ b = fB w.toNat := by
  obtain ⟨-, hf, -⟩ := decode_eq_instr.1 hw
  have hop := fOp_of_decodeFields hf rfl
  rw [decodeFields_ld hop] at hf
  simp_all

theorem fields_smov {w : Word} {e : Bool} {ws : WSize} {d a : RegNo} (hw : decode w = .instr (.smov e ws d a)) :
    fOp w.toNat = 0x0F ∧ nB w.toNat = 0 ∧ d = fD w.toNat ∧ a = fA w.toNat := by
  obtain ⟨-, hf, -⟩ := decode_eq_instr.1 hw
  have hop := fOp_of_decodeFields hf rfl
  rw [decodeFields_smov hop] at hf
  unfold decodeSmov at hf
  grind

/-- SMOV's word with d or a in 124 to 127 is an instruction that names a message port there. -/
theorem decodeSmov_onPort {n : Nat} (hb : nB n = 0) (hp : 124 ≤ nD n ∨ 124 ≤ nA n) :
    ∃ j, decodeSmov n = some j ∧ portFields j ≠ (false, false) := by
  unfold decodeSmov
  rw [if_neg (not_not.2 hb)]
  split_ifs
  · exact ⟨_, rfl, by simp [portFields]⟩
  · exact ⟨_, rfl, by simp [portFields]⟩
  · exact ⟨_, rfl, by simp [portFields]⟩
  · exact ⟨_, rfl, by simp only [portFields, toNat_fD, toNat_fA, ne_eq, Prod.mk.injEq, decide_eq_false_iff_not]; omega⟩

/-! ### What each repetition stands for -/

section
variable {s : State} {x : Site} {r : RepPos} {w : Word} {e : Bool} {ws : WSize} {d a b : RegNo} {v : BitVec 14}

/-- VADD steps each of its registers by 1. -/
theorem repInstr_vadd (hw : decode w = .instr (.vadd e d a b)) (hd : raised r r.sd 1 d ≤ 127) (ha : raised r r.sa 1 a ≤ 127)
    (hb : raised r r.sb 1 b ≤ 127) :
    repInstr s x r w = .vadd e (BitVec.ofNat 7 (raised r r.sd 1 d)) (BitVec.ofNat 7 (raised r r.sa 1 a))
      (BitVec.ofNat 7 (raised r r.sb 1 b)) := by
  obtain ⟨hop, hW, rfl, rfl, rfl, rfl⟩ := fields_vadd hw
  simp only [raised, toNat_fD, toNat_fA, toNat_fB] at *
  obtain ⟨mE, mOp, mW, mD, mA, mB, -⟩ := raisedWord_fields hd ha hb
  have hj := decodeFields_vadd (mOp.trans hop)
  rw [mW, hW, need, if_pos rfl, fD, fA, fB, mE, mD, mA, mB] at hj
  exact ((repInstr_fits hw (by simp) rfl rfl rfl hd ha hb hj).2 rfl).trans
    (faultless _ _ (badSteps_registers 1 1 1 r) (stepsOnPort_noPorts r rfl rfl))

theorem repInstr_vadd_over (hw : decode w = .instr (.vadd e d a b))
    (h : 127 < raised r r.sd 1 d ∨ 127 < raised r r.sa 1 a ∨ 127 < raised r r.sb 1 b) :
    repInstr s x r w = .illegalEncoding w := by
  obtain ⟨-, -, -, rfl, rfl, rfl⟩ := fields_vadd hw
  simp only [raised, toNat_fD, toNat_fA, toNat_fB] at h
  exact repInstr_over hw (by simp) rfl rfl rfl h

/-- The immediate of SADDI does not step: a step bit for a or b is refused, and so is a destination in S124 to S127. -/
theorem repInstr_saddi (hw : decode w = .instr (.saddi e d v)) (hd : raised r r.sd 1 d ≤ 127) :
    let j : Instr := .saddi e (BitVec.ofNat 7 (raised r r.sd 1 d)) v
    (124 ≤ raised r r.sd 1 d → ∃ v, repInstr s x r w = .illegalEncoding v) ∧
    (raised r r.sd 1 d < 124 → repInstr s x r w =
      if (r.sa = true ∨ r.sb = true) ∧ precheck x j = none then .illegalEncoding w else j) := by
  obtain ⟨hop, hW, rfl, rfl, rfl⟩ := fields_saddi hw
  simp only [raised, toNat_fD] at *
  have hA : nA w.toNat + 0 ≤ 127 := Nat.le_of_lt_succ (nA_lt _)
  have hB : nB w.toNat + 0 ≤ 127 := Nat.le_of_lt_succ (nB_lt _)
  obtain ⟨mE, mOp, mW, mD, mA, mB, -⟩ := raisedWord_fields hd hA hB
  have hj := decodeFields_saddi (mOp.trans hop)
  rw [mW, hW, need, if_pos rfl, fD, fI14, nI_eq, mE, mD, mA, mB, Nat.add_zero, Nat.add_zero, ← nI_eq, ← fI14] at hj
  obtain ⟨hbad, hgood⟩ := repInstr_fits (s := s) (x := x) hw (by simp) rfl (stepBy_none ..) (stepBy_none ..) hd hA hB hj
  have hwf : ∀ k, k ≤ 127 → (Instr.saddi (fE w.toNat) (BitVec.ofNat 7 k) (fI14 w.toNat)).wf = decide (k < 124) := fun k hk => by
    show decide ((BitVec.ofNat 7 k).toNat < 124) = _
    rw [BitVec.toNat_ofNat, Nat.mod_eq_of_lt (Nat.lt_succ_of_le hk)]
  have hsteps : badSteps (stepsAt s x.tm (.saddi (fE w.toNat) (fD w.toNat) (fI14 w.toNat))) r = (r.sa || r.sb) :=
    badSteps_immediate 1 r
  refine ⟨fun h => hbad ((hwf _ hd).trans (decide_eq_false (by omega))), fun h => ?_⟩
  rw [hgood ((hwf _ hd).trans (decide_eq_true h)), hsteps, stepsOnPort_noPorts r rfl rfl]
  simp only [Bool.false_eq_true, or_false, Bool.or_eq_true]

theorem repInstr_saddi_over (hw : decode w = .instr (.saddi e d v)) (h : 127 < raised r r.sd 1 d) :
    repInstr s x r w = .illegalEncoding w := by
  obtain ⟨-, -, -, rfl, -⟩ := fields_saddi hw
  rw [raised, toNat_fD] at h
  exact repInstr_over hw (by simp) rfl rfl rfl (.inl h)

/-- LD steps its destination by its size, its record by 8 and its index by 1. -/
theorem repInstr_ld (hw : decode w = .instr (.ld e ws d a b)) (hd : raised r r.sd (wsizeN ws) d ≤ 127)
    (ha : raised r r.sa 8 a ≤ 127) (hb : raised r r.sb 1 b ≤ 127) :
    let j : Instr := .ld e ws (BitVec.ofNat 7 (raised r r.sd (wsizeN ws) d)) (BitVec.ofNat 7 (raised r r.sa 8 a))
      (BitVec.ofNat 7 (raised r r.sb 1 b))
    (j.wf = true → repInstr s x r w = j) ∧ (j.wf = false → ∃ v, repInstr s x r w = .illegalEncoding v) := by
  obtain ⟨hop, rfl, rfl, rfl, rfl, rfl⟩ := fields_ld hw
  simp only [raised, toNat_fD, toNat_fA, toNat_fB] at *
  obtain ⟨mE, mOp, mW, mD, mA, mB, -⟩ := raisedWord_fields hd ha hb
  have hj := decodeFields_ld (mOp.trans hop)
  rw [fWs_congr mW, fD, fA, fB, mE, mD, mA, mB] at hj
  obtain ⟨hbad, hgood⟩ := repInstr_fits (s := s) (x := x) hw (by simp) rfl rfl rfl hd ha hb hj
  exact ⟨fun h => (hgood h).trans (faultless _ _ (badSteps_registers _ 8 1 r) (stepsOnPort_noPorts r rfl rfl)), hbad⟩

/-- SMOV between ordinary registers does not step on a message port. -/
theorem repInstr_smov (hw : decode w = .instr (.smov e ws d a)) (hd : d.toNat < 124) (ha : a.toNat < 124)
    (hp : 124 ≤ raised r r.sd (wsizeN ws) d ∨ 124 ≤ raised r r.sa (wsizeN ws) a) :
    ∃ v, repInstr s x r w = .illegalEncoding v := by
  obtain ⟨hop, hB, rfl, rfl⟩ := fields_smov hw
  have hports : portFields (.smov e ws (fD w.toNat) (fA w.toNat)) = (false, false) :=
    Prod.ext (decide_eq_false (Nat.not_le.2 hd)) (decide_eq_false (Nat.not_le.2 ha))
  simp only [raised, toNat_fD, toNat_fA] at *
  by_cases hover : 127 < nD w.toNat + stepBy r r.sd (some (wsizeN ws)) ∨ 127 < nA w.toNat + stepBy r r.sa (some (wsizeN ws))
  · exact ⟨w, repInstr_over hw (by simp) rfl rfl rfl (hover.imp_right .inl)⟩
  · obtain ⟨hd', ha'⟩ := not_or.1 hover
    have hd' := Nat.le_of_not_lt hd'
    have ha' := Nat.le_of_not_lt ha'
    have hb' : nB w.toNat + 0 ≤ 127 := Nat.le_of_lt_succ (nB_lt _)
    obtain ⟨-, mOp, -, mD, mA, mB, -⟩ := raisedWord_fields hd' ha' hb'
    obtain ⟨j, hj, hjp⟩ := decodeSmov_onPort (mB.trans hB) (by rw [mD, mA]; exact hp)
    rw [← decodeFields_smov (mOp.trans hop)] at hj
    obtain ⟨hbad, hgood⟩ := repInstr_fits (s := s) (x := x) hw (by simp) rfl rfl (stepBy_none ..) hd' ha' hb' hj
    cases hwf : j.wf with
    | false => exact hbad hwf
    | true => exact ⟨w, (hgood hwf).trans (if_pos (.inr (by simp [stepsOnPort, hports, hjp])))⟩

end

/-! ### Control transfers, NOP and REP -/

section
variable {s : State} {x : Site}

theorem completesVia_bru {o : BitVec 16} (h : Runs s x (.bru o)) :
    CompletesVia (.bru o) s s x 0 x.gr (atPlace (x.gr.pc + 4 * BitVec.ofInt 64 o.toInt)) x.gr.getS x.gr.getV x.gr.getK :=
  completesVia_jump h.site (issue_runs h _)

theorem exec_call {d : RegNo} {o : BitVec 16} (h : Runs s x (.call d o)) :
    exec (.call d o) s = .next (finishAt (s.updGroup x.t x.g (fun y => y.setPair d.toNat (x.gr.pc + 4))) x.t x.g
      (x.gr.pc + 4 * BitVec.ofInt 64 o.toInt)) := issue_runs h _

/-- CALL writes the address of the next word and moves on to its target (R350). -/
theorem completesVia_call {d : RegNo} {o : BitVec 16} (h : Runs s x (.call d o)) :
    CompletesVia (.call d o) s s x 0 x.gr (atPlace (x.gr.pc + 4 * BitVec.ofInt 64 o.toInt))
      (upd (upd x.gr.getS d.toNat (loWord (x.gr.pc + 4))) (d.toNat + 1) (hiWord (x.gr.pc + 4))) x.gr.getV x.gr.getK := by
  obtain ⟨hS, hrest, hbad⟩ := setPair_spec x.gr d.toNat (x.gr.pc + 4)
  have hteam := team_updGroup x.g (fun y => y.setPair d.toNat (x.gr.pc + 4)) (site?_team h.site)
  have hgroup := (updGroup_group x.tm x.g (fun y => y.setPair d.toNat (x.gr.pc + 4))).trans
    (congrArg _ (site?_teamGroup h.site))
  have hdone := completesVia_finishAt (exec_call h) (near_updGroup ..) hteam (updGroup_rest ..) hgroup hrest hbad
  rwa [hS] at hdone

theorem exec_ret {a : RegNo} (h : Runs s x (.ret a)) :
    exec (.ret a) s =
      if (x.gr.getPair a.toNat).toNat % 4 ≠ 0 then .next (trapWhole s x 0x23)
      else if 2 ^ 55 ≤ (x.gr.getPair a.toNat).toNat then .next (trapWhole s x 0x22)
      else .next (finishAt s x.t x.g (x.gr.getPair a.toNat)) := by
  refine (issue_runs h _).trans (if_congr ?_ rfl (if_congr ?_ rfl rfl))
  · simp [field64, bitsOf]
  · have := (x.gr.getPair a.toNat).isLt
    simp only [field64, bitsOf, Nat.shiftRight_eq_div_pow]
    omega

theorem completes_nop {e : Bool} (h : Runs s x (.nop e)) :
    Completes (.nop e) s x 0 x.gr x.gr.getS x.gr.getV x.gr.getK :=
  completes_doneWith (fl := 0) (f := id) (b := x.gr) h.site (issue_runs h _) rfl fun _ h => h

/-- REP leaves the group at its own address, before the first repetition (R373). -/
theorem completesVia_rep {sb sa sd : Bool} {n : BitVec 6} (h : Runs s x (.rep sb sa sd n)) (hready : x.gr.status = GStatus.ready) :
    CompletesVia (.rep sb sa sd n) s s x 0 x.gr
      (fun z => z.pc = x.gr.pc ∧ z.rep = some ⟨x.gr.pc, n.toNat + 1, sd, sa, sb, 0⟩) x.gr.getS x.gr.getV x.gr.getK := by
  have hplace := placeOf_issueCounted x.tm x.g x.gr
  refine completesVia_issuedTo (issue_runs h _) (Near.refl ..) (site?_team h.site) rfl (site?_teamGroup h.site) rfl (fun _ h => h) ?_
    fun z hz => ?_
  · have hst : (issueCounted x.tm x.g x.gr).status = x.gr.status.resumed := by rw [issueCounted_status, hready]; rfl
    rw [← hst]
    rfl
  · simp only [placeOf, Prod.mk.injEq] at hz hplace
    obtain ⟨hpc, hrep, -⟩ := hz
    rw [hplace.1] at hpc hrep
    exact ⟨hpc, hrep⟩

end

/-- Settles O15: BRU, CALL and RET move the group, NOP and REP end as they say, and a repetition stands for its word with the fields
raised or is refused. -/
theorem branches : Obligations.Branches := by
  unfold Obligations.Branches
  refine ⟨?_, ?_, ?_⟩
  · intro s x o d a target v
    refine ⟨completesVia_bru, completesVia_call, fun h h4 hlt => ?_, fun h h4 => ?_, fun h h4 hge => ?_⟩
    · exact completesVia_jump h.site (by rw [exec_ret h, if_neg (not_not.2 h4), if_neg (Nat.not_le.2 hlt)])
    · rw [exec_ret h, if_pos h4]
    · rw [exec_ret h, if_neg (not_not.2 h4), if_pos hge]
  · intro s x e sb sa sd n
    exact ⟨completes_nop, completesVia_rep⟩
  · intro s x r key w e ws d a b imm hr hx hf up refused
    have hat := instrAt_rep hr hx hf
    refine ⟨fun hw => ⟨fun hd ha hb => hat.trans (repInstr_vadd hw hd ha hb), fun h => ⟨w, hat.trans (repInstr_vadd_over hw h)⟩⟩,
      fun hw => ?_, fun hw hd ha hb => ?_, fun hw hd ha h => ?_⟩
    · intro j
      by_cases hd : up r.sd 1 d ≤ 127
      · obtain ⟨hport, hstep⟩ := repInstr_saddi (s := s) (x := x) hw hd
        refine ⟨fun hsa hsb hlt => ?_, fun h => (hport h).imp fun _ => hat.trans, fun hs hc => ?_⟩
        · exact hat.trans ((hstep hlt).trans (if_neg (by simp [hsa, hsb])))
        · by_cases hlt : up r.sd 1 d < 124
          · exact ⟨w, hat.trans ((hstep hlt).trans (if_pos ⟨hs, hc⟩))⟩
          · exact (hport (Nat.le_of_not_lt hlt)).imp fun _ => hat.trans
      · have hover : refused := ⟨w, hat.trans (repInstr_saddi_over hw (Nat.lt_of_not_le hd))⟩
        exact ⟨fun _ _ hlt => absurd hlt (by omega), fun _ => hover, fun _ _ => hover⟩
    · obtain ⟨hgood, hbad⟩ := repInstr_ld (s := s) (x := x) hw hd ha hb
      exact ⟨fun h => hat.trans (hgood h), fun h => (hbad h).imp fun _ => hat.trans⟩
    · exact (repInstr_smov hw hd ha h).imp fun _ => hat.trans

end Sys2Proof.Proofs

/-! SUPPORT. The scalar forms of Tables 3-2 and 17-5 with an immediate, SCMP and SMOV (R382, R383). -/
namespace Sys2Proof.Proofs
open Sys2Proof Sys2Proof.Machine Sys2Proof.Laws

/-! ### Immediates -/

/-- An instruction with an immediate writes the value that it makes of S[d]. -/
theorem writesS_scalarI {s : State} {x : Site} {i : Instr} {e : Bool} {d : RegNo} {v : Word} (f : Word → Word)
    (h : Runs s x i) (hi : exec i s = scalarI s i e d f) (hv : f (x.gr.getS d.toNat) = v) : WritesS i s x d v :=
  writesS h.site (hi.trans (issue_runs h _)) (congrArg (x.gr.setS d.toNat) hv)

theorem add_signExtend (v : Word) (i : BitVec 14) : v + i.signExtend 32 = BitVec.ofInt 32 (v.toInt + i.toInt) := by
  rw [BitVec.ofInt_add, BitVec.ofInt_toInt]; rfl

theorem shiftLeft_eq_ofNat (v : Word) (n : Nat) : v <<< n = BitVec.ofNat 32 (v.toNat * 2 ^ n) := by
  apply BitVec.eq_of_toNat_eq
  rw [BitVec.toNat_shiftLeft, Nat.shiftLeft_eq, BitVec.toNat_ofNat]

/-- The immediate over the low half of the register (SLIH). -/
theorem append_low_eq_ofNat (i : BitVec 16) (v : Word) :
    i ++ v.setWidth 16 = BitVec.ofNat 32 (i.toNat * 65536 + v.toNat % 65536) := by
  apply BitVec.eq_of_toNat_eq
  have hlow : v.toNat % 65536 < 2 ^ 16 := Nat.mod_lt _ (by decide)
  have hi := i.isLt
  rw [BitVec.toNat_append, BitVec.toNat_setWidth, BitVec.toNat_ofNat, ← Nat.shiftLeft_add_eq_or_of_lt hlow, Nat.shiftLeft_eq]
  omega

/-! ### SCMP -/

/-- The full mask has the bits below the width, of the 64 that there are. -/
theorem getLsbD_fullMask {w l : Nat} (hl : l < 64) : (fullMask w).getLsbD l = decide (l < w) := by
  rw [fullMask, BitVec.getLsbD_ofNat, Nat.testBit_two_pow_sub_one, decide_eq_true hl, Bool.true_and]

/-- A truth in every bit below the width, zero above it. -/
theorem getLsbD_truth {w l : Nat} (hl : l < 64) (p : Bool) :
    ((if p then fullMask w else 0) &&& fullMask w).getLsbD l = true ↔ l < w ∧ p = true := by
  cases p <;> simp [getLsbD_fullMask hl]

theorem writesK_scmp {s : State} {x : Site} {e : Bool} {c : SCond} {d : KNo} {a b : RegNo} (h : Runs s x (.scmp e c d a b)) :
    WritesK (.scmp e c d a b) s x d ((if scalarCmp c (x.gr.getS a.toNat) (x.gr.getS b.toNat) then fullMask x.tm.width else 0)
      &&& fullMask x.tm.width) :=
  writesK h.site (issue_runs h _) rfl

/-! ### SMOV -/

section
variable {s : State} {x : Site} {e : Bool} {w : WSize} {d a : RegNo}

/-- What SMOV makes of its group: it reads QDST, QSTAT or a register group. -/
def smoved (w : WSize) (d a : RegNo) (y : Group) : Group :=
  if a = 124 then y.setS d.toNat y.q.qdst
  else if a = 127 then y.setS d.toNat y.q.stat
  else y.setSn d.toNat (y.getSn a.toNat (wsizeN w))

theorem exec_smov (h : Runs s x (.smov e w d a)) : exec (.smov e w d a) s = doneWith s x e (smoved w d a) := issue_runs h _

theorem smoved_qdst (y : Group) : smoved w d 124 y = y.setS d.toNat y.q.qdst := if_pos rfl

theorem smoved_stat (y : Group) : smoved w d 127 y = y.setS d.toNat y.q.stat := rfl

theorem smoved_registers (ha : a.toNat < 124) (y : Group) :
    smoved w d a y = y.setSn d.toNat (y.getSn a.toNat (wsizeN w)) := by
  have hne : ∀ p : RegNo, 124 ≤ p.toNat → a ≠ p := fun p hp h => by subst h; omega
  rw [smoved, if_neg (hne 124 (by decide)), if_neg (hne 127 (by decide))]

theorem length_getSn (y : Group) (r n : Nat) : (y.getSn r n).length = n := by
  rw [Group.getSn, List.length_map]
  induction n generalizing r with
  | zero => rfl
  | succ n ih => simp [span, ih]

theorem getD_getSn (y : Group) {r n j : Nat} (hj : j < n) : (y.getSn r n).getD j 0 = y.getS (r + j) := by
  induction n generalizing r j with
  | zero => exact absurd hj (Nat.not_lt_zero _)
  | succ n ih =>
    cases j with
    | zero => rfl
    | succ j =>
      show (y.getSn (r + 1) n).getD j 0 = _
      rw [ih (Nat.lt_of_succ_lt_succ hj)]
      congr 1
      omega

/-- A register group copied: every source is as it was before the first write (R383). -/
theorem getS_copied (y : Group) (d a n : Nat) :
    (y.setSn d (y.getSn a n)).getS = fun r => if d ≤ r ∧ r < d + n then y.getS (a + (r - d)) else y.getS r := by
  funext r
  rw [(setSn_spec _ y d).1 r, length_getSn]
  exact ite_congr rfl (fun h => getD_getSn y (by omega)) fun _ => rfl

theorem completes_smov (h : Runs s x (.smov e w d a)) (ha : a.toNat < 124) :
    Completes (.smov e w d a) s x 0 x.gr
      (fun r => if d.toNat ≤ r ∧ r < d.toNat + wsizeN w then x.gr.getS (a.toNat + (r - d.toNat)) else x.gr.getS r)
      x.gr.getV x.gr.getK := by
  obtain ⟨-, hrest, hbad⟩ := setSn_spec (x.gr.getSn a.toNat (wsizeN w)) x.gr d.toNat
  have hV : (x.gr.setSn d.toNat (x.gr.getSn a.toNat (wsizeN w))).getV = x.gr.getV := by rw [hrest]; rfl
  have hK : (x.gr.setSn d.toNat (x.gr.getSn a.toNat (wsizeN w))).getK = x.gr.getK := by rw [hrest]; rfl
  have hdone := completes_doneWith (fl := 0) (f := fun y => y.setSn d.toNat (y.getSn a.toNat (wsizeN w))) (b := x.gr) h.site
    ((exec_smov h).trans (congrArg _ (funext (smoved_registers ha)))) (by rw [hrest]) hbad
  rwa [hV, hK, getS_copied] at hdone

end

/-- Settles O2: the forms with an immediate are writes of S[d] in the machine's own arithmetic, SCMP a write of K[d] cut to the
width, and SMOV reads the whole group, or the port register, before it writes. -/
theorem scalarForms : Obligations.ScalarForms := by
  unfold Obligations.ScalarForms
  refine ⟨?_, ?_, ?_⟩
  · intro s x e d v
    refine ⟨fun i => ⟨fun h => ?_, fun h => ?_, fun h => ?_⟩, fun i h => ?_, fun i => ⟨fun h => ?_, fun h => ?_⟩⟩
    · exact writesS_scalarI (fun v => v + i.signExtend 32) h rfl (add_signExtend v i)
    · exact writesS_scalarI (fun v => v &&& i.signExtend 32) h rfl rfl
    · exact writesS_scalarI (fun v => v ||| i.signExtend 32) h rfl rfl
    · exact writesS_scalarI (fun v => v <<< i.toNat) h rfl (shiftLeft_eq_ofNat v i.toNat)
    · exact writesS_scalarI (fun _ => i.setWidth 32) h rfl (BitVec.ofNat_toNat 32 i).symm
    · exact writesS_scalarI (fun v => i ++ v.setWidth 16) h rfl (append_low_eq_ofNat i v)
  · intro s x e c d a b p q holds h
    have htruth : scalarCmp c p q = true ↔ holds := by
      cases c <;> simp [scalarCmp, holds]
    exact ⟨_, writesK_scmp h, fun l hl => (getLsbD_truth hl _).trans (and_congr_right' htruth)⟩
  · intro s x e w d a h
    have hw : 0 < wsizeN w := by cases w <;> decide
    refine ⟨fun ha => completes_smov h (by omega), ?_, ?_⟩
    · rintro rfl
      exact writesS h.site (exec_smov h) (smoved_qdst _)
    · rintro rfl
      exact writesS h.site (exec_smov h) (smoved_stat _)

end Sys2Proof.Proofs

/-! SUPPORT. The vector instructions whose result is the group's: VCMP, VVOTE, VRED and VELECT (R391, R404, R412, R413), and the
bits that a replay (R256) leaves in a K destination. -/
namespace Sys2Proof.Proofs
open Sys2Proof Sys2Proof.Machine Sys2Proof.Laws

/-! ### Lanes and masks -/

theorem getLsbD_maskOfLanes (ls : List Nat) {l : Nat} (hl : l < 64) : (maskOfLanes ls).getLsbD l = decide (l ∈ ls) := by
  induction ls using List.reverseRecOn with
  | nil => simp [maskOfLanes]
  | append_singleton ls j ih =>
    have hbit : ((1 <<< j : Nat) : Lanes).getLsbD l = decide (l = j) := by
      rw [BitVec.natCast_eq_ofNat, BitVec.getLsbD_ofNat, Nat.one_shiftLeft, Nat.testBit_two_pow]
      simp [hl, eq_comm]
    have hstep : maskOfLanes (ls ++ [j]) = maskOfLanes ls ||| ((1 <<< j : Nat) : Lanes) := by
      rw [maskOfLanes, List.foldl_append]; rfl
    rw [hstep, BitVec.getLsbD_or, ih, hbit]
    simp

theorem pairwise_lt_span (a n : Nat) : (span a n).Pairwise (· < ·) := by
  induction n generalizing a with
  | zero => exact List.Pairwise.nil
  | succ n ih => exact List.pairwise_cons.2 ⟨fun k hk => ((mem_span ..).1 hk).1, ih (a + 1)⟩

theorem pairwise_lt_lanesOf (m : Lanes) : (lanesOf m).Pairwise (· < ·) := (pairwise_lt_span 0 64).filter _

theorem mem_lanes {x : Site} {l : Nat} : l ∈ x.lanes ↔ l < 64 ∧ inMask x l := mem_lanesOf ..

/-! ### A K destination -/

section
variable {s : State} {x : Site} {i : Instr} {e : Bool} {k : KNo}

/-- A vector-class instruction that runs, over a type that it accepts, has its own effect. -/
theorem vecIssue_runs {ok : ElemType → Bool} (h : Runs s x i) (hok : ok (gmrType x.gr.gmr) = true) (f : Site → Out) :
    vecIssue s i ok f = f x := by
  rw [vecIssue, issue_runs h, if_pos hok]

/-- The lanes of the active mask and the guard (R28), those that a replay leaves out among them. -/
def wholeMask (x : Site) : Lanes := ({ x.gr with replay := none } : Group).emask x.tm.width

/-- What K[k] holds after an instruction that sets it in the lanes ls. -/
def kResult (x : Site) (k : KNo) (ls : List Nat) : Lanes := (vecK x k ls x.gr).getK k.toNat

/-- The lanes ls are set; a lane of the mask that is not computed this time keeps its bit (R256). -/
theorem getLsbD_kResult (x : Site) (k : KNo) (ls : List Nat) {l : Nat} (hl : l < 64) :
    (kResult x k ls).getLsbD l = true ↔ l < x.tm.width ∧
      (l ∈ ls ∨ (laneOf (x.gr.getK k.toNat) l = true ∧ laneOf (wholeMask x) l = true ∧ ¬ inMask x l)) := by
  have hmem : l ∈ x.lanes ↔ inMask x l := by simp [mem_lanes, hl]
  rw [kResult, vecK, getK_setK, if_pos rfl]
  simp only [BitVec.getLsbD_and, BitVec.getLsbD_or, BitVec.getLsbD_not, getLsbD_maskOfLanes _ hl, getLsbD_fullMask hl,
    Bool.and_eq_true, Bool.or_eq_true, Bool.not_eq_true', decide_eq_true_eq, decide_eq_false_iff_not, hmem, hl, true_and]
  unfold laneOf wholeMask
  tauto

/-- Outside of a replay every lane of the mask is computed, so the bits of K[k] are the lanes ls. -/
theorem getLsbD_kResult_whole (k : KNo) (ls : List Nat) (hr : x.gr.replay = none) {l : Nat} (hl : l < 64) :
    (kResult x k ls).getLsbD l = true ↔ l < x.tm.width ∧ l ∈ ls := by
  have hwhole : wholeMask x = x.gr.emask x.tm.width := by simp [wholeMask, Group.emask, Group.guard, Group.getK, hr]
  rw [getLsbD_kResult x k ls hl, hwhole, inMask]
  tauto

/-- An instruction that sets K[k] in the lanes ls, and FLAGS. -/
theorem completes_vecK {fl : Fl} {ls : List Nat} (hs : s.site? = some x)
    (h : exec i s = doneWith (s.raise x.t fl) x e (vecK x k ls)) :
    Completes i s x fl x.gr x.gr.getS x.gr.getV (upd x.gr.getK k.toNat (kResult x k ls)) := by
  have hK : (vecK x k ls x.gr).getK = upd x.gr.getK k.toNat (kResult x k ls) := by
    funext r
    simp only [kResult, vecK, getK_setK, upd, if_true]
  have hdone : Completes i s x fl x.gr x.gr.getS x.gr.getV (vecK x k ls x.gr).getK :=
    completes_doneWith (b := x.gr) hs h rfl fun _ h => h
  rwa [hK] at hdone

/-- An instruction writes one value to K[k]. -/
theorem writesK_unique {v w : Lanes} (hv : WritesK i s x k v) (hw : WritesK i s x k w) : v = w := by
  obtain ⟨t, z, hexec, -, hgroup, hafter, -⟩ := hv
  obtain ⟨t', z', hexec', -, hgroup', hafter', -⟩ := hw
  obtain rfl : t = t' := Host.Outcome.next.inj (hexec.symm.trans hexec')
  obtain rfl : z = z' := Option.some.inj (hgroup.symm.trans hgroup')
  have hread := (hafter.kRegs k.toNat).symm.trans (hafter'.kRegs k.toNat)
  simpa only [upd, if_true] using hread

/-! ### The four instructions -/

variable {c : VCond} {o : RedOp} {d a b : RegNo}

/-- VCMP sets the lanes in which the comparison holds (R404). -/
theorem completes_vcmp (h : Runs s x (.vcmp e c k a b)) (hok : setArith (gmrType x.gr.gmr) = true) :
    let r := fun l => laneCmp x.mode c (x.gr.getV a.toNat l) (x.gr.getV b.toNat l)
    Completes (.vcmp e c k a b) s x (orFlags (x.lanes.map (fun l => (r l).2))) x.gr x.gr.getS x.gr.getV
      (upd x.gr.getK k.toNat (kResult x k (x.lanes.filter (fun l => (r l).1)))) := by
  intro r
  refine completes_vecK (e := e) h.site ((vecIssue_runs h hok _).trans ?_)
  simp only [List.map_map, List.filter_map, Function.comp_def, List.map_id', r]

/-- VVOTE sets the lanes whose element is not zero (R413). -/
theorem writesK_vvote (h : Runs s x (.vvote e k a)) :
    WritesK (.vvote e k a) s x k (kResult x k (x.lanes.filter (fun l => x.gr.getV a.toNat l != 0))) :=
  completes_vecK (fl := 0) h.site (vecIssue_runs h rfl _)

/-- VRED writes the combination of the mask's lanes to S[d] (R412). -/
theorem completes_vred (h : Runs s x (.vred e o d a)) (hok : setRed o (gmrType x.gr.gmr) = true) :
    let r := reduceLanes x.mode o (x.lanes.map (x.gr.getV a.toNat))
    Completes (.vred e o d a) s x r.2 x.gr (upd x.gr.getS d.toNat r.1) x.gr.getV x.gr.getK := by
  intro r
  have hS : (x.gr.setS d.toNat r.1).getS = upd x.gr.getS d.toNat r.1 := funext fun q => getS_setS ..
  have hdone : Completes (.vred e o d a) s x r.2 x.gr (x.gr.setS d.toNat r.1).getS x.gr.getV x.gr.getK :=
    completes_doneWith (f := fun y => y.setS d.toNat r.1) h.site (vecIssue_runs h hok _) rfl fun _ => mem_setS
  rwa [hS] at hdone

/-- The lane that VELECT names. -/
def elected (x : Site) : Word := match x.lanes with | l :: _ => BitVec.ofNat 32 l | [] => 0xFFFFFFFF

theorem writesS_velect (h : Runs s x (.velect e d)) : WritesS (.velect e d) s x d (elected x) :=
  writesS h.site (vecIssue_runs h rfl _) rfl

theorem elected_of_empty (hnone : ∀ l, l < 64 → ¬ inMask x l) : elected x = 0xFFFFFFFF := by
  have hnil : x.lanes = [] := List.eq_nil_iff_forall_not_mem.2 fun l hl => hnone l (mem_lanes.1 hl).1 (mem_lanes.1 hl).2
  rw [elected, hnil]

/-- The lanes of a mask are listed in rising order, so the first is the lowest. -/
theorem elected_lowest {l : Nat} (hl : l < 64) (hin : inMask x l) : (elected x).toNat ≤ l ∧ inMask x (elected x).toNat := by
  have hmem : l ∈ x.lanes := mem_lanes.2 ⟨hl, hin⟩
  have hsorted : x.lanes.Pairwise (· < ·) := pairwise_lt_lanesOf _
  rw [elected]
  cases hlanes : x.lanes with
  | nil => simp [hlanes] at hmem
  | cons j js =>
    obtain ⟨hj, hjin⟩ := mem_lanes.1 (show j ∈ x.lanes by simp [hlanes])
    have hnat : (BitVec.ofNat 32 j).toNat = j := by rw [BitVec.toNat_ofNat]; omega
    rw [hlanes] at hmem hsorted
    dsimp only
    rw [hnat]
    refine ⟨?_, hjin⟩
    rcases List.mem_cons.1 hmem with rfl | hjs
    · exact le_rfl
    · exact (List.rel_of_pairwise_cons hsorted hjs).le

/-- Outside of a replay each of the four does what `Obligations.VectorToGroup` says. -/
theorem vectorToGroup_of_no_replay (hr : x.gr.replay = none) :
    (Runs s x (.vcmp e c k a b) → setArith (gmrType x.gr.gmr) = true → ∃ v : Lanes,
      Completes (.vcmp e c k a b) s x
        (orFlags (x.lanes.map (fun l => (laneCmp x.mode c (x.gr.getV a.toNat l) (x.gr.getV b.toNat l)).2)))
        x.gr x.gr.getS x.gr.getV (upd x.gr.getK k.toNat v) ∧
      ∀ l, l < 64 → (v.getLsbD l = true ↔ l < x.tm.width ∧ inMask x l ∧
        (laneCmp x.mode c (x.gr.getV a.toNat l) (x.gr.getV b.toNat l)).1 = true)) ∧
    (Runs s x (.vvote e k a) → ∃ v : Lanes, WritesK (.vvote e k a) s x k v ∧
      ∀ l, l < 64 → (v.getLsbD l = true ↔ l < x.tm.width ∧ inMask x l ∧ x.gr.getV a.toNat l ≠ 0)) ∧
    (Runs s x (.vred e o d a) → setRed o (gmrType x.gr.gmr) = true →
      Completes (.vred e o d a) s x (reduceLanes x.mode o (x.lanes.map (x.gr.getV a.toNat))).2 x.gr
        (upd x.gr.getS d.toNat (reduceLanes x.mode o (x.lanes.map (x.gr.getV a.toNat))).1) x.gr.getV x.gr.getK) ∧
    (Runs s x (.velect e d) → ∃ v : Word, WritesS (.velect e d) s x d v ∧
      ((∀ l, l < 64 → ¬ inMask x l) → v = 0xFFFFFFFF) ∧
      ∀ l, l < 64 → inMask x l → v.toNat ≤ l ∧ inMask x v.toNat) := by
  refine ⟨fun h hok => ⟨_, completes_vcmp h hok, fun l hl => ?_⟩, fun h => ⟨_, writesK_vvote h, fun l hl => ?_⟩, completes_vred,
    fun h => ⟨_, writesS_velect h, elected_of_empty, fun l => elected_lowest⟩⟩
  · rw [getLsbD_kResult_whole k _ hr hl, List.mem_filter, mem_lanes]
    simp [hl]
  · rw [getLsbD_kResult_whole k _ hr hl, List.mem_filter, mem_lanes]
    simp [hl]

end

/-! ### A replay -/

/-- A group that retries VVOTE in lane 0 (R256), as after an error in the register of that lane (R261): lane 1 has voted before and
set its bit of K0. -/
def revotingGroup : Group :=
  { Group.fresh .vector 0 0 16 0 with v := [(1, 1)], k := [(0, 2)], replay := some 1 }

def revotingTeam : Team := { soloTeam .vector with groups := [(0, revotingGroup)] }

/-- The state after reset, but for a team whose one group issues now. -/
def revotingState : State := { State.reset with teams := [(0, revotingTeam)], cur := some (0, 0) }

def revotingSite : Site := ⟨0, 0, revotingTeam, revotingGroup, 0⟩

theorem runs_revoting : Runs revotingState revotingSite (.vvote true 0 0) :=
  ⟨by decide, by decide, by decide, .inl rfl⟩

/-- Refutes O8: in a replay (R256) VVOTE computes the lanes of the replay mask alone, and a lane of the active mask that is done
keeps its bit of K[d], where the statement asks for 0. Lane 1 of `revotingState` is such a lane. -/
theorem not_vectorToGroup : ¬ Obligations.VectorToGroup := by
  unfold Obligations.VectorToGroup
  intro h
  obtain ⟨-, hvote, -, -⟩ := h revotingState revotingSite true .eq .add 0 0 0 0
  obtain ⟨v, hv, hbits⟩ := hvote runs_revoting
  obtain rfl := writesK_unique hv (writesK_vvote runs_revoting)
  have hout : ¬ inMask revotingSite 1 := by unfold inMask; decide
  have hkept : laneOf (revotingSite.gr.getK (0 : KNo).toNat) 1 = true ∧ laneOf (wholeMask revotingSite) 1 = true := by decide
  have hset := (getLsbD_kResult revotingSite 0 (revotingSite.lanes.filter (fun l => revotingSite.gr.getV (0 : RegNo).toNat l != 0))
    (l := 1) (by decide)).2 ⟨by decide, .inr ⟨hkept.1, hkept.2, hout⟩⟩
  obtain ⟨-, hin, -⟩ := (hbits 1 (by decide)).1 hset
  exact hout hin

end Sys2Proof.Proofs
